-- ==== Sys2Proof/Word.lean ====
section
/-! DEFINITION. The two bit-vector types of the register block and of host memory (10_state.md R20, 20_memory.md R72). -/

namespace Sys2Proof

/-- One byte of host memory or of a stream. -/
abbrev Byte := BitVec 8

/-- One 32-bit word of the register block (`REG_W` = 32, 00_scope.md R8). -/
abbrev Word := BitVec 32

end Sys2Proof
end

