-- ==== Sys2Proof/Syntax.lean ====
section
/-! DEFINITION. The commands of the engine, one constructor per row of spec/opcode_table.json (30_encoding.md R93).

The operands of a constructor are the SEL and IMM sub-fields that R93 gives the opcode. The other operands of a command are
the argument registers ARG0..ARG7 (R91), which are state and no part of the command word. -/

namespace Sys2Proof

/-- A command (30_encoding.md R93). A count, an index or a selector is a `Nat`; a one-bit option is a `Bool`.
`WellFormed` bounds each number by the width of its field. -/
inductive Instr where
  | nop
  | bsOpenMem
  | bsOpenStream
  | bsRead
  | bsPeek
  | bsSkip
  | bsEof
  | brInit
  | brGet (n : Nat)
  | brAlign
  | htBuild (slot : Nat)
  | htDecode (slot : Nat)
  | htFixed
  | infOpen (realloc : Bool)
  | infZhdr
  | infBlock
  | infCopy
  | infStream (zlib realloc : Bool)
  | pngDecode (req : Nat)
  | sfRecon (imgN depth : Nat) (indexed interlaced : Bool)
  | sfFilterRow (filter fb : Nat) (first : Bool)
  | fcConvert (src req : Nat)
  | fcPalette (out : Nat)
  | fcTrnsKey (ch : Nat)
  | fcCgbi (ch : Nat) (unpremul : Bool)
  | fcFlip
  | defCompress (quality : Nat)
  | lzHash
  | lzMatchlen
  | hufEncSym (alphabet : Bool) (sym : Nat)
  | pngEncode (n : Nat)
  | adler32
  | crc32
  deriving DecidableEq, Repr

end Sys2Proof
end

