-- ==== Sys2Proof/WellFormed.lean ====
section
/-! DEFINITION. Which command terms have an encoding: every operand fits the field that 30_encoding.md R93 gives it. -/

namespace Sys2Proof

/-- Every operand of the command fits its SEL or IMM sub-field (30_encoding.md R90, R93). A value that fits its field and is
out of range for the command (slot 3, requested channels 7) is well formed: it is legal to write, and the command raises
`E(0x0602, ·)` on it. -/
def WellFormed : Instr → Bool
  | .brGet n => decide (n < 32)
  | .htBuild slot => decide (slot < 4)
  | .htDecode slot => decide (slot < 4)
  | .pngDecode req => decide (req < 8)
  | .sfRecon imgN depth _ _ => decide (imgN < 8) && decide (depth < 16)
  | .sfFilterRow filter fb _ => decide (filter < 8) && decide (fb < 16)
  | .fcConvert src req => decide (src < 8) && decide (req < 8)
  | .fcPalette out => decide (out < 8)
  | .fcTrnsKey ch => decide (ch < 8)
  | .fcCgbi ch _ => decide (ch < 8)
  | .defCompress quality => decide (quality < 65536)
  | .hufEncSym _ sym => decide (sym < 512)
  | .pngEncode n => decide (n < 8)
  | .nop | .bsOpenMem | .bsOpenStream | .bsRead | .bsPeek | .bsSkip | .bsEof | .brInit | .brAlign | .htFixed
  | .infOpen _ | .infZhdr | .infBlock | .infCopy | .infStream _ _ | .fcFlip | .lzHash | .lzMatchlen | .adler32
  | .crc32 => true

end Sys2Proof
end

