-- ==== Sys2Proof/Decode.lean ====
section
/-! DEFINITION. The command word: decoder and encoder (30_encoding.md R90 to R93). -/

namespace Sys2Proof

/-- Why a command word is illegal (30_encoding.md R92). Each of them makes the command fail with `E(0x0601, cmd)`. -/
inductive Illegal where
  /-- Bits [15:12] are not 0. -/
  | reservedBits
  /-- The OPC is not in the table of R93. -/
  | unknownOpcode
  /-- A SEL bit that the opcode does not use is 1. -/
  | unusedSel
  /-- An IMM bit that the opcode does not use is 1. -/
  | unusedImm
  deriving DecidableEq, Repr

/-- Bits `hi` down to `lo` of `v` as a number (00_scope.md R10, `v[hi:lo]`). -/
def bits (v hi lo : Nat) : Nat := v / 2 ^ lo % 2 ^ (hi - lo + 1)

/-- Bit `i` of `v` (00_scope.md R10, `v[i]`). -/
def bit (v i : Nat) : Bool := v / 2 ^ i % 2 == 1

/-- `i` if SEL and IMM have no bit outside the two masks of used bits, else the word is illegal (30_encoding.md R92). -/
def usingBits (selMask immMask sel imm : Nat) (i : Instr) : Except Illegal Instr :=
  if sel &&& selMask ≠ sel then .error .unusedSel
  else if imm &&& immMask ≠ imm then .error .unusedImm
  else .ok i

/-- The row of the opcode map (30_encoding.md R93) for the opcode `opc`, with the SEL and IMM bits it uses. -/
def decodeFields (opc sel imm : Nat) : Except Illegal Instr :=
  match opc with
  | 0x00 => usingBits 0 0 sel imm .nop
  | 0x10 => usingBits 0 0 sel imm .bsOpenMem
  | 0x11 => usingBits 0 0 sel imm .bsOpenStream
  | 0x12 => usingBits 0 0 sel imm .bsRead
  | 0x13 => usingBits 0 0 sel imm .bsPeek
  | 0x14 => usingBits 0 0 sel imm .bsSkip
  | 0x15 => usingBits 0 0 sel imm .bsEof
  | 0x18 => usingBits 0 0 sel imm .brInit
  | 0x19 => usingBits 0 0x1F sel imm (.brGet (bits imm 4 0))
  | 0x1A => usingBits 0 0 sel imm .brAlign
  | 0x20 => usingBits 3 0 sel imm (.htBuild (bits sel 1 0))
  | 0x21 => usingBits 3 0 sel imm (.htDecode (bits sel 1 0))
  | 0x22 => usingBits 0 0 sel imm .htFixed
  | 0x30 => usingBits 1 0 sel imm (.infOpen (bit sel 0))
  | 0x31 => usingBits 0 0 sel imm .infZhdr
  | 0x32 => usingBits 0 0 sel imm .infBlock
  | 0x33 => usingBits 0 0 sel imm .infCopy
  | 0x34 => usingBits 3 0 sel imm (.infStream (bit sel 0) (bit sel 1))
  | 0x40 => usingBits 7 0 sel imm (.pngDecode (bits sel 2 0))
  | 0x50 => usingBits 7 0x30F sel imm (.sfRecon (bits sel 2 0) (bits imm 3 0) (bit imm 8) (bit imm 9))
  | 0x51 => usingBits 7 0x10F sel imm (.sfFilterRow (bits sel 2 0) (bits imm 3 0) (bit imm 8))
  | 0x58 => usingBits 7 7 sel imm (.fcConvert (bits sel 2 0) (bits imm 2 0))
  | 0x59 => usingBits 7 0 sel imm (.fcPalette (bits sel 2 0))
  | 0x5A => usingBits 7 0 sel imm (.fcTrnsKey (bits sel 2 0))
  | 0x5B => usingBits 7 1 sel imm (.fcCgbi (bits sel 2 0) (bit imm 0))
  | 0x5C => usingBits 0 0 sel imm .fcFlip
  | 0x60 => usingBits 0 0xFFFF sel imm (.defCompress (bits imm 15 0))
  | 0x61 => usingBits 0 0 sel imm .lzHash
  | 0x62 => usingBits 0 0 sel imm .lzMatchlen
  | 0x63 => usingBits 1 0x1FF sel imm (.hufEncSym (bit sel 0) (bits imm 8 0))
  | 0x64 => usingBits 7 0 sel imm (.pngEncode (bits sel 2 0))
  | 0x70 => usingBits 0 0 sel imm .adler32
  | 0x71 => usingBits 0 0 sel imm .crc32
  | _ => .error .unknownOpcode

/-- The command a word stands for, or why the word is illegal (30_encoding.md R90, R92). Total on every word. -/
def decode (w : Word) : Except Illegal Instr :=
  if bits w.toNat 15 12 ≠ 0 then .error .reservedBits
  else decodeFields (bits w.toNat 7 0) (bits w.toNat 11 8) (bits w.toNat 31 16)

/-- The command word with the given OPC, SEL and IMM, and RSV = 0 (30_encoding.md R90). -/
def cmdWord (opc sel imm : Nat) : Word := BitVec.ofNat 32 (opc + sel * 256 + imm * 65536)

/-- The word of a command (30_encoding.md R90, R93). -/
def encode : Instr → Word
  | .nop => cmdWord 0x00 0 0
  | .bsOpenMem => cmdWord 0x10 0 0
  | .bsOpenStream => cmdWord 0x11 0 0
  | .bsRead => cmdWord 0x12 0 0
  | .bsPeek => cmdWord 0x13 0 0
  | .bsSkip => cmdWord 0x14 0 0
  | .bsEof => cmdWord 0x15 0 0
  | .brInit => cmdWord 0x18 0 0
  | .brGet n => cmdWord 0x19 0 n
  | .brAlign => cmdWord 0x1A 0 0
  | .htBuild slot => cmdWord 0x20 slot 0
  | .htDecode slot => cmdWord 0x21 slot 0
  | .htFixed => cmdWord 0x22 0 0
  | .infOpen realloc => cmdWord 0x30 realloc.toNat 0
  | .infZhdr => cmdWord 0x31 0 0
  | .infBlock => cmdWord 0x32 0 0
  | .infCopy => cmdWord 0x33 0 0
  | .infStream zlib realloc => cmdWord 0x34 (zlib.toNat + 2 * realloc.toNat) 0
  | .pngDecode req => cmdWord 0x40 req 0
  | .sfRecon imgN depth indexed interlaced => cmdWord 0x50 imgN (depth + 256 * indexed.toNat + 512 * interlaced.toNat)
  | .sfFilterRow filter fb first => cmdWord 0x51 filter (fb + 256 * first.toNat)
  | .fcConvert src req => cmdWord 0x58 src req
  | .fcPalette out => cmdWord 0x59 out 0
  | .fcTrnsKey ch => cmdWord 0x5A ch 0
  | .fcCgbi ch unpremul => cmdWord 0x5B ch unpremul.toNat
  | .fcFlip => cmdWord 0x5C 0 0
  | .defCompress quality => cmdWord 0x60 0 quality
  | .lzHash => cmdWord 0x61 0 0
  | .lzMatchlen => cmdWord 0x62 0 0
  | .hufEncSym alphabet sym => cmdWord 0x63 alphabet.toNat sym
  | .pngEncode n => cmdWord 0x64 n 0
  | .adler32 => cmdWord 0x70 0 0
  | .crc32 => cmdWord 0x71 0 0

/-- The command word that an opcode-table row of `nbits` bits with the value `w` stands for: a command is one 32-bit word
(30_encoding.md R90), and every bit at and above `nbits` is 0. -/
def tableWord (nbits w : Nat) : Word := BitVec.ofNat 32 (w % 2 ^ nbits)

/-- The command the decoder reads from a word numbered as spec/opcode_table.json numbers it; `none` where it refuses. -/
def decodeTableWord (nbits w : Nat) : Option Instr := (decode (tableWord nbits w)).toOption

end Sys2Proof
end

