-- ==== Sys2Proof/Config.lean ====
section
/-! DEFINITION. The parameters of this hardware (00_scope.md R7, R8) and the free values: constants without a body that stand
for what the spec leaves open. -/

namespace Sys2Proof.Config

/-- The identity register's constant (10_state.md R21). -/
def idValue : Word := 0x5A430007#32

/-- Host memory has 2^32 bytes (20_memory.md R70, `ADDR_W` = 32). -/
def addrSpace : Nat := 0x100000000

/-- `SIZE_CEILING`, the largest buffer (00_scope.md R7, 20_memory.md R80). -/
def sizeCeiling : Nat := 0x7fffffff

/-- `SRC_BUF_SIZE`, the size of the stream refill buffer (00_scope.md R8). -/
def srcBufSize : Nat := 128

/-- `HUFF_MAX_SYMS`, the symbols per Huffman slot (00_scope.md R8). -/
def huffMaxSyms : Nat := 288

/-- `MAX_DIM`, the largest PNG width or height (00_scope.md R8). -/
def maxDim : Nat := 16777216

/-- `IDAT_MIN_CAP`, the first capacity of the IDAT accumulator (00_scope.md R8). -/
def idatMinCap : Nat := 4096

/-- `MAX_MATCH`, the longest LZ77 match (00_scope.md R7). -/
def maxMatch : Nat := 258

/-- `WINDOW`, the DEFLATE window (00_scope.md R7). -/
def window : Nat := 32768

/-- `STORED_MAX`, the encoder's largest stored block (00_scope.md R7). -/
def storedMax : Nat := 32767

/-- `ZHASH`, the encoder's hash buckets (00_scope.md R8). -/
def zhash : Nat := 16384

/-- `QUALITY_MIN`, the floor of the effective quality (00_scope.md R8). -/
def qualityMin : Nat := 5

/-- FREE VALUE. `free n k` is component `k` of the `n`-th draw. It has no body, so nothing is known of any of its values.
The draw number is the counter `Eng.free`, which every draw advances. Notes/assumptions 8 lists where it stands. -/
opaque free : Nat → Nat → Word

/-- FREE VALUE. `freeRead n k` is byte `k` of the host's `n`-th memory read, where the running command has written it
(notes/assumptions 26). -/
opaque freeRead : Nat → Nat → Byte

end Sys2Proof.Config
end

