-- ==== Sys2Proof/Machine/State.lean ====
section
/-! DEFINITION. The state of the machine: the register block, the units' internal state, host memory, the running command
and what the host is about to do (10_state.md, 20_memory.md, 70_reset_and_hazards.md R451). -/

namespace Sys2Proof.Machine

/-- Why a step can stop the machine. The spec has no stopping fault: an error of a command is a next state (60_exceptions.md
R413). Both constructors mark a bound that the spec says is never passed; a safety claim is that no step raises them. -/
inductive Fault where
  /-- Raised by a loop of the inflate engine or of the chunk parser whose bound ran out. 70_reset_and_hazards.md R457 says
  every loop ends. Safe: the machine stops where the hardware would go on. -/
  | loopBound
  /-- Raised by an engine access outside the 2^32 bytes of host memory. 20_memory.md R72 says none is made. Safe: the machine
  stops where the spec gives no access. -/
  | outsideMemory
  deriving DecidableEq, Repr

/-- Why a step has no meaning. -/
inductive Refusal where
  /-- Raised by the arm of `exec` of an instruction that has no meaning yet. Safe. -/
  | notModelled (mnemonic : String)
  /-- Raised by a host register access that is not 32 bits wide or not at a multiple of 4 (20_memory.md R71). Safe: the spec
  gives it no effect and tells a model to refuse it. -/
  | registerAccess
  /-- Raised by a host write to an input or output region of the running command, or to a buffer in LIVE (20_memory.md R79
  item 1, 93_implementation_defined.md U24). Safe: such a host has no move in the model. -/
  | hostWroteRegion
  /-- Raised by an allocator answer that breaks 20_memory.md R77: the buffer leaves host memory or overlaps a buffer in LIVE
  or an input region (93_implementation_defined.md U26). Safe: such a host has no move in the model. -/
  | allocatorAnswer
  /-- Raised by a host access outside the 2^32 bytes of host memory (20_memory.md R70). Safe: the address does not exist. -/
  | hostAddress
  deriving DecidableEq, Repr

/-- Host memory (20_memory.md R70): the bytes that differ from `Memory.initByte`, by rising address. -/
abbrev Memory := List Host.Cell

/-- What an unlisted address reads as. DESIGN CHOICE, unsafe: the spec gives host memory no contents at power-on
(notes/assumptions 1). -/
def Memory.initByte : Byte := 0#8

/-- The canonical form: addresses strictly rising, and no entry equal to what an unlisted address reads as. -/
abbrev Memory.wf (m : Memory) : Prop :=
  m.Pairwise (fun x y => x.1 < y.1) ∧ ∀ c ∈ m, c.2 ≠ Memory.initByte

/-- The ByteSource's mode (10_state.md R41, where `closed` is NONE). -/
inductive BsMode where
  | closed
  | mem
  | stream
  deriving DecidableEq, Repr

/-- ByteSource state (10_state.md R41). `bufaddr` is also the register SRC_BUF (R32), stored once. -/
structure ByteSource where
  mode : BsMode
  base : Nat
  len : Nat
  pos : Nat
  q : List Byte
  eof : Bool
  bufaddr : Nat
  deriving DecidableEq, Repr

/-- What a BitReader refills from (10_state.md R42): the ByteSource, or the `left` bytes of host memory from `addr` on
(40_bitstream_reader.md R151). -/
inductive BitInput where
  | source
  | mem (addr left : Nat)
  deriving DecidableEq, Repr

/-- BitReader state (10_state.md R42). -/
structure BitReader where
  valid : Bool
  code : Word
  nbits : Nat
  input : BitInput
  deriving DecidableEq, Repr

/-- One Huffman slot (10_state.md R43). The arrays indexed by a code length l keep entry l at index l - 1. -/
structure Huff where
  valid : Bool
  fast : Vector (BitVec 16) 512
  firstcode : Vector (BitVec 16) 15
  firstsymbol : Vector (BitVec 16) 15
  maxcode : Vector (BitVec 17) 16
  size : Vector (BitVec 8) 288
  value : Vector (BitVec 16) 288
  deriving DecidableEq, Repr

/-- Inflate output state (10_state.md R44). `isOpen` is INF.open. -/
structure InflateOut where
  isOpen : Bool
  out : Nat
  len : Nat
  cap : Nat
  realloc : Bool
  deriving DecidableEq, Repr

/-- A palette entry (10_state.md R45). -/
structure Rgba where
  r : Byte
  g : Byte
  b : Byte
  a : Byte
  deriving DecidableEq, Repr

/-- PNG parser state (10_state.md R45). -/
structure Png where
  first : Bool
  w : Nat
  h : Nat
  depth : Nat
  ctype : Nat
  interlace : Nat
  imgN : Nat
  pal : Vector Rgba 256
  palLen : Nat
  palTrns : Bool
  key : Vector Byte 3
  hasKey : Bool
  idat : Option Nat
  idatLen : Nat
  idatCap : Nat
  idatSeen : Bool
  cgbi : Bool
  deriving DecidableEq, Repr

/-- A buffer obtained from the allocator: an entry of LIVE (10_state.md R48). -/
structure Buf where
  addr : Nat
  size : Nat
  deriving DecidableEq, Repr

/-- An input or output region of the running command (20_memory.md R79 item 1). -/
structure Region where
  addr : Nat
  len : Nat
  input : Bool
  deriving DecidableEq, Repr

/-- A range of host memory the running command has written; `toHost` if it lies in a region the host owns. -/
structure Written where
  addr : Nat
  len : Nat
  toHost : Bool
  deriving DecidableEq, Repr

/-- A move of the host while a command runs: it places bytes in memory, or writes SRC_RESP or ALLOC_RESP (10_state.md R33,
R35). -/
inductive PortMove where
  | place (addr : Nat) (bytes : List Byte)
  | srcResp (v : Word)
  | allocResp (v : Word)
  deriving DecidableEq, Repr

/-- What a command reads and writes: host memory, the units' state, the two port request register sets, and the
bookkeeping of the running command. -/
structure Eng where
  mem : Memory
  bs : ByteSource
  /-- STATUS.SRC_EOF (10_state.md R25). -/
  srcEof : Bool
  br : BitReader
  ht0 : Huff
  ht1 : Huff
  ht2 : Huff
  inf : InflateOut
  /-- The parser state, which exists only during a PNG_DECODE. -/
  png : Option Png
  live : List Buf
  /-- SRC_REQ.KIND (10_state.md R32). -/
  srcReq : BitVec 2
  srcReqLen : Word
  /-- ALLOC_REQ.KIND (10_state.md R34). -/
  allocReq : BitVec 2
  allocSize : Word
  allocPtr : Word
  /-- MODEL'S OWN. The host's moves that a command's run has not come to yet, oldest first; empty between two steps. -/
  moves : List PortMove
  /-- MODEL'S OWN. The regions the running command has declared. -/
  regions : List Region
  /-- MODEL'S OWN. What the host has written since the running command was accepted. -/
  placed : List Region
  /-- MODEL'S OWN. What the running command has written and the host has not written since, latest first. -/
  written : List Written
  /-- MODEL'S OWN. The running command's writes since the host's last answer, byte by byte, latest first. -/
  journal : List Host.Cell
  /-- MODEL'S OWN. The number of the next draw of a free value. -/
  free : Nat
  deriving DecidableEq, Repr

/-- The values a command takes at its acceptance (10_state.md R24, R30). -/
structure Snapshot where
  args : Vector Word 8
  ctrl : Word
  quality : Word
  deriving DecidableEq, Repr

/-- The running command: its snapshot, the engine at its acceptance, and the host's moves at the ports since then, oldest
first. These determine everything it has done, so they are also where it goes on from (notes/assumptions 4). -/
structure Running where
  snap : Snapshot
  base : Eng
  log : List PortMove
  deriving DecidableEq, Repr

/-- The width of a host register access (20_memory.md R71). -/
inductive AccessWidth where
  | w8
  | w16
  | w32
  deriving DecidableEq, Repr

/-- One access of the host: to the register block, to host memory, or to the reset input `rst` (00_scope.md R16,
70_reset_and_hazards.md R450). -/
inductive HostAct where
  | regRead (offset : BitVec 8) (width : AccessWidth)
  | regWrite (offset : BitVec 8) (width : AccessWidth) (v : Word)
  | memRead (addr : Word) (len : Nat)
  | memWrite (addr : Word) (bytes : List Byte)
  | setRst (level : Bool)
  deriving DecidableEq, Repr

/-- A host access; `burst` if the host's next access comes before the engine goes on. -/
structure HostStep where
  act : HostAct
  burst : Bool
  deriving DecidableEq, Repr

/-- The machine. STATUS is stored as its sources: BUSY is `run.isSome`, SRC_WAIT, ALLOC_WAIT and IRQ follow from other
fields (10_state.md R25), and SRC_EOF is in `eng`. -/
structure State where
  ctrl : Word
  quality : Word
  done : Bool
  err : Bool
  cmdOvr : Bool
  errcode : Word
  errinfo : Word
  cmd : Word
  args : Vector Word 8
  res : Vector Word 4
  eng : Eng
  run : Option Running
  /-- The hardware reset input (70_reset_and_hazards.md R450, R453). -/
  rst : Bool
  /-- MODEL'S OWN. The host's coming accesses, oldest first. -/
  host : List HostStep
  /-- MODEL'S OWN. The data of the host's last register read. -/
  rdata : Word
  /-- MODEL'S OWN. The bytes of the host's last memory read. -/
  mdata : List Byte
  /-- MODEL'S OWN. The number of the host's memory reads, which numbers their free values. -/
  reads : Nat
  deriving DecidableEq, Repr

/-- A ByteSource that is not open (70_reset_and_hazards.md R451). -/
def ByteSource.reset : ByteSource :=
  { mode := .closed, base := 0, len := 0, pos := 0, q := [], eof := false, bufaddr := 0 }

/-- The BitReader at reset (70_reset_and_hazards.md R451). -/
def BitReader.reset : BitReader := { valid := false, code := 0#32, nbits := 0, input := .source }

/-- A slot with empty tables. Its arrays are zero: the spec leaves their contents at reset unspecified and never reads them
(10_state.md R43). DESIGN CHOICE, unsafe (notes/assumptions 2). -/
def Huff.reset : Huff :=
  { valid := false, fast := Vector.replicate 512 0, firstcode := Vector.replicate 15 0,
    firstsymbol := Vector.replicate 15 0, maxcode := Vector.replicate 16 0, size := Vector.replicate 288 0,
    value := Vector.replicate 288 0 }

/-- The inflate output at reset (70_reset_and_hazards.md R451). -/
def InflateOut.reset : InflateOut := { isOpen := false, out := 0, len := 0, cap := 0, realloc := false }

/-- The engine's part of the state at reset (70_reset_and_hazards.md R451). -/
def Eng.reset : Eng :=
  { mem := [], bs := .reset, srcEof := false, br := .reset, ht0 := .reset, ht1 := .reset, ht2 := .reset, inf := .reset,
    png := none, live := [], srcReq := 0, srcReqLen := 0, allocReq := 0, allocSize := 0, allocPtr := 0, moves := [],
    regions := [], placed := [], written := [], journal := [], free := 0 }

/-- The machine right after reset (70_reset_and_hazards.md R451), with no host access pending. -/
def State.reset : State :=
  { ctrl := 0x00000700#32, quality := 8#32, done := false, err := false, cmdOvr := false, errcode := 0, errinfo := 0,
    cmd := 0, args := Vector.replicate 8 0, res := Vector.replicate 4 0, eng := .reset, run := none, rst := false,
    host := [], rdata := 0, mdata := [], reads := 0 }

end Sys2Proof.Machine
end

