-- ==== Sys2Proof/Machine/Ops.lean ====
section
/-! DEFINITION. The named operations over memory, the two ports and the running command: MemRead and MemWrite, Alloc, Realloc
and Free, SrcRead, SrcSkip and SrcEof, `raise` with the failure sequence, and `done` (00_scope.md R12). -/

namespace Sys2Proof.Machine

/-! ### Numbers and byte sequences (00_scope.md R10, R11) -/

/-- `bitrev(v, n)`: bit i of the result is bit n-1-i of v. -/
def bitrev (v : Nat) : Nat → Nat
  | 0 => 0
  | n + 1 => v % 2 * 2 ^ n + bitrev (v / 2) n

/-- Byte `i` of `s`, as a number. -/
def byteAt (s : List Byte) (i : Nat) : Nat := (s.getD i 0).toNat

/-- `be16(s, i)`. -/
def be16 (s : List Byte) (i : Nat) : Nat := byteAt s i * 256 + byteAt s (i + 1)

/-- `be32(s, i)`. -/
def be32 (s : List Byte) (i : Nat) : Nat := be16 s i * 65536 + be16 s (i + 2)

/-- `le16(s, i)`. -/
def le16 (s : List Byte) (i : Nat) : Nat := byteAt s i + byteAt s (i + 1) * 256

/-- The byte with value v mod 256. -/
def byte (v : Nat) : Byte := BitVec.ofNat 8 v

/-- `put_be32(v)`. -/
def putBe32 (v : Nat) : List Byte := [byte (v / 16777216), byte (v / 65536), byte (v / 256), byte v]

/-- Byte ranges `[a, a+n)` and `[b, b+m)` share a byte (20_memory.md R74 item 2). -/
def overlap (a n b m : Nat) : Bool := decide (0 < n ∧ 0 < m ∧ a < b + m ∧ b < a + n)

/-! ### Host memory (20_memory.md R72) -/

/-- The byte at `x`. -/
def Memory.get : Memory → Nat → Byte
  | [], _ => Memory.initByte
  | (a, b) :: m, x => if a = x then b else Memory.get m x

/-- Puts an entry in its place by address. -/
def Memory.insert : Memory → Nat → Byte → Memory
  | [], x, v => [(x, v)]
  | (a, b) :: m, x, v => if x < a then (x, v) :: (a, b) :: m else (a, b) :: Memory.insert m x v

/-- `m` with the byte `v` at `x`: in the canonical form, a byte equal to what an unlisted address reads as is not listed. -/
def Memory.set (m : Memory) (x : Nat) (v : Byte) : Memory :=
  let rest := m.filter (fun c => decide (c.1 ≠ x))
  if v = Memory.initByte then rest else Memory.insert rest x v

/-- The `n` bytes from `x` upward. -/
def Memory.read (m : Memory) (x : Nat) : Nat → List Byte
  | 0 => []
  | n + 1 => m.get x :: Memory.read m (x + 1) n

/-- The `n` bytes from `x` upward as a host sees them while a command runs that has written `ws`: a byte in `ws` is a free value,
byte `k` and on of read number `draw`. -/
def Memory.look (m : Memory) (ws : List Written) (draw : Nat) (x k : Nat) : Nat → List Byte
  | 0 => []
  | n + 1 =>
    (if ws.any fun w => decide (w.addr ≤ x ∧ x < w.addr + w.len) then Config.freeRead draw k else m.get x)
      :: Memory.look m ws draw (x + 1) (k + 1) n

/-- `m` with the bytes `bs` from `x` upward. -/
def Memory.write (m : Memory) (x : Nat) : List Byte → Memory
  | [] => m
  | b :: bs => Memory.write (m.set x b) (x + 1) bs

/-- `m` with free values from `x` upward: components `k`, `k+1`, ... of draw `draw`. -/
def Memory.scramble (m : Memory) (draw : Nat) (x k : Nat) : Nat → Memory
  | 0 => m
  | n + 1 => Memory.scramble (m.set x ((Config.free draw k).setWidth 8)) draw (x + 1) (k + 1) n

/-- `m` with free values in every range of `rs`. -/
def Memory.scrambleAll (m : Memory) (draw : Nat) : Nat → List Written → Memory
  | _, [] => m
  | k, r :: rs => Memory.scrambleAll (m.scramble draw r.addr k r.len) draw (k + r.len) rs

/-- `m` after some of the byte writes of `ws`, in their order. Which of them have been made is free: write number `i` has if
bit 0 of component `k + i` of draw `draw` is 1. -/
def Memory.partly (m : Memory) (draw : Nat) : Nat → List Host.Cell → Memory
  | _, [] => m
  | k, w :: ws => Memory.partly (if bit (Config.free draw k).toNat 0 then m.set w.1 w.2 else m) draw (k + 1) ws

/-! ### The engine's steps -/

/-- What ends a command's run. -/
inductive Stop where
  /-- `raise E(code, info)` (60_exceptions.md R413). -/
  | raise (code info : Nat)
  /-- A port request has no answer yet: the phase is WAIT_SRC or WAIT_ALLOC (10_state.md R40). -/
  | wait
  /-- A move of the host that the spec does not admit. -/
  | refuse (r : Refusal)
  /-- A bound the spec says is never passed. -/
  | fault (f : Fault)
  deriving DecidableEq, Repr

/-- An operation of the engine: it gives a result and the next engine state, or a reason to stop and the engine state at
that point. -/
abbrev EngM := EStateM Stop Eng

/-- The engine state. -/
def getE : EngM Eng := fun e => .ok e e

/-- Changes the engine state. -/
def modE (f : Eng → Eng) : EngM Unit := fun e => .ok () (f e)

/-- Stops for the reason `x`. -/
def stop {α : Type} (x : Stop) : EngM α := fun e => .error x e

/-- `raise E(code, info)` (60_exceptions.md R413). -/
def raise {α : Type} (code info : Nat) : EngM α := stop (.raise code info)

/-- Raises `E(code, info)` unless `ok`. -/
def ensure (ok : Bool) (code info : Nat) : EngM Unit := if ok then pure () else raise code info

/-! ### Regions of the running command (20_memory.md R74, R79) -/

/-- Two regions share a byte. -/
def Region.meets (r t : Region) : Bool := overlap r.addr r.len t.addr t.len

/-- Declares an input or output region of the running command. A host that has written one of its bytes since the
acceptance has no move in the model (20_memory.md R79 item 1). -/
def declare (r : Region) : EngM Unit := fun e =>
  if e.placed.any (fun t => t.meets r) then .error (.refuse .hostWroteRegion) e
  else .ok () { e with regions := r :: e.regions }

/-- `check_range(a, n)` (20_memory.md R74 item 1) for an input region. -/
def checkIn (a n : Nat) : EngM Unit := do
  ensure (decide (a + n ≤ Config.addrSpace)) 0x0604 a
  declare ⟨a, n, true⟩

/-- `check_range(a, n)` (20_memory.md R74 item 1) for an output region. -/
def checkOut (a n : Nat) : EngM Unit := do
  ensure (decide (a + n ≤ Config.addrSpace)) 0x0604 a
  declare ⟨a, n, false⟩

/-- `MemRead(a, n)` (20_memory.md R72). -/
def memRead (a n : Nat) : EngM (List Byte) := fun e =>
  if a + n ≤ Config.addrSpace then .ok (e.mem.read a n) e else .error (.fault .outsideMemory) e

/-- The byte at `a`, `MemRead(a, 1)`. -/
def memByte (a : Nat) : EngM Byte := fun e =>
  if a < Config.addrSpace then .ok (e.mem.get a) e else .error (.fault .outsideMemory) e

/-- Adds a written range to the list, joined to the latest one where it goes on from it. -/
def noteWrite (a n : Nat) (toHost : Bool) : List Written → List Written
  | [] => [⟨a, n, toHost⟩]
  | w :: ws =>
    if w.addr + w.len = a ∧ w.toHost = toHost then { w with len := w.len + n } :: ws else ⟨a, n, toHost⟩ :: w :: ws

/-- Adds the writes of the bytes `bs` from `a` upward to a journal. -/
def journalBytes : Nat → List Byte → List Host.Cell → List Host.Cell
  | _, [], j => j
  | a, b :: bs, j => journalBytes (a + 1) bs ((a, b) :: j)

/-- The pieces of a written range outside `[a, a+n)`. -/
def Written.outside (a n : Nat) (w : Written) : List Written :=
  if overlap w.addr w.len a n then
    [{ w with len := a - w.addr }, { w with addr := a + n, len := w.addr + w.len - (a + n) }].filter
      fun v => decide (0 < v.len)
  else [w]

/-- The part of a written range in `[p, p+n)`, where a copy of those bytes at `r` has it. -/
def Written.moved (p n r : Nat) (w : Written) : List Written :=
  let lo := max w.addr p
  let hi := min (w.addr + w.len) (p + n)
  if lo < hi then [{ w with addr := r + (lo - p), len := hi - lo }] else []

/-- `MemWrite(a, len(bs), bs)` (20_memory.md R72). `toHost` tells whether the range is the host's. -/
def memWrite (toHost : Bool) (a : Nat) (bs : List Byte) : EngM Unit := fun e =>
  if a + bs.length ≤ Config.addrSpace then
    .ok () { e with
      mem := e.mem.write a bs
      written := noteWrite a bs.length toHost e.written
      journal := journalBytes a bs e.journal }
  else .error (.fault .outsideMemory) e

/-- One `MemWrite` for each piece, an address and its bytes, in order. -/
def writePieces (toHost : Bool) : List (Nat × List Byte) → EngM Unit
  | [] => pure ()
  | p :: ps => do
    memWrite toHost p.1 p.2
    writePieces toHost ps

/-! ### The host's moves at the ports (10_state.md R33, R35; 20_memory.md R79) -/

/-- The two ports. -/
inductive Port where
  | src
  | alloc
  deriving DecidableEq, Repr

/-- The host may write `[a, a+n)` now: the bytes of SRC_BUF while a read request is pending, or bytes of no region of the
command and of no buffer in LIVE (20_memory.md R79 item 1). -/
def Eng.inSrcBuf (e : Eng) (a n : Nat) : Bool :=
  decide (e.srcReq = 1 ∧ e.bs.bufaddr ≤ a ∧ a + n ≤ e.bs.bufaddr + Config.srcBufSize)

/-- `[a, a+n)` shares no byte with a region of the running command or with a buffer in LIVE (20_memory.md R79 item 1). -/
def Eng.clearOf (e : Eng) (a n : Nat) : Bool :=
  !(e.regions.any (fun r => overlap r.addr r.len a n)) && !(e.live.any (fun b => overlap b.addr b.size a n))

/-- The bytes `bs` of the host land at `a`; what the command had written there is gone. -/
def Eng.hostWrite (e : Eng) (a : Nat) (bs : List Byte) : Eng :=
  { e with mem := e.mem.write a bs, written := e.written.flatMap (Written.outside a bs.length) }

/-- The host writes `bs` at `a` while a command runs. DESIGN CHOICE: an access is judged as a whole, where 20_memory.md R79 item 1
speaks of bytes: one that covers bytes of SRC_BUF, allowed alone, and bytes of no region beside them is refused (notes/assumptions
29). -/
def hostPlace (a : Nat) (bs : List Byte) (e : Eng) : Except Refusal Eng :=
  if Config.addrSpace < a + bs.length then .error .hostAddress
  else if e.inSrcBuf a bs.length then .ok (e.hostWrite a bs)
  else if e.clearOf a bs.length then .ok { e.hostWrite a bs with placed := ⟨a, bs.length, false⟩ :: e.placed }
  else .error .hostWroteRegion

/-- An answer has come: every write the command has made so far is complete. -/
def Eng.answered (e : Eng) : Eng := { e with journal := [] }

/-- Takes the host's moves up to its answer at port `p`. An answer at the other port finds no request there and is ignored
(10_state.md R33, R35). With no answer the engine waits. -/
def takeAnswer (p : Port) : List PortMove → Eng → EStateM.Result Stop Eng Word
  | [], e => .error .wait { e with moves := [] }
  | .place a bs :: ms, e =>
    match hostPlace a bs e with
    | .ok e' => takeAnswer p ms e'
    | .error r => .error (.refuse r) e
  | .srcResp v :: ms, e =>
    match p with
    | .src => .ok v { e.answered with srcReq := 0, moves := ms }
    | .alloc => takeAnswer p ms e
  | .allocResp v :: ms, e =>
    match p with
    | .src => takeAnswer p ms e
    | .alloc => .ok v { e.answered with allocReq := 0, moves := ms }

/-- The host's answer to the request pending at port `p`. -/
def answer (p : Port) : EngM Word := fun e => takeAnswer p e.moves e

/-- The host's memory writes after its last answer take place. No answer is left: the host answers only a pending request. -/
def settle : List PortMove → Eng → EStateM.Result Stop Eng Unit
  | [], e => .ok () { e with moves := [] }
  | .place a bs :: ms, e =>
    match hostPlace a bs e with
    | .ok e' => settle ms e'
    | .error r => .error (.refuse r) e
  | _ :: ms, e => settle ms e

/-- `settle` on the moves at hand. -/
def settleMoves : EngM Unit := fun e => settle e.moves e

/-! ### The stream-source port (40_bitstream_reader.md R133) -/

/-- `SrcRead(n)`: the count of bytes the host placed at SRC_BUF, at most `n`. -/
def srcRead (n : Nat) : EngM Nat := do
  modE fun e => { e with srcReq := 1, srcReqLen := BitVec.ofNat 32 n }
  let r ← answer .src
  pure (min r.toNat n)

/-- `SrcSkip(n)`. -/
def srcSkip (n : Nat) : EngM Unit := do
  modE fun e => { e with srcReq := 2, srcReqLen := BitVec.ofNat 32 n }
  let _ ← answer .src
  pure ()

/-- `SrcEof()`. -/
def srcEofQuery : EngM Bool := do
  modE fun e => { e with srcReq := 3, srcReqLen := 0 }
  let r ← answer .src
  pure (bit r.toNat 0)

/-! ### The allocator port (20_memory.md R76, R77) -/

/-- The host keeps its duty (20_memory.md R77): the buffer `[r, r+n)` lies in host memory, and overlaps no buffer of `live`
and no input region of the running command. -/
def Eng.allocOk (e : Eng) (live : List Buf) (r n : Nat) : Bool :=
  decide (r + n ≤ Config.addrSpace) && !(live.any (fun b => overlap b.addr b.size r n))
    && !(e.regions.any (fun t => t.input && overlap t.addr t.len r n))

/-- `Alloc(n)`: the address of a new buffer of `n` bytes, which joins LIVE. DESIGN CHOICE: the info word of `E(0x0402, ·)` for a
size that no rule guards before is the size, as 20_memory.md R76 says, and not the 0 of R80 (notes/assumptions 24). -/
def portAlloc (n : Nat) : EngM Nat := do
  ensure (decide (n ≤ Config.sizeCeiling)) 0x0402 n
  modE fun e => { e with allocReq := 1, allocSize := BitVec.ofNat 32 n, allocPtr := 0 }
  let r ← answer .alloc
  ensure (decide (r.toNat ≠ 0)) 0x0401 n
  let e ← getE
  if e.allocOk e.live r.toNat n then do
    modE fun e => { e with live := e.live ++ [⟨r.toNat, n⟩] }
    pure r.toNat
  else stop (.refuse .allocatorAnswer)

/-- Puts `r` in the place of the buffer at `p`. -/
def replaceBuf (p : Nat) (r : Buf) (live : List Buf) : List Buf := live.map fun b => if b.addr = p then r else b

/-- `LIVE` without the buffer at `p`: it is freed or passes to the host (20_memory.md R78). -/
def dropBuf (p : Nat) (live : List Buf) : List Buf := live.filter fun b => decide (b.addr ≠ p)

/-- The buffer of `old` bytes at `p` is now `r`, which begins with its bytes: the host has copied them, and what the command
wrote among them counts as written there, too (DESIGN CHOICE, notes/assumptions 22). A buffer of the host that moves is an
output region where it now lies, and no longer where it was. -/
def Eng.moveBuffer (e : Eng) (p old : Nat) (r : Buf) : Eng :=
  let kept := min old r.size
  { e with
    mem := e.mem.write r.addr (e.mem.read p kept)
    written := e.written.flatMap (Written.moved p kept r.addr) ++ e.written
    live := replaceBuf p r e.live
    regions := e.regions.map fun t => if t = ⟨p, old, false⟩ then ⟨r.addr, r.size, false⟩ else t }

/-- `Realloc(p, n)` of a buffer of `old` bytes. The host's duty that the new buffer begins with the bytes of the old one is
part of its answer (20_memory.md R77, notes/assumptions 6). -/
def portRealloc (p old n : Nat) : EngM Nat := do
  ensure (decide (n ≤ Config.sizeCeiling)) 0x0402 n
  modE fun e => { e with allocReq := 2, allocSize := BitVec.ofNat 32 n, allocPtr := BitVec.ofNat 32 p }
  let r ← answer .alloc
  ensure (decide (r.toNat ≠ 0)) 0x0401 n
  let e ← getE
  if e.allocOk (dropBuf p e.live) r.toNat n then do
    modE fun e => e.moveBuffer p old ⟨r.toNat, n⟩
    pure r.toNat
  else stop (.refuse .allocatorAnswer)

/-- `Free(p)`. -/
def portFree (p : Nat) : EngM Unit := do
  modE fun e => { e with allocReq := 3, allocSize := 0, allocPtr := BitVec.ofNat 32 p }
  let _ ← answer .alloc
  modE fun e => { e with live := dropBuf p e.live }

/-- The buffers of `live` at `p`, as output regions. -/
def outputAt (p : Nat) (live : List Buf) : List Region :=
  (live.filter fun b => decide (b.addr = p)).map fun b => ⟨b.addr, b.size, false⟩

/-- The buffer at `p` passes to the host: it leaves LIVE without a Free (20_memory.md R78). It is an output region of the
command until BUSY is 0 (R79 item 1). -/
def handOver (p : Nat) : EngM Unit :=
  modE fun e => { e with live := dropBuf p e.live, regions := outputAt p e.live ++ e.regions }

/-- The size of the buffer at `p` that a pending Realloc names: of LIVE, or the inflate output of the host. -/
def Eng.sizeAt (e : Eng) (p : Nat) : Nat :=
  match e.live.find? fun b => decide (b.addr = p) with
  | some b => b.size
  | none => e.inf.cap

/-- The engine once the host has answered its pending allocator request with `v`, before it goes on: the answer changes LIVE
at once (20_memory.md R76). An answer that breaks R77 is refused when the engine goes on. -/
def Eng.allocAnswered (e : Eng) (v : Word) : Eng :=
  let p := e.allocPtr.toNat
  let r : Buf := ⟨v.toNat, e.allocSize.toNat⟩
  let f := { e with allocReq := 0 }
  if e.allocReq = 3 then { f with live := dropBuf p e.live }
  else if v = 0 then f
  else if e.allocReq = 1 then
    if e.allocOk e.live r.addr r.size then { f with live := e.live ++ [r] } else f
  else if e.allocOk (dropBuf p e.live) r.addr r.size then f.moveBuffer p (e.sizeAt p) r else f

/-- One Free request for each buffer, in order. -/
def freeAll : List Buf → EngM Unit
  | [] => pure ()
  | b :: bs => do
    portFree b.addr
    freeAll bs

/-- Frees every buffer in LIVE, oldest first (60_exceptions.md R414 step 1, R420 step 2). -/
def freeLive : EngM Unit := do
  let e ← getE
  freeAll e.live

/-! ### Capacity growth (42_lz77_decompressor.md R191, 43_png_chunk_parser.md R252) -/

/-- `while c < need: c <- min(2·c, 0x7fffffff)`, for `need ≤ 0x7fffffff`. Thirty-one doublings bring every c ≥ 1 to the
ceiling, where the loop has ended. -/
def growCap : Nat → Nat → Nat → Nat
  | 0, _, _ => Config.sizeCeiling
  | fuel + 1, c, need => if c < need then growCap fuel (min (2 * c) Config.sizeCeiling) need else c

/-! ### The running command -/

/-- What a command gives on success: the values of RES0..RES3 (60_exceptions.md R420). -/
structure Results where
  r0 : Nat
  r1 : Nat
  r2 : Nat
  r3 : Nat
  deriving DecidableEq, Repr

/-- How a command treats the unit state (10_state.md R49, 60_exceptions.md R414 step 3): a unit command (opcodes 0x10 to
0x33), a top-level command, or one that holds no unit state. -/
inductive CmdKind where
  | unit
  | top
  | other
  deriving DecidableEq, Repr

/-- The 32-bit register value of a number. DESIGN CHOICE: the spec gives no register value for a number of 2^32 or more, so it
is a free value (notes/assumptions 7). -/
def regWord (draw k v : Nat) : Word := if v < 2 ^ 32 then BitVec.ofNat 32 v else Config.free draw k

/-- A Huffman slot that is not valid, its arrays free (10_state.md R49; 93_implementation_defined.md U10). -/
def freeHuff (draw k : Nat) : Huff :=
  { valid := false
    fast := Vector.ofFn fun i => (Config.free draw (k + i.val)).setWidth 16
    firstcode := Vector.ofFn fun i => (Config.free draw (k + 512 + i.val)).setWidth 16
    firstsymbol := Vector.ofFn fun i => (Config.free draw (k + 527 + i.val)).setWidth 16
    maxcode := Vector.ofFn fun i => (Config.free draw (k + 542 + i.val)).setWidth 17
    size := Vector.ofFn fun i => (Config.free draw (k + 558 + i.val)).setWidth 8
    value := Vector.ofFn fun i => (Config.free draw (k + 846 + i.val)).setWidth 16 }

/-- A BitReader that is not valid, its contents free within the invariant of 10_state.md R42. -/
def freeBitReader (draw k : Nat) : BitReader :=
  let nbits := (Config.free draw k).toNat % 33
  { valid := false
    code := BitVec.ofNat 32 ((Config.free draw (k + 1)).toNat % 2 ^ nbits)
    nbits := nbits
    input := if bit (Config.free draw (k + 2)).toNat 0 then .source
             else .mem (Config.free draw (k + 3)).toNat (Config.free draw (k + 4)).toNat }

/-- An inflate output that is not open, its contents free. -/
def freeInflateOut (draw k : Nat) : InflateOut :=
  { isOpen := false
    out := (Config.free draw k).toNat
    len := (Config.free draw (k + 1)).toNat
    cap := (Config.free draw (k + 2)).toNat
    realloc := bit (Config.free draw (k + 3)).toNat 0 }

/-- BR.valid, every HT[t].valid and INF.open become false, and the contents behind them are free values (10_state.md R49,
60_exceptions.md R414 step 3, 93_implementation_defined.md U11). -/
def Eng.invalidateUnits (e : Eng) : Eng :=
  { e with
    br := freeBitReader e.free 0, inf := freeInflateOut e.free 10
    ht0 := freeHuff e.free 2000, ht1 := freeHuff e.free 4000, ht2 := freeHuff e.free 6000, free := e.free + 1 }

/-- The engine without the bookkeeping and the parser state of a running command. -/
def Eng.idle (e : Eng) : Eng :=
  { e with png := none, moves := [], regions := [], placed := [], written := [], journal := [], free := e.free + 1 }

/-- The bytes a failed command wrote to the host's regions get free values (60_exceptions.md R414, 93_implementation_defined.md
U12). DESIGN CHOICE: a reallocatable output of INF_OPEN is such a region, where it lies and where it lay (notes/assumptions
22). -/
def Eng.spoilHostRegions (e : Eng) : Eng :=
  { e with mem := e.mem.scrambleAll e.free 0 (e.written.filter (·.toHost)), free := e.free + 1 }

/-- The configuration and argument snapshot of a command accepted now (10_state.md R24, R30). -/
def State.snapshot (s : State) : Snapshot := { args := s.args, ctrl := s.ctrl, quality := s.quality }

/-- A command that is accepted now and has not run yet. -/
def State.starting (s : State) : Running :=
  { snap := s.snapshot, base := { s.eng with regions := [], placed := [], written := [], journal := [] }, log := [] }

/-- The running command; on an idle engine, the one that starts now. -/
def State.running (s : State) : Running := s.run.getD s.starting

/-- `done(r0, r1, r2, r3)` on the engine `e` (60_exceptions.md R420 steps 3 and 4). After a top-level command the unit state is
invalid (10_state.md R49). -/
def State.complete (s : State) (kind : CmdKind) (r : Results) (e : Eng) : State :=
  let e' := if kind = .top then e.invalidateUnits else e
  { s with
    res := #v[regWord e'.free 0 r.r0, regWord e'.free 1 r.r1, regWord e'.free 2 r.r2, regWord e'.free 3 r.r3]
    done := true, run := none, eng := e'.idle }

/-- A failure of the given class clears the unit state of a command of the given kind (60_exceptions.md R414 step 3). DEDUCED: a
top-level command leaves it invalid "successful or not" (10_state.md R49), after a class 6 error, too (notes/assumptions 9). -/
def failClearsUnits (kind : CmdKind) (code : Nat) : Bool :=
  match kind with
  | .other => false
  | .unit => decide (code / 256 ≠ 6)
  | .top => true

/-- The failure sequence after its Frees (60_exceptions.md R414 steps 2 to 5): RES cleared, unit state, ERRCODE and ERRINFO,
ERR set and BUSY cleared. -/
def State.fail (s : State) (kind : CmdKind) (code info : Nat) (e : Eng) : State :=
  let e' := if failClearsUnits kind code then e.spoilHostRegions.invalidateUnits else e.spoilHostRegions
  { s with
    res := Vector.replicate 4 0
    errcode := BitVec.ofNat 32 code, errinfo := regWord e'.free 0 info
    err := true, run := none, eng := e'.idle }

/-- The host's acknowledgement of an error or a completion: a write to STATUS clears the W1C bits that are 1 in `v`
(10_state.md R25). It is the return from an error (60_exceptions.md R426). -/
def State.clearStatus (s : State) (v : Word) : State :=
  { s with done := s.done && !bit v.toNat 1, err := s.err && !bit v.toNat 2, cmdOvr := s.cmdOvr && !bit v.toNat 5 }

/-- The engine stops at a port request: the command goes on when the host answers (10_state.md R40). -/
def State.suspend (s : State) (r : Running) (e : Eng) : State := { s with run := some r, eng := e }

/-- The outcome of a command that has stopped with `x`; an error has gone through the Frees of its failure sequence. -/
def State.halt (s : State) (r : Running) (kind : CmdKind) (x : Stop) (e : Eng) : Host.Outcome State Fault Refusal :=
  match x with
  | .raise code info => .next (s.fail kind code info e)
  | .wait => .next (s.suspend r e)
  | .refuse q => .refused q
  | .fault f => .fault f

/-- A command's run to success: its own steps, then the Frees of 60_exceptions.md R420 step 2. -/
def finishing (body : EngM Results) : EngM Results := do
  let r ← body
  freeLive
  settleMoves
  pure r

/-- The Frees of the failure sequence (60_exceptions.md R414 step 1). -/
def unwinding : EngM Unit := do
  freeLive
  settleMoves

/-- The run of a command with the steps `body` from its acceptance, with every move the host has made since then, up to its
completion, its failure or the first port request without an answer. A command that waits runs again from its acceptance when
the host answers: its run is a function of the engine at acceptance and of the host's moves, so it comes to the same request
and goes on from there (notes/assumptions 4). -/
def course (body : Snapshot → EngM Results) (r : Running) : EStateM.Result Stop Eng Results :=
  match finishing (body r.snap) { r.base with moves := r.log } with
  | .error (.raise code info) e =>
    match unwinding e with
    | .ok _ f => .error (.raise code info) f
    | .error x f => .error x f
  | x => x

/-- The engine where a run has ended. -/
def engineOf : EStateM.Result Stop Eng Results → Eng
  | .ok _ e => e
  | .error _ e => e

/-- The running command goes on as far as it can. -/
def runCommand (kind : CmdKind) (body : Snapshot → EngM Results) (s : State) : Host.Outcome State Fault Refusal :=
  match course body s.running with
  | .ok res e => .next (s.complete kind res e)
  | .error x e => s.halt s.running kind x e

end Sys2Proof.Machine
end

