-- ==== Sys2Proof/Machine/Operands.lean ====
section
/-! DEFINITION. The operands of a command: the argument registers and the configuration fields of its snapshot (10_state.md
R23, R24, R28, R30). -/

namespace Sys2Proof.Machine

/-- ARGk of the snapshot, as a number (10_state.md R30). -/
def Snapshot.arg (c : Snapshot) (k : Fin 8) : Nat := c.args[k].toNat

/-- CTRL.IRQ_EN of a CTRL value (10_state.md R23). -/
def ctrlIrqEn (v : Word) : Bool := bit v.toNat 0

/-- CTRL.SOFT_RESET of a written CTRL value (10_state.md R23). -/
def ctrlSoftReset (v : Word) : Bool := bit v.toNat 1

/-- cfg.VERIFY_CRC (10_state.md R23). -/
def Snapshot.verifyCrc (c : Snapshot) : Bool := bit c.ctrl.toNat 2

/-- cfg.VERIFY_ADLER (10_state.md R23). -/
def Snapshot.verifyAdler (c : Snapshot) : Bool := bit c.ctrl.toNat 3

/-- cfg.FLIP_LOAD (10_state.md R23). -/
def Snapshot.flipLoad (c : Snapshot) : Bool := bit c.ctrl.toNat 4

/-- cfg.FLIP_WRITE (10_state.md R23). -/
def Snapshot.flipWrite (c : Snapshot) : Bool := bit c.ctrl.toNat 5

/-- cfg.UNPREMUL (10_state.md R23). -/
def Snapshot.unpremul (c : Snapshot) : Bool := bit c.ctrl.toNat 6

/-- cfg.FORCE_FILTER (10_state.md R23). -/
def Snapshot.forceFilter (c : Snapshot) : Nat := bits c.ctrl.toNat 10 8

/-- The effective quality for the immediate `imm`, 0 where the command has none (46_deflate_encoder.md R341). -/
def Snapshot.effectiveQuality (c : Snapshot) (imm : Nat) : Nat :=
  max Config.qualityMin (if imm ≠ 0 then imm else bits c.quality.toNat 15 0)

/-- The bits of CTRL that hold a field; the others read 0 and ignore writes, and SOFT_RESET reads 0 (10_state.md R22, R23). -/
def ctrlMask : Word := 0x0000077D#32

/-- The bits of QUALITY that hold the compression level (10_state.md R28). -/
def qualityMask : Word := 0x0000FFFF#32

end Sys2Proof.Machine
end

