-- ==== Sys2Proof/Machine/Flags.lean ====
section
/-! DEFINITION. The phase, the STATUS word and the interrupt output, computed from what the state stores (10_state.md R25, R37,
R40; 60_exceptions.md R425). -/

namespace Sys2Proof.Machine

/-- The phases of the engine (10_state.md R40). -/
inductive Phase where
  | idle
  | run
  | waitSrc
  | waitAlloc
  deriving DecidableEq, Repr

/-- STATUS.BUSY (10_state.md R25). -/
def State.busy (s : State) : Bool := s.run.isSome

/-- STATUS.SRC_WAIT: SRC_REQ.KIND ≠ 0 (10_state.md R25). -/
def State.srcWait (s : State) : Bool := decide (s.eng.srcReq ≠ 0)

/-- STATUS.ALLOC_WAIT: ALLOC_REQ.KIND ≠ 0 (10_state.md R25). -/
def State.allocWait (s : State) : Bool := decide (s.eng.allocReq ≠ 0)

/-- STATUS.IRQ, and the level of the interrupt output: CTRL.IRQ_EN AND (DONE OR ERR) (10_state.md R25, 60_exceptions.md R425). -/
def State.irq (s : State) : Bool := ctrlIrqEn s.ctrl && (s.done || s.err)

/-- The phase (10_state.md R40). -/
def State.phase (s : State) : Phase :=
  if !s.busy then .idle else if s.srcWait then .waitSrc else if s.allocWait then .waitAlloc else .run

/-- The STATUS register as it reads (10_state.md R25). -/
def State.statusWord (s : State) : Word :=
  BitVec.ofNat 32 (s.busy.toNat + 2 * s.done.toNat + 4 * s.err.toNat + 8 * s.srcWait.toNat + 16 * s.allocWait.toNat
    + 32 * s.cmdOvr.toNat + 64 * s.irq.toNat + 128 * s.eng.srcEof.toNat)

end Sys2Proof.Machine
end

