-- ==== Sys2Proof/Machine/Control.lean ====
section
/-! DEFINITION. The NOP command (60_exceptions.md R430) and an illegal command word (30_encoding.md R92). -/

namespace Sys2Proof.Machine

/-- NOP: `done(0, 0, 0, 0)` (60_exceptions.md R430). -/
def nopBody (_ : Snapshot) : EngM Results := pure ⟨0, 0, 0, 0⟩

/-- NOP (60_exceptions.md R430). -/
def execNop (s : State) : Host.Outcome State Fault Refusal := runCommand .other nopBody s

/-- The steps of a command whose word is illegal: `E(0x0601, cmd)` (30_encoding.md R92). -/
def illegalBody (cmd : Word) (_ : Snapshot) : EngM Results := raise 0x0601 cmd.toNat

/-- A command whose word is illegal, with the unit state unchanged (30_encoding.md R92, 60_exceptions.md R414). -/
def execIllegal (s : State) : Host.Outcome State Fault Refusal := runCommand .other (illegalBody s.cmd) s

end Sys2Proof.Machine
end

