-- ==== Sys2Proof/Machine/Tables.lean ====
section
/-! DEFINITION. The constant tables of the wire formats (30_encoding.md R102 to R122). -/

namespace Sys2Proof.Machine

/-- LBASE (30_encoding.md R102), by length symbol minus 257. -/
def lbase : List Nat :=
  [3, 4, 5, 6, 7, 8, 9, 10, 11, 13, 15, 17, 19, 23, 27, 31] ++
  [35, 43, 51, 59, 67, 83, 99, 115, 131, 163, 195, 227, 258]

/-- LEXTRA (30_encoding.md R102), by length symbol minus 257. -/
def lextra : List Nat :=
  [0, 0, 0, 0, 0, 0, 0, 0, 1, 1, 1, 1, 2, 2, 2, 2] ++
  [3, 3, 3, 3, 4, 4, 4, 4, 5, 5, 5, 5, 0]

/-- DBASE (30_encoding.md R103), by distance symbol. -/
def dbase : List Nat :=
  [1, 2, 3, 4, 5, 7, 9, 13, 17, 25, 33, 49, 65, 97, 129] ++
  [193, 257, 385, 513, 769, 1025, 1537, 2049, 3073, 4097, 6145, 8193, 12289, 16385, 24577]

/-- DEXTRA (30_encoding.md R103), by distance symbol. -/
def dextra : List Nat :=
  [0, 0, 0, 0, 1, 1, 2, 2, 3, 3, 4, 4, 5, 5, 6] ++
  [6, 7, 7, 8, 8, 9, 9, 10, 10, 11, 11, 12, 12, 13, 13]

/-- CLORDER (30_encoding.md R104). -/
def clorder : List Nat := [16, 17, 18, 0, 8, 7, 9, 6, 10, 5, 11, 4, 12, 3, 13, 2, 14, 1, 15]

/-- FIXED_LIT_LEN (30_encoding.md R105). -/
def fixedLitLen : List Nat :=
  List.replicate 144 8 ++ List.replicate 112 9 ++ List.replicate 24 7 ++ List.replicate 8 8

/-- FIXED_DIST_LEN (30_encoding.md R105). -/
def fixedDistLen : List Nat := List.replicate 32 5

/-- PNG_SIG (30_encoding.md R110). -/
def pngSig : List Byte := [137, 80, 78, 71, 13, 10, 26, 10]

/-- The type word of IHDR (30_encoding.md R112). -/
def typeIHDR : Nat := 0x49484452

/-- The type word of PLTE (30_encoding.md R112). -/
def typePLTE : Nat := 0x504C5445

/-- The type word of tRNS (30_encoding.md R112). -/
def typeTRNS : Nat := 0x74524E53

/-- The type word of IDAT (30_encoding.md R112). -/
def typeIDAT : Nat := 0x49444154

/-- The type word of IEND (30_encoding.md R112). -/
def typeIEND : Nat := 0x49454E44

/-- The type word of CgBI (30_encoding.md R112). -/
def typeCgBI : Nat := 0x43674249

/-- img_n of a colour type (30_encoding.md R114); 0 for the invalid ones. -/
def colourChannels (ctype : Nat) : Nat :=
  match ctype with
  | 0 => 1
  | 2 => 3
  | 3 => 1
  | 4 => 2
  | 6 => 4
  | _ => 0

/-- One row of ADAM7 (30_encoding.md R118). -/
structure Adam7Pass where
  xorig : Nat
  yorig : Nat
  xspc : Nat
  yspc : Nat
  deriving DecidableEq, Repr

/-- ADAM7, passes 1 to 7 (30_encoding.md R118). -/
def adam7 : List Adam7Pass :=
  [⟨0, 0, 8, 8⟩, ⟨4, 0, 8, 8⟩, ⟨0, 4, 4, 8⟩, ⟨2, 0, 4, 4⟩, ⟨0, 2, 2, 4⟩, ⟨1, 0, 2, 2⟩, ⟨0, 1, 1, 2⟩]

/-- DEPTH_SCALE (30_encoding.md R119). -/
def depthScale (depth : Nat) : Nat :=
  match depth with
  | 1 => 255
  | 2 => 85
  | 4 => 17
  | _ => 1

/-- The colour type of an encoded image of `n` channels (30_encoding.md R122). -/
def encodedColourType (n : Nat) : Nat :=
  match n with
  | 1 => 0
  | 2 => 4
  | 3 => 2
  | _ => 6

end Sys2Proof.Machine
end

