-- ==== Sys2Proof/Machine/Scanline.lean ====
section
/-! DEFINITION. The scanline filter unit (44_scanline_filter_unit.md). -/

namespace Sys2Proof.Machine

/-! ### Predictors -/

/-- `paeth(a, b, c)` (44_scanline_filter_unit.md R285). -/
def paeth (a b c : Byte) : Byte :=
  let p : Int := a.toNat + b.toNat - c.toNat
  let pa := (p - a.toNat).natAbs
  let pb := (p - b.toNat).natAbs
  let pc := (p - c.toNat).natAbs
  if pa ≤ pb ∧ pa ≤ pc then a else if pb ≤ pc then b else c

/-- `pred_t(a, b, c)` (44_scanline_filter_unit.md R284). -/
def predictor (t : Nat) (a b c : Byte) : Byte :=
  match t with
  | 0 => 0
  | 1 => a
  | 2 => b
  | 3 => byte ((a.toNat + b.toNat) / 2)
  | _ => paeth a b c

/-- Undoes filter `t` on the bytes `xs` of a row (44_scanline_filter_unit.md R287). `ups` is the rest of the prior row, and
`left` and `upLeft` are the bytes before this one in this row, reconstructed, and in the prior row, nearest first: the byte
`fb` positions back is entry `fb - 1`, and there is none, so 0, near the row's start (R282). -/
def unfilterBytes (t fb : Nat) : List Byte → List Byte → List Byte → List Byte → List Byte
  | [], _, _, _ => []
  | x :: xs, ups, left, upLeft =>
    let b := ups.headD 0
    let y := x + predictor t (left.getD (fb - 1) 0) b (upLeft.getD (fb - 1) 0)
    y :: unfilterBytes t fb xs ups.tail (y :: left) (b :: upLeft)

/-- Row R[r] from its filtered bytes and R[r-1]; the prior row of the first row is empty, which reads as zeros
(44_scanline_filter_unit.md R282, R286). -/
def unfilterRow (t fb : Nat) (xs prior : List Byte) : List Byte := unfilterBytes t fb xs prior [] []

/-- Applies filter `t` to the bytes `xs` of a row; the other arguments are as in `unfilterBytes`
(44_scanline_filter_unit.md R291). -/
def filterBytes (t fb : Nat) : List Byte → List Byte → List Byte → List Byte → List Byte
  | [], _, _, _ => []
  | x :: xs, ups, left, upLeft =>
    let b := ups.headD 0
    (x - predictor t (left.getD (fb - 1) 0) b (upLeft.getD (fb - 1) 0)) :: filterBytes t fb xs ups.tail (x :: left) (b :: upLeft)

/-- `filter_row(t, row, prior, L, fb, first)`; `prior` is empty for the first row (44_scanline_filter_unit.md R291). -/
def filterRow (t fb : Nat) (row prior : List Byte) : List Byte := filterBytes t fb row prior [] []

/-- `abs(sbyte(b))` (44_scanline_filter_unit.md R292). -/
def magnitude (b : Byte) : Nat := b.toInt.natAbs

/-- `cost(f)` (44_scanline_filter_unit.md R292). -/
def filterCost (f : List Byte) : Nat := (f.map magnitude).sum

/-! ### Geometry -/

/-- What fixes the layout of a filtered image (44_scanline_filter_unit.md R280). -/
structure Layout where
  imgN : Nat
  depth : Nat
  indexed : Bool
  deriving DecidableEq, Repr

/-- `rowbytes(pw)` (44_scanline_filter_unit.md R281). -/
def Layout.rowbytes (l : Layout) (pw : Nat) : Nat := (pw * l.imgN * l.depth + 7) / 8

/-- `fb` (44_scanline_filter_unit.md R281). -/
def Layout.stride (l : Layout) : Nat := if l.depth = 8 then l.imgN else 1

/-- Width of pass `p` (44_scanline_filter_unit.md R289). -/
def Adam7Pass.width (p : Adam7Pass) (w : Nat) : Nat := (w + p.xspc - 1 - p.xorig) / p.xspc

/-- Height of pass `p` (44_scanline_filter_unit.md R289). -/
def Adam7Pass.height (p : Adam7Pass) (h : Nat) : Nat := (h + p.yspc - 1 - p.yorig) / p.yspc

/-- The filtered size of a pass or of a whole image (43_png_chunk_parser.md R257). -/
def Layout.filteredSize (l : Layout) (pw ph : Nat) : Nat := if 0 < pw ∧ 0 < ph then ph * (l.rowbytes pw + 1) else 0

/-- `raw_len` (43_png_chunk_parser.md R257). -/
def Layout.rawLen (l : Layout) (w h : Nat) (interlaced : Bool) : Nat :=
  if interlaced then (adam7.map fun p => l.filteredSize (p.width w) (p.height h)).sum else l.filteredSize w h

/-! ### Reconstruction -/

/-- `defilter`: `ph` rows of `rb` data bytes from `buf`, or the first tag above 4. `prior` is R[r-1]
(44_scanline_filter_unit.md R283, R287). -/
def defilter (fb rb : Nat) : Nat → List Byte → List Byte → Except Nat (List (List Byte))
  | 0, _, _ => .ok []
  | ph + 1, buf, prior =>
    let tag := byteAt buf 0
    if 4 < tag then .error tag
    else
      let row := unfilterRow tag fb ((buf.drop 1).take rb) prior
      match defilter fb rb ph (buf.drop (rb + 1)) row with
      | .error t => .error t
      | .ok rows => .ok (row :: rows)

/-- Sample `i` of a row of depth below 8 (44_scanline_filter_unit.md R288). -/
def sample (l : Layout) (row : List Byte) (i : Nat) : Byte :=
  let bitpos := i * l.depth
  let v := byteAt row (bitpos / 8) / 2 ^ (8 - l.depth - bitpos % 8) % 2 ^ l.depth
  byte (if l.indexed then v else v * depthScale l.depth)

/-- `unpack(row, pw, indexed)` (44_scanline_filter_unit.md R288). -/
def unpack (l : Layout) (row : List Byte) (pw : Nat) : List Byte :=
  if l.depth = 8 then row.take (pw * l.imgN) else (List.range (pw * l.imgN)).map (sample l row)

/-- Writes the rows of an image that is not interlaced, from `addr` upward (44_scanline_filter_unit.md R290). -/
def writeRows (l : Layout) (w : Nat) : Nat → List (List Byte) → EngM Unit
  | _, [] => pure ()
  | addr, row :: rows => do
    memWrite false addr (unpack l row w)
    writeRows l w (addr + w * l.imgN) rows

/-- Writes the pixels `px` of one row of pass `p` into raster row `y`, from the pass's pixel `i` on
(44_scanline_filter_unit.md R289, R290). -/
def scatterRow (l : Layout) (p : Adam7Pass) (out w y : Nat) : Nat → Nat → List Byte → EngM Unit
  | 0, _, _ => pure ()
  | n + 1, i, px => do
    memWrite false (out + (y * w + (p.xorig + i * p.xspc)) * l.imgN) (px.take l.imgN)
    scatterRow l p out w y n (i + 1) (px.drop l.imgN)

/-- Writes the rows of pass `p`, from the pass's row `j` on (44_scanline_filter_unit.md R290). -/
def scatterRows (l : Layout) (p : Adam7Pass) (out w : Nat) : Nat → List (List Byte) → EngM Unit
  | _, [] => pure ()
  | j, row :: rows => do
    scatterRow l p out w (p.yorig + j * p.yspc) (p.width w) 0 (unpack l row (p.width w))
    scatterRows l p out w (j + 1) rows

/-- The rows of a sub-image, or `E(0x0306, tag)` (44_scanline_filter_unit.md R287). -/
def defilterOrRaise (l : Layout) (pw ph : Nat) (buf : List Byte) : EngM (List (List Byte)) :=
  match defilter l.stride (l.rowbytes pw) ph buf [] with
  | .error tag => raise 0x0306 tag
  | .ok rows => pure rows

/-- The passes of an interlaced image (44_scanline_filter_unit.md R290). -/
def reconPasses (l : Layout) (out w h : Nat) : List Adam7Pass → List Byte → EngM Unit
  | [], _ => pure ()
  | p :: ps, buf =>
    if 0 < p.width w ∧ 0 < p.height h then do
      let rows ← defilterOrRaise l (p.width w) (p.height h) buf
      scatterRows l p out w 0 rows
      reconPasses l out w h ps (buf.drop (l.filteredSize (p.width w) (p.height h)))
    else reconPasses l out w h ps buf

/-- `recon(buf, len, w, h, img_n, depth, indexed, interlaced)`: the address of the raster, in LIVE
(44_scanline_filter_unit.md R290). DESIGN CHOICE: as in R290's pseudocode, no byte of an image that is not interlaced is written
before all its rows are reconstructed, so a bad tag leaves the raster as the host gave it (notes/assumptions 23). -/
def recon (l : Layout) (buf len w h : Nat) (interlaced : Bool) : EngM Nat := do
  let out ← portAlloc (w * h * l.imgN)
  let data ← memRead buf len
  if interlaced then reconPasses l out w h adam7 data
  else do
    let rows ← defilterOrRaise l w h data
    writeRows l w out rows
  pure out

/-! ### Commands -/

/-- A bit depth that the engine accepts (00_scope.md R7). -/
def depthOk (d : Nat) : Bool := d == 1 || d == 2 || d == 4 || d == 8

/-- A channel count (1 to 4). -/
def channelsOk (n : Nat) : Bool := decide (1 ≤ n ∧ n ≤ 4)

/-- SF_RECON (44_scanline_filter_unit.md R295). -/
def sfReconBody (imgN depth : Nat) (indexed interlaced : Bool) (c : Snapshot) : EngM Results := do
  let l : Layout := ⟨imgN, depth, indexed⟩
  let src := c.arg 0
  let len := c.arg 1
  let w := c.arg 2
  let h := c.arg 3
  ensure (channelsOk imgN) 0x0602 imgN
  ensure (depthOk depth) 0x0602 depth
  ensure (!indexed || imgN == 1) 0x0602 imgN
  ensure (decide (w ≠ 0 ∧ h ≠ 0)) 0x0602 0
  ensure (decide (w * h * imgN ≤ Config.sizeCeiling ∧ l.rawLen w h interlaced ≤ Config.sizeCeiling)) 0x0402 0
  checkIn src len
  ensure (decide (len = l.rawLen w h interlaced)) 0x0202 len
  let out ← recon l src len w h interlaced
  handOver out
  pure ⟨out, w * h * imgN, 0, 0⟩

/-- SF_RECON (44_scanline_filter_unit.md R295). -/
def execSfRecon (imgN depth : Nat) (indexed interlaced : Bool) (s : State) : Host.Outcome State Fault Refusal :=
  runCommand .other (sfReconBody imgN depth indexed interlaced) s

/-- SF_FILTER_ROW (44_scanline_filter_unit.md R296). -/
def sfFilterRowBody (t fb : Nat) (first : Bool) (c : Snapshot) : EngM Results := do
  let row := c.arg 0
  let prior := c.arg 1
  let n := c.arg 2
  let dest := c.arg 3
  ensure (decide (t ≤ 4)) 0x0602 t
  ensure (channelsOk fb) 0x0602 fb
  checkIn row n
  if first then pure () else checkIn prior n
  checkOut dest (n + 1)
  ensure (!overlap dest (n + 1) row n && (first || !overlap dest (n + 1) prior n)) 0x0604 dest
  let rowBytes ← memRead row n
  let priorBytes ← if first then pure [] else memRead prior n
  let f := filterRow t fb rowBytes priorBytes
  memWrite true dest (byte t :: f)
  pure ⟨filterCost f, 0, 0, 0⟩

/-- SF_FILTER_ROW (44_scanline_filter_unit.md R296). -/
def execSfFilterRow (t fb : Nat) (first : Bool) (s : State) : Host.Outcome State Fault Refusal :=
  runCommand .other (sfFilterRowBody t fb first) s

end Sys2Proof.Machine
end

