-- ==== Sys2Proof/Machine/FormatConverter.lean ====
section
/-! DEFINITION. The format converter (45_format_converter.md). -/

namespace Sys2Proof.Machine

/-! ### Pixels -/

/-- `luma(r, g, b)` (45_format_converter.md R311). -/
def luma (r g b : Byte) : Byte := byte ((77 * r.toNat + 150 * g.toNat + 29 * b.toNat) / 256)

/-- One pixel `p` of `s` channels converted to `r` channels (45_format_converter.md R312). -/
def convertPixel (s r : Nat) (p : List Byte) : List Byte :=
  let p0 := p.getD 0 0
  let p1 := p.getD 1 0
  let p2 := p.getD 2 0
  let p3 := p.getD 3 0
  match s, r with
  | 1, 2 => [p0, 255]
  | 1, 3 => [p0, p0, p0]
  | 1, 4 => [p0, p0, p0, 255]
  | 2, 1 => [p0]
  | 2, 3 => [p0, p0, p0]
  | 2, 4 => [p0, p0, p0, p1]
  | 3, 1 => [luma p0 p1 p2]
  | 3, 2 => [luma p0 p1 p2, 255]
  | 3, 4 => [p0, p1, p2, 255]
  | 4, 1 => [luma p0 p1 p2]
  | 4, 2 => [luma p0 p1 p2, p3]
  | 4, 3 => [p0, p1, p2]
  | _, _ => p

/-- The first `n` pixels of a buffer of `ch` channels (45_format_converter.md R310). -/
def pixels (ch : Nat) : Nat → List Byte → List (List Byte)
  | 0, _ => []
  | n + 1, bs => bs.take ch :: pixels ch n (bs.drop ch)

/-- The bytes of `n` converted pixels (45_format_converter.md R313). -/
def convertBytes (n s r : Nat) (bs : List Byte) : List Byte := (pixels s n bs).flatMap (convertPixel s r)

/-- A palette entry's first `out` bytes (45_format_converter.md R314). -/
def Rgba.bytes (e : Rgba) (out : Nat) : List Byte := [e.r, e.g, e.b, e.a].take out

/-- Opaque black (45_format_converter.md R314). -/
def opaqueBlack : Rgba := ⟨0, 0, 0, 255⟩

/-- Index `v` expanded to `out` bytes (45_format_converter.md R314). -/
def expandIndex (pal : Vector Rgba 256) (palLen out : Nat) (v : Byte) : List Byte :=
  (if v.toNat < palLen then pal.toList.getD v.toNat opaqueBlack else opaqueBlack).bytes out

/-- What the key writes of the pixel `p` at `a`: its last channel, the alpha slot (45_format_converter.md R315). -/
def keyPiece (key : List Byte) (a : Nat) (p : List Byte) : List (Nat × List Byte) :=
  [(a + p.length - 1, [if p.dropLast = key.take (p.length - 1) then 0 else 255])]

/-- A colour channel un-premultiplied by `alpha` > 0 (45_format_converter.md R320). -/
def unpremultiply (alpha chan : Byte) : Byte :=
  byte (min 255 ((chan.toNat * 255 + alpha.toNat / 2) / alpha.toNat))

/-- What the CgBI correction writes of the pixel `p` at `a` (45_format_converter.md R320). DESIGN CHOICE: the rule names the
channels it assigns and no MemWrite, so the model takes one write for each assignment, in their order: channels 0 and 2 for the
swap, then channels 0 to 2 if it un-premultiplies. The alpha, and a green that is not un-premultiplied, are not written
(notes/assumptions 27). -/
def cgbiPieces (unpremul : Bool) (a : Nat) (p : List Byte) : List (Nat × List Byte) :=
  match p with
  | [p0, p1, p2, alpha] =>
    [(a, [p2]), (a + 2, [p0])] ++
      if unpremul ∧ alpha ≠ 0 then
        [(a, [unpremultiply alpha p2]), (a + 1, [unpremultiply alpha p1]), (a + 2, [unpremultiply alpha p0])]
      else []
  | [p0, _, p2] => [(a, [p2]), (a + 2, [p0])]
  | _ => []

/-- The pieces `f` writes of each of a buffer's pixels of `ch` channels, the first at `a`. -/
def pixelPieces (ch : Nat) (f : Nat → List Byte → List (Nat × List Byte)) : Nat → List (List Byte) → List (Nat × List Byte)
  | _, [] => []
  | a, p :: ps => f a p ++ pixelPieces ch f (a + ch) ps

/-- The exchanges of `n` pairs of rows: the first row of `top` at `lo` with the first row of `bottom` at `hi`, and so on, down
in `top` and up in `bottom` (45_format_converter.md R322). -/
def flipPieces (rowlen : Nat) : Nat → Nat → Nat → List (List Byte) → List (List Byte) → List (Nat × List Byte)
  | 0, _, _, _, _ => []
  | n + 1, lo, hi, x :: xs, y :: ys => (lo, y) :: (hi, x) :: flipPieces rowlen n (lo + rowlen) (hi - rowlen) xs ys
  | _ + 1, _, _, _, _ => []

/-! ### Functions on buffers -/

/-- `convert(img, N, s, r)`: the address of the new buffer, in LIVE (45_format_converter.md R313). -/
def convert (img n s r : Nat) : EngM Nat := do
  let o ← portAlloc (n * r)
  let bs ← memRead img (n * s)
  memWrite false o (convertBytes n s r bs)
  pure o

/-- `palette_expand(idx, N, pal, pal_len, out)`: the address of the new buffer, in LIVE (45_format_converter.md R314). -/
def paletteExpand (idx n : Nat) (pal : Vector Rgba 256) (palLen out : Nat) : EngM Nat := do
  let o ← portAlloc (n * out)
  let bs ← memRead idx n
  memWrite false o (bs.flatMap (expandIndex pal palLen out))
  pure o

/-- `key_apply(buf, N, c, key)`, in place: only the alpha slots are written (45_format_converter.md R315). -/
def keyApply (toHost : Bool) (buf n c : Nat) (key : List Byte) : EngM Unit := do
  let bs ← memRead buf (n * c)
  writePieces toHost (pixelPieces c (keyPiece key) buf (pixels c n bs))

/-- `cgbi_fix(buf, N, ch, unpremul)`, in place (45_format_converter.md R320). -/
def cgbiFix (toHost : Bool) (buf n ch : Nat) (unpremul : Bool) : EngM Unit := do
  let bs ← memRead buf (n * ch)
  writePieces toHost (pixelPieces ch (cgbiPieces unpremul) buf (pixels ch n bs))

/-- `flip(buf, rowlen, rows)`, in place: row r and row rows-1-r are exchanged for every r below rows/2. An odd middle row is not
written (45_format_converter.md R322). -/
def flip (toHost : Bool) (buf rowlen rows : Nat) : EngM Unit := do
  let bs ← memRead buf (rowlen * rows)
  let rs := pixels rowlen rows bs
  writePieces toHost (flipPieces rowlen (rows / 2) buf (buf + (rows - 1) * rowlen) rs rs.reverse)

/-! ### Commands -/

/-- FC_CONVERT (45_format_converter.md R325). -/
def fcConvertBody (s r : Nat) (c : Snapshot) : EngM Results := do
  let src := c.arg 0
  let n := c.arg 1
  ensure (channelsOk s) 0x0602 s
  ensure (channelsOk r) 0x0602 r
  ensure (decide (n ≠ 0)) 0x0602 0
  ensure (decide (n * max s r ≤ Config.sizeCeiling)) 0x0402 0
  checkIn src (n * s)
  let o ← convert src n s r
  handOver o
  pure ⟨o, n * r, 0, 0⟩

/-- FC_CONVERT (45_format_converter.md R325). -/
def execFcConvert (src req : Nat) (s : State) : Host.Outcome State Fault Refusal := runCommand .other (fcConvertBody src req) s

/-- 1024 bytes as 256 RGBA entries (45_format_converter.md R326). -/
def paletteOf (bs : List Byte) : Vector Rgba 256 :=
  Vector.ofFn fun i => ⟨bs.getD (4 * i.val) 0, bs.getD (4 * i.val + 1) 0, bs.getD (4 * i.val + 2) 0, bs.getD (4 * i.val + 3) 0⟩

/-- FC_PALETTE (45_format_converter.md R326). -/
def fcPaletteBody (out : Nat) (c : Snapshot) : EngM Results := do
  let idx := c.arg 0
  let n := c.arg 1
  let pal := c.arg 2
  let palLen := c.arg 3
  ensure (out == 3 || out == 4) 0x0602 out
  ensure (decide (n ≠ 0)) 0x0602 0
  ensure (decide (palLen ≤ 256)) 0x0602 palLen
  ensure (decide (n * out ≤ Config.sizeCeiling)) 0x0402 0
  checkIn idx n
  checkIn pal 1024
  let table ← memRead pal 1024
  let o ← paletteExpand idx n (paletteOf table) palLen out
  handOver o
  pure ⟨o, n * out, 0, 0⟩

/-- FC_PALETTE (45_format_converter.md R326). -/
def execFcPalette (out : Nat) (s : State) : Host.Outcome State Fault Refusal := runCommand .other (fcPaletteBody out) s

/-- The key bytes of an ARG2 value, byte k at bits [8k+7:8k] (45_format_converter.md R327). -/
def keyBytes (v : Nat) : List Byte := [byte v, byte (v / 256), byte (v / 65536)]

/-- FC_TRNS_KEY (45_format_converter.md R327). -/
def fcTrnsKeyBody (ch : Nat) (c : Snapshot) : EngM Results := do
  let buf := c.arg 0
  let n := c.arg 1
  ensure (ch == 2 || ch == 4) 0x0602 ch
  checkOut buf (n * ch)
  keyApply true buf n ch (keyBytes (c.arg 2))
  pure ⟨0, 0, 0, 0⟩

/-- FC_TRNS_KEY (45_format_converter.md R327). -/
def execFcTrnsKey (ch : Nat) (s : State) : Host.Outcome State Fault Refusal := runCommand .other (fcTrnsKeyBody ch) s

/-- FC_CGBI (45_format_converter.md R328). -/
def fcCgbiBody (ch : Nat) (unpremul : Bool) (c : Snapshot) : EngM Results := do
  let buf := c.arg 0
  let n := c.arg 1
  ensure (ch == 3 || ch == 4) 0x0602 ch
  checkOut buf (n * ch)
  cgbiFix true buf n ch unpremul
  pure ⟨0, 0, 0, 0⟩

/-- FC_CGBI (45_format_converter.md R328). -/
def execFcCgbi (ch : Nat) (unpremul : Bool) (s : State) : Host.Outcome State Fault Refusal :=
  runCommand .other (fcCgbiBody ch unpremul) s

/-- FC_FLIP (45_format_converter.md R329). -/
def fcFlipBody (c : Snapshot) : EngM Results := do
  let buf := c.arg 0
  let rowlen := c.arg 1
  let rows := c.arg 2
  checkOut buf (rowlen * rows)
  flip true buf rowlen rows
  pure ⟨0, 0, 0, 0⟩

/-- FC_FLIP (45_format_converter.md R329). -/
def execFcFlip (s : State) : Host.Outcome State Fault Refusal := runCommand .other fcFlipBody s

end Sys2Proof.Machine
end

