-- ==== Sys2Proof/Machine/Checksum.lean ====
section
/-! DEFINITION. Adler-32 and CRC-32 (47_checksum_png_writer.md R380, R382, R396, R397). -/

namespace Sys2Proof.Machine

/-- One byte of Adler-32: the pair (s1, s2) after the byte `x` (47_checksum_png_writer.md R380). -/
def adlerStep (s : Nat × Nat) (x : Byte) : Nat × Nat :=
  let s1 := (s.1 + x.toNat) % 65521
  (s1, (s.2 + s1) % 65521)

/-- `adler32(a, D)` (47_checksum_png_writer.md R380). -/
def adler32 (a : Word) (d : List Byte) : Word :=
  let s := d.foldl adlerStep (bits a.toNat 15 0, bits a.toNat 31 16)
  BitVec.ofNat 32 (s.2 * 65536 + s.1)

/-- One bit of CRC-32 (47_checksum_png_writer.md R382). -/
def crcShift (r : Word) : Word := if bit r.toNat 0 then (r >>> 1) ^^^ 0xEDB88320#32 else r >>> 1

/-- One byte of CRC-32 (47_checksum_png_writer.md R382). -/
def crcStep (r : Word) (x : Byte) : Word :=
  let r := r ^^^ x.setWidth 32
  crcShift (crcShift (crcShift (crcShift (crcShift (crcShift (crcShift (crcShift r)))))))

/-- `crc32(c, D)` (47_checksum_png_writer.md R382). -/
def crc32 (c : Word) (d : List Byte) : Word := d.foldl crcStep (c ^^^ 0xFFFFFFFF#32) ^^^ 0xFFFFFFFF#32

/-- ADLER32 (47_checksum_png_writer.md R396). -/
def adler32Body (c : Snapshot) : EngM Results := do
  checkIn (c.arg 0) (c.arg 1)
  let d ← memRead (c.arg 0) (c.arg 1)
  pure ⟨(adler32 c.args[2] d).toNat, 0, 0, 0⟩

/-- ADLER32 (47_checksum_png_writer.md R396). -/
def execAdler32 (s : State) : Host.Outcome State Fault Refusal := runCommand .other adler32Body s

/-- CRC32 (47_checksum_png_writer.md R397). -/
def crc32Body (c : Snapshot) : EngM Results := do
  checkIn (c.arg 0) (c.arg 1)
  let d ← memRead (c.arg 0) (c.arg 1)
  pure ⟨(crc32 c.args[2] d).toNat, 0, 0, 0⟩

/-- CRC32 (47_checksum_png_writer.md R397). -/
def execCrc32 (s : State) : Host.Outcome State Fault Refusal := runCommand .other crc32Body s

end Sys2Proof.Machine
end

