-- ==== Sys2Proof/Machine/BitReader.lean ====
section
/-! DEFINITION. The ByteSource and the BitReader (40_bitstream_reader.md). -/

namespace Sys2Proof.Machine

/-! ### ByteSource -/

/-- Changes the ByteSource. -/
def modBs (f : ByteSource → ByteSource) : EngM Unit := modE fun e => { e with bs := f e.bs }

/-- End of input: STATUS.SRC_EOF is set and there is no byte (40_bitstream_reader.md R131). -/
def atEof : EngM (Option Byte) := do
  modE fun e => { e with srcEof := true }
  pure none

/-- `stream_refill()` (40_bitstream_reader.md R134). -/
def streamRefill : EngM Unit := do
  let k ← srcRead Config.srcBufSize
  if k = 0 then modBs fun b => { b with eof := true }
  else do
    let e ← getE
    let bytes ← memRead e.bs.bufaddr k
    modBs fun b => { b with q := bytes }

/-- Refills the stream buffer when it is empty and the end has not been seen (40_bitstream_reader.md R131). -/
def streamFill : EngM Unit := do
  let e ← getE
  if e.bs.q = [] ∧ e.bs.eof = false then streamRefill else pure ()

/-- `bs_get()` (40_bitstream_reader.md R131). -/
def bsGet : EngM (Option Byte) := do
  let e ← getE
  match e.bs.mode with
  | .mem =>
    if e.bs.pos < e.bs.len then do
      let b ← memByte (e.bs.base + e.bs.pos)
      modBs fun s => { s with pos := s.pos + 1 }
      pure (some b)
    else atEof
  | .stream => do
    streamFill
    let e ← getE
    match e.bs.q with
    | b :: q => do
      modBs fun s => { s with q := q }
      pure (some b)
    | [] => atEof
  | .closed => raise 0x0603 0

/-- `bs_peek()` (40_bitstream_reader.md R131). -/
def bsPeek : EngM (Option Byte) := do
  let e ← getE
  match e.bs.mode with
  | .mem =>
    if e.bs.pos < e.bs.len then do
      let b ← memByte (e.bs.base + e.bs.pos)
      pure (some b)
    else atEof
  | .stream => do
    streamFill
    let e ← getE
    match e.bs.q with
    | b :: _ => pure (some b)
    | [] => atEof
  | .closed => raise 0x0603 0

/-- `bs_getn(n)` (40_bitstream_reader.md R131). -/
def bsGetN : Nat → EngM (List Byte)
  | 0 => pure []
  | n + 1 => do
    match ← bsGet with
    | none => pure []
    | some b => do
      let bs ← bsGetN n
      pure (b :: bs)

/-- `bs_skip(n)` (40_bitstream_reader.md R132). -/
def bsSkip (n : Nat) : EngM Unit := do
  let e ← getE
  match e.bs.mode with
  | .mem => modBs fun s => { s with pos := min s.len (s.pos + n) }
  | .stream => do
    let m := min n e.bs.q.length
    modBs fun s => { s with q := s.q.drop m }
    if m < n ∧ e.bs.eof = false then srcSkip (n - m) else pure ()
  | .closed => raise 0x0603 0

/-- The answer of `bs_eof()` before it is recorded in STATUS.SRC_EOF (40_bitstream_reader.md R132). -/
def bsEofTest : EngM Bool := do
  let e ← getE
  match e.bs.mode with
  | .mem => pure (decide (e.bs.len ≤ e.bs.pos))
  | .stream =>
    if e.bs.q ≠ [] then pure false
    else if e.bs.eof then pure true
    else srcEofQuery
  | .closed => raise 0x0603 0

/-- `bs_eof()` (40_bitstream_reader.md R132). -/
def bsEof : EngM Bool := do
  let t ← bsEofTest
  if t then modE fun e => { e with srcEof := true } else pure ()
  pure t

/-- The host memory the ByteSource reads is an input region of the command: its slice, or the stream buffer
(20_memory.md R79; the two ranges are those of 42_lz77_decompressor.md R207). -/
def useSource : EngM Unit := do
  let e ← getE
  match e.bs.mode with
  | .mem => declare ⟨e.bs.base, e.bs.len, true⟩
  | .stream => declare ⟨e.bs.bufaddr, Config.srcBufSize, true⟩
  | .closed => pure ()

/-- The host memory the ByteSource reads shares a byte with `[a, a+n)`. -/
def Eng.sourceMeets (e : Eng) (a n : Nat) : Bool :=
  match e.bs.mode with
  | .mem => overlap a n e.bs.base e.bs.len
  | .stream => overlap a n e.bs.bufaddr Config.srcBufSize
  | .closed => false

/-- `if BS.mode = NONE then raise E(0x0603, 0)`. -/
def needSource : EngM Unit := do
  let e ← getE
  ensure (decide (e.bs.mode ≠ .closed)) 0x0603 0

/-! ### BitReader -/

/-- The host memory the BitReader reads shares a byte with `[a, a+n)`: what the ByteSource reads, or its memory range
(10_state.md R42). -/
def Eng.inputMeets (e : Eng) (a n : Nat) : Bool :=
  match e.br.input with
  | .source => e.sourceMeets a n
  | .mem b m => overlap a n b m

/-- Changes the BitReader. -/
def modBr (f : BitReader → BitReader) : EngM Unit := modE fun e => { e with br := f e.br }

/-- `in_get()`: the next byte of BR.in (40_bitstream_reader.md R142, R151). -/
def inGet : EngM (Option Byte) := do
  let e ← getE
  match e.br.input with
  | .source => bsGet
  | .mem _ 0 => pure none
  | .mem a (n + 1) => do
    let b ← memByte a
    modBr fun r => { r with input := .mem (a + 1) n }
    pure (some b)

/-- `br_refill()` (40_bitstream_reader.md R142). Four bytes always end the loop. -/
def brRefill : Nat → EngM Unit
  | 0 => pure ()
  | k + 1 => do
    let e ← getE
    if e.br.nbits ≤ 24 then do
      match ← inGet with
      | none => pure ()
      | some b => do
        modBr fun r => { r with code := r.code ||| (b.setWidth 32 <<< r.nbits), nbits := r.nbits + 8 }
        brRefill k
    else pure ()

/-- Refills when fewer than `n` bits are held (40_bitstream_reader.md R143, R144). -/
def brNeed (n : Nat) : EngM Unit := do
  let e ← getE
  if e.br.nbits < n then brRefill 4 else pure ()

/-- `br_consume(s)` (40_bitstream_reader.md R144). -/
def brConsume (n : Nat) : EngM Unit := do
  let e ← getE
  ensure (decide (n ≤ e.br.nbits)) 0x0205 n
  modBr fun r => { r with code := r.code >>> n, nbits := r.nbits - n }

/-- `br_get(n)` (40_bitstream_reader.md R143). -/
def brGet (n : Nat) : EngM Nat := do
  brNeed n
  let e ← getE
  brConsume n
  pure (e.br.code.toNat % 2 ^ n)

/-- `br_peek16()` (40_bitstream_reader.md R144). -/
def brPeek16 : EngM Nat := do
  brNeed 16
  let e ← getE
  pure (e.br.code.toNat % 65536)

/-- `br_align()` (40_bitstream_reader.md R145). -/
def brAlign : EngM Nat := do
  let e ← getE
  let k := e.br.nbits % 8
  modBr fun r => { r with code := r.code >>> k, nbits := r.nbits - k }
  pure k

/-- `br_byte(err)` (40_bitstream_reader.md R150). -/
def brByte (err : Nat) : EngM Nat := do
  let e ← getE
  if 8 ≤ e.br.nbits then brGet 8
  else do
    match ← inGet with
    | none => raise err 0
    | some b => pure b.toNat

/-- `if not BR.valid then raise E(0x0603, 0)`. -/
def needBits : EngM Unit := do
  let e ← getE
  ensure e.br.valid 0x0603 0

/-- The bytes that a command reading bits can still receive, where each answer the host has ready brings at most a full
stream buffer. It bounds the loops of the decoder (70_reset_and_hazards.md R457). -/
def Eng.sourceLeft (e : Eng) : Nat :=
  match e.bs.mode with
  | .mem => e.bs.len - e.bs.pos
  | .stream => e.bs.q.length + Config.srcBufSize * e.moves.length
  | .closed => 0

/-- The bits that a command reading bits can still receive. -/
def Eng.bitsLeft (e : Eng) : Nat :=
  e.br.nbits + 8 * match e.br.input with
    | .source => e.sourceLeft
    | .mem _ n => n

/-! ### Commands -/

/-- A ByteSource command starts a new source without a BitReader (40_bitstream_reader.md R135, R136). -/
def openSource (f : ByteSource → ByteSource) : EngM Unit :=
  modE fun e => { e with bs := { f e.bs with q := [], eof := false }, srcEof := false, br := { e.br with valid := false } }

/-- BS_OPEN_MEM (40_bitstream_reader.md R135). -/
def bsOpenMemBody (c : Snapshot) : EngM Results := do
  checkIn (c.arg 0) (c.arg 1)
  openSource fun b => { b with mode := .mem, base := c.arg 0, len := c.arg 1, pos := 0 }
  pure ⟨0, 0, 0, 0⟩

/-- BS_OPEN_MEM (40_bitstream_reader.md R135). -/
def execBsOpenMem (s : State) : Host.Outcome State Fault Refusal := runCommand .unit bsOpenMemBody s

/-- BS_OPEN_STREAM (40_bitstream_reader.md R136). -/
def bsOpenStreamBody (c : Snapshot) : EngM Results := do
  checkIn (c.arg 0) Config.srcBufSize
  openSource fun b => { b with mode := .stream, bufaddr := c.arg 0 }
  pure ⟨0, 0, 0, 0⟩

/-- BS_OPEN_STREAM (40_bitstream_reader.md R136). -/
def execBsOpenStream (s : State) : Host.Outcome State Fault Refusal := runCommand .unit bsOpenStreamBody s

/-- BS_READ (40_bitstream_reader.md R137). DEDUCED: the destination may not overlap the stream buffer either, which is the input
region of a STREAM-mode source (20_memory.md R74 item 2; notes/assumptions 12). -/
def bsReadBody (c : Snapshot) : EngM Results := do
  checkOut (c.arg 0) (c.arg 1)
  needSource
  let e ← getE
  ensure (!e.sourceMeets (c.arg 0) (c.arg 1)) 0x0604 (c.arg 0)
  useSource
  let s ← bsGetN (c.arg 1)
  memWrite true (c.arg 0) s
  pure ⟨s.length, 0, 0, 0⟩

/-- BS_READ (40_bitstream_reader.md R137). -/
def execBsRead (s : State) : Host.Outcome State Fault Refusal := runCommand .unit bsReadBody s

/-- BS_PEEK (40_bitstream_reader.md R138). -/
def bsPeekBody (_ : Snapshot) : EngM Results := do
  useSource
  match ← bsPeek with
  | none => pure ⟨0, 0, 0, 0⟩
  | some b => pure ⟨b.toNat, 1, 0, 0⟩

/-- BS_PEEK (40_bitstream_reader.md R138). -/
def execBsPeek (s : State) : Host.Outcome State Fault Refusal := runCommand .unit bsPeekBody s

/-- BS_SKIP (40_bitstream_reader.md R139). -/
def bsSkipBody (c : Snapshot) : EngM Results := do
  needSource
  bsSkip (c.arg 1)
  pure ⟨0, 0, 0, 0⟩

/-- BS_SKIP (40_bitstream_reader.md R139). -/
def execBsSkip (s : State) : Host.Outcome State Fault Refusal := runCommand .unit bsSkipBody s

/-- BS_EOF (40_bitstream_reader.md R140). -/
def bsEofBody (_ : Snapshot) : EngM Results := do
  needSource
  let t ← bsEof
  pure ⟨t.toNat, 0, 0, 0⟩

/-- BS_EOF (40_bitstream_reader.md R140). -/
def execBsEof (s : State) : Host.Outcome State Fault Refusal := runCommand .unit bsEofBody s

/-- BR_INIT (40_bitstream_reader.md R147). -/
def brInitBody (_ : Snapshot) : EngM Results := do
  needSource
  modBr fun _ => { valid := true, code := 0, nbits := 0, input := .source }
  pure ⟨0, 0, 0, 0⟩

/-- BR_INIT (40_bitstream_reader.md R147). -/
def execBrInit (s : State) : Host.Outcome State Fault Refusal := runCommand .unit brInitBody s

/-- BR_GET (40_bitstream_reader.md R148). -/
def brGetBody (n : Nat) (_ : Snapshot) : EngM Results := do
  needBits
  ensure (decide (n ≤ 16)) 0x0602 n
  useSource
  let v ← brGet n
  pure ⟨v, 0, 0, 0⟩

/-- BR_GET (40_bitstream_reader.md R148). -/
def execBrGet (n : Nat) (s : State) : Host.Outcome State Fault Refusal := runCommand .unit (brGetBody n) s

/-- BR_ALIGN (40_bitstream_reader.md R149). -/
def brAlignBody (_ : Snapshot) : EngM Results := do
  needBits
  let k ← brAlign
  pure ⟨k, 0, 0, 0⟩

/-- BR_ALIGN (40_bitstream_reader.md R149). -/
def execBrAlign (s : State) : Host.Outcome State Fault Refusal := runCommand .unit brAlignBody s

end Sys2Proof.Machine
end

