-- ==== Sys2Proof/Machine/Huffman.lean ====
section
/-! DEFINITION. The Huffman decoder (41_huffman_decoder.md). -/

namespace Sys2Proof.Machine

/-- Slot `t`. -/
def Eng.slot (e : Eng) (t : Nat) : Huff :=
  match t with
  | 0 => e.ht0
  | 1 => e.ht1
  | _ => e.ht2

/-- The engine with `h` in slot `t`. -/
def Eng.setSlot (e : Eng) (t : Nat) (h : Huff) : Eng :=
  match t with
  | 0 => { e with ht0 := h }
  | 1 => { e with ht1 := h }
  | _ => { e with ht2 := h }

/-- The length classes 1..15, in increasing order. -/
def codeLengths : List Nat := [1, 2, 3, 4, 5, 6, 7, 8, 9, 10, 11, 12, 13, 14, 15]

/-- What the canonical assignment gives one length class (41_huffman_decoder.md R163). -/
structure LengthClass where
  firstcode : Nat
  firstsymbol : Nat
  maxcode : Nat
  deriving DecidableEq, Repr

/-- The canonical assignment for the classes of `ls`, with the running `code` and `k` (41_huffman_decoder.md R163): "bad
codelengths" for a class whose last code does not fit. -/
def lengthClasses (lens : List Nat) : List Nat → Nat → Nat → Except (Nat × Nat) (List LengthClass)
  | [], _, _ => .ok []
  | l :: ls, code, k =>
    let cnt := lens.count l
    if cnt ≠ 0 ∧ 2 ^ l ≤ code + cnt - 1 then .error (0x0304, l)
    else
      match lengthClasses lens ls (2 * (code + cnt)) (k + cnt) with
      | .error x => .error x
      | .ok cs => .ok (⟨code, k, (code + cnt) * 2 ^ (16 - l)⟩ :: cs)

/-- The code of one symbol: the symbol, its length, its rank, and its code bit-reversed (41_huffman_decoder.md R164). -/
structure SymbolCode where
  symbol : Nat
  length : Nat
  rank : Nat
  reversed : Nat
  deriving DecidableEq, Repr

/-- Gives each used symbol the next code of its length, in increasing symbol order (41_huffman_decoder.md R164). `next` holds
next[l] at index l - 1. -/
def symbolCodes (cs : List LengthClass) : List Nat → Nat → List Nat → List SymbolCode
  | [], _, _ => []
  | l :: lens, i, next =>
    if l = 0 then symbolCodes cs lens (i + 1) next
    else
      let code := next.getD (l - 1) 0
      let c := cs.getD (l - 1) ⟨0, 0, 0⟩
      ⟨i, l, code - c.firstcode + c.firstsymbol, bitrev code l⟩ :: symbolCodes cs lens (i + 1) (next.set (l - 1) (code + 1))

/-- `fast[j]`: the entry of the last symbol, in increasing order, whose code has at most 9 bits and is the low bits of `j`
(41_huffman_decoder.md R164). -/
def fastEntry (codes : List SymbolCode) (j : Nat) : Nat :=
  codes.foldl (fun x s => if s.length ≤ 9 ∧ j % 2 ^ s.length = s.reversed then s.length * 512 + s.symbol else x) 0

/-- `size[c]` (41_huffman_decoder.md R164). -/
def sizeEntry (codes : List SymbolCode) (c : Nat) : Nat := codes.foldl (fun x s => if s.rank = c then s.length else x) 0

/-- `value[c]` (41_huffman_decoder.md R164). -/
def valueEntry (codes : List SymbolCode) (c : Nat) : Nat := codes.foldl (fun x s => if s.rank = c then s.symbol else x) 0

/-- The slot of a successful build (41_huffman_decoder.md R163, R164). -/
def slotOf (cs : List LengthClass) (codes : List SymbolCode) : Huff :=
  { valid := true
    fast := Vector.ofFn fun j => BitVec.ofNat 16 (fastEntry codes j.val)
    firstcode := Vector.ofFn fun l => BitVec.ofNat 16 (cs.getD l.val ⟨0, 0, 0⟩).firstcode
    firstsymbol := Vector.ofFn fun l => BitVec.ofNat 16 (cs.getD l.val ⟨0, 0, 0⟩).firstsymbol
    maxcode := Vector.ofFn fun l => if l.val = 15 then 0x10000#17 else BitVec.ofNat 17 (cs.getD l.val ⟨0, 0, 0⟩).maxcode
    size := Vector.ofFn fun c => BitVec.ofNat 8 (sizeEntry codes c.val)
    value := Vector.ofFn fun c => BitVec.ofNat 16 (valueEntry codes c.val) }

/-- The slot that the code lengths `lens` give, or the error code and info word (41_huffman_decoder.md R160 to R164). -/
def buildSlot (lens : List Nat) : Except (Nat × Nat) Huff :=
  match codeLengths.find? (fun l => decide (2 ^ l < lens.count l)) with
  | some l => .error (0x0305, l)
  | none =>
    match lengthClasses lens codeLengths 0 0 with
    | .error x => .error x
    | .ok cs => .ok (slotOf cs (symbolCodes cs lens 0 (cs.map (·.firstcode))))

/-- `hb_build(t, L)` (41_huffman_decoder.md R160). A build that fails leaves the slot not valid. DESIGN CHOICE: the slot's other
contents, which the rule leaves unspecified, are free values from the failure on, so also while the failing command waits at the
Frees of its failure sequence (notes/assumptions 8). -/
def hbBuild (t : Nat) (lens : List Nat) : EngM Unit :=
  match buildSlot lens with
  | .ok h => modE fun e => e.setSlot t h
  | .error (code, info) => do
    modE fun e => { e.setSlot t (freeHuff e.free 0) with free := e.free + 1 }
    raise code info

/-- The first length class from 10 on whose codes reach `k`, left-aligned to 16 bits; 16 if none does
(41_huffman_decoder.md R165). -/
def slowClass (h : Huff) (k : Nat) : Nat :=
  match [10, 11, 12, 13, 14, 15, 16].find? (fun s => decide (k < (h.maxcode.toList.getD (s - 1) 0).toNat)) with
  | some s => s
  | none => 16

/-- `c`, the rank of the code of length `s` that begins the 16 bits `k`; a signed number (41_huffman_decoder.md R165). -/
def slowRank (h : Huff) (k s : Nat) : Int :=
  (k / 2 ^ (16 - s) : Int) - (h.firstcode.toList.getD (s - 1) 0).toNat + (h.firstsymbol.toList.getD (s - 1) 0).toNat

/-- `hb_decode(t)` (41_huffman_decoder.md R165). -/
def hbDecode (t : Nat) : EngM Nat := do
  let e ← getE
  ensure (e.slot t).valid 0x0603 (0x10 + t)
  let p ← brPeek16
  let h := e.slot t
  let entry := (h.fast.toList.getD (p % 512) 0).toNat
  if entry ≠ 0 then do
    brConsume (entry / 512)
    pure (entry % 512)
  else do
    let k := bitrev p 16
    let s := slowClass h k
    ensure (decide (s ≠ 16)) 0x0301 0
    let c := slowRank h k s
    ensure (decide (0 ≤ c ∧ c < 288 ∧ (h.size.toList.getD c.toNat 0).toNat = s)) 0x0301 0
    brConsume s
    pure (h.value.toList.getD c.toNat 0).toNat

/-- The two fixed tables, `hb_build(0, FIXED_LIT_LEN); hb_build(1, FIXED_DIST_LEN)` (41_huffman_decoder.md R170,
42_lz77_decompressor.md R204). -/
def buildFixed : EngM Unit := do
  hbBuild 0 fixedLitLen
  hbBuild 1 fixedDistLen

/-- HT_BUILD (41_huffman_decoder.md R168). -/
def htBuildBody (slot : Nat) (c : Snapshot) : EngM Results := do
  ensure (decide (slot < 3)) 0x0602 slot
  ensure (decide (c.arg 1 ≤ Config.huffMaxSyms)) 0x0602 (c.arg 1)
  checkIn (c.arg 0) (c.arg 1)
  let bytes ← memRead (c.arg 0) (c.arg 1)
  let lens := bytes.map (·.toNat)
  match lens.findIdx? (fun l => decide (15 < l)) with
  | some i => raise 0x0602 i
  | none => do
    hbBuild slot lens
    pure ⟨0, 0, 0, 0⟩

/-- HT_BUILD (41_huffman_decoder.md R168). -/
def execHtBuild (slot : Nat) (s : State) : Host.Outcome State Fault Refusal := runCommand .unit (htBuildBody slot) s

/-- HT_DECODE (41_huffman_decoder.md R169). -/
def htDecodeBody (slot : Nat) (_ : Snapshot) : EngM Results := do
  ensure (decide (slot < 3)) 0x0602 slot
  needBits
  useSource
  let v ← hbDecode slot
  pure ⟨v, 0, 0, 0⟩

/-- HT_DECODE (41_huffman_decoder.md R169). -/
def execHtDecode (slot : Nat) (s : State) : Host.Outcome State Fault Refusal := runCommand .unit (htDecodeBody slot) s

/-- HT_FIXED (41_huffman_decoder.md R170). -/
def htFixedBody (_ : Snapshot) : EngM Results := do
  buildFixed
  pure ⟨0, 0, 0, 0⟩

/-- HT_FIXED (41_huffman_decoder.md R170). -/
def execHtFixed (s : State) : Host.Outcome State Fault Refusal := runCommand .unit htFixedBody s

end Sys2Proof.Machine
end

