-- ==== Sys2Proof/Machine/Inflate.lean ====
section
/-! DEFINITION. The LZ77 decompressor (42_lz77_decompressor.md). -/

namespace Sys2Proof.Machine

/-- Changes the inflate output. -/
def modInf (f : InflateOut → InflateOut) : EngM Unit := modE fun e => { e with inf := f e.inf }

/-- The output buffer is the engine's own, a buffer in LIVE, and not the host's (42_lz77_decompressor.md R190, R201). -/
def Eng.ownsOutput (e : Eng) : Bool := e.live.any fun b => decide (b.addr = e.inf.out)

/-- `out_reserve(n)` (42_lz77_decompressor.md R191). -/
def outReserve (n : Nat) : EngM Unit := do
  let e ← getE
  let need := e.inf.len + n
  if need ≤ e.inf.cap then pure ()
  else do
    ensure e.inf.realloc 0x0403 need
    ensure (decide (need ≤ Config.sizeCeiling)) 0x0402 need
    let c := growCap 32 e.inf.cap need
    let r ← portRealloc e.inf.out e.inf.cap c
    modInf fun o => { o with out := r, cap := c }

/-- Writes one byte at `INF.out + INF.len`, where room has been reserved. DESIGN CHOICE: an output that INF_OPEN has allocated and
handed over is the host's region, as a fixed destination is (notes/assumptions 22). -/
def outStore (b : Byte) : EngM Unit := do
  let e ← getE
  memWrite (!e.ownsOutput) (e.inf.out + e.inf.len) [b]
  modInf fun o => { o with len := o.len + 1 }

/-- `out_put(b)` (42_lz77_decompressor.md R192). -/
def outPut (b : Byte) : EngM Unit := do
  outReserve 1
  outStore b

/-- Copies `n` bytes, each from `dist` bytes behind the output cursor, one at a time (42_lz77_decompressor.md R193). -/
def copyBack (dist : Nat) : Nat → EngM Unit
  | 0 => pure ()
  | n + 1 => do
    let e ← getE
    let b ← memByte (e.inf.out + e.inf.len - dist)
    outStore b
    copyBack dist n

/-- `inf_copy(length, dist)` (42_lz77_decompressor.md R193). -/
def infCopy (length dist : Nat) : EngM Unit := do
  let e ← getE
  ensure (decide (dist ≤ e.inf.len)) 0x0302 dist
  outReserve length
  copyBack dist length

/-- Copies `n` stored bytes to the output (42_lz77_decompressor.md R203). -/
def copyStored : Nat → EngM Unit
  | 0 => pure ()
  | n + 1 => do
    let b ← brByte 0x0203
    outStore (byte b)
    copyStored n

/-- `inf_stored()` (42_lz77_decompressor.md R203). DEDUCED: it leaves the Huffman slots as they are, against a corner case of R205
(notes/assumptions 28). -/
def infStored : EngM Unit := do
  let _ ← brAlign
  let l0 ← brByte 0x0205
  let l1 ← brByte 0x0205
  let n0 ← brByte 0x0205
  let n1 ← brByte 0x0205
  let len := l0 + 256 * l1
  let nlen := n0 + 256 * n1
  ensure (decide (nlen = len ^^^ 0xFFFF)) 0x0204 len
  outReserve len
  copyStored len

/-- The code-length code lengths: `order` names the symbols whose 3-bit lengths come next (42_lz77_decompressor.md R208). -/
def readCodeLengths : List Nat → List Nat → EngM (List Nat)
  | [], cl => pure cl
  | i :: order, cl => do
    let v ← brGet 3
    readCodeLengths order (cl.set i v)

/-- A repeat code of the dynamic header: the count and the repeated length. `acc` holds the lengths so far, latest first
(42_lz77_decompressor.md R208). -/
def readRepeat (c : Nat) (acc : List Nat) : EngM (Nat × Nat) :=
  if c = 16 then do
    let r ← brGet 2
    match acc with
    | [] => raise 0x0304 16
    | v :: _ => pure (r + 3, v)
  else if c = 17 then do
    let r ← brGet 3
    pure (r + 3, 0)
  else do
    let r ← brGet 7
    pure (r + 11, 0)

/-- The code lengths of a dynamic header, latest first, up to `ntot` (42_lz77_decompressor.md R208). Each turn adds at least
one, so `ntot` turns end the loop. -/
def readLengths (ntot : Nat) : Nat → List Nat → EngM (List Nat)
  | 0, acc => pure acc
  | fuel + 1, acc =>
    if acc.length < ntot then do
      let c ← hbDecode 2
      if c < 16 then readLengths ntot fuel (c :: acc)
      else do
        let (r, v) ← readRepeat c acc
        ensure (decide (r ≤ ntot - acc.length)) 0x0304 c
        readLengths ntot fuel (List.replicate r v ++ acc)
    else pure acc

/-- `inf_dynamic()` (42_lz77_decompressor.md R208). -/
def infDynamic : EngM Unit := do
  let hlit ← brGet 5
  let hdist ← brGet 5
  let hclen ← brGet 4
  let cl ← readCodeLengths (clorder.take (hclen + 4)) (List.replicate 19 0)
  hbBuild 2 cl
  let ntot := (hlit + 257) + (hdist + 1)
  let acc ← readLengths ntot ntot []
  let lens := acc.reverse
  hbBuild 0 (lens.take (hlit + 257))
  hbBuild 1 (lens.drop (hlit + 257))

/-- The length and distance of a match whose length symbol is `z`, 257 to 285 (42_lz77_decompressor.md R210). -/
def readMatch (z : Nat) : EngM (Nat × Nat) := do
  let j := z - 257
  let le ← brGet (lextra.getD j 0)
  let d ← hbDecode 1
  ensure (decide (d < 30)) 0x0301 d
  let de ← brGet (dextra.getD d 0)
  pure (lbase.getD j 0 + le, dbase.getD d 0 + de)

/-- `inf_codes()` (42_lz77_decompressor.md R210). Each turn takes at least one bit. -/
def infCodes : Nat → EngM Unit
  | 0 => stop (.fault .loopBound)
  | fuel + 1 => do
    let z ← hbDecode 0
    if z < 256 then do
      outPut (byte z)
      infCodes fuel
    else if z = 256 then pure ()
    else do
      ensure (decide (z < 286)) 0x0301 z
      let (length, dist) ← readMatch z
      infCopy length dist
      infCodes fuel

/-- `inf_codes()` with a bound no input passes. -/
def infSymbols : EngM Unit := do
  let e ← getE
  infCodes (e.bitsLeft + 1)

/-- `inf_block()`: (final, type) (42_lz77_decompressor.md R194). -/
def infBlock : EngM (Nat × Nat) := do
  let final ← brGet 1
  let type ← brGet 2
  if type = 0 then infStored
  else if type = 1 then do
    buildFixed
    infSymbols
  else if type = 2 then do
    infDynamic
    infSymbols
  else raise 0x0303 3
  pure (final, type)

/-- The blocks up to the one with final = 1 (42_lz77_decompressor.md R211). Each block takes at least one bit. -/
def infBlocks : Nat → EngM Unit
  | 0 => stop (.fault .loopBound)
  | fuel + 1 => do
    let (final, _) ← infBlock
    if final = 1 then pure () else infBlocks fuel

/-- `zlib_header()`: (cmf, flg) (42_lz77_decompressor.md R202). -/
def zlibHeader : EngM (Nat × Nat) := do
  let cmf ← brByte 0x0114
  let flg ← brByte 0x0114
  ensure (decide ((cmf * 256 + flg) % 31 = 0)) 0x0114 (cmf * 256 + flg)
  ensure (!bit flg 5) 0x0115 flg
  ensure (decide (cmf % 16 = 8)) 0x0116 cmf
  pure (cmf, flg)

/-- `adler_verify()` (42_lz77_decompressor.md R213). -/
def adlerVerify : EngM Unit := do
  let _ ← brAlign
  let t0 ← brByte 0x0205
  let t1 ← brByte 0x0205
  let t2 ← brByte 0x0205
  let t3 ← brByte 0x0205
  let e ← getE
  let d ← memRead e.inf.out e.inf.len
  let a := adler32 1 d
  ensure (decide (be32 [byte t0, byte t1, byte t2, byte t3] 0 = a.toNat)) 0x0308 a.toNat

/-- `inflate(z, va)` (42_lz77_decompressor.md R211). -/
def inflate (z va : Bool) : EngM Unit := do
  if z then do
    let _ ← zlibHeader
    pure ()
  else pure ()
  let e ← getE
  infBlocks (e.bitsLeft + 1)
  if z && va then adlerVerify else pure ()

/-- `if not INF.open then raise E(0x0603, 0x20)`. -/
def needOutput : EngM Unit := do
  let e ← getE
  ensure e.inf.isOpen 0x0603 0x20

/-- The open output is an output region of the command (20_memory.md R79). -/
def useOutput : EngM Unit := do
  let e ← getE
  declare ⟨e.inf.out, e.inf.cap, false⟩

/-- INF_OPEN (42_lz77_decompressor.md R201). -/
def infOpenBody (realloc : Bool) (c : Snapshot) : EngM Results := do
  if realloc then do
    let cap := max (c.arg 1) 1
    ensure (decide (cap ≤ Config.sizeCeiling)) 0x0402 cap
    let o ← portAlloc cap
    handOver o
    modInf fun _ => { isOpen := true, out := o, len := 0, cap := cap, realloc := true }
    pure ⟨o, cap, 0, 0⟩
  else do
    checkOut (c.arg 0) (c.arg 1)
    modInf fun _ => { isOpen := true, out := c.arg 0, len := 0, cap := c.arg 1, realloc := false }
    pure ⟨c.arg 0, c.arg 1, 0, 0⟩

/-- INF_OPEN (42_lz77_decompressor.md R201). -/
def execInfOpen (realloc : Bool) (s : State) : Host.Outcome State Fault Refusal := runCommand .unit (infOpenBody realloc) s

/-- INF_ZHDR (42_lz77_decompressor.md R202). -/
def infZhdrBody (_ : Snapshot) : EngM Results := do
  needBits
  useSource
  let _ ← brAlign
  let (cmf, flg) ← zlibHeader
  pure ⟨cmf, flg, 0, 0⟩

/-- INF_ZHDR (42_lz77_decompressor.md R202). -/
def execInfZhdr (s : State) : Host.Outcome State Fault Refusal := runCommand .unit infZhdrBody s

/-- `if [INF.out, INF.out+INF.cap) overlaps the input region then raise E(0x0604, INF.out)`, for a fixed output: a buffer that the
allocator returned is not checked (20_memory.md R74). DEDUCED: 70_reset_and_hazards.md R458 forbids every command but the in-place
ones to have overlapping input and output regions, with the error of R74 item 2, where the pseudocode of 42_lz77_decompressor.md R205
has no check (notes/assumptions 25). -/
def needOutputApart : EngM Unit := do
  let e ← getE
  ensure (e.inf.realloc || !e.inputMeets e.inf.out e.inf.cap) 0x0604 e.inf.out

/-- INF_BLOCK (42_lz77_decompressor.md R205). -/
def infBlockBody (_ : Snapshot) : EngM Results := do
  needBits
  needOutput
  needOutputApart
  useSource
  useOutput
  let (final, type) ← infBlock
  let e ← getE
  pure ⟨final, type, e.inf.out, e.inf.len⟩

/-- INF_BLOCK (42_lz77_decompressor.md R205). -/
def execInfBlock (s : State) : Host.Outcome State Fault Refusal := runCommand .unit infBlockBody s

/-- INF_COPY (42_lz77_decompressor.md R206). -/
def infCopyBody (c : Snapshot) : EngM Results := do
  needOutput
  ensure (decide (3 ≤ c.arg 0 ∧ c.arg 0 ≤ 258)) 0x0602 (c.arg 0)
  ensure (decide (1 ≤ c.arg 1 ∧ c.arg 1 ≤ 32768)) 0x0602 (c.arg 1)
  useOutput
  infCopy (c.arg 0) (c.arg 1)
  let e ← getE
  pure ⟨0, 0, e.inf.out, e.inf.len⟩

/-- INF_COPY (42_lz77_decompressor.md R206). -/
def execInfCopy (s : State) : Host.Outcome State Fault Refusal := runCommand .unit infCopyBody s

/-- The output of INF_STREAM is opened: the fixed destination of the host, or a new buffer (42_lz77_decompressor.md R207). -/
def openStreamOutput (realloc : Bool) (c : Snapshot) : EngM Unit :=
  if realloc then do
    let cap := max (c.arg 1) 1
    ensure (decide (cap ≤ Config.sizeCeiling)) 0x0402 cap
    let o ← portAlloc cap
    modInf fun _ => { isOpen := true, out := o, len := 0, cap := cap, realloc := true }
  else do
    checkOut (c.arg 0) (c.arg 1)
    let e ← getE
    ensure (!e.sourceMeets (c.arg 0) (c.arg 1)) 0x0604 (c.arg 0)
    modInf fun _ => { isOpen := true, out := c.arg 0, len := 0, cap := c.arg 1, realloc := false }

/-- INF_STREAM (42_lz77_decompressor.md R207). The unit state becomes invalid when it completes: `State.complete`. -/
def infStreamBody (zlib realloc : Bool) (c : Snapshot) : EngM Results := do
  needSource
  useSource
  openStreamOutput realloc c
  modBr fun _ => { valid := true, code := 0, nbits := 0, input := .source }
  inflate zlib c.verifyAdler
  let e ← getE
  handOver e.inf.out
  pure ⟨e.inf.out, e.inf.len, e.inf.cap, 0⟩

/-- INF_STREAM (42_lz77_decompressor.md R207). -/
def execInfStream (zlib realloc : Bool) (s : State) : Host.Outcome State Fault Refusal :=
  runCommand .top (infStreamBody zlib realloc) s

end Sys2Proof.Machine
end

