-- ==== Sys2Proof/Machine/PngParser.lean ====
section
/-! DEFINITION. The PNG chunk parser and the decode pipeline (43_png_chunk_parser.md). -/

namespace Sys2Proof.Machine

/-! ### Parser state and input helpers -/

/-- P at the start of a PNG_DECODE (43_png_chunk_parser.md R241). -/
def Png.init : Png :=
  { first := true, w := 0, h := 0, depth := 0, ctype := 0, interlace := 0, imgN := 0, pal := Vector.replicate 256 opaqueBlack,
    palLen := 0, palTrns := false, key := Vector.replicate 3 0, hasKey := false, idat := none, idatLen := 0, idatCap := 0,
    idatSeen := false, cgbi := false }

/-- The parser state of the running PNG_DECODE. -/
def getP : EngM Png := do
  let e ← getE
  pure (e.png.getD Png.init)

/-- Changes the parser state. -/
def modP (f : Png → Png) : EngM Unit := modE fun e => { e with png := some (f (e.png.getD Png.init)) }

/-- `need(n, err)` (43_png_chunk_parser.md R243). -/
def need (n err : Nat) : EngM (List Byte) := do
  let s ← bsGetN n
  ensure (decide (n ≤ s.length)) err s.length
  pure s

/-- `chunk_crc(T, d)` (43_png_chunk_parser.md R255). -/
def chunkCrc (c : Snapshot) (type : Nat) (d : List Byte) : EngM Unit := do
  let t ← need 4 0x0201
  ensure (!c.verifyCrc || decide (be32 t 0 = (crc32 0 (putBe32 type ++ d)).toNat)) 0x0307 type

/-- The data of a chunk the parser does not use: read where the CRC is checked, else skipped (43_png_chunk_parser.md R255). -/
def skipData (c : Snapshot) (len : Nat) : EngM (List Byte) :=
  if c.verifyCrc then need len 0x0201
  else do
    bsSkip len
    pure []

/-- `chunk_skip(T, L)` (43_png_chunk_parser.md R255). -/
def chunkSkip (c : Snapshot) (type len : Nat) : EngM Unit := do
  let d ← skipData c len
  chunkCrc c type d

/-! ### The chunks -/

/-- The signature (43_png_chunk_parser.md R244). -/
def signature : EngM Unit := do
  let s ← bsGetN 8
  ensure (decide (s = pngSig)) 0x0101 0

/-- A colour type that the engine accepts (00_scope.md R7). -/
def ctypeOk (t : Nat) : Bool := t == 0 || t == 2 || t == 3 || t == 4 || t == 6

/-- The checks of an IHDR's 13 data bytes, in order (43_png_chunk_parser.md R246). -/
def ihdrCheck (d : List Byte) : EngM Unit := do
  ensure (decide (be32 d 0 ≤ Config.maxDim ∧ be32 d 4 ≤ Config.maxDim)) 0x010B 0
  ensure (depthOk (byteAt d 8)) 0x0106 (byteAt d 8)
  ensure (ctypeOk (byteAt d 9)) 0x0107 (byteAt d 9)
  ensure (decide (byteAt d 10 = 0)) 0x0108 (byteAt d 10)
  ensure (decide (byteAt d 11 = 0)) 0x0109 (byteAt d 11)
  ensure (decide (byteAt d 12 ≤ 1)) 0x010A (byteAt d 12)
  ensure (decide (be32 d 0 ≠ 0 ∧ be32 d 4 ≠ 0)) 0x0105 0
  ensure (decide (be32 d 0 * be32 d 4 * 4 ≤ Config.sizeCeiling)) 0x0402 0

/-- IHDR (43_png_chunk_parser.md R246). -/
def ihdr (c : Snapshot) (len : Nat) : EngM Unit := do
  let p ← getP
  ensure p.first 0x0103 0
  ensure (decide (len = 13)) 0x0104 len
  let d ← need 13 0x0201
  ihdrCheck d
  modP fun p =>
    { p with
      w := be32 d 0, h := be32 d 4, depth := byteAt d 8, ctype := byteAt d 9, interlace := byteAt d 12
      imgN := colourChannels (byteAt d 9) }
  chunkCrc c typeIHDR d
  modP fun p => { p with first := false }

/-- The palette with its first `n` entries from the triples of `d` (43_png_chunk_parser.md R248). -/
def plteEntries (pal : Vector Rgba 256) (d : List Byte) (n : Nat) : Vector Rgba 256 :=
  Vector.ofFn fun i =>
    if i.val < n then ⟨d.getD (3 * i.val) 0, d.getD (3 * i.val + 1) 0, d.getD (3 * i.val + 2) 0, 255⟩ else pal[i]

/-- PLTE (43_png_chunk_parser.md R248). -/
def plte (c : Snapshot) (len : Nat) : EngM Unit := do
  let p ← getP
  ensure (!p.idatSeen) 0x010D 0
  ensure (decide (len ≤ 768 ∧ len % 3 = 0)) 0x010C len
  let d ← need len 0x0201
  if p.ctype = 3 then modP fun p => { p with pal := plteEntries p.pal d (len / 3), palLen := len / 3 } else pure ()
  chunkCrc c typePLTE d

/-- The palette with the alphas of its first `n` entries from `d` (43_png_chunk_parser.md R250). -/
def trnsEntries (pal : Vector Rgba 256) (d : List Byte) (n : Nat) : Vector Rgba 256 :=
  Vector.ofFn fun i => if i.val < n then { pal[i] with a := d.getD i.val 0 } else pal[i]

/-- The key with its first `n` bytes from the 16-bit samples of `d` (43_png_chunk_parser.md R250). -/
def trnsKey (key : Vector Byte 3) (d : List Byte) (n depth : Nat) : Vector Byte 3 :=
  Vector.ofFn fun i => if i.val < n then byte (be16 d (2 * i.val) % 256 * depthScale depth) else key[i]

/-- tRNS (43_png_chunk_parser.md R250). -/
def trns (c : Snapshot) (len : Nat) : EngM Unit := do
  let p ← getP
  ensure (!p.idatSeen) 0x010E 0
  if p.ctype = 3 then do
    ensure (decide (p.palLen ≠ 0)) 0x010F 0
    ensure (decide (len ≤ p.palLen)) 0x0110 len
    let d ← need len 0x0201
    modP fun p => { p with pal := trnsEntries p.pal d len, palTrns := true }
    chunkCrc c typeTRNS d
  else do
    ensure (decide (p.ctype ≠ 4 ∧ p.ctype ≠ 6)) 0x0111 0
    ensure (decide (len = 2 * p.imgN)) 0x0110 len
    let d ← need len 0x0201
    modP fun p => { p with key := trnsKey p.key d p.imgN p.depth, hasKey := true }
    chunkCrc c typeTRNS d

/-- The capacity the IDAT accumulator grows to, for `size` bytes in all and `len` bytes of this chunk
(43_png_chunk_parser.md R252). -/
def idatCapacity (cap size len : Nat) : Nat := growCap 32 (if cap = 0 then max Config.idatMinCap len else cap) size

/-- Makes room for `size` bytes in the IDAT accumulator (43_png_chunk_parser.md R252). -/
def idatReserve (size len : Nat) : EngM Unit := do
  let p ← getP
  if p.idatCap < size then do
    ensure (decide (size ≤ Config.sizeCeiling)) 0x0402 size
    let c := idatCapacity p.idatCap size len
    let r ← if p.idatCap = 0 then portAlloc c else portRealloc (p.idat.getD 0) p.idatCap c
    modP fun p => { p with idat := some r, idatCap := c }
  else pure ()

/-- IDAT (43_png_chunk_parser.md R252). -/
def idat (c : Snapshot) (len : Nat) : EngM Unit := do
  let p ← getP
  ensure (decide (p.ctype ≠ 3 ∨ p.palLen ≠ 0)) 0x0112 0
  modP fun p => { p with idatSeen := true }
  let size := p.idatLen + len
  idatReserve size len
  let d ← need len 0x0201
  let p ← getP
  memWrite false (p.idat.getD 0 + p.idatLen) d
  modP fun p => { p with idatLen := size }
  chunkCrc c typeIDAT d

/-- IEND (43_png_chunk_parser.md R254). -/
def iend (c : Snapshot) (len : Nat) : EngM Unit := do
  let p ← getP
  ensure (decide (p.idatLen ≠ 0)) 0x0113 0
  if c.verifyCrc then do
    let d ← need len 0x0201
    chunkCrc c typeIEND d
  else pure ()

/-- One chunk other than IEND and CgBI, after its header (43_png_chunk_parser.md R245). Bit 29 of the type word is its
ancillary bit. -/
def chunk (c : Snapshot) (type len : Nat) : EngM Unit :=
  if type = typeIHDR then ihdr c len
  else if type = typePLTE then plte c len
  else if type = typeTRNS then trns c len
  else if type = typeIDAT then idat c len
  else if !bit type 29 then raise 0x0501 type
  else chunkSkip c type len

/-- The chunk loop (43_png_chunk_parser.md R245, R256). Each turn takes eight bytes, so `fuel` bytes of input and one turn more
end it. -/
def chunks (c : Snapshot) : Nat → EngM Unit
  | 0 => stop (.fault .loopBound)
  | fuel + 1 => do
    let hd ← need 8 0x0201
    let len := be32 hd 0
    let type := be32 hd 4
    ensure (decide (len ≤ 0x7fffffff)) 0x0117 len
    if type = typeCgBI then do
      modP fun p => { p with cgbi := true }
      chunkSkip c type len
      chunks c fuel
    else do
      let p ← getP
      ensure (!p.first || decide (type = typeIHDR)) 0x0102 type
      if type = typeIEND then iend c len
      else do
        chunk c type len
        chunks c fuel

/-! ### The pipeline after IEND -/

/-- The layout of the filtered image (43_png_chunk_parser.md R259). -/
def Png.layout (p : Png) : Layout := ⟨p.imgN, p.depth, p.ctype == 3⟩

/-- Inflates the IDAT accumulation into a new buffer of `rawLen` bytes, or more if the stream is longer
(43_png_chunk_parser.md R257, R258). -/
def pngInflate (c : Snapshot) (p : Png) (rawLen : Nat) : EngM Unit := do
  ensure (decide (rawLen ≤ Config.sizeCeiling)) 0x0402 0
  let o ← portAlloc rawLen
  modInf fun _ => { isOpen := true, out := o, len := 0, cap := rawLen, realloc := true }
  modBr fun _ => { valid := true, code := 0, nbits := 0, input := .mem (p.idat.getD 0) p.idatLen }
  inflate (!p.cgbi) c.verifyAdler
  let e ← getE
  ensure (decide (e.inf.len = rawLen)) 0x0202 e.inf.len
  portFree (p.idat.getD 0)

/-- Reconstruction: the raster's address (43_png_chunk_parser.md R259). -/
def pngRecon (p : Png) (rawLen : Nat) : EngM Nat := do
  let e ← getE
  let img ← recon p.layout e.inf.out rawLen p.w p.h (p.interlace == 1)
  portFree e.inf.out
  pure img

/-- Chroma key: the image and its channels (43_png_chunk_parser.md R260; 45_format_converter.md R315, R316). -/
def pngKey (p : Png) (n img ch : Nat) : EngM (Nat × Nat) :=
  if p.hasKey then do
    let o ← convert img n ch (ch + 1)
    keyApply false o n (ch + 1) p.key.toList
    portFree img
    pure (o, ch + 1)
  else pure (img, ch)

/-- Palette expansion: the image and its channels (43_png_chunk_parser.md R262). -/
def pngPalette (p : Png) (n img ch : Nat) : EngM (Nat × Nat) :=
  if p.ctype = 3 then do
    let out := if p.palTrns then 4 else 3
    let o ← paletteExpand img n p.pal p.palLen out
    portFree img
    pure (o, out)
  else pure (img, ch)

/-- Channel conversion: the image and its channels (43_png_chunk_parser.md R264). -/
def pngConvert (req n img s : Nat) : EngM (Nat × Nat) :=
  if req ≠ 0 ∧ req ≠ s then do
    let o ← convert img n s req
    portFree img
    pure (o, req)
  else pure (img, s)

/-- The pipeline: the pixel buffer's address and the source channels (43_png_chunk_parser.md R257 to R266). -/
def pipeline (c : Snapshot) (req : Nat) (p : Png) : EngM (Nat × Nat) := do
  let n := p.w * p.h
  let rawLen := p.layout.rawLen p.w p.h (p.interlace == 1)
  pngInflate c p rawLen
  let img ← pngRecon p rawLen
  let (img, ch) ← pngKey p n img p.imgN
  if p.cgbi ∧ 2 < ch then cgbiFix false img n ch c.unpremul else pure ()
  let (img, s) ← pngPalette p n img ch
  let (img, ch) ← pngConvert req n img s
  if c.flipLoad then flip false img (p.w * ch) p.h else pure ()
  pure (img, s)

/-! ### Command -/

/-- PNG_DECODE (43_png_chunk_parser.md R240). The unit state becomes invalid when it completes: `State.complete`. -/
def pngDecodeBody (req : Nat) (c : Snapshot) : EngM Results := do
  ensure (decide (req ≤ 4)) 0x0602 req
  needSource
  useSource
  modE fun e => { e with png := some Png.init }
  signature
  let e ← getE
  chunks c (e.sourceLeft + 1)
  let p ← getP
  let (img, s) ← pipeline c req p
  handOver img
  pure ⟨img, p.w, p.h, s⟩

/-- PNG_DECODE (43_png_chunk_parser.md R240). -/
def execPngDecode (req : Nat) (s : State) : Host.Outcome State Fault Refusal := runCommand .top (pngDecodeBody req) s

end Sys2Proof.Machine
end

