-- ==== Sys2Proof/Machine/Encoder.lean ====
section
/-! DEFINITION. The DEFLATE encoder: LZ77 compressor, fixed Huffman code, stream assembly (46_deflate_encoder.md). -/

namespace Sys2Proof.Machine

/-! ### LZ77 compressor -/

/-- `zhash` of three bytes, mod 2^32 (46_deflate_encoder.md R342). -/
def zhash (x y z : Byte) : Word :=
  let h : Word := x.setWidth 32 + (y.setWidth 32 <<< 8) + (z.setWidth 32 <<< 16)
  let h := h ^^^ (h <<< 3)
  let h := h + (h >>> 5)
  let h := h ^^^ (h <<< 4)
  let h := h + (h >>> 17)
  let h := h ^^^ (h <<< 25)
  h + (h >>> 6)

/-- The bucket of a hash (46_deflate_encoder.md R342). -/
def bucketOf (h : Word) : Nat := h.toNat % Config.zhash

/-- `bucket(D, i)` (46_deflate_encoder.md R342). -/
def bucketAt (d : List Byte) (i : Nat) : Nat :=
  let s := d.drop i
  bucketOf (zhash (s.getD 0 0) (s.getD 1 0) (s.getD 2 0))

/-- The hash table: the buckets that are not empty, each with its positions, oldest first (10_state.md R47). -/
abbrev HashTable := List (Nat × List Nat)

/-- The positions in bucket `b` (10_state.md R47). -/
def positions (b : Nat) : HashTable → List Nat
  | [] => []
  | (k, ps) :: t => if k = b then ps else positions b t

/-- A full bucket drops its `q` oldest entries before the new one joins (46_deflate_encoder.md R343). -/
def pushPosition (q i : Nat) (ps : List Nat) : List Nat := (if ps.length = 2 * q then ps.drop q else ps) ++ [i]

/-- `insert(b, i)` (46_deflate_encoder.md R343). -/
def insertPosition (q b i : Nat) : HashTable → HashTable
  | [] => [(b, pushPosition q i [])]
  | (k, ps) :: t => if k = b then (k, pushPosition q i ps) :: t else (k, ps) :: insertPosition q b i t

/-- The number of leading equal bytes of two sequences, at most `n` (46_deflate_encoder.md R344). -/
def equalBytes : Nat → List Byte → List Byte → Nat
  | n + 1, x :: xs, y :: ys => if x = y then equalBytes n xs ys + 1 else 0
  | _, _, _ => 0

/-- `countm(a, b, limit)` (46_deflate_encoder.md R344). -/
def countm (d : List Byte) (a b limit : Nat) : Nat := equalBytes (min limit Config.maxMatch) (d.drop a) (d.drop b)

/-- One candidate `p` of the match search at `i` (46_deflate_encoder.md R345). -/
def tryCandidate (d : List Byte) (i : Nat) (best : Nat × Option Nat) (p : Nat) : Nat × Option Nat :=
  let m := countm d p i (d.length - i)
  if i < p + Config.window ∧ best.1 ≤ m then (m, some p) else best

/-- `search(i)` (46_deflate_encoder.md R345). -/
def search (d : List Byte) (t : HashTable) (i : Nat) : Nat × Option Nat :=
  (positions (bucketAt d i) t).foldl (tryCandidate d i) (3, none)

/-- `lazy(i, best)` answers drop (46_deflate_encoder.md R346). -/
def lazyDrop (d : List Byte) (t : HashTable) (i best : Nat) : Bool :=
  (positions (bucketAt d (i + 1)) t).any fun p =>
    decide (i < p + 32767 ∧ best < countm d p (i + 1) (d.length - i - 1))

/-- What the compressor emits: a literal, or a match of a length and a distance. -/
inductive Token where
  | lit (b : Byte)
  | copy (length dist : Nat)
  deriving DecidableEq, Repr

/-- The match taken at `i`, if any: its length and its location (46_deflate_encoder.md R347). -/
def chooseMatch (d : List Byte) (q : Nat) (t : HashTable) (i : Nat) : Option (Nat × Nat) :=
  match search d t i with
  | (_, none) => none
  | (best, some loc) => if lazyDrop d (insertPosition q (bucketAt d i) i t) i best then none else some (best, loc)

/-- The main loop from position `i` on (46_deflate_encoder.md R347). Each turn moves on by at least one byte, so the input's
length bounds the turns. -/
def lz77Loop (d : List Byte) (q : Nat) : Nat → Nat → HashTable → List Token
  | 0, i, _ => (d.drop i).map .lit
  | fuel + 1, i, t =>
    if i + 3 < d.length then
      let t' := insertPosition q (bucketAt d i) i t
      match chooseMatch d q t i with
      | some (best, loc) => .copy best (i - loc) :: lz77Loop d q fuel (i + best) t'
      | none => .lit (d.getD i 0) :: lz77Loop d q fuel (i + 1) t'
    else (d.drop i).map .lit

/-- The tokens of the input `d` (46_deflate_encoder.md R347). -/
def lz77 (d : List Byte) (q : Nat) : List Token := lz77Loop d q d.length 0 []

/-! ### Huffman encoder and bit emitter -/

/-- `emit(v, n)` (46_deflate_encoder.md R350). -/
def emit (v n : Nat) : List Bool := (List.range n).map (bit v)

/-- `fixed_code(s)`: the code, MSB first, and its length (46_deflate_encoder.md R350). -/
def fixedCode (s : Nat) : Nat × Nat :=
  if s ≤ 143 then (0x30 + s, 8)
  else if s ≤ 255 then (0x190 + s - 144, 9)
  else if s ≤ 279 then (s - 256, 7)
  else (0xC0 + s - 280, 8)

/-- `emit_sym(s)` (46_deflate_encoder.md R350). -/
def emitSym (s : Nat) : List Bool := emit (bitrev (fixedCode s).1 (fixedCode s).2) (fixedCode s).2

/-- The largest index below `n` whose entry in `table` is at most `v` (46_deflate_encoder.md R348). -/
def largestBase (table : List Nat) (n v : Nat) : Nat :=
  ((List.range n).filter fun j => decide (table.getD j 0 ≤ v)).getLastD 0

/-- `emit_match(len, dist)` (46_deflate_encoder.md R348). An emission of 0 bits is none. -/
def emitMatch (length dist : Nat) : List Bool :=
  let j := largestBase lbase 29 length
  let k := largestBase dbase 30 dist
  emitSym (257 + j) ++ emit (length - lbase.getD j 0) (lextra.getD j 0)
    ++ emit (bitrev k 5) 5 ++ emit (dist - dbase.getD k 0) (dextra.getD k 0)

/-- The bits of a token (46_deflate_encoder.md R348, R350). -/
def Token.bits : Token → List Bool
  | .lit b => emitSym b.toNat
  | .copy length dist => emitMatch length dist

/-- The number whose bits from bit 0 upward are `bs`. -/
def bitsValue : List Bool → Nat
  | [] => 0
  | b :: bs => b.toNat + 2 * bitsValue bs

/-- The bytes of a bit sequence, each filled from bit 0 upward, the last one padded with 0 bits (46_deflate_encoder.md R350,
R353). -/
def packBits : List Bool → List Byte
  | [] => []
  | b0 :: b1 :: b2 :: b3 :: b4 :: b5 :: b6 :: b7 :: rest => byte (bitsValue [b0, b1, b2, b3, b4, b5, b6, b7]) :: packBits rest
  | few => [byte (bitsValue few)]

/-! ### Stream assembly -/

/-- The two bytes of the zlib header the encoder writes (46_deflate_encoder.md R353). -/
def zlibHead : List Byte := [0x78, 0x5E]

/-- The bytes of the one fixed-Huffman block (46_deflate_encoder.md R347, R353). -/
def fixedBlock (d : List Byte) (q : Nat) : List Byte :=
  packBits (emit 1 1 ++ emit 1 2 ++ (lz77 d q).flatMap Token.bits ++ emitSym 256)

/-- The blocks of `stored(D)` (46_deflate_encoder.md R351). Each block takes at least one byte, so the input's length bounds
them. -/
def storedBlocks : Nat → List Byte → List Byte
  | 0, _ => []
  | fuel + 1, d =>
    if d = [] then []
    else
      let bl := min d.length Config.storedMax
      let nl := bl ^^^ 0xFFFF
      byte (if d.length = bl then 1 else 0) :: byte bl :: byte (bl / 256) :: byte nl :: byte (nl / 256)
        :: (d.take bl ++ storedBlocks fuel (d.drop bl))

/-- The stored fallback is taken (46_deflate_encoder.md R353): `len` counts the 2 header bytes and the block's. -/
def expands (len n : Nat) : Bool := decide (0 < n ∧ n + 2 + 5 * ((n + Config.storedMax - 1) / Config.storedMax) < len)

/-- `compress(D, q)` (46_deflate_encoder.md R353). -/
def compress (d : List Byte) (q : Nat) : List Byte :=
  let z := zlibHead ++ fixedBlock d q
  (if expands z.length d.length then zlibHead ++ storedBlocks d.length d else z) ++ putBe32 (adler32 1 d).toNat

/-! ### Commands -/

/-- A new buffer with the bytes `out`, which passes to the host (46_deflate_encoder.md R356). R356 does not say what the info word
of its `E(0x0402, ·)` is: `portAlloc` gives the size (notes/assumptions 24). -/
def deliver (out : List Byte) : EngM Results := do
  let o ← portAlloc out.length
  memWrite false o out
  handOver o
  pure ⟨o, out.length, 0, 0⟩

/-- DEF_COMPRESS (46_deflate_encoder.md R365). -/
def defCompressBody (quality : Nat) (c : Snapshot) : EngM Results := do
  checkIn (c.arg 0) (c.arg 1)
  ensure (decide (c.arg 1 ≤ Config.sizeCeiling)) 0x0402 (c.arg 1)
  let d ← memRead (c.arg 0) (c.arg 1)
  deliver (compress d (c.effectiveQuality quality))

/-- DEF_COMPRESS (46_deflate_encoder.md R365). -/
def execDefCompress (quality : Nat) (s : State) : Host.Outcome State Fault Refusal := runCommand .top (defCompressBody quality) s

/-- LZ_HASH (46_deflate_encoder.md R366). -/
def lzHashBody (c : Snapshot) : EngM Results := do
  checkIn (c.arg 0) 3
  let d ← memRead (c.arg 0) 3
  let h := zhash (d.getD 0 0) (d.getD 1 0) (d.getD 2 0)
  pure ⟨bucketOf h, h.toNat, 0, 0⟩

/-- LZ_HASH (46_deflate_encoder.md R366). -/
def execLzHash (s : State) : Host.Outcome State Fault Refusal := runCommand .other lzHashBody s

/-- LZ_MATCHLEN (46_deflate_encoder.md R367). -/
def lzMatchlenBody (c : Snapshot) : EngM Results := do
  let m := min (c.arg 2) Config.maxMatch
  checkIn (c.arg 0) m
  checkIn (c.arg 1) m
  let x ← memRead (c.arg 0) m
  let y ← memRead (c.arg 1) m
  pure ⟨equalBytes m x y, 0, 0, 0⟩

/-- LZ_MATCHLEN (46_deflate_encoder.md R367). -/
def execLzMatchlen (s : State) : Host.Outcome State Fault Refusal := runCommand .other lzMatchlenBody s

/-- HUF_ENC_SYM (46_deflate_encoder.md R368). -/
def hufEncSymBody (alphabet : Bool) (sym : Nat) (_ : Snapshot) : EngM Results := do
  ensure (decide (sym ≤ if alphabet then 31 else 287)) 0x0602 sym
  let (code, len) := if alphabet then (sym, 5) else fixedCode sym
  pure ⟨bitrev code len, len, 0, 0⟩

/-- HUF_ENC_SYM (46_deflate_encoder.md R368). -/
def execHufEncSym (alphabet : Bool) (sym : Nat) (s : State) : Host.Outcome State Fault Refusal :=
  runCommand .other (hufEncSymBody alphabet sym) s

end Sys2Proof.Machine
end

