-- ==== Sys2Proof/Machine/PngWriter.lean ====
section
/-! DEFINITION. The PNG writer (47_checksum_png_writer.md R390 to R395). -/

namespace Sys2Proof.Machine

/-- The better of the best filter so far, with its cost, and filter `t`: only a strictly smaller cost replaces it
(47_checksum_png_writer.md R392). -/
def betterFilter (n : Nat) (row prior : List Byte) (best : Nat × Nat) (t : Nat) : Nat × Nat :=
  let c := filterCost (filterRow t n row prior)
  if c < best.2 then (t, c) else best

/-- `select(row, prior, first)`; `prior` is empty for the first row (47_checksum_png_writer.md R392). -/
def selectFilter (force n : Nat) (row prior : List Byte) : Nat :=
  if force ≤ 4 then force
  else ([1, 2, 3, 4].foldl (betterFilter n row prior) (0, filterCost (filterRow 0 n row prior))).1

/-- F from the rows of the image, in image row order; `prior` is the row before them (47_checksum_png_writer.md R391). -/
def filteredImage (force n : Nat) : List (List Byte) → List Byte → List Byte
  | [], _ => []
  | row :: rows, prior =>
    let t := selectFilter force n row prior
    byte t :: (filterRow t n row prior ++ filteredImage force n rows row)

/-- The `h` rows of the pixel buffer at `px`, in input order (47_checksum_png_writer.md R390). -/
def readRows (len stride : Nat) : Nat → Nat → EngM (List (List Byte))
  | _, 0 => pure []
  | px, h + 1 => do
    let row ← memRead px len
    let rows ← readRows len stride (px + stride) h
    pure (row :: rows)

/-- `chunk(T, d)` (47_checksum_png_writer.md R394). -/
def pngChunk (type : Nat) (d : List Byte) : List Byte :=
  putBe32 d.length ++ putBe32 type ++ d ++ putBe32 (crc32 0 (putBe32 type ++ d)).toNat

/-- The file with the filtered image `f` (47_checksum_png_writer.md R394). -/
def pngFile (w h n q : Nat) (f : List Byte) : List Byte :=
  pngSig ++ pngChunk typeIHDR (putBe32 w ++ putBe32 h ++ [8, byte (encodedColourType n), 0, 0, 0])
    ++ pngChunk typeIDAT (compress f q) ++ pngChunk typeIEND []

/-- PNG_ENCODE (47_checksum_png_writer.md R395). -/
def pngEncodeBody (n : Nat) (c : Snapshot) : EngM Results := do
  let px := c.arg 0
  let w := c.arg 1
  let h := c.arg 2
  ensure (channelsOk n) 0x0602 n
  ensure (decide (w ≠ 0 ∧ h ≠ 0)) 0x0602 0
  ensure (decide (w * n ≤ Config.sizeCeiling)) 0x0402 0
  let st := if c.arg 3 = 0 then w * n else c.arg 3
  ensure (decide (w * n ≤ st)) 0x0602 st
  ensure (decide (h * (1 + w * n) ≤ Config.sizeCeiling)) 0x0402 0
  checkIn px ((h - 1) * st + w * n)
  let rows ← readRows (w * n) st px h
  let f := filteredImage c.forceFilter n (if c.flipWrite then rows.reverse else rows) []
  deliver (pngFile w h n (c.effectiveQuality 0) f)

/-- PNG_ENCODE (47_checksum_png_writer.md R395). -/
def execPngEncode (n : Nat) (s : State) : Host.Outcome State Fault Refusal := runCommand .top (pngEncodeBody n) s

end Sys2Proof.Machine
end

