-- ==== Sys2Proof/Machine/Dispatch.lean ====
section
/-! DEFINITION. One meaning for each command (30_encoding.md R93). -/

namespace Sys2Proof.Machine

/-- What the command `i` does (30_encoding.md R93). -/
def exec (i : Instr) (s : State) : Host.Outcome State Fault Refusal :=
  match i with
  | .nop => Sys2Proof.Machine.execNop s
  | .bsOpenMem => Sys2Proof.Machine.execBsOpenMem s
  | .bsOpenStream => Sys2Proof.Machine.execBsOpenStream s
  | .bsRead => Sys2Proof.Machine.execBsRead s
  | .bsPeek => Sys2Proof.Machine.execBsPeek s
  | .bsSkip => Sys2Proof.Machine.execBsSkip s
  | .bsEof => Sys2Proof.Machine.execBsEof s
  | .brInit => Sys2Proof.Machine.execBrInit s
  | .brGet n => Sys2Proof.Machine.execBrGet n s
  | .brAlign => Sys2Proof.Machine.execBrAlign s
  | .htBuild slot => Sys2Proof.Machine.execHtBuild slot s
  | .htDecode slot => Sys2Proof.Machine.execHtDecode slot s
  | .htFixed => Sys2Proof.Machine.execHtFixed s
  | .infOpen realloc => Sys2Proof.Machine.execInfOpen realloc s
  | .infZhdr => Sys2Proof.Machine.execInfZhdr s
  | .infBlock => Sys2Proof.Machine.execInfBlock s
  | .infCopy => Sys2Proof.Machine.execInfCopy s
  | .infStream zlib realloc => Sys2Proof.Machine.execInfStream zlib realloc s
  | .pngDecode req => Sys2Proof.Machine.execPngDecode req s
  | .sfRecon imgN depth indexed interlaced => Sys2Proof.Machine.execSfRecon imgN depth indexed interlaced s
  | .sfFilterRow filter fb first => Sys2Proof.Machine.execSfFilterRow filter fb first s
  | .fcConvert src req => Sys2Proof.Machine.execFcConvert src req s
  | .fcPalette out => Sys2Proof.Machine.execFcPalette out s
  | .fcTrnsKey ch => Sys2Proof.Machine.execFcTrnsKey ch s
  | .fcCgbi ch unpremul => Sys2Proof.Machine.execFcCgbi ch unpremul s
  | .fcFlip => Sys2Proof.Machine.execFcFlip s
  | .defCompress quality => Sys2Proof.Machine.execDefCompress quality s
  | .lzHash => Sys2Proof.Machine.execLzHash s
  | .lzMatchlen => Sys2Proof.Machine.execLzMatchlen s
  | .hufEncSym alphabet sym => Sys2Proof.Machine.execHufEncSym alphabet sym s
  | .pngEncode n => Sys2Proof.Machine.execPngEncode n s
  | .adler32 => Sys2Proof.Machine.execAdler32 s
  | .crc32 => Sys2Proof.Machine.execCrc32 s

end Sys2Proof.Machine
end

