-- ==== Sys2Proof/Machine/Commands.lean ====
section
/-! DEFINITION. The steps of the commands, for what the host can meet while one runs: `exec` gives each command's meaning, which
runs these steps. -/

namespace Sys2Proof.Machine

/-- How each command treats the unit state (10_state.md R49, 60_exceptions.md R414 step 3). -/
def kindOf : Instr → CmdKind
  | .nop => .other
  | .bsOpenMem => .unit
  | .bsOpenStream => .unit
  | .bsRead => .unit
  | .bsPeek => .unit
  | .bsSkip => .unit
  | .bsEof => .unit
  | .brInit => .unit
  | .brGet _ => .unit
  | .brAlign => .unit
  | .htBuild _ => .unit
  | .htDecode _ => .unit
  | .htFixed => .unit
  | .infOpen _ => .unit
  | .infZhdr => .unit
  | .infBlock => .unit
  | .infCopy => .unit
  | .infStream _ _ => .top
  | .pngDecode _ => .top
  | .sfRecon _ _ _ _ => .other
  | .sfFilterRow _ _ _ => .other
  | .fcConvert _ _ => .other
  | .fcPalette _ => .other
  | .fcTrnsKey _ => .other
  | .fcCgbi _ _ => .other
  | .fcFlip => .other
  | .defCompress _ => .top
  | .lzHash => .other
  | .lzMatchlen => .other
  | .hufEncSym _ _ => .other
  | .pngEncode _ => .top
  | .adler32 => .other
  | .crc32 => .other

/-- The steps of each command, as its meaning runs them. -/
def bodyOf : Instr → Snapshot → EngM Results
  | .nop => nopBody
  | .bsOpenMem => bsOpenMemBody
  | .bsOpenStream => bsOpenStreamBody
  | .bsRead => bsReadBody
  | .bsPeek => bsPeekBody
  | .bsSkip => bsSkipBody
  | .bsEof => bsEofBody
  | .brInit => brInitBody
  | .brGet n => brGetBody n
  | .brAlign => brAlignBody
  | .htBuild slot => htBuildBody slot
  | .htDecode slot => htDecodeBody slot
  | .htFixed => htFixedBody
  | .infOpen realloc => infOpenBody realloc
  | .infZhdr => infZhdrBody
  | .infBlock => infBlockBody
  | .infCopy => infCopyBody
  | .infStream zlib realloc => infStreamBody zlib realloc
  | .pngDecode req => pngDecodeBody req
  | .sfRecon imgN depth indexed interlaced => sfReconBody imgN depth indexed interlaced
  | .sfFilterRow filter fb first => sfFilterRowBody filter fb first
  | .fcConvert src req => fcConvertBody src req
  | .fcPalette out => fcPaletteBody out
  | .fcTrnsKey ch => fcTrnsKeyBody ch
  | .fcCgbi ch unpremul => fcCgbiBody ch unpremul
  | .fcFlip => fcFlipBody
  | .defCompress quality => defCompressBody quality
  | .lzHash => lzHashBody
  | .lzMatchlen => lzMatchlenBody
  | .hufEncSym alphabet sym => hufEncSymBody alphabet sym
  | .pngEncode n => pngEncodeBody n
  | .adler32 => adler32Body
  | .crc32 => crc32Body

/-- The command that the engine runs: the one in CMD (10_state.md R29, 20_memory.md R82). -/
def State.currentCommand (s : State) : Except Illegal Instr := decode s.cmd

/-- The steps of the command in CMD. -/
def State.steps (s : State) : Snapshot → EngM Results :=
  match s.currentCommand with
  | .ok i => bodyOf i
  | .error _ => illegalBody s.cmd

/-- The engine at the end of the turn it has to make: where the running command comes to a port request, or ends. -/
def State.turnEnd (s : State) : Eng := engineOf (course s.steps s.running)

/-- The engine where the running command stops next. Where it waits, that is where it stands; while it runs, how far it has come
is open (70_reset_and_hazards.md R456), but not past this. -/
def State.nextStop (s : State) : Eng := if s.phase = .run then s.turnEnd else s.eng

/-- What the running command may have written: what a soft reset abandons (70_reset_and_hazards.md R452), and what a host does not
see yet (20_memory.md R79, R81). -/
def State.mayHaveWritten (s : State) : List Written := if s.busy then s.nextStop.written else []

/-- The byte writes that the running command may be making, oldest first: those since the host's last answer. At a port
request, and between commands, there are none. -/
def State.inProgress (s : State) : List Host.Cell := if s.phase = .run then s.turnEnd.journal.reverse else []

end Sys2Proof.Machine
end

