-- ==== Sys2Proof/Machine/Registers.lean ====
section
/-! DEFINITION. The host's side of the machine: the register block, host memory and the two resets (10_state.md R20 to R35,
20_memory.md R70, R71, R79, 70_reset_and_hazards.md R450 to R453). -/

namespace Sys2Proof.Machine

/-! ### Reset -/

/-- The engine's part of the state at a reset of the running machine, which leaves host memory as `mem` (70_reset_and_hazards.md
R451). The arrays of the Huffman slots have free values. The draw counter is the model's own and goes on: draw `e.free` is for
`mem`. -/
def Eng.restart (e : Eng) (mem : Memory) : Eng :=
  { Eng.reset with
    mem := mem
    ht0 := freeHuff (e.free + 1) 2000, ht1 := freeHuff (e.free + 1) 4000, ht2 := freeHuff (e.free + 1) 6000
    free := e.free + 2 }

/-- The reset state of 70_reset_and_hazards.md R451 with `mem` in host memory. -/
def State.restart (s : State) (mem : Memory) : State :=
  { State.reset with
    eng := s.eng.restart mem, rst := s.rst, host := s.host, rdata := s.rdata, mdata := s.mdata, reads := s.reads }

/-! ### Register reads -/

/-- The word a read of the register with word index `k` gives: byte offset 4k (10_state.md R20 to R35). -/
def State.readReg (s : State) (k : Nat) : Word :=
  match k with
  | 0 => Config.idValue
  | 1 => s.ctrl
  | 2 => s.statusWord
  | 3 => s.errcode
  | 4 => s.errinfo
  | 5 => s.cmd
  | 6 => s.quality
  | 8 => s.args[0]
  | 9 => s.args[1]
  | 10 => s.args[2]
  | 11 => s.args[3]
  | 12 => s.args[4]
  | 13 => s.args[5]
  | 14 => s.args[6]
  | 15 => s.args[7]
  | 16 => s.res[0]
  | 17 => s.res[1]
  | 18 => s.res[2]
  | 19 => s.res[3]
  | 20 => s.eng.srcReq.setWidth 32
  | 21 => s.eng.srcReqLen
  | 22 => BitVec.ofNat 32 s.eng.bs.bufaddr
  | 24 => s.eng.allocReq.setWidth 32
  | 25 => s.eng.allocSize
  | 26 => s.eng.allocPtr
  | _ => 0

/-! ### Register writes -/

/-- A write to CTRL: the soft reset if its bit is 1, else the fields (10_state.md R23). Whatever the abandoned command wrote is
unspecified, how far it had come included (70_reset_and_hazards.md R452, notes/assumptions 5). -/
def State.writeCtrl (s : State) (v : Word) : State :=
  if ctrlSoftReset v then s.restart (s.eng.mem.scrambleAll s.eng.free 0 s.mayHaveWritten) else { s with ctrl := v &&& ctrlMask }

/-- A command is accepted (10_state.md R29). -/
def State.accept (s : State) (v : Word) : State := { s with cmd := v, done := false, err := false, run := some s.starting }

/-- A write to CMD (10_state.md R29). -/
def State.writeCmd (s : State) (v : Word) : State :=
  if s.busy || s.srcWait || s.allocWait then { s with cmdOvr := true } else s.accept v

/-- A move of the host at a port joins the log of the running command. -/
def State.logMove (s : State) (m : PortMove) : State := { s with run := s.run.map fun r => { r with log := r.log ++ [m] } }

/-- A write to SRC_RESP (10_state.md R33). -/
def State.writeSrcResp (s : State) (v : Word) : State :=
  if s.srcWait then { (s.logMove (.srcResp v)) with eng := { s.eng with srcReq := 0 } } else s

/-- A write to ALLOC_RESP (10_state.md R35). -/
def State.writeAllocResp (s : State) (v : Word) : State :=
  if s.allocWait then { (s.logMove (.allocResp v)) with eng := s.eng.allocAnswered v } else s

/-- A write of `v` to the register with word index `k` (10_state.md R20 to R35). Read-only and reserved offsets ignore it. -/
def State.writeReg (s : State) (k : Nat) (v : Word) : State :=
  match k with
  | 1 => s.writeCtrl v
  | 2 => s.clearStatus v
  | 5 => s.writeCmd v
  | 6 => { s with quality := v &&& qualityMask }
  | 8 => { s with args := s.args.set 0 v }
  | 9 => { s with args := s.args.set 1 v }
  | 10 => { s with args := s.args.set 2 v }
  | 11 => { s with args := s.args.set 3 v }
  | 12 => { s with args := s.args.set 4 v }
  | 13 => { s with args := s.args.set 5 v }
  | 14 => { s with args := s.args.set 6 v }
  | 15 => { s with args := s.args.set 7 v }
  | 23 => s.writeSrcResp v
  | 27 => s.writeAllocResp v
  | _ => s

/-! ### The host's accesses -/

/-- A register access that the model admits: 32 bits wide, at a multiple of 4 (20_memory.md R71). -/
def accessOk (offset : BitVec 8) (width : AccessWidth) : Bool := decide (width = .w32 ∧ offset.toNat % 4 = 0)

/-- A move of the host in memory joins the running command: its base if the engine has not started on it yet, else its log. -/
def Running.placed (r : Running) (started : Bool) (addr : Nat) (bytes : List Byte) : Running :=
  if started then { r with log := r.log ++ [.place addr bytes] }
  else
    { r with
      base := { r.base with
        mem := r.base.mem.write addr bytes, placed := ⟨addr, bytes.length, false⟩ :: r.base.placed } }

/-- The engine has come to a port request of the running command: one is pending, or one has been answered. -/
def State.started (s : State) : Bool :=
  s.srcWait || s.allocWait || (match s.run with | some r => decide (r.log ≠ []) | none => false)

/-- A host write to memory: at will between commands, within 20_memory.md R79 item 1 while a command runs. -/
def State.writeMem (s : State) (addr : Nat) (bytes : List Byte) : Except Refusal State :=
  if s.busy then
    match hostPlace addr bytes s.eng with
    | .error r => .error r
    | .ok e => .ok { s with eng := e, run := s.run.map fun r => r.placed s.started addr bytes }
  else if addr + bytes.length ≤ Config.addrSpace then .ok { s with eng := { s.eng with mem := s.eng.mem.write addr bytes } }
  else .error .hostAddress

/-- A host read of memory (20_memory.md R70, R75). DESIGN CHOICE: while a command runs, the bytes it has written or may be writing
are free values in the read, since its writes are sure to be seen only when it has ended (R79 item 3) and R81 lets the host see
no order of them before that (notes/assumptions 26). -/
def State.readMem (s : State) (addr len : Nat) : Except Refusal State :=
  if Config.addrSpace < addr + len then .error .hostAddress
  else .ok { s with mdata := s.eng.mem.look s.mayHaveWritten s.reads addr 0 len, reads := s.reads + 1 }

/-- The level of the reset input changes to `level` (70_reset_and_hazards.md R450, R453). The reset does not touch host memory
(R451): what an abandoned command had written stays, and only of its writes in progress it is open which have been made
(notes/assumptions 15). -/
def State.driveRst (s : State) (level : Bool) : State :=
  if level then { s.restart (s.eng.mem.partly s.eng.free 0 s.inProgress) with rst := true } else { s with rst := false }

/-- One host access. While the hardware reset is asserted, register writes are ignored (70_reset_and_hazards.md R453); a read
finds the reset values in the registers. -/
def State.hostAct (s : State) (a : HostAct) : Except Refusal State :=
  match a with
  | .regRead offset width =>
    if accessOk offset width then .ok { s with rdata := s.readReg (offset.toNat / 4) } else .error .registerAccess
  | .regWrite offset width v =>
    if accessOk offset width then .ok (if s.rst then s else s.writeReg (offset.toNat / 4) v) else .error .registerAccess
  | .memRead addr len => s.readMem addr.toNat len
  | .memWrite addr bytes => s.writeMem addr.toNat bytes
  | .setRst level => .ok (s.driveRst level)

/-- The engine has a step to make: a command runs and waits at no port, and the machine is not held in reset (10_state.md
R40). -/
def State.engineRuns (s : State) : Bool := !s.rst && decide (s.phase = .run)

/-- The machine with the host about to write `v` to CMD, and free to accept it. -/
def State.withCommand (s : State) (v : Word) : State :=
  { s with
    rst := false, run := none, eng := { s.eng with srcReq := 0, allocReq := 0 }
    host := ⟨.regWrite 0x14#8 .w32 v, false⟩ :: s.host }

end Sys2Proof.Machine
end

