-- ==== Sys2Proof/Machine/Step.lean ====
section
/-! DEFINITION. One step of the machine: an access of the host, then the engine's run (00_scope.md R16, 30_encoding.md R96,
notes/assumptions 5). -/

namespace Sys2Proof.Machine

/-- The engine's turn: the running command goes on to its end or to its next port request without an answer. Otherwise nothing
happens (70_reset_and_hazards.md R455). -/
def engineTurn (s : State) : Host.Outcome State Fault Refusal :=
  if s.engineRuns then
    match s.currentCommand with
    | .ok i => exec i s
    | .error _ => execIllegal s
  else .next s

/-- One step: the host's next access, if there is one, and then the engine's turn, unless the host's access after that comes
first (notes/assumptions 5). -/
def step (s : State) : Host.Outcome State Fault Refusal :=
  match s.host with
  | [] => engineTurn s
  | h :: hs =>
    match State.hostAct { s with host := hs } h.act with
    | .error r => .refused r
    | .ok s' => if h.burst then .next s' else engineTurn s'

/-- `s` with the host about to issue the command of an opcode-table word (notes/assumptions 3). -/
def State.withFetchWord (s : State) (nbits w : Nat) : State := s.withCommand (tableWord nbits w)

end Sys2Proof.Machine
end

