-- ==== Sys2Proof/Safety.lean ====
section
/-! DEFINITION. What claims about the machine are stated in terms of: the state a command starts from, what completion, failure
and waiting mean, what stays unchanged, and the invariants. -/

namespace Sys2Proof.Machine

/-! ### The state a command starts from -/

/-- The engine as the running command found it at its acceptance. -/
def State.start (s : State) : Eng := s.running.base

/-- ARGk as the running command took it at its acceptance (10_state.md R30). -/
def State.arg (s : State) (k : Fin 8) : Nat := s.running.snap.arg k

/-- The command has come to no port request without one of the answers `answers`, which are all that the host has done since
its acceptance; the engine held no buffer and no request then (10_state.md R48, R29). -/
structure State.Ready (s : State) (answers : List PortMove) : Prop where
  log : s.running.log = answers
  placed : s.start.placed = []
  regions : s.start.regions = []
  written : s.start.written = []
  live : s.start.live = []
  srcReq : s.start.srcReq = 0
  allocReq : s.start.allocReq = 0

/-! ### Frames -/

/-- The registers that a command's end does not touch, and the model's own fields beside them. -/
structure SameRegs (s t : State) : Prop where
  ctrl : t.ctrl = s.ctrl
  quality : t.quality = s.quality
  cmdOvr : t.cmdOvr = s.cmdOvr
  cmd : t.cmd = s.cmd
  args : t.args = s.args
  rst : t.rst = s.rst
  host : t.host = s.host
  rdata : t.rdata = s.rdata
  mdata : t.mdata = s.mdata
  reads : t.reads = s.reads

/-- The ByteSource, STATUS.SRC_EOF with it. -/
structure SameSource (e f : Eng) : Prop where
  bs : f.bs = e.bs
  srcEof : f.srcEof = e.srcEof

/-- The Huffman slots. -/
structure SameSlots (e f : Eng) : Prop where
  ht0 : f.ht0 = e.ht0
  ht1 : f.ht1 = e.ht1
  ht2 : f.ht2 = e.ht2

/-- All the unit state (10_state.md R41 to R44). -/
structure SameUnits (e f : Eng) : Prop where
  source : SameSource e f
  br : f.br = e.br
  slots : SameSlots e f
  inf : f.inf = e.inf

/-- The stream-source port's SRC_REQ_LEN (10_state.md R32). -/
def SameSrcPort (e f : Eng) : Prop := f.srcReqLen = e.srcReqLen

/-- The allocator port's ALLOC_SIZE and ALLOC_PTR (10_state.md R34). -/
def SameAllocPort (e f : Eng) : Prop := f.allocSize = e.allocSize ∧ f.allocPtr = e.allocPtr

/-- The registers of both ports that hold the last request. -/
def SamePorts (e f : Eng) : Prop := SameSrcPort e f ∧ SameAllocPort e f

/-- Every byte of host memory. -/
def SameMem (e f : Eng) : Prop := ∀ x, f.mem.get x = e.mem.get x

/-- Every byte of host memory outside `[a, a+n)`. -/
def SameMemOutside (e f : Eng) (a n : Nat) : Prop := ∀ x, x < a ∨ a + n ≤ x → f.mem.get x = e.mem.get x

/-- Every byte of host memory outside the ranges `ws`. -/
def SameMemBut (e f : Eng) (ws : List Written) : Prop :=
  ∀ x, (∀ w ∈ ws, x < w.addr ∨ w.addr + w.len ≤ x) → f.mem.get x = e.mem.get x

/-- Every byte of host memory is as it was, or as one of the byte writes `ws` leaves it. -/
def MemWithSomeOf (e f : Eng) (ws : List Host.Cell) : Prop := ∀ x, f.mem.get x = e.mem.get x ∨ (x, f.mem.get x) ∈ ws

/-- The whole engine: unit state, ports and host memory. -/
structure Untouched (e f : Eng) : Prop where
  units : SameUnits e f
  ports : SamePorts e f
  mem : SameMem e f

/-- The unit state is invalid (10_state.md R49, 60_exceptions.md R414). -/
structure UnitsInvalid (e : Eng) : Prop where
  br : e.br.valid = false
  ht0 : e.ht0.valid = false
  ht1 : e.ht1.valid = false
  ht2 : e.ht2.valid = false
  inf : e.inf.isOpen = false

/-- The units, LIVE and the ports have their reset values; the arrays of the Huffman slots, which the table leaves unspecified,
are not spoken of (70_reset_and_hazards.md R451). -/
structure UnitsReset (e : Eng) : Prop where
  bs : e.bs = ⟨.closed, 0, 0, 0, [], false, 0⟩
  srcEof : e.srcEof = false
  br : e.br = ⟨false, 0, 0, .source⟩
  ht0 : e.ht0.valid = false
  ht1 : e.ht1.valid = false
  ht2 : e.ht2.valid = false
  inf : e.inf = ⟨false, 0, 0, 0, false⟩
  png : e.png = none
  live : e.live = []
  srcReq : e.srcReq = 0
  srcReqLen : e.srcReqLen = 0
  allocReq : e.allocReq = 0
  allocSize : e.allocSize = 0
  allocPtr : e.allocPtr = 0

/-! ### How a command's turn ends -/

/-- The command has ended and the engine is IDLE: BUSY is 0, no request is pending, LIVE is empty (10_state.md R40, R48). -/
structure Idle (t : State) : Prop where
  run : t.run = none
  srcReq : t.eng.srcReq = 0
  allocReq : t.eng.allocReq = 0
  live : t.eng.live = []

/-- From `s` the command has completed in `t` with these results; ERRCODE and ERRINFO are as they were, and so is ERR
(60_exceptions.md R420). -/
structure Completed (s t : State) (r0 r1 r2 r3 : Word) : Prop where
  idle : Idle t
  done : t.done = true
  res : t.res = #v[r0, r1, r2, r3]
  err : t.err = s.err
  errcode : t.errcode = s.errcode
  errinfo : t.errinfo = s.errinfo
  regs : SameRegs s t

/-- From `s` the command has failed in `t` with `E(code, info)`; DONE is as it was (60_exceptions.md R414). -/
structure Failed (s t : State) (code info : Word) : Prop where
  idle : Idle t
  err : t.err = true
  res : t.res = #v[0, 0, 0, 0]
  errcode : t.errcode = code
  errinfo : t.errinfo = info
  done : t.done = s.done
  regs : SameRegs s t

/-- From `s` the command waits in `t` at one port request; no register of its end is written (10_state.md R40, R31). -/
structure Waiting (s t : State) : Prop where
  run : t.run = some s.running
  one : (t.eng.srcReq ≠ 0 ∧ t.eng.allocReq = 0) ∨ (t.eng.srcReq = 0 ∧ t.eng.allocReq ≠ 0)
  res : t.res = s.res
  done : t.done = s.done
  err : t.err = s.err
  errcode : t.errcode = s.errcode
  errinfo : t.errinfo = s.errinfo
  regs : SameRegs s t

/-- An outcome with `f` applied to the next state. -/
def mapNext (f : State → State) : Host.Outcome State Fault Refusal → Host.Outcome State Fault Refusal
  | .next t => .next (f t)
  | .fault x => .fault x
  | .refused x => .refused x

/-! ### The bits a BitReader has ahead of it -/

/-- The bytes the input of the BitReader still has in host memory (40_bitstream_reader.md R142, R151); for a MEM-mode source or
a memory buffer. -/
def Eng.bytesAhead (e : Eng) : List Byte :=
  match e.br.input with
  | .source => e.mem.read (e.bs.base + e.bs.pos) (e.bs.len - e.bs.pos)
  | .mem a n => e.mem.read a n

/-- The bits the BitReader has ahead of it, the next one first (40_bitstream_reader.md R141): those it holds, then those of the
bytes ahead, each from bit 0 upward. -/
def Eng.bitsAhead (e : Eng) : List Bool := emit e.br.code.toNat e.br.nbits ++ e.bytesAhead.flatMap fun b => emit b.toNat 8

/-- The bits of what the BitReader holds, and then of `bytes`, from bit 0 upward (40_bitstream_reader.md R141). -/
def BitReader.bitsWith (r : BitReader) (bytes : List Byte) : List Bool :=
  emit r.code.toNat r.nbits ++ bytes.flatMap fun b => emit b.toNat 8

/-- The bytes that a refill takes, if there are so many, before `n` bits are read: none where `n` bits are held, else those that make
the bits held 25 or more (40_bitstream_reader.md R142, R143). -/
def BitReader.refillCount (r : BitReader) (n : Nat) : Nat := if r.nbits < n then (32 - r.nbits) / 8 else 0

/-! ### Encodings, codes and formats -/

/-- The rows of the opcode map as a mask and the value under it (30_encoding.md R93; spec/opcode_table.json). -/
def opcodeRows : List (Word × Word) :=
  [(0xFFFFFFFF#32, 0x00000000#32), (0xFFFFFFFF#32, 0x00000010#32), (0xFFFFFFFF#32, 0x00000011#32), (0xFFFFFFFF#32, 0x00000012#32)] ++
  [(0xFFFFFFFF#32, 0x00000013#32), (0xFFFFFFFF#32, 0x00000014#32), (0xFFFFFFFF#32, 0x00000015#32), (0xFFFFFFFF#32, 0x00000018#32)] ++
  [(0xFFE0FFFF#32, 0x00000019#32), (0xFFFFFFFF#32, 0x0000001A#32), (0xFFFFFCFF#32, 0x00000020#32), (0xFFFFFCFF#32, 0x00000021#32)] ++
  [(0xFFFFFFFF#32, 0x00000022#32), (0xFFFFFEFF#32, 0x00000030#32), (0xFFFFFFFF#32, 0x00000031#32), (0xFFFFFFFF#32, 0x00000032#32)] ++
  [(0xFFFFFFFF#32, 0x00000033#32), (0xFFFFFCFF#32, 0x00000034#32), (0xFFFFF8FF#32, 0x00000040#32), (0xFCF0F8FF#32, 0x00000050#32)] ++
  [(0xFEF0F8FF#32, 0x00000051#32), (0xFFF8F8FF#32, 0x00000058#32), (0xFFFFF8FF#32, 0x00000059#32), (0xFFFFF8FF#32, 0x0000005A#32)] ++
  [(0xFFFEF8FF#32, 0x0000005B#32), (0xFFFFFFFF#32, 0x0000005C#32), (0x0000FFFF#32, 0x00000060#32), (0xFFFFFFFF#32, 0x00000061#32)] ++
  [(0xFFFFFFFF#32, 0x00000062#32), (0xFE00FEFF#32, 0x00000063#32), (0xFFFFF8FF#32, 0x00000064#32), (0xFFFFFFFF#32, 0x00000070#32)] ++
  [(0xFFFFFFFF#32, 0x00000071#32)]

/-- The first canonical code of length `l`: every shorter code, shifted to length `l`, comes before it (41_huffman_decoder.md
R163). -/
def canonicalFirst (lens : List Nat) (l : Nat) : Nat :=
  ((List.range l).map fun m => if m = 0 then 0 else lens.count m * 2 ^ (l - m)).sum

/-- The canonical code of symbol `i` (41_huffman_decoder.md R163, R164). -/
def canonicalCode (lens : List Nat) (i : Nat) : Nat :=
  canonicalFirst lens (lens.getD i 0) + (lens.take i).count (lens.getD i 0)

/-- Appends a copy of `n` bytes from `dist` bytes behind the end, one at a time (42_lz77_decompressor.md R193). -/
def copyFrom (dist : Nat) : Nat → List Byte → List Byte
  | 0, out => out
  | n + 1, out => copyFrom dist n (out ++ [out.getD (out.length - dist) 0])

/-- A token may stand after `n` bytes of output: a match is 3 to 258 bytes long, and 1 to 32768 bytes back in the output
(42_lz77_decompressor.md R206, R210). -/
def Token.Valid (n : Nat) : Token → Prop
  | .lit _ => True
  | .copy length dist => 3 ≤ length ∧ length ≤ 258 ∧ 1 ≤ dist ∧ dist ≤ 32768 ∧ dist ≤ n

/-- The output after one more token. -/
def Token.apply (out : List Byte) : Token → List Byte
  | .lit b => out ++ [b]
  | .copy length dist => copyFrom dist length out

/-- Every token of the list may stand where it does, after the output `out`. -/
def TokensValid : List Byte → List Token → Prop
  | _, [] => True
  | out, t :: ts => t.Valid out.length ∧ TokensValid (t.apply out) ts

/-- The bits of the canonical code of symbol `i`, its most significant bit first (41_huffman_decoder.md R163, R164). -/
def codeBits (lens : List Nat) (i : Nat) : List Bool := emit (bitrev (canonicalCode lens i) (lens.getD i 0)) (lens.getD i 0)

/-- One item of the code lengths of a dynamic block: a length, `n` times the length before, or `n` zeros in the short or the long
form (42_lz77_decompressor.md R208; 30_encoding.md R100). -/
inductive LenItem where
  | len (l : Nat)
  | again (n : Nat)
  | zeros (n : Nat)
  | manyZeros (n : Nat)
  deriving DecidableEq, Repr

/-- The symbol of the code-length alphabet that begins an item. -/
def LenItem.symbol : LenItem → Nat
  | .len l => l
  | .again _ => 16
  | .zeros _ => 17
  | .manyZeros _ => 18

/-- The bits of an item under the code-length code lengths `cl`. -/
def LenItem.bits (cl : List Nat) (x : LenItem) : List Bool :=
  codeBits cl x.symbol ++ match x with
    | .len _ => []
    | .again n => emit (n - 3) 2
    | .zeros n => emit (n - 3) 3
    | .manyZeros n => emit (n - 11) 7

/-- The code lengths after one more item. -/
def LenItem.apply (out : List Nat) : LenItem → List Nat
  | .len l => out ++ [l]
  | .again n => out ++ List.replicate n (out.getLastD 0)
  | .zeros n => out ++ List.replicate n 0
  | .manyZeros n => out ++ List.replicate n 0

/-- An item's symbol has a code, and its count is one that its form can hold. -/
def LenItem.Coded (cl : List Nat) (x : LenItem) : Prop :=
  cl.getD x.symbol 0 ≠ 0 ∧ match x with
    | .len l => l ≤ 15
    | .again n => 3 ≤ n ∧ n ≤ 6
    | .zeros n => 3 ≤ n ∧ n ≤ 10
    | .manyZeros n => 11 ≤ n ∧ n ≤ 138

/-- Every item may stand where it does, after the lengths `out`: there is a length before a repeat. -/
def LenItemsValid (cl : List Nat) : List Nat → List LenItem → Prop
  | _, [] => True
  | out, x :: xs => x.Coded cl ∧ (∀ n, x = .again n → out ≠ []) ∧ LenItemsValid cl (x.apply out) xs

/-- The fields of a dynamic block's header: HLIT + 257, HDIST + 1, HCLEN + 4, the code-length code lengths, and the items
(42_lz77_decompressor.md R208). -/
structure DynHeader where
  hlit : Nat
  hdist : Nat
  hclen : Nat
  cl : List Nat
  items : List LenItem
  deriving DecidableEq, Repr

/-- The bits of the header's fields up to its items. -/
def DynHeader.fieldBits (h : DynHeader) : List Bool :=
  emit (h.hlit - 257) 5 ++ emit (h.hdist - 1) 5 ++ emit (h.hclen - 4) 4 ++
    (clorder.take h.hclen).flatMap fun i => emit (h.cl.getD i 0) 3

/-- The header's bits. -/
def DynHeader.bits (h : DynHeader) : List Bool := h.fieldBits ++ h.items.flatMap (LenItem.bits h.cl)

/-- The code lengths that the items give. -/
def DynHeader.lens (h : DynHeader) : List Nat := h.items.foldl LenItem.apply []

/-- The fields are in range, and a code-length code length that the header does not hold is 0. -/
structure DynHeader.FieldsOk (h : DynHeader) : Prop where
  hlit : 257 ≤ h.hlit ∧ h.hlit ≤ 288
  hdist : 1 ≤ h.hdist ∧ h.hdist ≤ 32
  hclen : 4 ≤ h.hclen ∧ h.hclen ≤ 19
  cl : h.cl.length = 19 ∧ ∀ l ∈ h.cl, l ≤ 7
  rest : ∀ i ∈ clorder.drop h.hclen, h.cl.getD i 0 = 0

/-- A symbol of a block with its extra bits: a literal, or a length symbol 257 + j and a distance symbol d
(42_lz77_decompressor.md R210). -/
inductive BlockSym where
  | lit (b : Byte)
  | copy (j le d de : Nat)
  deriving DecidableEq, Repr

/-- The bits of a symbol under the two sets of code lengths. -/
def BlockSym.bits (lit dist : List Nat) : BlockSym → List Bool
  | .lit b => codeBits lit b.toNat
  | .copy j le d de => codeBits lit (257 + j) ++ emit le (lextra.getD j 0) ++ codeBits dist d ++ emit de (dextra.getD d 0)

/-- What a symbol means (30_encoding.md R102, R103). -/
def BlockSym.token : BlockSym → Token
  | .lit b => .lit b
  | .copy j le d de => .copy (lbase.getD j 0 + le) (dbase.getD d 0 + de)

/-- A symbol has its codes, is none of the unused ones, and its extra values fit. -/
def BlockSym.Coded (lit dist : List Nat) : BlockSym → Prop
  | .lit b => lit.getD b.toNat 0 ≠ 0
  | .copy j le d de =>
    j < 29 ∧ lit.getD (257 + j) 0 ≠ 0 ∧ le < 2 ^ lextra.getD j 0 ∧ d < 30 ∧ dist.getD d 0 ≠ 0 ∧ de < 2 ^ dextra.getD d 0

/-- Where the data of pass `k` (0 to 6) begins in the filtered data of an interlaced image (44_scanline_filter_unit.md R289). -/
def Layout.passOffset (l : Layout) (w h k : Nat) : Nat :=
  ((adam7.take k).map fun p => l.filteredSize (p.width w) (p.height h)).sum

/-- A chunk of a PNG file (30_encoding.md R111). -/
structure Chunk where
  type : Nat
  data : List Byte
  crc : List Byte
  deriving DecidableEq, Repr

/-- The bytes of a chunk. -/
def Chunk.bytes (c : Chunk) : List Byte := putBe32 c.data.length ++ putBe32 c.type ++ c.data ++ c.crc

/-- The lengths of a chunk's parts are legal, and so is its CRC where it is checked (43_png_chunk_parser.md R245, R255). -/
structure Chunk.Sound (verify : Bool) (c : Chunk) : Prop where
  type : c.type < 0x100000000
  data : c.data.length ≤ 0x7fffffff
  crcLength : c.crc.length = 4
  crc : verify = true → be32 c.crc 0 = (crc32 0 (putBe32 c.type ++ c.data)).toNat

/-- The 13 data bytes of an IHDR that passes the checks (43_png_chunk_parser.md R246). -/
structure HeaderOk (d : List Byte) : Prop where
  length : d.length = 13
  width : 1 ≤ be32 d 0 ∧ be32 d 0 ≤ 16777216
  height : 1 ≤ be32 d 4 ∧ be32 d 4 ≤ 16777216
  depth : byteAt d 8 = 1 ∨ byteAt d 8 = 2 ∨ byteAt d 8 = 4 ∨ byteAt d 8 = 8
  ctype : byteAt d 9 = 0 ∨ byteAt d 9 = 2 ∨ byteAt d 9 = 3 ∨ byteAt d 9 = 4 ∨ byteAt d 9 = 6
  methods : byteAt d 10 = 0 ∧ byteAt d 11 = 0
  interlace : byteAt d 12 ≤ 1
  area : be32 d 0 * be32 d 4 * 4 ≤ 0x7fffffff

/-- The chunks at the head of a PNG file: IHDR, a PLTE or none, and unknown ancillary ones. -/
structure PngHead where
  ihdr : Chunk
  plte : Option Chunk
  extra : List Chunk
  deriving DecidableEq, Repr

def PngHead.chunks (h : PngHead) : List Chunk := h.ihdr :: (h.plte.toList ++ h.extra)

/-- The colour type. -/
def PngHead.ctype (h : PngHead) : Nat := byteAt h.ihdr.data 9

/-- The samples per pixel in the file: grey 1, RGB 3, index 1, grey and alpha 2, RGBA 4 (30_encoding.md R114). -/
def PngHead.imgN (h : PngHead) : Nat :=
  if h.ctype = 2 then 3 else if h.ctype = 4 then 2 else if h.ctype = 6 then 4 else 1

/-- The entries of the palette, which only an indexed image has (43_png_chunk_parser.md R248). -/
def PngHead.palLen (h : PngHead) : Nat := if h.ctype = 3 then (h.plte.elim 0 fun c => c.data.length) / 3 else 0

/-- The layout of the filtered image (43_png_chunk_parser.md R259). -/
def PngHead.layout (h : PngHead) : Layout := ⟨h.imgN, byteAt h.ihdr.data 8, decide (h.ctype = 3)⟩

/-- Every chunk of the head passes its checks. -/
structure PngHead.Sound (verify : Bool) (h : PngHead) : Prop where
  chunks : ∀ c ∈ h.chunks, c.Sound verify
  ihdr : h.ihdr.type = 0x49484452
  header : HeaderOk h.ihdr.data
  plte : ∀ c ∈ h.plte, c.type = 0x504C5445 ∧ c.data.length ≤ 768 ∧ c.data.length % 3 = 0
  extra : ∀ c ∈ h.extra, c.type.testBit 29 = true ∧ c.type ≠ 0x74524E53

/-- The error of a chunk's end: its `len` data bytes and its CRC, the CRC checked where that is asked for, in `rest`
(43_png_chunk_parser.md R243, R255). -/
def EndFails (verify : Bool) (len type : Nat) (rest : List Byte) (code info : Nat) : Prop :=
  (rest.length < len ∧ code = 0x0201 ∧ info = rest.length) ∨
  (len ≤ rest.length ∧ rest.length < len + 4 ∧ code = 0x0201 ∧ info = rest.length - len) ∨
  (verify = true ∧ len + 4 ≤ rest.length ∧ be32 (rest.drop len) 0 ≠ (crc32 0 (putBe32 type ++ rest.take len)).toNat ∧
    code = 0x0307 ∧ info = type)

/-- The error of a chunk that is skipped: where its CRC is not checked, its data is skipped and not read (43_png_chunk_parser.md
R255). -/
def SkipFails (verify : Bool) (len type : Nat) (rest : List Byte) (code info : Nat) : Prop :=
  (verify = true ∧ EndFails verify len type rest code info) ∨
  (verify = false ∧ rest.length < len + 4 ∧ code = 0x0201 ∧ info = rest.length - len)

/-- The error of a chunk with length `len` and type `type`, whose header `rest` follows, after a sound head and then IDAT chunks
if `started`, with no data if `empty`, in the order of the checks (43_png_chunk_parser.md R245 to R255). -/
def ChunkFails (verify : Bool) (h : PngHead) (started empty : Bool) (len type : Nat) (rest : List Byte) (code info : Nat) : Prop :=
  let indexed := h.ctype = 3
  let keyed := h.ctype = 0 ∨ h.ctype = 2
  let ancillary := type.testBit 29 = true ∧ type ≠ 0x74524E53
  let plte := type = 0x504C5445 ∧ started = false ∧ len ≤ 768 ∧ len % 3 = 0
  let trns := type = 0x74524E53 ∧ started = false ∧
    ((indexed ∧ h.palLen ≠ 0 ∧ len ≤ h.palLen) ∨ (keyed ∧ len = 2 * h.imgN))
  let iend := type = 0x49454E44 ∧ empty = false ∧ verify = true
  (0x7fffffff < len ∧ code = 0x0117 ∧ info = len) ∨
  (len ≤ 0x7fffffff ∧
    ((type = 0x49484452 ∧ code = 0x0103 ∧ info = 0) ∨
     (type = 0x504C5445 ∧ started = true ∧ code = 0x010D ∧ info = 0) ∨
     (type = 0x504C5445 ∧ started = false ∧ (768 < len ∨ len % 3 ≠ 0) ∧ code = 0x010C ∧ info = len) ∨
     (type = 0x74524E53 ∧ started = true ∧ code = 0x010E ∧ info = 0) ∨
     (type = 0x74524E53 ∧ started = false ∧ indexed ∧ h.palLen = 0 ∧ code = 0x010F ∧ info = 0) ∨
     (type = 0x74524E53 ∧ started = false ∧ indexed ∧ h.palLen ≠ 0 ∧ h.palLen < len ∧ code = 0x0110 ∧ info = len) ∨
     (type = 0x74524E53 ∧ started = false ∧ keyed ∧ len ≠ 2 * h.imgN ∧ code = 0x0110 ∧ info = len) ∨
     (type = 0x74524E53 ∧ started = false ∧ (h.ctype = 4 ∨ h.ctype = 6) ∧ code = 0x0111 ∧ info = 0) ∨
     (type = 0x49444154 ∧ indexed ∧ h.palLen = 0 ∧ code = 0x0112 ∧ info = 0) ∨
     (type = 0x49454E44 ∧ empty = true ∧ code = 0x0113 ∧ info = 0) ∨
     (type.testBit 29 = false ∧ (type ≠ 0x49484452 ∧ type ≠ 0x504C5445 ∧ type ≠ 0x49444154 ∧ type ≠ 0x49454E44 ∧
       type ≠ 0x43674249) ∧ code = 0x0501 ∧ info = type) ∨
     ((plte ∨ trns ∨ iend) ∧ EndFails verify len type rest code info) ∨
     ((ancillary ∨ type = 0x43674249) ∧ SkipFails verify len type rest code info)))

/-- The chroma key of a tRNS chunk: the low byte of each 16-bit sample, scaled to the depth (43_png_chunk_parser.md R250). -/
def keyOf (depth n : Nat) (d : List Byte) : List Byte :=
  let scale := if depth = 1 then 255 else if depth = 2 then 85 else if depth = 4 then 17 else 1
  (List.range n).map fun c => byte (byteAt d (2 * c + 1) * scale)

/-- A pixel of three or four channels with red and blue exchanged, its colours divided by alpha where that is asked for and alpha
is above 0 (45_format_converter.md R320). -/
def corrected (unpremul : Bool) (p : List Byte) : List Byte :=
  (List.range p.length).map fun k =>
    let v := byteAt p (2 - k)
    let a := byteAt p 3
    if k = 3 then p.getD 3 0
    else byte (if unpremul ∧ p.length = 4 ∧ 0 < a then min 255 ((v * 255 + a / 2) / a) else v)

/-- The palette colour of index `i`, `n` channels of it: opaque black beyond the palette, and alpha 255 where no tRNS gives one
(43_png_chunk_parser.md R248, R250; 45_format_converter.md R314). -/
def PngHead.colour (h : PngHead) (trns : Option Chunk) (n i : Nat) : List Byte :=
  let pal := h.plte.elim [] fun c => c.data
  let alpha := trns.elim [] fun c => c.data
  (if i < h.palLen then [pal.getD (3 * i) 0, pal.getD (3 * i + 1) 0, pal.getD (3 * i + 2) 0, alpha.getD i 255]
   else [0, 0, 0, 255]).take n

/-- The channels of an image with this head before the requested conversion (43_png_chunk_parser.md R263). -/
def PngHead.channels (h : PngHead) (trns : Option Chunk) : Nat :=
  if h.ctype = 3 then (if trns.isSome then 4 else 3) else h.imgN + (if trns.isSome then 1 else 0)

/-- A pixel `p` of the raster after the chroma key, the CgBI correction and the palette, in this order (43_png_chunk_parser.md
R260 to R263). -/
def PngHead.shown (h : PngHead) (trns : Option Chunk) (cgbi unpremul : Bool) (p : List Byte) : List Byte :=
  if h.ctype = 3 then h.colour trns (h.channels trns) (byteAt p 0)
  else
    let q := p ++ trns.elim [] fun c => [if p = keyOf (byteAt h.ihdr.data 8) h.imgN c.data then 0 else 255]
    if cgbi ∧ 2 < q.length then corrected unpremul q else q

/-! ### Invariants -/

/-- The registers' reserved fields are 0 (10_state.md R22, R23, R28; 60_exceptions.md R411). -/
structure RegsOk (s : State) : Prop where
  ctrl : s.ctrl &&& ctrlMask = s.ctrl
  quality : s.quality &&& qualityMask = s.quality
  errcode : s.errcode.toNat < 65536

/-- An engine between two commands holds no buffer and no request (10_state.md R40, R48). -/
structure AtRest (e : Eng) : Prop where
  live : e.live = []
  srcReq : e.srcReq = 0
  allocReq : e.allocReq = 0

/-- The phases: DONE and ERR are not both 1, and neither is while a command runs; a request is pending only while a command
runs, and at one port only; the running command started from rest (10_state.md R29, R40; 60_exceptions.md R421). -/
structure PhaseOk (s : State) : Prop where
  ends : ¬(s.done = true ∧ s.err = true)
  busy : s.run.isSome = true → s.done = false ∧ s.err = false
  idle : s.run = none → AtRest s.eng
  port : s.eng.srcReq = 0 ∨ s.eng.allocReq = 0
  base : ∀ r, s.run = some r → AtRest r.base

/-- The ByteSource's cursor and slice (10_state.md R41, 20_memory.md R74). -/
structure SourceOk (b : ByteSource) : Prop where
  slice : b.mode = .mem → b.base + b.len ≤ Config.addrSpace ∧ b.pos ≤ b.len
  buffer : b.mode = .stream → b.bufaddr + Config.srcBufSize ≤ Config.addrSpace
  held : b.q.length ≤ Config.srcBufSize

/-- The BitReader's invariant (10_state.md R42), and its memory input within host memory. -/
structure ReaderOk (r : BitReader) : Prop where
  nbits : r.nbits ≤ 32
  code : r.code.toNat < 2 ^ r.nbits
  input : r.valid = true → ∀ a n, r.input = .mem a n → a + n ≤ Config.addrSpace

/-- In a valid slot, a fast entry that is not 0 has a length of at least 1 (10_state.md R43). -/
def SlotOk (h : Huff) : Prop := h.valid = true → ∀ j (_ : j < 512), h.fast[j] = 0 ∨ 512 ≤ h.fast[j].toNat

/-- An open inflate output lies in host memory and is filled up to at most its capacity, and its address and capacity are 32-bit
numbers (10_state.md R44; 42_lz77_decompressor.md R190). -/
structure OutputOk (o : InflateOut) : Prop where
  len : o.isOpen = true → o.len ≤ o.cap
  range : o.isOpen = true → o.out + o.cap ≤ Config.addrSpace
  out : o.isOpen = true → o.out < 2 ^ 32
  cap : o.isOpen = true → o.cap < 2 ^ 32

/-- The IDAT accumulator is filled up to at most its capacity and lies in host memory (43_png_chunk_parser.md R252). -/
structure AccumulatorOk (p : Png) : Prop where
  len : p.idatLen ≤ p.idatCap
  range : p.idat.getD 0 + p.idatCap ≤ Config.addrSpace

/-- The engine's invariant: host memory in its canonical form, and every unit. -/
structure EngOk (e : Eng) : Prop where
  mem : e.mem.wf
  bs : SourceOk e.bs
  br : ReaderOk e.br
  ht0 : SlotOk e.ht0
  ht1 : SlotOk e.ht1
  ht2 : SlotOk e.ht2
  inf : OutputOk e.inf
  png : ∀ p, e.png = some p → AccumulatorOk p

/-- The engine's invariant now, and where the running command started. -/
structure EnginesOk (s : State) : Prop where
  eng : EngOk s.eng
  base : ∀ r, s.run = some r → EngOk r.base

/-! ### Output that may grow -/

/-- The bytes a token adds to the output. -/
def Token.size : Token → Nat
  | .lit _ => 1
  | .copy length _ => length

/-- The capacities that are asked for, in order, as pieces of the sizes `ns` join an output of `len` bytes with room for `cap`: each
time the doublings that hold the need (42_lz77_decompressor.md R191). -/
def growths (cap len : Nat) : List Nat → List Nat
  | [] => []
  | n :: ns =>
    if len + n ≤ cap then growths cap (len + n) ns
    else growCap 32 cap (len + n) :: growths (growCap 32 cap (len + n)) (len + n) ns

/-- The capacities that the running command asks for, for pieces of the sizes `ns`. -/
def State.asks (s : State) (ns : List Nat) : List Nat := growths s.start.inf.cap s.start.inf.len ns

/-- The buffers of the output, in order, as (address, size): the one at the start, and then those that the allocator's answers `ps`
give. -/
def State.outputs (s : State) (ns : List Nat) (ps : List Word) : List (Nat × Nat) :=
  (s.start.inf.out, s.start.inf.cap) :: (ps.zip (s.asks ns)).map fun x => (x.1.toNat, x.2)

/-- The buffer of the output at the end. -/
def State.outputAtEnd (s : State) (ns : List Nat) (ps : List Word) : Nat × Nat := (s.outputs ns ps).getLastD (0, 0)

/-- What the open output holds at the start. -/
def State.outputBefore (s : State) : List Byte := s.start.mem.read s.start.inf.out s.start.inf.len

/-- The unit command that runs has an open output, a fixed one apart from what the BitReader reads, and `ps` are the allocator's
answers to it. -/
structure State.OutputOpen (s : State) (ps : List Word) : Prop where
  ready : s.Ready (ps.map .allocResp)
  isOpen : s.start.inf.isOpen = true
  output : OutputOk s.start.inf
  apart : s.start.inf.realloc = false → s.start.inputMeets s.start.inf.out s.start.inf.cap = false

/-- The open output has room for pieces of the sizes `ns`: it need not grow, or it is reallocatable and `ps` are
the allocator's answers, within its duty, one for each time it grows. No buffer of the output overlaps what the BitReader reads
(42_lz77_decompressor.md R190, R191; 20_memory.md R77). -/
structure State.Room (s : State) (ns : List Nat) (ps : List Word) : Prop where
  opened : s.OutputOpen ps
  apart : s.start.inputMeets s.start.inf.out s.start.inf.cap = false
  answers : ps.length = (s.asks ns).length
  grows : s.asks ns ≠ [] → s.start.inf.realloc = true ∧ s.start.inf.len + ns.sum ≤ 0x7fffffff
  granted : ∀ x ∈ ps.zip (s.asks ns), x.1 ≠ 0 ∧ x.1.toNat + x.2 ≤ 0x100000000 ∧
    s.start.sourceMeets x.1.toNat x.2 = false ∧ s.start.inputMeets x.1.toNat x.2 = false

/-- What a command that has put pieces of the sizes `ns` in its output leaves alone: memory outside the output's buffers, and where
the output has not grown all memory but these pieces, and the allocator port. That ALLOC_SIZE and ALLOC_PTR keep the last request's
values after its answer is DEDUCED (notes/assumptions 13). -/
structure OutputFrame (s : State) (ns : List Nat) (ps : List Word) (f : Eng) : Prop where
  outside : ∀ x, (∀ b ∈ s.outputs ns ps, x < b.1 ∨ b.1 + b.2 ≤ x) → f.mem.get x = s.start.mem.get x
  still : s.asks ns = [] → SameMemOutside s.start f (s.start.inf.out + s.start.inf.len) ns.sum ∧ SameAllocPort s.start f
  asked : ∀ c, (s.asks ns).getLast? = some c → f.allocSize = BitVec.ofNat 32 c ∧
    f.allocPtr = BitVec.ofNat 32 ((s.outputs ns ps).dropLast.getLastD (0, 0)).1
  srcPort : SameSrcPort s.start f

/-- From `s` INF_BLOCK has completed in `t`: a block of type `type` has put pieces of the sizes `ns` in the output, which is now
`after`, and the BitReader has `rest` ahead (42_lz77_decompressor.md R205). -/
structure BlockDone (s t : State) (final : Bool) (type : Nat) (ns : List Nat) (ps : List Word) (after : List Byte)
    (rest : List Bool) : Prop where
  done : Completed s t (if final then 1 else 0) (BitVec.ofNat 32 type) (BitVec.ofNat 32 (s.outputAtEnd ns ps).1)
    (BitVec.ofNat 32 after.length)
  data : t.eng.mem.read (s.outputAtEnd ns ps).1 after.length = after
  inf : t.eng.inf =
    { s.start.inf with out := (s.outputAtEnd ns ps).1, len := after.length, cap := (s.outputAtEnd ns ps).2 }
  bits : t.eng.bitsAhead = rest
  br : t.eng.br.valid = true
  bs : t.eng.bs = { s.start.bs with pos := t.eng.bs.pos }
  frame : OutputFrame s ns ps t.eng

/-- From `s` INF_BLOCK fails with this error, with pieces of the sizes `ns` in the output: the unit state is invalid, and the bytes it
has written have any value (60_exceptions.md R414). -/
def BlockFails (s : State) (ns : List Nat) (ps : List Word) (code info : Nat) : Prop :=
  ∃ t, exec .infBlock s = .next t ∧ Failed s t (BitVec.ofNat 32 code) (BitVec.ofNat 32 info) ∧ UnitsInvalid t.eng ∧
    OutputFrame s ns ps t.eng

/-- A symbol in a block that fails it: a length symbol with no such length, a distance symbol with no such distance, or a literal or
match that reaches back beyond the output of `out` bytes or does not fit a fixed one, with the error of each. `sym` and `dsym`
are the bits of the two alphabets' symbols, `lit` and `dist` tell which of them have a code (42_lz77_decompressor.md R191, R193,
R210). -/
inductive BadSymbol (lit dist : Nat → Prop) (sym dsym : Nat → List Bool) (inf : InflateOut) (out : Nat) :
    List Bool → Nat → Nat → Prop where
  /-- Symbols 286 and 287 stand for no length. -/
  | length (z : Nat) (h : z = 286 ∨ z = 287) (c : lit z) : BadSymbol lit dist sym dsym inf out (sym z) 0x0301 z
  /-- Distance symbols 30 and 31 stand for no distance. -/
  | distance (j le d : Nat) (hj : j < 29) (c : lit (257 + j)) (hl : le < 2 ^ lextra.getD j 0) (h : d = 30 ∨ d = 31) (cd : dist d) :
      BadSymbol lit dist sym dsym inf out (sym (257 + j) ++ emit le (lextra.getD j 0) ++ dsym d) 0x0301 d
  /-- A distance beyond the output. -/
  | far (j le d de : Nat) (hj : j < 29) (c : lit (257 + j)) (hl : le < 2 ^ lextra.getD j 0) (hd : d < 30) (cd : dist d)
      (he : de < 2 ^ dextra.getD d 0) (h : out < dbase.getD d 0 + de) :
      BadSymbol lit dist sym dsym inf out
        (sym (257 + j) ++ emit le (lextra.getD j 0) ++ dsym d ++ emit de (dextra.getD d 0)) 0x0302 (dbase.getD d 0 + de)
  /-- A literal with a fixed output full. -/
  | litFull (b : Byte) (c : lit b.toNat) (hr : inf.realloc = false) (h : inf.cap < out + 1) (hn : out + 1 < 0x100000000) :
      BadSymbol lit dist sym dsym inf out (sym b.toNat) 0x0403 (out + 1)
  /-- A match that does not fit a fixed output. -/
  | copyFull (j le d de : Nat) (hj : j < 29) (c : lit (257 + j)) (hl : le < 2 ^ lextra.getD j 0) (hd : d < 30) (cd : dist d)
      (he : de < 2 ^ dextra.getD d 0) (h : dbase.getD d 0 + de ≤ out) (hr : inf.realloc = false)
      (hf : inf.cap < out + (lbase.getD j 0 + le)) (hn : out + (lbase.getD j 0 + le) < 0x100000000) :
      BadSymbol lit dist sym dsym inf out
        (sym (257 + j) ++ emit le (lextra.getD j 0) ++ dsym d ++ emit de (dextra.getD d 0)) 0x0403
        (out + (lbase.getD j 0 + le))

/-! ### The checks at a command's entry -/

/-- A check: it holds, or it fails with `E(code, info)`. -/
structure Check where
  ok : Bool
  code : Nat
  info : Nat
  deriving DecidableEq, Repr

/-- `check_range(a, n)` (20_memory.md R74 item 1). -/
def inMemory (a n : Nat) : Check := ⟨decide (a + n ≤ 0x100000000), 0x0604, a⟩

/-- An operand that must be in its range (60_exceptions.md R412). -/
def operand (ok : Bool) (v : Nat) : Check := ⟨ok, 0x0602, v⟩

/-- A size that must not pass the ceiling (20_memory.md R80). -/
def sized (n info : Nat) : Check := ⟨decide (n ≤ 0x7fffffff), 0x0402, info⟩

/-- A channel count. -/
def channels (n : Nat) : Check := operand (decide (1 ≤ n ∧ n ≤ 4)) n

/-- The output region `[a, a+n)` meets nothing that the ByteSource reads (20_memory.md R74 item 2). -/
def apartFromSource (s : State) (a n : Nat) : Check := ⟨!s.start.sourceMeets a n, 0x0604, a⟩

/-- The ByteSource is open. -/
def sourceReady (s : State) : Check := ⟨decide (s.start.bs.mode ≠ .closed), 0x0603, 0⟩

/-- The BitReader is started. -/
def bitsReady (s : State) : Check := ⟨s.start.br.valid, 0x0603, 0⟩

/-- A fixed open output meets nothing that the BitReader reads (70_reset_and_hazards.md R458; DEDUCED in notes/assumptions 25). -/
def outputApart (s : State) : Check :=
  ⟨s.start.inf.realloc || !s.start.inputMeets s.start.inf.out s.start.inf.cap, 0x0604, s.start.inf.out⟩

/-- The inflate output is open. -/
def outputReady (s : State) : Check := ⟨s.start.inf.isOpen, 0x0603, 0x20⟩

/-- The checks that each command makes before anything else, in its rule's order (40_bitstream_reader.md R135 to R149;
41_huffman_decoder.md R168, R169; 42_lz77_decompressor.md R201 to R207; 43_png_chunk_parser.md R240; 44_scanline_filter_unit.md
R295, R296; 45_format_converter.md R325 to R329; 46_deflate_encoder.md R365 to R368; 47_checksum_png_writer.md R395 to R397). -/
def entryChecks (s : State) : Instr → List Check
  | .nop => []
  | .bsOpenMem => [inMemory (s.arg 0) (s.arg 1)]
  | .bsOpenStream => [inMemory (s.arg 0) 128]
  | .bsRead => [inMemory (s.arg 0) (s.arg 1), sourceReady s, apartFromSource s (s.arg 0) (s.arg 1)]
  | .bsPeek => [sourceReady s]
  | .bsSkip => [sourceReady s]
  | .bsEof => [sourceReady s]
  | .brInit => [sourceReady s]
  | .brGet n => [bitsReady s, operand (decide (n ≤ 16)) n]
  | .brAlign => [bitsReady s]
  | .htBuild slot =>
    [operand (decide (slot < 3)) slot, operand (decide (s.arg 1 ≤ 288)) (s.arg 1), inMemory (s.arg 0) (s.arg 1)]
  | .htDecode slot => [operand (decide (slot < 3)) slot, bitsReady s]
  | .htFixed => []
  | .infOpen realloc => if realloc then [sized (max (s.arg 1) 1) (max (s.arg 1) 1)] else [inMemory (s.arg 0) (s.arg 1)]
  | .infZhdr => [bitsReady s]
  | .infBlock => [bitsReady s, outputReady s, outputApart s]
  | .infCopy =>
    [outputReady s, operand (decide (3 ≤ s.arg 0 ∧ s.arg 0 ≤ 258)) (s.arg 0),
      operand (decide (1 ≤ s.arg 1 ∧ s.arg 1 ≤ 32768)) (s.arg 1)]
  | .infStream _ realloc =>
    sourceReady s ::
      if realloc then [sized (max (s.arg 1) 1) (max (s.arg 1) 1)]
      else [inMemory (s.arg 0) (s.arg 1), apartFromSource s (s.arg 0) (s.arg 1)]
  | .pngDecode req => [operand (decide (req ≤ 4)) req, sourceReady s]
  | .sfRecon n d indexed interlaced =>
    let len := (⟨n, d, indexed⟩ : Layout).rawLen (s.arg 2) (s.arg 3) interlaced
    [channels n, operand (decide (d = 1 ∨ d = 2 ∨ d = 4 ∨ d = 8)) d, operand (!indexed || decide (n = 1)) n,
      operand (decide (s.arg 2 ≠ 0 ∧ s.arg 3 ≠ 0)) 0, sized (s.arg 2 * s.arg 3 * n) 0, sized len 0,
      inMemory (s.arg 0) (s.arg 1), ⟨decide (s.arg 1 = len), 0x0202, s.arg 1⟩]
  | .sfFilterRow tag fb first =>
    [operand (decide (tag ≤ 4)) tag, channels fb, inMemory (s.arg 0) (s.arg 2)] ++
      (if first then [] else [inMemory (s.arg 1) (s.arg 2)]) ++
      [inMemory (s.arg 3) (s.arg 2 + 1),
        ⟨!overlap (s.arg 3) (s.arg 2 + 1) (s.arg 0) (s.arg 2) &&
          (first || !overlap (s.arg 3) (s.arg 2 + 1) (s.arg 1) (s.arg 2)), 0x0604, s.arg 3⟩]
  | .fcConvert n m =>
    [channels n, channels m, operand (decide (s.arg 1 ≠ 0)) 0, sized (s.arg 1 * max n m) 0, inMemory (s.arg 0) (s.arg 1 * n)]
  | .fcPalette out =>
    [operand (decide (out = 3 ∨ out = 4)) out, operand (decide (s.arg 1 ≠ 0)) 0, operand (decide (s.arg 3 ≤ 256)) (s.arg 3),
      sized (s.arg 1 * out) 0, inMemory (s.arg 0) (s.arg 1), inMemory (s.arg 2) 1024]
  | .fcTrnsKey ch => [operand (decide (ch = 2 ∨ ch = 4)) ch, inMemory (s.arg 0) (s.arg 1 * ch)]
  | .fcCgbi ch _ => [operand (decide (ch = 3 ∨ ch = 4)) ch, inMemory (s.arg 0) (s.arg 1 * ch)]
  | .fcFlip => [inMemory (s.arg 0) (s.arg 1 * s.arg 2)]
  | .defCompress _ => [inMemory (s.arg 0) (s.arg 1), sized (s.arg 1) (s.arg 1)]
  | .lzHash => [inMemory (s.arg 0) 3]
  | .lzMatchlen => [inMemory (s.arg 0) (min (s.arg 2) 258), inMemory (s.arg 1) (min (s.arg 2) 258)]
  | .hufEncSym alphabet sym => [operand (decide (sym ≤ if alphabet then 31 else 287)) sym]
  | .pngEncode n =>
    let row := s.arg 1 * n
    let stride := if s.arg 3 = 0 then row else s.arg 3
    [channels n, operand (decide (s.arg 1 ≠ 0 ∧ s.arg 2 ≠ 0)) 0, sized row 0, operand (decide (row ≤ stride)) stride,
      sized (s.arg 2 * (1 + row)) 0, inMemory (s.arg 0) ((s.arg 2 - 1) * stride + row)]
  | .adler32 => [inMemory (s.arg 0) (s.arg 1)]
  | .crc32 => [inMemory (s.arg 0) (s.arg 1)]

end Sys2Proof.Machine
end

