-- ==== Sys2Proof/Certificates/Slice0/Obligations.lean ====
section
/-! DEFINITION. The statements about the machine, for the provers. -/

open Sys2Proof Sys2Proof.Machine

/-! ### Command words -/

/-- The encoder drops no bit: every well-formed command decodes from its word (30_encoding.md R90, R93). -/
def Obligations.DecodeOfEncode : Prop := ∀ i, WellFormed i = true → decode (encode i) = .ok i

/-- The legal words are those that match a row of the opcode table under its mask, and a word has one meaning: a word that decodes
is the encoding of the well-formed command it decodes to (30_encoding.md R90, R92, R93). -/
def Obligations.LegalWordsHaveOneMeaning : Prop :=
  (∀ w i, decode w = .ok i → WellFormed i = true ∧ encode i = w) ∧
  (∀ w, (∃ i, decode w = .ok i) ↔ ∃ r ∈ opcodeRows, w &&& r.1 = r.2)

/-- A few words written out from 30_encoding.md R93. -/
def Obligations.SampleWords : Prop :=
  decode 0x00000000#32 = .ok .nop ∧ decode 0x00110019#32 = .ok (.brGet 17) ∧ decode 0x00000220#32 = .ok (.htBuild 2) ∧
  decode 0x00000334#32 = .ok (.infStream true true) ∧ decode 0x00000340#32 = .ok (.pngDecode 3) ∧
  decode 0x03080150#32 = .ok (.sfRecon 1 8 true true) ∧ decode 0x00010458#32 = .ok (.fcConvert 4 1) ∧
  decode 0x00FF0060#32 = .ok (.defCompress 255) ∧ decode 0x01000163#32 = .ok (.hufEncSym true 256) ∧
  decode 0x00000071#32 = .ok .crc32 ∧ decode 0x00001012#32 = .error .reservedBits ∧
  decode 0x000000FF#32 = .error .unknownOpcode ∧ decode 0x00000420#32 = .error .unusedSel ∧
  decode 0x00200019#32 = .error .unusedImm

/-- An illegal word fails with `E(0x0601, cmd)` and changes nothing else (30_encoding.md R92). That RES is cleared as in every
failure is the model's reading: notes/assumptions 19. -/
def Obligations.IllegalWordFails : Prop :=
  ∀ s x, s.Ready [] → s.engineRuns = true → decode s.cmd = .error x →
    ∃ t, engineTurn s = .next t ∧ Failed s t 0x0601 s.cmd ∧ Untouched s.start t.eng

/-! ### Steps and the register block -/

/-- With no host access pending and a command running, a step is the meaning of the command in CMD; and the step in which the
host writes the word of a well-formed command to an idle engine is the meaning of that command in the state that has accepted
it. That one step is the whole of `exec`, the host's access and then the run to the end or to the next port request, is the model's
choice, which 70_reset_and_hazards.md R456 leaves open: notes/assumptions 5, and 3 for where commands come from. -/
def Obligations.StepRunsTheCommand : Prop :=
  (∀ s i, s.host = [] → s.engineRuns = true → decode s.cmd = .ok i → step s = exec i s) ∧
  (∀ s i hs, s.host = ⟨.regWrite 0x14#8 .w32 (encode i), false⟩ :: hs → s.rst = false → s.phase = .idle →
    s.srcWait = false → s.allocWait = false → WellFormed i = true →
    step s = exec i (State.accept { s with host := hs } (encode i)))

/-- A write to CMD (10_state.md R29), seen by itself: the engine takes its turn later. -/
def Obligations.CommandWrite : Prop :=
  ∀ s v hs, s.host = ⟨.regWrite 0x14#8 .w32 v, true⟩ :: hs → s.rst = false →
    ((s.busy = true ∨ s.srcWait = true ∨ s.allocWait = true) → step s = .next { s with host := hs, cmdOvr := true }) ∧
    (s.busy = false → s.srcWait = false → s.allocWait = false →
      ∃ t, step s = .next t ∧ t.cmd = v ∧ t.readReg 5 = v ∧ t.done = false ∧ t.err = false ∧ t.busy = true ∧
        t.running.snap = ⟨s.args, s.ctrl, s.quality⟩ ∧ t.start.mem = s.eng.mem ∧ t.running.log = [] ∧ t.eng = s.eng ∧
        t.ctrl = s.ctrl ∧ t.quality = s.quality ∧ t.cmdOvr = s.cmdOvr ∧ t.errcode = s.errcode ∧ t.errinfo = s.errinfo ∧
        t.args = s.args ∧ t.res = s.res) ∧
    State.reset.cmd = 0

/-- A running command sees none of the writes to CTRL, QUALITY and the ARGs that come after its acceptance (10_state.md R24,
R30; 70_reset_and_hazards.md R459). -/
def Obligations.RunningCommandKeepsItsSnapshot : Prop :=
  ∀ i s r c q a, s.run = some r →
    exec i { s with ctrl := c, quality := q, args := a } =
      mapNext (fun t => { t with ctrl := c, quality := q, args := a }) (exec i s)

/-- STATUS reads its bits from their sources (10_state.md R25). A write to it clears DONE, ERR and CMD_OVR where it has a 1 and
changes nothing else; so the host returns from an error (60_exceptions.md R426). -/
def Obligations.StatusRegister : Prop :=
  (∀ s : State, let v := s.readReg 2
     v.getLsbD 0 = s.run.isSome ∧ v.getLsbD 1 = s.done ∧ v.getLsbD 2 = s.err ∧
     v.getLsbD 3 = decide (s.eng.srcReq ≠ 0) ∧ v.getLsbD 4 = decide (s.eng.allocReq ≠ 0) ∧ v.getLsbD 5 = s.cmdOvr ∧
     v.getLsbD 6 = (s.ctrl.getLsbD 0 && (s.done || s.err)) ∧ v.getLsbD 7 = s.eng.srcEof ∧ ∀ i, 8 ≤ i → v.getLsbD i = false) ∧
  (∀ s v hs, s.host = ⟨.regWrite 0x08#8 .w32 v, true⟩ :: hs → s.rst = false →
     step s = .next { s with
       host := hs, done := s.done && !v.getLsbD 1, err := s.err && !v.getLsbD 2, cmdOvr := s.cmdOvr && !v.getLsbD 5 })

/-- ID holds its constant, and a write to it is ignored (10_state.md R21). -/
def Obligations.IdentityRegister : Prop :=
  ∀ s v hs, s.host = ⟨.regWrite 0x00#8 .w32 v, true⟩ :: hs →
    s.readReg 0 = 0x5A430007#32 ∧ (s.readReg 0).extractLsb' 16 16 = 0x5A43#16 ∧ (s.readReg 0).extractLsb' 0 16 = 7#16 ∧
    step s = .next { s with host := hs }

/-- A register's read gives its field; a reserved offset reads 0, and so does a write-only register; a write to an ARG stores the
value there and does nothing else; writes to reserved offsets and to read-only registers are ignored (10_state.md R20 to R35):
word index 7 and those from 28 on are reserved, 23 and 27 are SRC_RESP and ALLOC_RESP. A read changes nothing but what the host
has read (20_memory.md R75), and an access that is not 32 bits wide or not at a multiple of 4 is refused (20_memory.md R71). -/
def Obligations.RegisterAccesses : Prop :=
  (∀ s : State, (∀ k, k = 7 ∨ k = 23 ∨ 27 ≤ k → s.readReg k = 0) ∧
     (s.readReg 1 = s.ctrl ∧ s.readReg 3 = s.errcode ∧ s.readReg 4 = s.errinfo ∧ s.readReg 5 = s.cmd ∧ s.readReg 6 = s.quality) ∧
     (∀ k : Fin 8, s.readReg (8 + k.val) = s.args[k]) ∧ (∀ k : Fin 4, s.readReg (16 + k.val) = s.res[k]) ∧
     (s.readReg 20 = s.eng.srcReq.setWidth 32 ∧ s.readReg 21 = s.eng.srcReqLen ∧
       s.readReg 22 = BitVec.ofNat 32 s.eng.bs.bufaddr ∧ s.readReg 24 = s.eng.allocReq.setWidth 32 ∧
       s.readReg 25 = s.eng.allocSize ∧ s.readReg 26 = s.eng.allocPtr) ∧
     (∀ k v, k = 0 ∨ k = 3 ∨ k = 4 ∨ k = 7 ∨ (16 ≤ k ∧ k ≤ 22) ∨ (24 ≤ k ∧ k ≤ 26) ∨ 28 ≤ k → s.writeReg k v = s)) ∧
  ((∀ s (k : Fin 8) v hs, s.host = ⟨.regWrite (BitVec.ofNat 8 (0x20 + 4 * k.val)) .w32 v, true⟩ :: hs → s.rst = false →
     step s = .next { s with host := hs, args := s.args.set k v }) ∧
   (∀ s (o : BitVec 8) hs, s.host = ⟨.regRead o .w32, true⟩ :: hs → o.toNat % 4 = 0 →
     step s = .next { s with host := hs, rdata := s.readReg (o.toNat / 4) }) ∧
   (∀ s (o : BitVec 8) w b hs, s.host = ⟨.regRead o w, b⟩ :: hs → w ≠ .w32 ∨ o.toNat % 4 ≠ 0 →
     step s = .refused .registerAccess) ∧
   (∀ s (o : BitVec 8) w v b hs, s.host = ⟨.regWrite o w v, b⟩ :: hs → w ≠ .w32 ∨ o.toNat % 4 ≠ 0 →
     step s = .refused .registerAccess))

/-- CTRL and QUALITY keep the fields they have; their reserved bits read 0 (10_state.md R22, R23, R28). A write with
SOFT_RESET = 0. -/
def Obligations.ControlWrites : Prop :=
  ∀ s (v : Word) hs, s.rst = false →
    (s.host = ⟨.regWrite 0x04#8 .w32 v, true⟩ :: hs → v.getLsbD 1 = false →
      ∃ t, step s = .next t ∧ t = { s with host := hs, ctrl := t.ctrl } ∧
        (∀ i, t.ctrl.getLsbD i = (v.getLsbD i && (i == 0 || (decide (2 ≤ i) && decide (i ≤ 6)) || (decide (8 ≤ i) && decide (i ≤ 10)))))) ∧
    (s.host = ⟨.regWrite 0x18#8 .w32 v, true⟩ :: hs →
      ∃ t, step s = .next t ∧ t = { s with host := hs, quality := t.quality } ∧
        ∀ i, t.quality.getLsbD i = (v.getLsbD i && decide (i < 16)))

/-- A port response with no request pending is ignored; with one pending it withdraws the request and reaches the command
(10_state.md R33, R35). By an answer of the allocator that keeps the host's duty a new buffer joins LIVE, a reallocated one takes
the place of the old one and begins with its bytes, a freed one leaves it, and a failure changes nothing (20_memory.md R76, R77).
Two clauses are the model's, DEDUCED: SRC_REQ_LEN, ALLOC_SIZE and ALLOC_PTR keep the last request's values after the answer
(notes/assumptions 13), and LIVE changes at once with the answer, before the engine goes on (notes/assumptions 14). -/
def Obligations.PortResponses : Prop :=
  ∀ s v hs, s.rst = false →
    (s.host = ⟨.regWrite 0x5C#8 .w32 v, true⟩ :: hs →
      (s.eng.srcReq = 0 → step s = .next { s with host := hs }) ∧
      (s.eng.srcReq ≠ 0 → ∀ r, s.run = some r → step s = .next { s with
        host := hs, eng := { s.eng with srcReq := 0 }, run := some { r with log := r.log ++ [.srcResp v] } })) ∧
    (s.host = ⟨.regWrite 0x6C#8 .w32 v, true⟩ :: hs →
      (s.eng.allocReq = 0 → step s = .next { s with host := hs }) ∧
      (s.eng.allocReq ≠ 0 → ∀ r, s.run = some r →
        let e := s.eng
        let p := e.allocPtr.toNat
        let n := e.allocSize.toNat
        ∃ f, step s = .next { s with host := hs, eng := f, run := some { r with log := r.log ++ [.allocResp v] } } ∧
          f.allocReq = 0 ∧
          (e.allocReq ≠ 3 → v = 0 → f = { e with allocReq := 0 }) ∧
          (e.allocReq = 1 → v ≠ 0 → e.allocOk e.live v.toNat n = true →
            f = { e with allocReq := 0, live := e.live ++ [⟨v.toNat, n⟩] }) ∧
          (∀ old, e.allocReq = 2 → v ≠ 0 → e.allocOk (dropBuf p e.live) v.toNat n = true →
            (e.live.find? fun b => decide (b.addr = p)) = some ⟨p, old⟩ →
            f.live = replaceBuf p ⟨v.toNat, n⟩ e.live ∧ f.mem.read v.toNat (min old n) = e.mem.read p (min old n) ∧
              SameMemOutside e f v.toNat (min old n) ∧ SameUnits e f ∧ SamePorts e f) ∧
          (e.allocReq = 3 → f = { e with allocReq := 0, live := dropBuf p e.live })))

/-- The host reads and writes memory freely between commands, and an access outside its 2^32 bytes is refused (20_memory.md R70).
While a command runs, a write that meets one of its regions or a buffer in LIVE is refused, unless it goes to SRC_BUF while a read
request is pending (R79 item 1, 93_implementation_defined.md U24); any other write lands and reaches the command: its moves, or the
memory it starts from if it has not come to a request. A read gives the bytes, but for those that the running command has written or
may be writing, of which nothing is said: the model's reading of R79 and R81, notes/assumptions 26. That a write is judged as a whole,
and refused where only some of its bytes may be written, is the model's choice: notes/assumptions 29. -/
def Obligations.HostMemory : Prop :=
  (∀ s (a : Word) bs hs, s.host = ⟨.memWrite a bs, true⟩ :: hs →
    let inRange := a.toNat + bs.length ≤ 0x100000000
    let inSrcBuf := s.eng.srcReq = 1 ∧ s.eng.bs.bufaddr ≤ a.toNat ∧ a.toNat + bs.length ≤ s.eng.bs.bufaddr + 128
    let meets := (∃ r ∈ s.eng.regions, overlap r.addr r.len a.toNat bs.length = true) ∨
      ∃ b ∈ s.eng.live, overlap b.addr b.size a.toNat bs.length = true
    (¬ inRange → step s = .refused .hostAddress) ∧
    (inRange → s.run = none →
      ∃ t, step s = .next t ∧ t = { s with host := hs, eng := { s.eng with mem := t.eng.mem } } ∧
        t.eng.mem.read a.toNat bs.length = bs ∧ SameMemOutside s.eng t.eng a.toNat bs.length) ∧
    (∀ r, inRange → s.run = some r →
      (meets → ¬ inSrcBuf → step s = .refused .hostWroteRegion) ∧
      (inSrcBuf ∨ ¬ meets →
        ∃ t q, step s = .next t ∧ t = { s with host := hs, eng := t.eng, run := some q } ∧
          t.eng.mem.read a.toNat bs.length = bs ∧ SameMemOutside s.eng t.eng a.toNat bs.length ∧ SameUnits s.eng t.eng ∧
          SamePorts s.eng t.eng ∧ t.eng.live = s.eng.live ∧ t.eng.srcReq = s.eng.srcReq ∧ t.eng.allocReq = s.eng.allocReq ∧
          (s.srcWait = true ∨ s.allocWait = true ∨ r.log ≠ [] → q = { r with log := r.log ++ [.place a.toNat bs] }) ∧
          (s.srcWait = false → s.allocWait = false → r.log = [] →
            q = { r with base := { r.base with mem := q.base.mem, placed := q.base.placed } } ∧
              q.base.mem.read a.toNat bs.length = bs ∧ SameMemOutside r.base q.base a.toNat bs.length)))) ∧
  (∀ s (a : Word) n hs, s.host = ⟨.memRead a n, true⟩ :: hs →
    (0x100000000 < a.toNat + n → step s = .refused .hostAddress) ∧
    (a.toNat + n ≤ 0x100000000 →
      ∃ t, step s = .next t ∧ t = { s with host := hs, mdata := t.mdata, reads := t.reads } ∧ t.mdata.length = n ∧
        (s.run = none → t.mdata = s.eng.mem.read a.toNat n) ∧
        (∀ k, k < n → (∀ w ∈ s.mayHaveWritten, a.toNat + k < w.addr ∨ w.addr + w.len ≤ a.toNat + k) →
          t.mdata.getD k 0 = s.eng.mem.get (a.toNat + k)) ∧
        (s.run ≠ none → s.phase ≠ .run → s.mayHaveWritten = s.eng.written)))

/-! ### Reset -/

/-- The reset state (70_reset_and_hazards.md R451); the table leaves the arrays of the Huffman slots unspecified. -/
def Obligations.ResetState : Prop :=
  let s := State.reset
  s.readReg 0 = 0x5A430007#32 ∧ s.ctrl = 0x00000700#32 ∧ s.readReg 2 = 0 ∧ s.errcode = 0 ∧ s.errinfo = 0 ∧ s.cmd = 0 ∧
  s.quality = 8 ∧ s.args = Vector.replicate 8 0 ∧ s.res = Vector.replicate 4 0 ∧
  s.readReg 20 = 0 ∧ s.readReg 21 = 0 ∧ s.readReg 22 = 0 ∧ s.readReg 24 = 0 ∧ s.readReg 25 = 0 ∧ s.readReg 26 = 0 ∧
  s.phase = .idle ∧ s.run = none ∧ s.eng.bs = ⟨.closed, 0, 0, 0, [], false, 0⟩ ∧ s.eng.br = ⟨false, 0, 0, .source⟩ ∧
  s.eng.ht0.valid = false ∧ s.eng.ht1.valid = false ∧ s.eng.ht2.valid = false ∧ s.eng.inf = ⟨false, 0, 0, 0, false⟩ ∧
  s.eng.png = none ∧ s.eng.live = [] ∧ s.irq = false

/-- The registers and units have their reset values, whatever they were (70_reset_and_hazards.md R451); host memory is untouched
but for what the abandoned command has written or may be writing (R452), at a port request all that it has written. How far a
running command may have come is the model's reading: notes/assumptions 5. -/
def Obligations.SoftReset : Prop :=
  ∀ s (v : Word) hs, s.host = ⟨.regWrite 0x04#8 .w32 v, true⟩ :: hs → s.rst = false → v.getLsbD 1 = true →
    ∃ t, step s = .next t ∧ t.ctrl = 0x00000700#32 ∧ t.readReg 2 = 0 ∧ t.errcode = 0 ∧ t.errinfo = 0 ∧ t.cmd = 0 ∧
      t.quality = 8 ∧ t.args = Vector.replicate 8 0 ∧ t.res = Vector.replicate 4 0 ∧ t.run = none ∧
      UnitsReset t.eng ∧ t.host = hs ∧ (s.busy = false → SameMem s.eng t.eng) ∧ SameMemBut s.eng t.eng s.mayHaveWritten ∧
      (s.phase = .waitSrc ∨ s.phase = .waitAlloc → s.mayHaveWritten = s.eng.written)

/-- Asserting `rst` puts the registers and the units in the reset state and does not touch host memory (70_reset_and_hazards.md R450,
R451); while it is asserted register writes are ignored, and when it is released the engine is idle in that state (R453). In the
phase RUN it is open which of the running command's writes since the host's last answer have been made, so each byte is as it was
or has one of the values written to it: the model's reading, notes/assumptions 15. -/
def Obligations.HardwareReset : Prop :=
  (∀ s hs, s.host = ⟨.setRst true, true⟩ :: hs →
    ∃ t, step s = .next t ∧ t.rst = true ∧ t.host = hs ∧ (∀ k, t.readReg k = State.reset.readReg k) ∧ t.phase = .idle ∧
      t.run = none ∧ UnitsReset t.eng ∧ (s.phase ≠ .run → SameMem s.eng t.eng) ∧ MemWithSomeOf s.eng t.eng s.inProgress) ∧
  (∀ s o v b hs, s.host = ⟨.regWrite o .w32 v, b⟩ :: hs → s.rst = true → o.toNat % 4 = 0 → step s = .next { s with host := hs }) ∧
  (∀ s hs, s.host = ⟨.setRst false, true⟩ :: hs → step s = .next { s with host := hs, rst := false })

/-! ### How a command ends -/

/-- A turn of the engine on a command that started from rest ends in one of three ways: the command has completed, it has failed
with an error of class 1 to 6, or it waits at one port request (10_state.md R40; 60_exceptions.md R410, R414, R420). In all three
every other register is as it was; ERRCODE and ERRINFO change only in a failure (10_state.md R26, R27). -/
def Obligations.TurnEndsInOneOfThreeWays : Prop :=
  ∀ i s t, AtRest s.start → exec i s = .next t →
    (∃ r0 r1 r2 r3, Completed s t r0 r1 r2 r3) ∨
    (∃ code info, Failed s t code info ∧ 0x0101 ≤ code.toNat ∧ code.toNat ≤ 0x0604) ∨
    Waiting s t

/-- On a failure every buffer in LIVE is freed, oldest first, with one Free request each (60_exceptions.md R414 step 1). -/
def Obligations.FailureFreesOldestFirst : Prop :=
  (∀ e b bs, e.live = b :: bs → e.moves = [] →
    ∃ f, unwinding e = .error .wait f ∧ f.allocReq = 3 ∧ f.allocSize = 0 ∧ f.allocPtr = BitVec.ofNat 32 b.addr ∧
      f.live = e.live ∧ f.mem = e.mem) ∧
  (∀ e b bs v ms, e.live = b :: bs → e.moves = .allocResp v :: ms → (∀ c ∈ bs, c.addr ≠ b.addr) →
    ∃ f, f.live = bs ∧ f.moves = ms ∧ f.mem = e.mem ∧ f.allocReq = 0 ∧ unwinding e = unwinding f)

/-- The registers' reserved fields and the phases stay as the spec says, from every state that has them so. -/
def Obligations.StepKeepsRegistersAndPhases : Prop :=
  ∀ s t, RegsOk s → PhaseOk s → step s = .next t → RegsOk t ∧ PhaseOk t

/-- Host memory keeps its canonical form and every unit its invariant, from every state that has them so. -/
def Obligations.StepKeepsEngines : Prop := ∀ s t, EnginesOk s → step s = .next t → EnginesOk t

/-- No step stops the machine: every loop ends within its bound and no access leaves host memory (70_reset_and_hazards.md R457,
20_memory.md R72). -/
def Obligations.StepNeverFaults : Prop := ∀ s x, EnginesOk s → step s ≠ .fault x

/-- The invariants hold at reset. -/
def Obligations.InvariantsAtReset : Prop := RegsOk State.reset ∧ PhaseOk State.reset ∧ EnginesOk State.reset

/-- The checks that a command makes at its entry, on its operands, on the ranges, overlaps and sizes of its buffers and on the units
it needs, are made in the order of `entryChecks`: the first that fails gives its error (20_memory.md R74, R80; 60_exceptions.md R412,
R414). Sources, ports and memory are as they were. So is the unit state, unless the command is a top-level one, which leaves it
invalid all the same (10_state.md R49; DEDUCED in notes/assumptions 9), or a unit command whose error is not of class 6. That BS_READ
looks at the stream buffer, as INF_STREAM does, is DEDUCED in notes/assumptions 12; that INF_BLOCK fails with a fixed output that
overlaps its input is DEDUCED from 70_reset_and_hazards.md R458 in notes/assumptions 25. -/
def Obligations.OperandsOutOfRangeFail : Prop :=
  ∀ s i passed c later, s.Ready [] → entryChecks s i = passed ++ c :: later → (∀ d ∈ passed, d.ok = true) → c.ok = false →
    c.info < 0x100000000 →
    let clears := kindOf i = .top ∨ (kindOf i = .unit ∧ c.code / 256 ≠ 6)
    ∃ t, exec i s = .next t ∧ Failed s t (BitVec.ofNat 32 c.code) (BitVec.ofNat 32 c.info) ∧ SameSource s.start t.eng ∧
      SamePorts s.start t.eng ∧ SameMem s.start t.eng ∧ (clears → UnitsInvalid t.eng) ∧ (¬ clears → SameUnits s.start t.eng)

/-! ### NOP, ByteSource and BitReader -/

/-- NOP completes with four zero results and changes nothing else; its word is 0, and a word with its opcode and a nonzero SEL, IMM
or RSV fails with `E(0x0601, cmd)` (60_exceptions.md R430). -/
def Obligations.NopCompletes : Prop :=
  encode .nop = 0 ∧
  (∀ s, s.Ready [] → ∃ t, exec .nop s = .next t ∧ Completed s t 0 0 0 0 ∧ Untouched s.start t.eng) ∧
  (∀ s, s.Ready [] → s.engineRuns = true → s.cmd.toNat % 256 = 0 → s.cmd ≠ 0 →
    ∃ t, engineTurn s = .next t ∧ Idle t ∧ t.err = true ∧ t.errcode = 0x0601 ∧ t.errinfo = s.cmd ∧ t.done = s.done ∧
      SameRegs s t ∧ Untouched s.start t.eng)

/-- BS_OPEN_MEM opens the slice of ARG0 and ARG1, and BS_OPEN_STREAM the stream-source port with the buffer at ARG0
(40_bitstream_reader.md R135, R136). -/
def Obligations.BsOpenCompletes : Prop :=
  (∀ s, s.Ready [] → s.arg 0 + s.arg 1 ≤ 0x100000000 →
     ∃ t, exec .bsOpenMem s = .next t ∧ Completed s t 0 0 0 0 ∧
       t.eng.bs = ⟨.mem, s.arg 0, s.arg 1, 0, [], false, s.start.bs.bufaddr⟩ ∧ t.eng.srcEof = false ∧
       t.eng.br = { s.start.br with valid := false } ∧ SameSlots s.start t.eng ∧ t.eng.inf = s.start.inf ∧
       SamePorts s.start t.eng ∧ SameMem s.start t.eng) ∧
  (∀ s, s.Ready [] → s.arg 0 + 128 ≤ 0x100000000 →
     ∃ t, exec .bsOpenStream s = .next t ∧ Completed s t 0 0 0 0 ∧
       t.eng.bs = { s.start.bs with mode := .stream, bufaddr := s.arg 0, q := [], eof := false } ∧ t.eng.srcEof = false ∧ t.readReg 22 = BitVec.ofNat 32 (s.arg 0) ∧
       t.eng.br = { s.start.br with valid := false } ∧ SameSlots s.start t.eng ∧ t.eng.inf = s.start.inf ∧
       SamePorts s.start t.eng ∧ SameMem s.start t.eng)

/-- BS_READ: the bytes left, at most ARG1 of them, go to the destination at ARG0, from the slice of a MEM-mode source or from
what a STREAM-mode source holds (40_bitstream_reader.md R131, R137). A destination that overlaps the slice fails it with
`E(0x0604, ARG0)`, and so does one that overlaps the stream buffer (20_memory.md R74 item 2; for the stream buffer DEDUCED in
notes/assumptions 12). -/
def Obligations.BsReadCompletes : Prop :=
  (∀ s, s.Ready [] → s.start.bs.mode = .mem → SourceOk s.start.bs → s.arg 0 + s.arg 1 ≤ 0x100000000 →
     overlap (s.arg 0) (s.arg 1) s.start.bs.base s.start.bs.len = false →
     let k := min (s.arg 1) (s.start.bs.len - s.start.bs.pos)
     ∃ t, exec .bsRead s = .next t ∧ Completed s t (BitVec.ofNat 32 k) 0 0 0 ∧
       (∀ i, i < k → t.eng.mem.get (s.arg 0 + i) = s.start.mem.get (s.start.bs.base + s.start.bs.pos + i)) ∧
       SameMemOutside s.start t.eng (s.arg 0) k ∧ t.eng.bs = { s.start.bs with pos := s.start.bs.pos + k } ∧
       t.eng.srcEof = (s.start.srcEof || decide (k < s.arg 1)) ∧ t.eng.br = s.start.br ∧ SameSlots s.start t.eng ∧
       t.eng.inf = s.start.inf ∧ SamePorts s.start t.eng) ∧
  (∀ s, s.Ready [] → s.start.bs.mode = .stream → s.arg 1 ≤ s.start.bs.q.length → s.arg 0 + s.arg 1 ≤ 0x100000000 →
     overlap (s.arg 0) (s.arg 1) s.start.bs.bufaddr 128 = false →
     ∃ t, exec .bsRead s = .next t ∧ Completed s t (BitVec.ofNat 32 (s.arg 1)) 0 0 0 ∧
       t.eng.mem.read (s.arg 0) (s.arg 1) = s.start.bs.q.take (s.arg 1) ∧
       SameMemOutside s.start t.eng (s.arg 0) (s.arg 1) ∧ t.eng.bs = { s.start.bs with q := s.start.bs.q.drop (s.arg 1) } ∧
       t.eng.srcEof = s.start.srcEof ∧ t.eng.br = s.start.br ∧ SameSlots s.start t.eng ∧ t.eng.inf = s.start.inf ∧
       SamePorts s.start t.eng) ∧
  (∀ s, s.Ready [] → s.arg 0 + s.arg 1 ≤ 0x100000000 →
     (s.start.bs.mode = .mem ∧ overlap (s.arg 0) (s.arg 1) s.start.bs.base s.start.bs.len = true) ∨
       (s.start.bs.mode = .stream ∧ overlap (s.arg 0) (s.arg 1) s.start.bs.bufaddr 128 = true) →
     ∃ t, exec .bsRead s = .next t ∧ Failed s t 0x0604 (BitVec.ofNat 32 (s.arg 0)) ∧ Untouched s.start t.eng)

/-- At a MEM-mode source: BS_PEEK gives the next byte and 1, or 0 and 0 at the end, and consumes nothing; BS_SKIP moves on by ARG1
bytes, at most to the end; BS_EOF tells whether the source is there (40_bitstream_reader.md R131, R132, R138 to R140). -/
def Obligations.BsPeekSkipEofComplete : Prop :=
  (∀ s, s.Ready [] → s.start.bs.mode = .mem → SourceOk s.start.bs →
     (s.start.bs.pos < s.start.bs.len →
       ∃ t, exec .bsPeek s = .next t ∧ Untouched s.start t.eng ∧
         Completed s t ((s.start.mem.get (s.start.bs.base + s.start.bs.pos)).setWidth 32) 1 0 0) ∧
     (s.start.bs.pos = s.start.bs.len →
       ∃ t, exec .bsPeek s = .next t ∧ Completed s t 0 0 0 0 ∧ t.eng.srcEof = true ∧ t.eng.bs = s.start.bs ∧
         t.eng.br = s.start.br ∧ SameSlots s.start t.eng ∧ t.eng.inf = s.start.inf ∧ SamePorts s.start t.eng ∧
         SameMem s.start t.eng)) ∧
  (∀ s, s.Ready [] → s.start.bs.mode = .mem → SourceOk s.start.bs →
     (∃ t, exec .bsSkip s = .next t ∧ Completed s t 0 0 0 0 ∧
       t.eng.bs = { s.start.bs with pos := min s.start.bs.len (s.start.bs.pos + s.arg 1) } ∧
       t.eng.srcEof = s.start.srcEof ∧ t.eng.br = s.start.br ∧ SameSlots s.start t.eng ∧ t.eng.inf = s.start.inf ∧
       SamePorts s.start t.eng ∧ SameMem s.start t.eng) ∧
     (∃ t, exec .bsEof s = .next t ∧ Completed s t (if s.start.bs.pos = s.start.bs.len then 1 else 0) 0 0 0 ∧
       t.eng.bs = s.start.bs ∧ t.eng.srcEof = (s.start.srcEof || decide (s.start.bs.pos = s.start.bs.len)) ∧
       t.eng.br = s.start.br ∧ SameSlots s.start t.eng ∧ t.eng.inf = s.start.inf ∧ SamePorts s.start t.eng ∧
       SameMem s.start t.eng))

/-- A command fails where the unit it needs is not ready (60_exceptions.md R412; 70_reset_and_hazards.md R454): without an open
ByteSource with `E(0x0603, 0)` (40_bitstream_reader.md R131, R137 to R140, R147; 42_lz77_decompressor.md R207;
43_png_chunk_parser.md R240), BS_READ after its range check; without a started BitReader with the same (40_bitstream_reader.md
R148, R149; 41_huffman_decoder.md R169; 42_lz77_decompressor.md R202, R205); without an open output with `E(0x0603, 0x20)`
(42_lz77_decompressor.md R205, R206). That a top-level command leaves the unit state invalid here, too, is DEDUCED in
notes/assumptions 9. -/
def Obligations.UnitsNotReadyFail : Prop :=
  (∀ s, s.Ready [] → s.start.bs.mode = .closed →
    (∀ i, i = .bsPeek ∨ i = .bsSkip ∨ i = .bsEof ∨ i = .brInit ∨ (i = .bsRead ∧ s.arg 0 + s.arg 1 ≤ 0x100000000) →
      ∃ t, exec i s = .next t ∧ Failed s t 0x0603 0 ∧ Untouched s.start t.eng) ∧
    (∀ i, (∃ z r, i = .infStream z r) ∨ (∃ req, i = .pngDecode req ∧ req ≤ 4) →
      ∃ t, exec i s = .next t ∧ Failed s t 0x0603 0 ∧ SameSource s.start t.eng ∧ SamePorts s.start t.eng ∧
        SameMem s.start t.eng ∧ UnitsInvalid t.eng)) ∧
  (∀ s i, s.Ready [] → s.start.br.valid = false →
    (∃ n, i = .brGet n) ∨ i = .brAlign ∨ (∃ slot, i = .htDecode slot ∧ slot < 3) ∨ i = .infZhdr ∨ i = .infBlock →
    ∃ t, exec i s = .next t ∧ Failed s t 0x0603 0 ∧ Untouched s.start t.eng) ∧
  (∀ s i, s.Ready [] → s.start.inf.isOpen = false → i = .infCopy ∨ (i = .infBlock ∧ s.start.br.valid = true) →
    ∃ t, exec i s = .next t ∧ Failed s t 0x0603 0x20 ∧ Untouched s.start t.eng)

/-- A STREAM-mode source with an empty buffer asks the host for 128 bytes and waits; the bytes the host places at SRC_BUF are the
source's next ones, and the answer 0 is the end of input (40_bitstream_reader.md R133, R134; 10_state.md R32, R33). -/
def Obligations.StreamRefill : Prop :=
  ∀ s, s.start.bs.mode = .stream → s.start.bs.q = [] → s.start.bs.eof = false →
    s.start.bs.bufaddr + 128 ≤ 0x100000000 →
    (s.Ready [] → ∃ t, exec .bsPeek s = .next t ∧ Waiting s t ∧ t.eng.srcReq = 1 ∧ t.eng.srcReqLen = 128 ∧
      t.readReg 22 = BitVec.ofNat 32 s.start.bs.bufaddr ∧ SameUnits s.start t.eng ∧ SameMem s.start t.eng) ∧
    (∀ b bs, bs.length < 128 →
      s.Ready [.place s.start.bs.bufaddr (b :: bs), .srcResp (BitVec.ofNat 32 (bs.length + 1))] →
      ∃ t, exec .bsPeek s = .next t ∧ Completed s t (b.setWidth 32) 1 0 0 ∧ t.eng.bs = { s.start.bs with q := b :: bs } ∧
        t.eng.srcEof = s.start.srcEof ∧ SameMemOutside s.start t.eng s.start.bs.bufaddr (bs.length + 1) ∧
        t.eng.br = s.start.br ∧ SameSlots s.start t.eng ∧ t.eng.inf = s.start.inf ∧ SameAllocPort s.start t.eng) ∧
    (s.Ready [.srcResp 0] →
      ∃ t, exec .bsPeek s = .next t ∧ Completed s t 0 0 0 0 ∧ t.eng.bs = { s.start.bs with eof := true } ∧
        t.eng.srcEof = true ∧ SameMem s.start t.eng ∧ t.eng.br = s.start.br ∧ SameSlots s.start t.eng ∧
        t.eng.inf = s.start.inf ∧ SameAllocPort s.start t.eng)

/-- BS_SKIP at a STREAM-mode source takes what the buffer holds and asks the host to skip the rest; BS_EOF asks the host only
when the buffer is empty and the end has not been seen (40_bitstream_reader.md R132, R133, R139, R140; 10_state.md R32, R33). -/
def Obligations.StreamSkipAndEof : Prop :=
  ∀ s, s.start.bs.mode = .stream →
    (s.Ready [] → s.arg 1 ≤ s.start.bs.q.length ∨ s.start.bs.eof = true →
      ∃ t, exec .bsSkip s = .next t ∧ Completed s t 0 0 0 0 ∧
        t.eng.bs = { s.start.bs with q := s.start.bs.q.drop (s.arg 1) } ∧ t.eng.srcEof = s.start.srcEof ∧
        t.eng.br = s.start.br ∧ SameSlots s.start t.eng ∧ t.eng.inf = s.start.inf ∧ SamePorts s.start t.eng ∧
        SameMem s.start t.eng) ∧
    (s.start.bs.q.length < s.arg 1 → s.start.bs.eof = false →
      (s.Ready [] → ∃ t, exec .bsSkip s = .next t ∧ Waiting s t ∧ t.eng.srcReq = 2 ∧
        t.eng.srcReqLen = BitVec.ofNat 32 (s.arg 1 - s.start.bs.q.length) ∧ SameMem s.start t.eng) ∧
      (∀ v, s.Ready [.srcResp v] → ∃ t, exec .bsSkip s = .next t ∧ Completed s t 0 0 0 0 ∧
        t.eng.bs = { s.start.bs with q := [] } ∧ t.eng.srcEof = s.start.srcEof ∧ t.eng.br = s.start.br ∧
        SameSlots s.start t.eng ∧ t.eng.inf = s.start.inf ∧ SameAllocPort s.start t.eng ∧ SameMem s.start t.eng)) ∧
    (s.Ready [] → s.start.bs.q ≠ [] → ∃ t, exec .bsEof s = .next t ∧ Completed s t 0 0 0 0 ∧ Untouched s.start t.eng) ∧
    (s.Ready [] → s.start.bs.q = [] → s.start.bs.eof = true →
      ∃ t, exec .bsEof s = .next t ∧ Completed s t 1 0 0 0 ∧ t.eng.srcEof = true ∧ t.eng.bs = s.start.bs ∧
        t.eng.br = s.start.br ∧ SameSlots s.start t.eng ∧ t.eng.inf = s.start.inf ∧ SamePorts s.start t.eng ∧
        SameMem s.start t.eng) ∧
    (s.start.bs.q = [] → s.start.bs.eof = false →
      (s.Ready [] → ∃ t, exec .bsEof s = .next t ∧ Waiting s t ∧ t.eng.srcReq = 3 ∧ t.eng.srcReqLen = 0 ∧
        SameUnits s.start t.eng ∧ SameMem s.start t.eng) ∧
      (∀ v, s.Ready [.srcResp v] → ∃ t, exec .bsEof s = .next t ∧
        Completed s t (if v.getLsbD 0 then 1 else 0) 0 0 0 ∧ t.eng.srcEof = (s.start.srcEof || v.getLsbD 0) ∧
        t.eng.bs = s.start.bs ∧ t.eng.br = s.start.br ∧ SameSlots s.start t.eng ∧ t.eng.inf = s.start.inf ∧
        SameAllocPort s.start t.eng ∧ SameMem s.start t.eng))

/-- BR_INIT starts an empty BitReader over the ByteSource (40_bitstream_reader.md R147); BR_ALIGN drops the bits up to the byte
boundary and gives their count (R145, R149). -/
def Obligations.BrInitAndBrAlignComplete : Prop :=
  (∀ s, s.Ready [] → s.start.bs.mode ≠ .closed →
     ∃ t, exec .brInit s = .next t ∧ Completed s t 0 0 0 0 ∧ t.eng.br = ⟨true, 0, 0, .source⟩ ∧ SameSource s.start t.eng ∧
       SameSlots s.start t.eng ∧ t.eng.inf = s.start.inf ∧ SamePorts s.start t.eng ∧ SameMem s.start t.eng) ∧
  (∀ s, s.Ready [] → s.start.br.valid = true → ReaderOk s.start.br →
     let k := s.start.br.nbits % 8
     ∃ t, exec .brAlign s = .next t ∧ Completed s t (BitVec.ofNat 32 k) 0 0 0 ∧
       t.eng.br = { s.start.br with code := s.start.br.code >>> k, nbits := s.start.br.nbits - k } ∧
       t.eng.bitsAhead = s.start.bitsAhead.drop k ∧ SameSource s.start t.eng ∧ SameSlots s.start t.eng ∧
       t.eng.inf = s.start.inf ∧ SamePorts s.start t.eng ∧ SameMem s.start t.eng)

/-- BR_GET takes the next n bits of the stream, the first one least significant; past the end of input it fails with
`E(0x0205, n)` and the unit state is invalid (40_bitstream_reader.md R141 to R143, R148; 60_exceptions.md R414). Over a STREAM-mode
source it takes the bytes that are held; where they do not fill it, it asks the host for 128 more, goes on with what the host places,
and the answer 0 is the end of input (R131, R133, R134). -/
def Obligations.BrGetReadsTheStream : Prop :=
  (∀ s n, s.Ready [] → n ≤ 16 → s.start.br.valid = true → ReaderOk s.start.br → SourceOk s.start.bs →
    (s.start.br.input = .source → s.start.bs.mode = .mem) →
    (n ≤ s.start.bitsAhead.length →
      ∃ t, exec (.brGet n) s = .next t ∧ Completed s t (BitVec.ofNat 32 (bitsValue (s.start.bitsAhead.take n))) 0 0 0 ∧
        t.eng.bitsAhead = s.start.bitsAhead.drop n ∧ t.eng.br.valid = true ∧
        t.eng.bs = { s.start.bs with pos := t.eng.bs.pos } ∧ SameSlots s.start t.eng ∧ t.eng.inf = s.start.inf ∧
        SamePorts s.start t.eng ∧ SameMem s.start t.eng) ∧
    (s.start.bitsAhead.length < n →
      ∃ t, exec (.brGet n) s = .next t ∧ Failed s t 0x0205 (BitVec.ofNat 32 n) ∧ UnitsInvalid t.eng ∧
        SameMem s.start t.eng)) ∧
  (∀ s n, n ≤ 16 → s.start.br.valid = true → ReaderOk s.start.br → SourceOk s.start.bs → s.start.br.input = .source →
    s.start.bs.mode = .stream →
    let bs := s.start.bs
    let k := s.start.br.refillCount n
    let gets := fun (t : State) (bytes : List Byte) =>
      exec (.brGet n) s = .next t ∧
      Completed s t (BitVec.ofNat 32 (bitsValue ((s.start.br.bitsWith bytes).take n))) 0 0 0 ∧
      t.eng.br.bitsWith t.eng.bs.q = (s.start.br.bitsWith bytes).drop n ∧ t.eng.br.valid = true ∧ t.eng.br.input = .source ∧
      SameSlots s.start t.eng ∧ t.eng.inf = s.start.inf ∧ SameAllocPort s.start t.eng
    (k ≤ bs.q.length → s.Ready [] → ∃ t, gets t bs.q ∧ t.eng.bs = { bs with q := bs.q.drop k } ∧
      t.eng.srcEof = s.start.srcEof ∧ SameSrcPort s.start t.eng ∧ SameMem s.start t.eng) ∧
    (bs.q.length < k →
      (bs.eof = false → s.Ready [] → ∃ t, exec (.brGet n) s = .next t ∧ Waiting s t ∧ t.eng.srcReq = 1 ∧
        t.eng.srcReqLen = 128 ∧ t.readReg 22 = BitVec.ofNat 32 bs.bufaddr ∧ SameMem s.start t.eng) ∧
      (∀ c : List Byte, bs.eof = false → c.length ≤ 128 → c ≠ [] → k ≤ bs.q.length + c.length →
        s.Ready [.place bs.bufaddr c, .srcResp (BitVec.ofNat 32 c.length)] →
        ∃ t, gets t (bs.q ++ c) ∧ t.eng.bs = { bs with q := (bs.q ++ c).drop k } ∧ t.eng.srcEof = s.start.srcEof ∧
          SameMemOutside s.start t.eng bs.bufaddr c.length) ∧
      (∀ answers, (bs.eof = true ∧ answers = []) ∨ (bs.eof = false ∧ answers = [.srcResp 0]) → s.Ready answers →
        (n ≤ (s.start.br.bitsWith bs.q).length → ∃ t, gets t bs.q ∧ t.eng.bs = { bs with q := [], eof := true } ∧
          t.eng.srcEof = true ∧ SameMem s.start t.eng) ∧
        ((s.start.br.bitsWith bs.q).length < n → ∃ t, exec (.brGet n) s = .next t ∧
          Failed s t 0x0205 (BitVec.ofNat 32 n) ∧ UnitsInvalid t.eng ∧ SameMem s.start t.eng))))

/-! ### Huffman decoder -/

/-- HT_BUILD builds the slot from the code lengths in memory, or fails with the error the lengths have
(41_huffman_decoder.md R160, R168). Too many lengths, or a length above 15, are an operand out of range. HT_FIXED builds slots 0
and 1 from the fixed code lengths (R170). -/
def Obligations.HtBuildAndHtFixedComplete : Prop :=
  (∀ s slot lens, s.Ready [] → slot < 3 → lens = (s.start.mem.read (s.arg 0) (s.arg 1)).map (·.toNat) →
    (288 < s.arg 1 → ∃ t, exec (.htBuild slot) s = .next t ∧ Failed s t 0x0602 (BitVec.ofNat 32 (s.arg 1)) ∧
      Untouched s.start t.eng) ∧
    (s.arg 1 ≤ 288 → s.arg 0 + s.arg 1 ≤ 0x100000000 →
      (∀ i, i < s.arg 1 → 15 < lens.getD i 0 → (∀ j, j < i → lens.getD j 0 ≤ 15) →
        ∃ t, exec (.htBuild slot) s = .next t ∧ Failed s t 0x0602 (BitVec.ofNat 32 i) ∧ Untouched s.start t.eng) ∧
      ((∀ l ∈ lens, l ≤ 15) →
        (∀ h, buildSlot lens = .ok h →
          ∃ t, exec (.htBuild slot) s = .next t ∧ Completed s t 0 0 0 0 ∧ t.eng.slot slot = h ∧ h.valid = true ∧
            (∀ k, k < 3 → k ≠ slot → t.eng.slot k = s.start.slot k) ∧ SameSource s.start t.eng ∧ t.eng.br = s.start.br ∧
            t.eng.inf = s.start.inf ∧ SamePorts s.start t.eng ∧ SameMem s.start t.eng) ∧
        (∀ x, buildSlot lens = .error x →
          ∃ t, exec (.htBuild slot) s = .next t ∧ Failed s t (BitVec.ofNat 32 x.1) (BitVec.ofNat 32 x.2) ∧
            UnitsInvalid t.eng ∧ SameSource s.start t.eng ∧ SamePorts s.start t.eng ∧ SameMem s.start t.eng)))) ∧
  (∃ h0 h1, buildSlot fixedLitLen = .ok h0 ∧ buildSlot fixedDistLen = .ok h1 ∧
    ∀ s, s.Ready [] →
      ∃ t, exec .htFixed s = .next t ∧ Completed s t 0 0 0 0 ∧ t.eng.ht0 = h0 ∧ t.eng.ht1 = h1 ∧
        t.eng.ht2 = s.start.ht2 ∧ SameSource s.start t.eng ∧ t.eng.br = s.start.br ∧ t.eng.inf = s.start.inf ∧
        SamePorts s.start t.eng ∧ SameMem s.start t.eng)

/-- Code lengths are rejected with "bad sizes" for the first class that holds more codes than its length allows, else with "bad
codelengths" for the first class whose last code does not fit; all other lengths are accepted, incomplete ones included
(41_huffman_decoder.md R161, R163, R167). -/
def Obligations.CodeLengthsAcceptedOrRejected : Prop :=
  ∀ lens : List Nat, lens.length ≤ 288 → (∀ l ∈ lens, l ≤ 15) →
    let bad := fun l => 2 ^ l < lens.count l
    let wide := fun l => lens.count l ≠ 0 ∧ 2 ^ l < canonicalFirst lens l + lens.count l
    (∀ l, 1 ≤ l → l ≤ 15 → bad l → (∀ m, 1 ≤ m → m < l → ¬ bad m) → buildSlot lens = .error (0x0305, l)) ∧
    (∀ l, 1 ≤ l → l ≤ 15 → (∀ m, 1 ≤ m → m ≤ 15 → ¬ bad m) → wide l → (∀ m, 1 ≤ m → m < l → ¬ wide m) →
      buildSlot lens = .error (0x0304, l)) ∧
    ((∀ m, 1 ≤ m → m ≤ 15 → ¬ bad m ∧ ¬ wide m) → ∃ h, buildSlot lens = .ok h)

/-- HT_DECODE of a symbol's canonical code, packed most significant bit first, gives the symbol and consumes the code's bits, for
every accepted set of code lengths and every symbol, by the fast table or the slow path; where the next bits are no symbol's code
it fails with "bad huffman code", and a slot that is not valid fails it (41_huffman_decoder.md R163 to R167, R169). -/
def Obligations.HtDecodeReadsCanonicalCodes : Prop :=
  (∀ s slot lens h, s.Ready [] → slot < 3 → s.start.br.valid = true → ReaderOk s.start.br → SourceOk s.start.bs →
     (s.start.br.input = .source → s.start.bs.mode = .mem) → lens.length ≤ 288 → (∀ l ∈ lens, l ≤ 15) →
     buildSlot lens = .ok h → s.start.slot slot = h →
     let codeBits := fun i => emit (bitrev (canonicalCode lens i) (lens.getD i 0)) (lens.getD i 0)
     (∀ i, i < lens.length → lens.getD i 0 ≠ 0 → s.start.bitsAhead.take (lens.getD i 0) = codeBits i →
       ∃ t, exec (.htDecode slot) s = .next t ∧ Completed s t (BitVec.ofNat 32 i) 0 0 0 ∧
         t.eng.bitsAhead = s.start.bitsAhead.drop (lens.getD i 0) ∧ t.eng.br.valid = true ∧
         t.eng.bs = { s.start.bs with pos := t.eng.bs.pos } ∧ SameSlots s.start t.eng ∧ t.eng.inf = s.start.inf ∧
         SamePorts s.start t.eng ∧ SameMem s.start t.eng) ∧
     (16 ≤ s.start.bitsAhead.length →
       (∀ i, i < lens.length → lens.getD i 0 ≠ 0 → s.start.bitsAhead.take (lens.getD i 0) ≠ codeBits i) →
       ∃ t, exec (.htDecode slot) s = .next t ∧ Failed s t 0x0301 0 ∧ UnitsInvalid t.eng ∧ SameMem s.start t.eng)) ∧
  (∀ s slot, s.Ready [] → slot < 3 → s.start.br.valid = true → (s.start.slot slot).valid = false →
     ∃ t, exec (.htDecode slot) s = .next t ∧ Failed s t 0x0603 (BitVec.ofNat 32 (16 + slot)) ∧ Untouched s.start t.eng)

/-! ### Inflate -/

/-- INF_OPEN takes the fixed destination of ARG0 and ARG1, or a new buffer of at least one byte from the host's allocator
(42_lz77_decompressor.md R201; 20_memory.md R76).
ALLOC_SIZE and ALLOC_PTR keep the last request's values by notes/assumptions 13. -/
def Obligations.InfOpenCompletes : Prop :=
  (∀ s, s.Ready [] → s.arg 0 + s.arg 1 ≤ 0x100000000 →
    ∃ t, exec (.infOpen false) s = .next t ∧
      Completed s t (BitVec.ofNat 32 (s.arg 0)) (BitVec.ofNat 32 (s.arg 1)) 0 0 ∧
      t.eng.inf = ⟨true, s.arg 0, 0, s.arg 1, false⟩ ∧ SameSource s.start t.eng ∧ t.eng.br = s.start.br ∧
      SameSlots s.start t.eng ∧ SamePorts s.start t.eng ∧ SameMem s.start t.eng) ∧
  (∀ s p, s.Ready [.allocResp p] → max (s.arg 1) 1 ≤ 0x7fffffff → p ≠ 0 → p.toNat + max (s.arg 1) 1 ≤ 0x100000000 →
    ∃ t, exec (.infOpen true) s = .next t ∧ Completed s t p (BitVec.ofNat 32 (max (s.arg 1) 1)) 0 0 ∧
      t.eng.inf = ⟨true, p.toNat, 0, max (s.arg 1) 1, true⟩ ∧ t.eng.allocSize = BitVec.ofNat 32 (max (s.arg 1) 1) ∧
      t.eng.allocPtr = 0 ∧ SameSrcPort s.start t.eng ∧ SameSource s.start t.eng ∧ t.eng.br = s.start.br ∧
      SameSlots s.start t.eng ∧ SameMem s.start t.eng) ∧
  (∀ s, max (s.arg 1) 1 ≤ 0x7fffffff →
    (s.Ready [] → ∃ t, exec (.infOpen true) s = .next t ∧ Waiting s t ∧ t.eng.allocReq = 1 ∧
      t.eng.allocSize = BitVec.ofNat 32 (max (s.arg 1) 1) ∧ t.eng.allocPtr = 0 ∧ SameUnits s.start t.eng ∧
      SameMem s.start t.eng) ∧
    (s.Ready [.allocResp 0] → ∃ t, exec (.infOpen true) s = .next t ∧
      Failed s t 0x0401 (BitVec.ofNat 32 (max (s.arg 1) 1)) ∧ UnitsInvalid t.eng ∧ SameMem s.start t.eng))

/-- INF_ZHDR reads the two bytes of a zlib header at the next byte boundary and checks them, in the order of
42_lz77_decompressor.md R202: the check bits, the dictionary bit, the method. A header cut short fails with `E(0x0114, 0)`. -/
def Obligations.InfZhdrCompletes : Prop :=
  ∀ s v cmf flg, s.Ready [] → s.start.br.valid = true → ReaderOk s.start.br → SourceOk s.start.bs →
    (s.start.br.input = .source → s.start.bs.mode = .mem) → v = s.start.bitsAhead.drop (s.start.br.nbits % 8) →
    cmf = bitsValue (v.take 8) → flg = bitsValue ((v.drop 8).take 8) →
    let fails := fun code info => ∃ t, exec .infZhdr s = .next t ∧ Failed s t code (BitVec.ofNat 32 info) ∧ UnitsInvalid t.eng ∧
      SameMem s.start t.eng
    (16 ≤ v.length →
      ((cmf * 256 + flg) % 31 = 0 → flg.testBit 5 = false → cmf % 16 = 8 →
        ∃ t, exec .infZhdr s = .next t ∧ Completed s t (BitVec.ofNat 32 cmf) (BitVec.ofNat 32 flg) 0 0 ∧
          t.eng.bitsAhead = v.drop 16 ∧ t.eng.br.valid = true ∧ t.eng.bs = { s.start.bs with pos := t.eng.bs.pos } ∧
          SameSlots s.start t.eng ∧ t.eng.inf = s.start.inf ∧ SamePorts s.start t.eng ∧ SameMem s.start t.eng) ∧
      ((cmf * 256 + flg) % 31 ≠ 0 → fails 0x0114 (cmf * 256 + flg)) ∧
      ((cmf * 256 + flg) % 31 = 0 → flg.testBit 5 = true → fails 0x0115 flg) ∧
      ((cmf * 256 + flg) % 31 = 0 → flg.testBit 5 = false → cmf % 16 ≠ 8 → fails 0x0116 cmf)) ∧
    (v.length < 16 → fails 0x0114 0)

/-- INF_BLOCK on a stored block: its data is appended to the output, which grows where it must (42_lz77_decompressor.md R191, R194,
R203, R205). The block's bits are the header, the padding up to the byte boundary, and bytes: LEN, NLEN and the data. It fails with
`E(0x0204, LEN)` where NLEN is not the complement of LEN, with `E(0x0205, ·)` where the header is cut short, with `E(0x0403, need)`
where a fixed output has no room, with `E(0x0203, 0)` where the data is cut short; a block of the reserved type fails (30_encoding.md
R98). The input is a MEM-mode source or a memory buffer, and the allocator grants what it is asked. Not the spec's words but the model's
reading: that no byte of a reallocatable output beyond its length is written (DESIGN CHOICE, notes/assumptions 11), that ALLOC_SIZE and
ALLOC_PTR keep the last request's values after its answer (DEDUCED, notes/assumptions 13), and that a stored block leaves the Huffman
slots as they are (DEDUCED, notes/assumptions 28). A fixed output that overlaps the input fails the command before: see
`Obligations.OperandsOutOfRangeFail`. -/
def Obligations.InfBlockCopiesAStoredBlock : Prop :=
  ∀ s, s.start.br.valid = true → ReaderOk s.start.br → SourceOk s.start.bs →
    (s.start.br.input = .source → s.start.bs.mode = .mem) →
    (∀ final pad (bytes : List Byte), pad.length < 8 →
      s.start.bitsAhead = final :: false :: false :: (pad ++ bytes.flatMap fun b => emit b.toNat 8) →
      let len := le16 bytes 0
      let need := s.start.inf.len + len
      let data := bytes.drop 4
      (s.OutputOpen [] → bytes.length < 4 → BlockFails s [] [] 0x0205 0) ∧
      (s.OutputOpen [] → 4 ≤ bytes.length → le16 bytes 2 ≠ len ^^^ 0xFFFF → BlockFails s [] [] 0x0204 len) ∧
      (4 ≤ bytes.length → le16 bytes 2 = len ^^^ 0xFFFF →
        (s.OutputOpen [] → s.start.inf.realloc = false → s.start.inf.cap < need → need < 0x100000000 →
          BlockFails s [] [] 0x0403 need) ∧
        (∀ ps, s.Room [len] ps →
          (data.length < len → BlockFails s [len] ps 0x0203 0) ∧
          (len ≤ data.length → ∃ t, exec .infBlock s = .next t ∧ SameSlots s.start t.eng ∧
            BlockDone s t final 0 [len] ps (s.outputBefore ++ data.take len)
              ((data.drop len).flatMap fun b => emit b.toNat 8))))) ∧
    (s.OutputOpen [] → s.start.bitsAhead.length < 3 →
      BlockFails s [] [] 0x0205 (if s.start.bitsAhead.length = 0 then 1 else 2)) ∧
    (∀ final rest, s.OutputOpen [] → s.start.bitsAhead = final :: true :: true :: rest → BlockFails s [] [] 0x0303 3)

/-- INF_BLOCK on a fixed-Huffman block: the tokens, literals and back-references, expand onto the output, which grows where it must,
up to the end-of-block symbol (42_lz77_decompressor.md R191, R193, R194, R204, R205, R210; 30_encoding.md R102, R103, R106). After any
tokens a symbol that means nothing, or whose output is not there or has no room, fails it: `BadSymbol` lists them. The input is a
MEM-mode source or a memory buffer, the allocator grants what it is asked, and a token of length 258 has the code of symbol 285. Not
the spec's words but the model's reading: that no byte of a reallocatable output beyond its length is written (DESIGN CHOICE,
notes/assumptions 11), and that ALLOC_SIZE and ALLOC_PTR keep the last request's values after its answer (DEDUCED, notes/assumptions
13). -/
def Obligations.InfBlockExpandsFixedTokens : Prop :=
  ∀ s final (ts : List Token) ps rest, s.Room (ts.map Token.size) ps → s.start.br.valid = true → ReaderOk s.start.br →
    SourceOk s.start.bs → (s.start.br.input = .source → s.start.bs.mode = .mem) → TokensValid s.outputBefore ts →
    let after := ts.foldl Token.apply s.outputBefore
    let block := fun tail => s.start.bitsAhead = final :: true :: false :: (ts.flatMap Token.bits ++ tail ++ rest)
    (block (emitSym 256) → ∃ t, exec .infBlock s = .next t ∧ t.eng.ht2 = s.start.ht2 ∧
      BlockDone s t final 1 (ts.map Token.size) ps after rest) ∧
    (∀ bits code info, BadSymbol (fun _ => True) (fun _ => True) emitSym (fun d => emit (bitrev d 5) 5) s.start.inf after.length
        bits code info →
      block bits → BlockFails s (ts.map Token.size) ps code info)

/-- INF_BLOCK on a dynamic block: its header's items give the code lengths of the two tables, and its symbols expand onto the output
under them, which grows where it must, up to the end-of-block symbol; the three slots hold the tables (42_lz77_decompressor.md R191,
R194, R205, R208, R210; 30_encoding.md R100, R102 to R104). Code lengths that a table rejects fail the block with their error, and so
does a repeat code with no length before it, or past the count of lengths, with `E(0x0304, code)` (R208), and a symbol of `BadSymbol`.
The input is a MEM-mode source or a memory buffer that is not cut short, and the allocator grants what it is asked. Not the spec's words
but the model's reading: that no byte of a reallocatable output beyond its length is written (DESIGN CHOICE, notes/assumptions 11), and
that ALLOC_SIZE and ALLOC_PTR keep the last request's values after its answer (DEDUCED, notes/assumptions 13). -/
def Obligations.InfBlockExpandsDynamicTokens : Prop :=
  ∀ s final (d : DynHeader) rest, s.start.br.valid = true → ReaderOk s.start.br → SourceOk s.start.bs →
    (s.start.br.input = .source → s.start.bs.mode = .mem) → d.FieldsOk →
    let total := d.hlit + d.hdist
    let lit := d.lens.take d.hlit
    let dist := d.lens.drop d.hlit
    let block := fun (bits : List Bool) => s.start.bitsAhead = final :: false :: true :: (bits ++ rest)
    let fails := fun (bits : List Bool) (code info : Nat) => s.OutputOpen [] → block bits → BlockFails s [] [] code info
    (∀ x, buildSlot d.cl = .error x → fails d.fieldBits x.1 x.2) ∧
    (∀ h2, buildSlot d.cl = .ok h2 → LenItemsValid d.cl [] d.items →
      (d.lens.length < total → ∀ x : LenItem, x.Coded d.cl →
        (d.lens = [] ∧ x.symbol = 16) ∨ total < (x.apply d.lens).length →
        fails (d.bits ++ x.bits d.cl) 0x0304 x.symbol) ∧
      (d.lens.length = total →
        (∀ x, buildSlot lit = .error x → fails d.bits x.1 x.2) ∧
        (∀ h0, buildSlot lit = .ok h0 →
          (∀ x, buildSlot dist = .error x → fails d.bits x.1 x.2) ∧
          (∀ h1 (syms : List BlockSym) ps, buildSlot dist = .ok h1 → (∀ y ∈ syms, y.Coded lit dist) →
            let ts := syms.map BlockSym.token
            let after := ts.foldl Token.apply s.outputBefore
            let symbols := d.bits ++ syms.flatMap (BlockSym.bits lit dist)
            s.Room (ts.map Token.size) ps → TokensValid s.outputBefore ts →
            (lit.getD 256 0 ≠ 0 → block (symbols ++ codeBits lit 256) →
              ∃ t, exec .infBlock s = .next t ∧ t.eng.ht0 = h0 ∧ t.eng.ht1 = h1 ∧ t.eng.ht2 = h2 ∧
                BlockDone s t final 2 (ts.map Token.size) ps after rest) ∧
            (∀ bits code info,
              BadSymbol (fun z => lit.getD z 0 ≠ 0) (fun z => dist.getD z 0 ≠ 0) (codeBits lit) (codeBits dist) s.start.inf
                after.length bits code info →
              block (symbols ++ bits) → BlockFails s (ts.map Token.size) ps code info)))))

/-- INF_COPY appends `length` bytes from `dist` bytes behind the end of the output, byte by byte, so an overlapping copy repeats; a
distance beyond the output fails (42_lz77_decompressor.md R193, R206). Where the output is full, a fixed one fails and a
reallocatable one grows by doubling, its contents kept (R191).
That no byte of the output beyond its length is written is the model's choice
(notes/assumptions 11), and ALLOC_SIZE and ALLOC_PTR keep the last request's values by notes/assumptions 13. -/
def Obligations.InfCopyCompletes : Prop :=
  ∀ s, s.start.inf.isOpen = true → OutputOk s.start.inf → 3 ≤ s.arg 0 → s.arg 0 ≤ 258 → 1 ≤ s.arg 1 → s.arg 1 ≤ 32768 →
    let inf := s.start.inf
    let need := inf.len + s.arg 0
    let copied := fun (t : State) (e : Nat) => ∀ k, k < s.arg 0 → t.eng.mem.get (e + k) = t.eng.mem.get (e + k - s.arg 1)
    (s.Ready [] → s.arg 1 ≤ inf.len → need ≤ inf.cap →
      ∃ t, exec .infCopy s = .next t ∧ Completed s t 0 0 (BitVec.ofNat 32 inf.out) (BitVec.ofNat 32 need) ∧
        copied t (inf.out + inf.len) ∧ SameMemOutside s.start t.eng (inf.out + inf.len) (s.arg 0) ∧
        t.eng.inf = { inf with len := need } ∧ SameSource s.start t.eng ∧ t.eng.br = s.start.br ∧
        SameSlots s.start t.eng ∧ SamePorts s.start t.eng) ∧
    (s.Ready [] → inf.len < s.arg 1 →
      ∃ t, exec .infCopy s = .next t ∧ Failed s t 0x0302 (BitVec.ofNat 32 (s.arg 1)) ∧ UnitsInvalid t.eng ∧
        SameMem s.start t.eng) ∧
    (s.Ready [] → s.arg 1 ≤ inf.len → inf.cap < need → need < 0x100000000 → inf.realloc = false →
      ∃ t, exec .infCopy s = .next t ∧ Failed s t 0x0403 (BitVec.ofNat 32 need) ∧ UnitsInvalid t.eng ∧ SameMem s.start t.eng) ∧
    (∀ k p, s.Ready [.allocResp p] → s.arg 1 ≤ inf.len → inf.cap < need → need ≤ 0x7fffffff → inf.realloc = true →
      let c := min (inf.cap * 2 ^ k) 0x7fffffff
      need ≤ c → (∀ j, j < k → min (inf.cap * 2 ^ j) 0x7fffffff < need) → p ≠ 0 → p.toNat + c ≤ 0x100000000 →
      ∃ t, exec .infCopy s = .next t ∧ Completed s t 0 0 p (BitVec.ofNat 32 need) ∧
        t.eng.mem.read p.toNat inf.len = s.start.mem.read inf.out inf.len ∧ copied t (p.toNat + inf.len) ∧
        SameMemOutside s.start t.eng p.toNat c ∧ t.eng.inf = ⟨true, p.toNat, need, c, true⟩ ∧
        t.eng.allocSize = BitVec.ofNat 32 c ∧ t.eng.allocPtr = BitVec.ofNat 32 inf.out ∧ SameSrcPort s.start t.eng ∧
        SameSource s.start t.eng ∧ t.eng.br = s.start.br ∧ SameSlots s.start t.eng)

/-- INF_STREAM gives back what the encoder compressed: from a MEM-mode source whose next bytes are `compress d q`, without its two
header bytes where the command takes a raw stream, into a fixed destination or a new buffer with room for `d`, with the Adler-32
trailer verified or not (46_deflate_encoder.md R353, R355; 42_lz77_decompressor.md R207, R211, R213). With VERIFY_ADLER 1 a zlib
stream with another trailer fails it with `E(0x0308, ·)` and the computed Adler-32, and one whose trailer is cut short with
`E(0x0205, 0)` (R213); a new buffer is freed.
That no byte of a reallocatable output beyond its length is written is the model's choice: notes/assumptions 11. -/
def Obligations.InfStreamInvertsCompress : Prop :=
  ∀ s d q rest zlib realloc p out cap,
    s.start.bs.mode = .mem → SourceOk s.start.bs →
    d.length ≤ cap → out + cap ≤ 0x100000000 → overlap out cap s.start.bs.base s.start.bs.len = false →
    let opens := fun answers => (realloc = false ∧ s.Ready [] ∧ out = s.arg 0 ∧ cap = s.arg 1) ∨
      (realloc = true ∧ s.Ready (.allocResp p :: answers) ∧ p ≠ 0 ∧ out = p.toNat ∧ cap = max (s.arg 1) 1 ∧ cap ≤ 0x7fffffff)
    let ahead := s.start.mem.read (s.start.bs.base + s.start.bs.pos) (s.start.bs.len - s.start.bs.pos)
    (opens [] → ahead = (compress d q).drop (if zlib then 0 else 2) ++ rest →
      ∃ t, exec (.infStream zlib realloc) s = .next t ∧
        Completed s t (BitVec.ofNat 32 out) (BitVec.ofNat 32 d.length) (BitVec.ofNat 32 cap) 0 ∧
        t.eng.mem.read out d.length = d ∧ SameMemOutside s.start t.eng out d.length ∧ UnitsInvalid t.eng ∧
        t.eng.bs = { s.start.bs with pos := t.eng.bs.pos } ∧ SameSrcPort s.start t.eng ∧
        (realloc = false → SameAllocPort s.start t.eng)) ∧
    (∀ (trailer : List Byte) f code info, opens [.allocResp f] → zlib = true → s.running.snap.verifyAdler = true →
      ahead = (compress d q).take ((compress d q).length - 4) ++ trailer →
      (trailer.length < 4 ∧ code = 0x0205 ∧ info = 0) ∨
        (4 ≤ trailer.length ∧ be32 trailer 0 ≠ (adler32 1 d).toNat ∧ code = 0x0308 ∧ info = (adler32 1 d).toNat) →
      ∃ t, exec (.infStream zlib realloc) s = .next t ∧ Failed s t (BitVec.ofNat 32 code) (BitVec.ofNat 32 info) ∧
        SameMemOutside s.start t.eng out d.length ∧ UnitsInvalid t.eng ∧
        t.eng.bs = { s.start.bs with pos := t.eng.bs.pos } ∧ SameSrcPort s.start t.eng ∧
        (realloc = false → SameAllocPort s.start t.eng))

/-! ### PNG decode -/

/-- PNG_DECODE gives back the image the writer encoded: from a MEM-mode source whose next bytes are a file of `PNG_ENCODE`, with
the CRCs and the Adler-32 checked or not, for any filter choice and any answers of the allocator that keep its duty, the rows come
back, each pixel converted to the requested channels, in reverse row order where FLIP_LOAD is 1 (00_scope.md R18;
47_checksum_png_writer.md R398; 43_png_chunk_parser.md R240, R264 to R266). -/
def Obligations.PngDecodeInvertsPngEncode : Prop :=
  ∀ s w h n q force (rows : List (List Byte)) rest p1 p2 f1 p3 f2 p4 f3 req,
    let z := compress (filteredImage force n rows []) q
    let cap := max 4096 z.length
    let raw := h * (1 + w * n)
    let ch := if req = 0 then n else req
    let img := if ch = n then p3 else p4
    s.Ready ([.allocResp p1, .allocResp p2, .allocResp f1, .allocResp p3, .allocResp f2] ++
      (if ch = n then [] else [.allocResp p4, .allocResp f3])) →
    s.start.bs.mode = .mem → SourceOk s.start.bs → req ≤ 4 →
    s.start.mem.read (s.start.bs.base + s.start.bs.pos) (s.start.bs.len - s.start.bs.pos) =
      pngFile w h n q (filteredImage force n rows []) ++ rest →
    1 ≤ n → n ≤ 4 → 1 ≤ w → 1 ≤ h → w ≤ 16777216 → h ≤ 16777216 → w * h * 4 ≤ 0x7fffffff → raw ≤ 0x7fffffff →
    z.length ≤ 0x7fffffff → rows.length = h → (∀ r ∈ rows, r.length = w * n) →
    p1 ≠ 0 → p1.toNat + cap ≤ 0x100000000 → overlap s.start.bs.base s.start.bs.len p1.toNat cap = false →
    p2 ≠ 0 → p2.toNat + raw ≤ 0x100000000 → overlap s.start.bs.base s.start.bs.len p2.toNat raw = false →
    overlap p1.toNat cap p2.toNat raw = false →
    p3 ≠ 0 → p3.toNat + w * h * n ≤ 0x100000000 →
    overlap s.start.bs.base s.start.bs.len p3.toNat (w * h * n) = false →
    overlap p2.toNat raw p3.toNat (w * h * n) = false →
    (ch ≠ n → p4 ≠ 0 ∧ p4.toNat + w * h * ch ≤ 0x100000000 ∧
      overlap s.start.bs.base s.start.bs.len p4.toNat (w * h * ch) = false ∧
      overlap p3.toNat (w * h * n) p4.toNat (w * h * ch) = false) →
    ∃ t, exec (.pngDecode req) s = .next t ∧
      Completed s t img (BitVec.ofNat 32 w) (BitVec.ofNat 32 h) (BitVec.ofNat 32 n) ∧
      t.eng.mem.read img.toNat (w * h * ch) =
        (if s.running.snap.flipLoad then rows.reverse else rows).flatMap (convertBytes w n ch) ∧
      (∀ x, (x < p1.toNat ∨ p1.toNat + cap ≤ x) → (x < p2.toNat ∨ p2.toNat + raw ≤ x) →
        (x < p3.toNat ∨ p3.toNat + w * h * n ≤ x) → (ch ≠ n → x < p4.toNat ∨ p4.toNat + w * h * ch ≤ x) →
        t.eng.mem.get x = s.start.mem.get x) ∧
      UnitsInvalid t.eng ∧ t.eng.bs = { s.start.bs with pos := t.eng.bs.pos } ∧ SameSrcPort s.start t.eng

/-- Eight bytes that are not the signature fail PNG_DECODE with `E(0x0101, 0)`, and so do fewer than eight
(43_png_chunk_parser.md R244). After the signature, the checks of IHDR's data in their order: a file whose first bad field is the
named one fails with that field's error (43_png_chunk_parser.md R246; 60_exceptions.md R415). -/
def Obligations.PngHeaderChecked : Prop :=
  (∀ s req, s.Ready [] → s.start.bs.mode = .mem → SourceOk s.start.bs → req ≤ 4 →
     (s.start.mem.read (s.start.bs.base + s.start.bs.pos) (s.start.bs.len - s.start.bs.pos)).take 8 ≠
       [137, 80, 78, 71, 13, 10, 26, 10] →
     ∃ t, exec (.pngDecode req) s = .next t ∧ Failed s t 0x0101 0 ∧ SameMem s.start t.eng ∧ SamePorts s.start t.eng ∧
       t.eng.bs = { s.start.bs with pos := min s.start.bs.len (s.start.bs.pos + 8) } ∧ UnitsInvalid t.eng) ∧
  (∀ s req (d rest : List Byte), s.Ready [] → s.start.bs.mode = .mem → SourceOk s.start.bs → req ≤ 4 → d.length = 13 →
     s.start.mem.read (s.start.bs.base + s.start.bs.pos) (s.start.bs.len - s.start.bs.pos) =
       [137, 80, 78, 71, 13, 10, 26, 10] ++ [0, 0, 0, 13, 73, 72, 68, 82] ++ d ++ rest →
     let w := be32 d 0
     let h := be32 d 4
     let small := w ≤ 16777216 ∧ h ≤ 16777216
     let depth := byteAt d 8 = 1 ∨ byteAt d 8 = 2 ∨ byteAt d 8 = 4 ∨ byteAt d 8 = 8
     let ctype := byteAt d 9 = 0 ∨ byteAt d 9 = 2 ∨ byteAt d 9 = 3 ∨ byteAt d 9 = 4 ∨ byteAt d 9 = 6
     ∀ code info,
       (¬ small ∧ code = 0x010B ∧ info = 0) ∨
       (small ∧ ¬ depth ∧ code = 0x0106 ∧ info = byteAt d 8) ∨
       (small ∧ depth ∧ ¬ ctype ∧ code = 0x0107 ∧ info = byteAt d 9) ∨
       (small ∧ depth ∧ ctype ∧ byteAt d 10 ≠ 0 ∧ code = 0x0108 ∧ info = byteAt d 10) ∨
       (small ∧ depth ∧ ctype ∧ byteAt d 10 = 0 ∧ byteAt d 11 ≠ 0 ∧ code = 0x0109 ∧ info = byteAt d 11) ∨
       (small ∧ depth ∧ ctype ∧ byteAt d 10 = 0 ∧ byteAt d 11 = 0 ∧ 1 < byteAt d 12 ∧ code = 0x010A ∧ info = byteAt d 12) ∨
       (small ∧ depth ∧ ctype ∧ byteAt d 10 = 0 ∧ byteAt d 11 = 0 ∧ byteAt d 12 ≤ 1 ∧ (w = 0 ∨ h = 0) ∧ code = 0x0105 ∧
         info = 0) ∨
       (small ∧ depth ∧ ctype ∧ byteAt d 10 = 0 ∧ byteAt d 11 = 0 ∧ byteAt d 12 ≤ 1 ∧ 0x7fffffff < w * h * 4 ∧ code = 0x0402 ∧
         info = 0) →
       ∃ t, exec (.pngDecode req) s = .next t ∧ Failed s t (BitVec.ofNat 32 code) (BitVec.ofNat 32 info) ∧
         UnitsInvalid t.eng ∧ SameMem s.start t.eng ∧ SamePorts s.start t.eng)

/-- The errors of the chunk loop (43_png_chunk_parser.md R245 to R256). First, a file whose first chunk, after the signature, is not
a sound IHDR, a CgBI that fails as a skipped chunk does among them. Then a file with a sound head (IHDR, a PLTE or none, unknown
ancillary chunks) and then perhaps an IDAT, whose next chunk is cut short or fails a check: `ChunkFails` lists them, a CgBI and the
IEND among them. Last, an IDAT, the first or one after another, whose data or CRC is cut short, whose CRC is wrong, or that makes the
data too large. The accumulator, where there is one, is freed (60_exceptions.md R414). -/
def Obligations.PngChunksChecked : Prop :=
  ∀ s req, req ≤ 4 → s.start.bs.mode = .mem → SourceOk s.start.bs →
    let verify := s.running.snap.verifyCrc
    let ahead := s.start.mem.read (s.start.bs.base + s.start.bs.pos) (s.start.bs.len - s.start.bs.pos)
    let sig : List Byte := [137, 80, 78, 71, 13, 10, 26, 10]
    let fails := fun (code info : Nat) (buffers : List (Nat × Nat)) => ∃ t, exec (.pngDecode req) s = .next t ∧
      Failed s t (BitVec.ofNat 32 code) (BitVec.ofNat 32 info) ∧ UnitsInvalid t.eng ∧
      (∀ x, (∀ b ∈ buffers, x < b.1 ∨ b.1 + b.2 ≤ x) → t.eng.mem.get x = s.start.mem.get x) ∧
      SameSrcPort s.start t.eng ∧ t.eng.bs = { s.start.bs with pos := t.eng.bs.pos }
    let buffer := fun (p : Word) (n : Nat) => p ≠ 0 ∧ p.toNat + n ≤ 0x100000000 ∧
      overlap s.start.bs.base s.start.bs.len p.toNat n = false
    (s.Ready [] →
      (∀ bad : List Byte, ahead = sig ++ bad → bad.length < 8 → fails 0x0201 bad.length []) ∧
      (∀ len type (rest : List Byte) code info, len < 0x100000000 → type < 0x100000000 →
        ahead = sig ++ putBe32 len ++ putBe32 type ++ rest →
        (0x7fffffff < len ∧ code = 0x0117 ∧ info = len) ∨
        (len ≤ 0x7fffffff ∧ type ≠ 0x49484452 ∧ type ≠ 0x43674249 ∧ code = 0x0102 ∧ info = type) ∨
        (len ≤ 0x7fffffff ∧ type = 0x43674249 ∧ SkipFails verify len type rest code info) ∨
        (len ≤ 0x7fffffff ∧ type = 0x49484452 ∧ len ≠ 13 ∧ code = 0x0104 ∧ info = len) ∨
        (type = 0x49484452 ∧ len = 13 ∧ rest.length < 13 ∧ code = 0x0201 ∧ info = rest.length) ∨
        (type = 0x49484452 ∧ len = 13 ∧ HeaderOk (rest.take 13) ∧ EndFails verify len type rest code info) →
        fails code info [])) ∧
    (∀ (h : PngHead) (idat : Option Chunk) (bad : List Byte) p f code info, h.Sound verify →
      (∀ c ∈ idat, c.Sound verify ∧ c.type = 0x49444154 ∧ (h.ctype = 3 → h.palLen ≠ 0)) →
      let z := idat.elim [] fun c => c.data
      let n := if z = [] then 0 else max 4096 z.length
      s.Ready (if z = [] then [] else [.allocResp p, .allocResp f]) → (z ≠ [] → buffer p n) →
      ahead = sig ++ h.chunks.flatMap Chunk.bytes ++ idat.toList.flatMap Chunk.bytes ++ bad →
      (bad.length < 8 ∧ code = 0x0201 ∧ info = bad.length) ∨
        (∃ len type rest, len < 0x100000000 ∧ type < 0x100000000 ∧ bad = putBe32 len ++ putBe32 type ++ rest ∧
          ChunkFails verify h idat.isSome (decide (z = [])) len type rest code info) →
      fails code info [(p.toNat, n)]) ∧
    (∀ (h : PngHead) (idat : Option Chunk) len (rest : List Byte) p f, h.Sound verify → (h.ctype = 3 → h.palLen ≠ 0) →
      (∀ c ∈ idat, c.Sound verify ∧ c.type = 0x49444154) → len ≤ 0x7fffffff →
      let z := idat.elim [] fun c => c.data
      let n := max 4096 z.length
      let size := z.length + len
      ahead = sig ++ h.chunks.flatMap Chunk.bytes ++ idat.toList.flatMap Chunk.bytes ++ putBe32 len ++ putBe32 0x49444154 ++
        rest →
      (0x7fffffff < size → s.Ready [.allocResp p, .allocResp f] → buffer p n → fails 0x0402 size [(p.toNat, n)]) ∧
      (∀ code info, size ≤ 0x7fffffff → EndFails verify len 0x49444154 rest code info →
        (size = 0 → s.Ready [] → fails code info []) ∧
        (z = [] → 0 < len → s.Ready [.allocResp p, .allocResp f] → buffer p (max 4096 len) →
          fails code info (if rest.length < len then [] else [(p.toNat, max 4096 len)])) ∧
        (z ≠ [] → size ≤ n → s.Ready [.allocResp p, .allocResp f] → buffer p n → fails code info [(p.toNat, n)]) ∧
        (∀ k r, z ≠ [] → n < size →
          let c := min (n * 2 ^ k) 0x7fffffff
          size ≤ c → (∀ j, j < k → min (n * 2 ^ j) 0x7fffffff < size) →
          s.Ready [.allocResp p, .allocResp r, .allocResp f] → buffer p n → buffer r c →
          fails code info [(p.toNat, n), (r.toNat, c)])))

/-- PNG_DECODE shows the image a file holds. The file has the signature, a CgBI chunk or none, IHDR, a PLTE or none, unknown
ancillary chunks, a tRNS or none, IDATs whose data is the zlib stream of the filtered data `raw`, without its header for CgBI, and
IEND; `raw` is filtered as its depth and interlacing say, with `pixel x y` the reconstructed samples of each pixel (R257 to R259).
Then each pixel of the result is the chroma-keyed, CgBI-corrected or palette-expanded one (R260 to R263), converted to the
requested channels (R264), with the rows in reverse order where FLIP_LOAD is 1 (R265). The allocator is asked in the order of
R266. -/
def Obligations.PngDecodeShowsTheImage : Prop :=
  ∀ s req (h : PngHead) (cgbi trns : Option Chunk) (idat : Chunk) (idats : List Chunk) (iend : Chunk) (rest raw : List Byte) q
    (pixel : Nat → Nat → List Byte) p1 p2 f1 p3 f2 (more : List (Word × Word)),
    let verify := s.running.snap.verifyCrc
    let w := be32 h.ihdr.data 0
    let ht := be32 h.ihdr.data 4
    let interlaced := byteAt h.ihdr.data 12 = 1
    let l := h.layout
    let src := h.channels trns
    let out := if req = 0 then src else req
    let steps := (if h.ctype = 3 ∨ trns.isSome then [src] else []) ++ (if out = src then [] else [out])
    let z := (idat :: idats).flatMap fun c => c.data
    let bufs : List (Word × Nat) := [(p1, max 4096 idat.data.length), (p2, raw.length), (p3, w * ht * h.imgN)] ++
      (more.zip steps).map fun x => (x.1.1, w * ht * x.2)
    let img := (more.getLastD (p3, 0)).1
    s.Ready ([.allocResp p1, .allocResp p2, .allocResp f1, .allocResp p3, .allocResp f2] ++
      more.flatMap fun x => [.allocResp x.1, .allocResp x.2]) →
    more.length = steps.length → req ≤ 4 → s.start.bs.mode = .mem → SourceOk s.start.bs →
    s.start.mem.read (s.start.bs.base + s.start.bs.pos) (s.start.bs.len - s.start.bs.pos) =
      [137, 80, 78, 71, 13, 10, 26, 10] ++
        (cgbi.toList ++ h.chunks ++ trns.toList ++ (idat :: idats) ++ [iend]).flatMap Chunk.bytes ++ rest →
    h.Sound verify → (h.ctype = 3 → h.palLen ≠ 0) → (∀ c ∈ cgbi, c.Sound verify ∧ c.type = 0x43674249) →
    (∀ c ∈ trns, c.Sound verify ∧ c.type = 0x74524E53 ∧
      ((h.ctype = 3 ∧ c.data.length ≤ h.palLen) ∨ ((h.ctype = 0 ∨ h.ctype = 2) ∧ c.data.length = 2 * h.imgN))) →
    (∀ c ∈ idat :: idats, c.Sound verify ∧ c.type = 0x49444154) → idat.data ≠ [] →
    iend.Sound verify → iend.type = 0x49454E44 →
    raw.length = l.rawLen w ht (decide interlaced) → raw.length ≤ 0x7fffffff →
    z = (compress raw q).drop (if cgbi.isSome then 2 else 0) → z.length ≤ max 4096 idat.data.length →
    (¬ interlaced → ∃ rows, defilter l.stride (l.rowbytes w) ht raw [] = .ok rows ∧
      ∀ x y, x < w → y < ht → pixel x y = ((unpack l (rows.getD y []) w).drop (x * h.imgN)).take h.imgN) →
    (interlaced → ∀ k (hk : k < adam7.length), 0 < adam7[k].width w → 0 < adam7[k].height ht →
      ∃ rows, defilter l.stride (l.rowbytes (adam7[k].width w)) (adam7[k].height ht) (raw.drop (l.passOffset w ht k)) [] = .ok rows ∧
        ∀ i j, i < adam7[k].width w → j < adam7[k].height ht →
          pixel (adam7[k].xorig + i * adam7[k].xspc) (adam7[k].yorig + j * adam7[k].yspc) =
            ((unpack l (rows.getD j []) (adam7[k].width w)).drop (i * h.imgN)).take h.imgN) →
    (∀ b ∈ bufs, b.1 ≠ 0 ∧ b.1.toNat + b.2 ≤ 0x100000000 ∧ overlap s.start.bs.base s.start.bs.len b.1.toNat b.2 = false) →
    (∀ k (hk : k + 1 < bufs.length), overlap bufs[k].1.toNat bufs[k].2 bufs[k + 1].1.toNat bufs[k + 1].2 = false) →
    ∃ t, exec (.pngDecode req) s = .next t ∧
      Completed s t img (BitVec.ofNat 32 w) (BitVec.ofNat 32 ht) (BitVec.ofNat 32 src) ∧
      (∀ x y, x < w → y < ht →
        t.eng.mem.read (img.toNat + (y * w + x) * out) out =
          convertPixel src out (h.shown trns cgbi.isSome s.running.snap.unpremul
            (pixel x (if s.running.snap.flipLoad then ht - 1 - y else y)))) ∧
      (∀ x, (∀ b ∈ bufs, x < b.1.toNat ∨ b.1.toNat + b.2 ≤ x) → t.eng.mem.get x = s.start.mem.get x) ∧
      UnitsInvalid t.eng ∧ t.eng.bs = { s.start.bs with pos := t.eng.bs.pos } ∧ SameSrcPort s.start t.eng

/-! ### Scanline filter unit -/

/-- SF_RECON reconstructs the filtered image at ARG0 into a raster the allocator gives: its rows, one after the other, or each
pixel of each Adam7 pass at its place (44_scanline_filter_unit.md R287 to R290, R295). A filter tag above 4 fails it with
`E(0x0306, tag)`, and the raster is freed (R283; 60_exceptions.md R414); that no byte of it is written then is the model's choice:
notes/assumptions 23.
ALLOC_SIZE and ALLOC_PTR keep the last request's values by notes/assumptions 13. -/
def Obligations.SfReconCompletes : Prop :=
  (∀ s imgN depth indexed interlaced p,
     let l : Layout := ⟨imgN, depth, indexed⟩
     let w := s.arg 2
     let h := s.arg 3
     let size := w * h * imgN
     let data := s.start.mem.read (s.arg 0) (s.arg 1)
     let dataOf := fun k => data.drop (l.passOffset w h k)
     s.Ready [.allocResp p] → 1 ≤ imgN → imgN ≤ 4 → (depth = 1 ∨ depth = 2 ∨ depth = 4 ∨ depth = 8) →
     (indexed = true → imgN = 1) → w ≠ 0 → h ≠ 0 → size ≤ 0x7fffffff → l.rawLen w h interlaced ≤ 0x7fffffff →
     s.arg 0 + s.arg 1 ≤ 0x100000000 → s.arg 1 = l.rawLen w h interlaced →
     p ≠ 0 → p.toNat + size ≤ 0x100000000 → overlap (s.arg 0) (s.arg 1) p.toNat size = false →
     (interlaced = false → ∃ rows, defilter l.stride (l.rowbytes w) h data [] = .ok rows) →
     (interlaced = true → ∀ k (hk : k < adam7.length), 0 < adam7[k].width w → 0 < adam7[k].height h →
       ∃ rows, defilter l.stride (l.rowbytes (adam7[k].width w)) (adam7[k].height h) (dataOf k) [] = .ok rows) →
     ∃ t, exec (.sfRecon imgN depth indexed interlaced) s = .next t ∧ Completed s t p (BitVec.ofNat 32 size) 0 0 ∧
       SameUnits s.start t.eng ∧ SameMemOutside s.start t.eng p.toNat size ∧
       t.eng.allocSize = BitVec.ofNat 32 size ∧ t.eng.allocPtr = 0 ∧ SameSrcPort s.start t.eng ∧
       (interlaced = false → ∀ rows, defilter l.stride (l.rowbytes w) h data [] = .ok rows →
         t.eng.mem.read p.toNat size = rows.flatMap fun row => unpack l row w) ∧
       (interlaced = true → ∀ k (hk : k < adam7.length) rows,
         defilter l.stride (l.rowbytes (adam7[k].width w)) (adam7[k].height h) (dataOf k) [] = .ok rows →
         ∀ i j c, i < adam7[k].width w → j < adam7[k].height h → c < imgN →
           t.eng.mem.get (p.toNat + ((adam7[k].yorig + j * adam7[k].yspc) * w + (adam7[k].xorig + i * adam7[k].xspc)) * imgN + c) =
             (unpack l (rows.getD j []) (adam7[k].width w)).getD (i * imgN + c) 0)) ∧
  (∀ s imgN p f tag,
     let l : Layout := ⟨imgN, 8, false⟩
     let w := s.arg 2
     let h := s.arg 3
     s.Ready [.allocResp p, .allocResp f] → 1 ≤ imgN → imgN ≤ 4 → w ≠ 0 → h ≠ 0 → w * h * imgN ≤ 0x7fffffff →
     l.rawLen w h false ≤ 0x7fffffff → s.arg 0 + s.arg 1 ≤ 0x100000000 → s.arg 1 = l.rawLen w h false →
     p ≠ 0 → p.toNat + w * h * imgN ≤ 0x100000000 → overlap (s.arg 0) (s.arg 1) p.toNat (w * h * imgN) = false →
     defilter l.stride (l.rowbytes w) h (s.start.mem.read (s.arg 0) (s.arg 1)) [] = .error tag →
     4 < tag ∧ tag < 256 ∧
     ∃ t, exec (.sfRecon imgN 8 false false) s = .next t ∧ Failed s t 0x0306 (BitVec.ofNat 32 tag) ∧
       SameUnits s.start t.eng ∧ SameMem s.start t.eng ∧ t.eng.allocSize = 0 ∧ t.eng.allocPtr = p)

/-- SF_FILTER_ROW writes the tag and the filtered bytes of a row and gives their cost (44_scanline_filter_unit.md R291, R292,
R296). A cost of 2^32 or more has no register value in the spec: notes/assumptions 7. -/
def Obligations.SfFilterRowCompletes : Prop :=
  ∀ s t fb first,
    let n := s.arg 2
    let row := s.start.mem.read (s.arg 0) n
    let prior := if first then [] else s.start.mem.read (s.arg 1) n
    let f := filterRow t fb row prior
    s.Ready [] → t ≤ 4 → 1 ≤ fb → fb ≤ 4 → s.arg 0 + n ≤ 0x100000000 → (first = false → s.arg 1 + n ≤ 0x100000000) →
    s.arg 3 + (n + 1) ≤ 0x100000000 → overlap (s.arg 3) (n + 1) (s.arg 0) n = false →
    (first = false → overlap (s.arg 3) (n + 1) (s.arg 1) n = false) →
    ∃ u r, exec (.sfFilterRow t fb first) s = .next u ∧ Completed s u r 0 0 0 ∧
      (filterCost f < 0x100000000 → r = BitVec.ofNat 32 (filterCost f)) ∧
      u.eng.mem.read (s.arg 3) (n + 1) = BitVec.ofNat 8 t :: f ∧
      SameMemOutside s.start u.eng (s.arg 3) (n + 1) ∧ SameUnits s.start u.eng ∧ SamePorts s.start u.eng

/-- Undoing the filter of a filtered row, its tag before it, under the same prior row gives back the row, for every filter type,
row, prior row and byte stride. 44_scanline_filter_unit.md R293 says so, as the spec's own inference ("derived: from rule R284 and rule
R291"): its grounds are what `defilter` and `filter_row` compute (R284, R287, R291). `paeth` picks the one of a, b, c nearest to
a + b - c, the earliest on a tie (R285). -/
def Obligations.FiltersInvertAndPaethPicksTheNearest : Prop :=
  (∀ t fb (row prior : List Byte), t ≤ 4 →
    defilter fb row.length 1 (BitVec.ofNat 8 t :: filterRow t fb row prior) prior = .ok [row]) ∧
  (∀ a b c : Byte,
    let d := fun x : Byte => ((a.toNat : Int) + b.toNat - c.toNat - x.toNat).natAbs
    (paeth a b c = a ∧ d a ≤ d b ∧ d a ≤ d c) ∨ (paeth a b c = b ∧ d b < d a ∧ d b ≤ d c) ∨
      (paeth a b c = c ∧ (d c < d a ∨ d b < d a) ∧ d c < d b))

/-! ### Format converter -/

/-- FC_CONVERT converts every pixel of the buffer at ARG0 into a new buffer; the pixels of 1 to 4 channels convert as the table of
45_format_converter.md R312 says (R311 to R313, R325).
ALLOC_SIZE and ALLOC_PTR keep the last request's values by notes/assumptions 13. -/
def Obligations.FcConvertCompletes : Prop :=
  (∀ s src req p,
    s.Ready [.allocResp p] → 1 ≤ src → src ≤ 4 → 1 ≤ req → req ≤ 4 → s.arg 1 ≠ 0 → s.arg 1 * max src req ≤ 0x7fffffff →
    s.arg 0 + s.arg 1 * src ≤ 0x100000000 → p ≠ 0 → p.toNat + s.arg 1 * req ≤ 0x100000000 →
    overlap (s.arg 0) (s.arg 1 * src) p.toNat (s.arg 1 * req) = false →
    ∃ t, exec (.fcConvert src req) s = .next t ∧ Completed s t p (BitVec.ofNat 32 (s.arg 1 * req)) 0 0 ∧
      (∀ i, i < s.arg 1 →
        t.eng.mem.read (p.toNat + i * req) req = convertPixel src req (s.start.mem.read (s.arg 0 + i * src) src)) ∧
      SameMemOutside s.start t.eng p.toNat (s.arg 1 * req) ∧ SameUnits s.start t.eng ∧
      t.eng.allocSize = BitVec.ofNat 32 (s.arg 1 * req) ∧ t.eng.allocPtr = 0 ∧ SameSrcPort s.start t.eng) ∧
  (∀ a b c d : Byte,
    let y : Byte := BitVec.ofNat 8 ((77 * a.toNat + 150 * b.toNat + 29 * c.toNat) / 256)
    convertPixel 1 1 [a] = [a] ∧ convertPixel 1 2 [a] = [a, 255] ∧ convertPixel 1 3 [a] = [a, a, a] ∧
    convertPixel 1 4 [a] = [a, a, a, 255] ∧ convertPixel 2 1 [a, b] = [a] ∧ convertPixel 2 2 [a, b] = [a, b] ∧
    convertPixel 2 3 [a, b] = [a, a, a] ∧ convertPixel 2 4 [a, b] = [a, a, a, b] ∧ convertPixel 3 1 [a, b, c] = [y] ∧
    convertPixel 3 2 [a, b, c] = [y, 255] ∧ convertPixel 3 3 [a, b, c] = [a, b, c] ∧
    convertPixel 3 4 [a, b, c] = [a, b, c, 255] ∧ convertPixel 4 1 [a, b, c, d] = [y] ∧
    convertPixel 4 2 [a, b, c, d] = [y, d] ∧ convertPixel 4 3 [a, b, c, d] = [a, b, c] ∧
    convertPixel 4 4 [a, b, c, d] = [a, b, c, d])

/-- FC_PALETTE expands every index into the first bytes of its palette entry, or opaque black where the index is at or beyond
ARG3 (45_format_converter.md R314, R326).
ALLOC_SIZE and ALLOC_PTR keep the last request's values by notes/assumptions 13. -/
def Obligations.FcPaletteCompletes : Prop :=
  ∀ s out p,
    s.Ready [.allocResp p] → (out = 3 ∨ out = 4) → s.arg 1 ≠ 0 → s.arg 3 ≤ 256 → s.arg 1 * out ≤ 0x7fffffff →
    s.arg 0 + s.arg 1 ≤ 0x100000000 → s.arg 2 + 1024 ≤ 0x100000000 → p ≠ 0 → p.toNat + s.arg 1 * out ≤ 0x100000000 →
    overlap (s.arg 0) (s.arg 1) p.toNat (s.arg 1 * out) = false → overlap (s.arg 2) 1024 p.toNat (s.arg 1 * out) = false →
    ∃ t, exec (.fcPalette out) s = .next t ∧ Completed s t p (BitVec.ofNat 32 (s.arg 1 * out)) 0 0 ∧
      (∀ i, i < s.arg 1 →
        let v := (s.start.mem.get (s.arg 0 + i)).toNat
        t.eng.mem.read (p.toNat + i * out) out =
          if v < s.arg 3 then s.start.mem.read (s.arg 2 + 4 * v) out else ([0, 0, 0, 255] : List Byte).take out) ∧
      SameMemOutside s.start t.eng p.toNat (s.arg 1 * out) ∧ SameUnits s.start t.eng ∧
      t.eng.allocSize = BitVec.ofNat 32 (s.arg 1 * out) ∧ t.eng.allocPtr = 0 ∧ SameSrcPort s.start t.eng

/-- FC_TRNS_KEY sets the last channel of every pixel to 0 where its other channels are the key, else to 255, and leaves every other
byte alone (45_format_converter.md R315, R327). FC_CGBI swaps red and blue of every pixel and, where it is asked to and alpha is
above 0, un-premultiplies the colours (R320, R328). FC_FLIP reverses the order of the rows (R322, R329). -/
def Obligations.InPlaceConvertersComplete : Prop :=
  (∀ s ch, s.Ready [] → (ch = 2 ∨ ch = 4) → s.arg 0 + s.arg 1 * ch ≤ 0x100000000 →
     let key : List Byte := [BitVec.ofNat 8 (s.arg 2), BitVec.ofNat 8 (s.arg 2 / 256), BitVec.ofNat 8 (s.arg 2 / 65536)]
     ∃ t, exec (.fcTrnsKey ch) s = .next t ∧ Completed s t 0 0 0 0 ∧
       (∀ i, i < s.arg 1 → t.eng.mem.get (s.arg 0 + i * ch + (ch - 1)) =
         if s.start.mem.read (s.arg 0 + i * ch) (ch - 1) = key.take (ch - 1) then 0 else 255) ∧
       (∀ x, (∀ i, i < s.arg 1 → x ≠ s.arg 0 + i * ch + (ch - 1)) → t.eng.mem.get x = s.start.mem.get x) ∧
       SameUnits s.start t.eng ∧ SamePorts s.start t.eng) ∧
  (∀ s ch unpremul, s.Ready [] → (ch = 3 ∨ ch = 4) → s.arg 0 + s.arg 1 * ch ≤ 0x100000000 →
     ∃ t, exec (.fcCgbi ch unpremul) s = .next t ∧ Completed s t 0 0 0 0 ∧
       (∀ i k, i < s.arg 1 → k < 3 →
         let p := s.arg 0 + i * ch
         let v := (s.start.mem.get (p + (2 - k))).toNat
         let a := (s.start.mem.get (p + 3)).toNat
         t.eng.mem.get (p + k) = BitVec.ofNat 8 (if unpremul ∧ ch = 4 ∧ 0 < a then min 255 ((v * 255 + a / 2) / a) else v)) ∧
       (∀ i, i < s.arg 1 → ch = 4 → t.eng.mem.get (s.arg 0 + i * ch + 3) = s.start.mem.get (s.arg 0 + i * ch + 3)) ∧
       SameMemOutside s.start t.eng (s.arg 0) (s.arg 1 * ch) ∧ SameUnits s.start t.eng ∧ SamePorts s.start t.eng) ∧
  (∀ s, s.Ready [] → s.arg 0 + s.arg 1 * s.arg 2 ≤ 0x100000000 →
     ∃ t, exec .fcFlip s = .next t ∧ Completed s t 0 0 0 0 ∧
       (∀ r k, r < s.arg 2 → k < s.arg 1 →
         t.eng.mem.get (s.arg 0 + r * s.arg 1 + k) = s.start.mem.get (s.arg 0 + (s.arg 2 - 1 - r) * s.arg 1 + k)) ∧
       SameMemOutside s.start t.eng (s.arg 0) (s.arg 1 * s.arg 2) ∧ SameUnits s.start t.eng ∧ SamePorts s.start t.eng)

/-! ### Encoder, checksums and PNG writer -/

/-- DEF_COMPRESS writes the zlib stream of its input to a buffer of exactly its size (46_deflate_encoder.md R341, R353, R356,
R365).
ALLOC_SIZE and ALLOC_PTR keep the last request's values by notes/assumptions 13. -/
def Obligations.DefCompressCompletes : Prop :=
  ∀ s imm p,
    let q := max 5 (if imm ≠ 0 then imm else s.running.snap.quality.toNat % 65536)
    let z := compress (s.start.mem.read (s.arg 0) (s.arg 1)) q
    s.Ready [.allocResp p] → s.arg 0 + s.arg 1 ≤ 0x100000000 → s.arg 1 ≤ 0x7fffffff → z.length ≤ 0x7fffffff → p ≠ 0 →
    p.toNat + z.length ≤ 0x100000000 → overlap (s.arg 0) (s.arg 1) p.toNat z.length = false →
    ∃ t, exec (.defCompress imm) s = .next t ∧ Completed s t p (BitVec.ofNat 32 z.length) 0 0 ∧
      t.eng.mem.read p.toNat z.length = z ∧ SameMemOutside s.start t.eng p.toNat z.length ∧ UnitsInvalid t.eng ∧
      SameSource s.start t.eng ∧ t.eng.allocSize = BitVec.ofNat 32 z.length ∧ t.eng.allocPtr = 0 ∧ SameSrcPort s.start t.eng

/-- The tokens of the compressor expand to its input; every match is 3 to 258 bytes long and 1 to 32767 bytes back
(46_deflate_encoder.md R347, R355). -/
def Obligations.TokensExpandToTheInput : Prop :=
  ∀ d q, TokensValid [] (lz77 d q) ∧ (lz77 d q).foldl Token.apply [] = d ∧
    ∀ length dist, .copy length dist ∈ lz77 d q → dist ≤ 32767

/-- The compressed size is bounded, and the empty input gives the eight bytes of 46_deflate_encoder.md R354 (R353, R365). -/
def Obligations.CompressedSizeIsBounded : Prop :=
  (∀ d q, d ≠ [] → (compress d q).length ≤ d.length + 6 + 5 * ((d.length + 32766) / 32767)) ∧
  (∀ q, compress [] q = [0x78, 0x5E, 0x03, 0x00, 0x00, 0x00, 0x00, 0x01])

/-- Two DEF_COMPRESS of the same bytes at the same effective quality give the same bytes, whatever the addresses, the allocator's
answers and the rest of the state (46_deflate_encoder.md R355; 00_scope.md R18). -/
def Obligations.CompressionIsDeterministic : Prop :=
  ∀ s1 s2 imm1 imm2 p1 p2 t1 t2,
    s1.Ready [.allocResp p1] → s2.Ready [.allocResp p2] →
    s1.start.mem.read (s1.arg 0) (s1.arg 1) = s2.start.mem.read (s2.arg 0) (s2.arg 1) →
    s1.running.snap.effectiveQuality imm1 = s2.running.snap.effectiveQuality imm2 →
    exec (.defCompress imm1) s1 = .next t1 → exec (.defCompress imm2) s2 = .next t2 → t1.done = true → t2.done = true →
    s1.done = false → s2.done = false →
    t1.res[1] = t2.res[1] ∧
      t1.eng.mem.read t1.res[0].toNat t1.res[1].toNat = t2.eng.mem.read t2.res[0].toNat t2.res[1].toNat

/-- LZ_HASH gives the hash of three bytes and its bucket; LZ_MATCHLEN gives the count of leading equal bytes, at most 258
(46_deflate_encoder.md R342, R344, R366, R367). HUF_ENC_SYM gives the fixed code of a symbol, bit-reversed, and its length
(46_deflate_encoder.md R350, R368). -/
def Obligations.LzAndHufCommandsComplete : Prop :=
  (∀ s, s.Ready [] →
    (s.arg 0 + 3 ≤ 0x100000000 →
      let v := zhash (s.start.mem.get (s.arg 0)) (s.start.mem.get (s.arg 0 + 1)) (s.start.mem.get (s.arg 0 + 2))
      ∃ t, exec .lzHash s = .next t ∧ Completed s t (v &&& 0x3FFF#32) v 0 0 ∧ Untouched s.start t.eng) ∧
    (let m := min (s.arg 2) 258
     s.arg 0 + m ≤ 0x100000000 → s.arg 1 + m ≤ 0x100000000 →
      ∃ t k, exec .lzMatchlen s = .next t ∧ Completed s t (BitVec.ofNat 32 k) 0 0 0 ∧ Untouched s.start t.eng ∧ k ≤ m ∧
        (∀ i, i < k → s.start.mem.get (s.arg 0 + i) = s.start.mem.get (s.arg 1 + i)) ∧
        (k < m → s.start.mem.get (s.arg 0 + k) ≠ s.start.mem.get (s.arg 1 + k)))) ∧
  (∀ s sym, s.Ready [] →
    (sym ≤ 287 →
      ∃ t c l, exec (.hufEncSym false sym) s = .next t ∧
        ((sym ≤ 143 ∧ c = 0x30 + sym ∧ l = 8) ∨ (144 ≤ sym ∧ sym ≤ 255 ∧ c = 0x190 + sym - 144 ∧ l = 9) ∨
          (256 ≤ sym ∧ sym ≤ 279 ∧ c = sym - 256 ∧ l = 7) ∨ (280 ≤ sym ∧ c = 0xC0 + sym - 280 ∧ l = 8)) ∧
        Completed s t (BitVec.ofNat 32 (bitrev c l)) (BitVec.ofNat 32 l) 0 0 ∧ Untouched s.start t.eng) ∧
    (sym ≤ 31 →
      ∃ t, exec (.hufEncSym true sym) s = .next t ∧ Completed s t (BitVec.ofNat 32 (bitrev sym 5)) 5 0 0 ∧
        Untouched s.start t.eng))

/-- ADLER32 and CRC32 give the checksum of a buffer from the running value in ARG2 (47_checksum_png_writer.md R396, R397), and both
checksums go on from an earlier result (R380, R382). -/
def Obligations.ChecksumsComplete : Prop :=
  (∀ s, s.Ready [] → s.arg 0 + s.arg 1 ≤ 0x100000000 →
     let d := s.start.mem.read (s.arg 0) (s.arg 1)
     (∃ t, exec .adler32 s = .next t ∧ Completed s t (adler32 s.running.snap.args[2] d) 0 0 0 ∧ Untouched s.start t.eng) ∧
     (∃ t, exec .crc32 s = .next t ∧ Completed s t (crc32 s.running.snap.args[2] d) 0 0 0 ∧ Untouched s.start t.eng)) ∧
  ((∀ a x y, adler32 (adler32 a x) y = adler32 a (x ++ y)) ∧ (∀ c x y, crc32 (crc32 c x) y = crc32 c (x ++ y)) ∧
   (∀ a, adler32 a [] = a) ∧ ∀ c, crc32 c [] = c)

/-- PNG_ENCODE writes the file of its pixel rows, read at the stride and in the order FLIP_WRITE says, to a buffer of exactly its
size (47_checksum_png_writer.md R390 to R395).
ALLOC_SIZE and ALLOC_PTR keep the last request's values by notes/assumptions 13. -/
def Obligations.PngEncodeCompletes : Prop :=
  ∀ s n p,
    let c := s.running.snap
    let w := s.arg 1
    let h := s.arg 2
    let stride := if s.arg 3 = 0 then w * n else s.arg 3
    let input := (List.range h).map fun r => s.start.mem.read (s.arg 0 + r * stride) (w * n)
    let image := if c.flipWrite then input.reverse else input
    let file := pngFile w h n (max 5 (c.quality.toNat % 65536)) (filteredImage c.forceFilter n image [])
    s.Ready [.allocResp p] → 1 ≤ n → n ≤ 4 → w ≠ 0 → h ≠ 0 → w * n ≤ stride → w * n ≤ 0x7fffffff →
    h * (1 + w * n) ≤ 0x7fffffff → s.arg 0 + ((h - 1) * stride + w * n) ≤ 0x100000000 → file.length ≤ 0x7fffffff →
    p ≠ 0 → p.toNat + file.length ≤ 0x100000000 →
    overlap (s.arg 0) ((h - 1) * stride + w * n) p.toNat file.length = false →
    ∃ t, exec (.pngEncode n) s = .next t ∧ Completed s t p (BitVec.ofNat 32 file.length) 0 0 ∧
      t.eng.mem.read p.toNat file.length = file ∧ SameMemOutside s.start t.eng p.toNat file.length ∧ UnitsInvalid t.eng ∧
      SameSource s.start t.eng ∧ t.eng.allocSize = BitVec.ofNat 32 file.length ∧ t.eng.allocPtr = 0 ∧
      SameSrcPort s.start t.eng

/-- The filtered image has one tag and one filtered row for each row, the row before it as the prior row, and where no filter is
forced the tag is the first of the five with the least cost (47_checksum_png_writer.md R391, R392). -/
def Obligations.FilterSelection : Prop :=
  (∀ force n len (rows : List (List Byte)) (first : List Byte), (∀ r ∈ rows, r.length = len) →
    (filteredImage force n rows first).length = rows.length * (1 + len) ∧
    ∀ r, r < rows.length →
      let prior := if r = 0 then first else rows.getD (r - 1) []
      let tag := selectFilter force n (rows.getD r []) prior
      ((filteredImage force n rows first).drop (r * (1 + len))).take (1 + len) =
        BitVec.ofNat 8 tag :: filterRow tag n (rows.getD r []) prior) ∧
  ∀ force n row prior,
    (force ≤ 4 → selectFilter force n row prior = force) ∧
    (5 ≤ force →
      let t := selectFilter force n row prior
      t ≤ 4 ∧ (∀ u, u ≤ 4 → filterCost (filterRow t n row prior) ≤ filterCost (filterRow u n row prior)) ∧
        ∀ u, u < t → filterCost (filterRow t n row prior) < filterCost (filterRow u n row prior))
end

