-- ==== Sys2Proof/Laws/Bits.lean ====
section
/-! SUPPORT. Laws of bit sequences: `emit`, `bitsValue`, `bitrev`, `packBits`. -/

namespace Sys2Proof.Machine

theorem bit_eq_testBit (v i : Nat) : bit v i = v.testBit i := by
  rw [bit, Nat.testBit_eq_decide_div_mod_eq]
  by_cases h : v / 2 ^ i % 2 = 1 <;> simp [h]

/-- Bit 0 of `v`, and the bits of `v / 2`. -/
theorem emit_succ (v n : Nat) : emit v (n + 1) = bit v 0 :: emit (v / 2) n := by
  simp only [emit, List.range_succ_eq_map, List.map_cons, List.map_map]
  congr 1
  apply List.map_congr_left
  intro i _
  simp only [Function.comp, bit_eq_testBit]
  rw [Nat.testBit_succ]

@[simp] theorem emit_zero (v : Nat) : emit v 0 = [] := rfl

@[simp] theorem emit_length (v n : Nat) : (emit v n).length = n := by simp [emit]

/-- The value of the low `n` bits. -/
theorem bitsValue_emit (v n : Nat) : bitsValue (emit v n) = v % 2 ^ n := by
  induction n generalizing v with
  | zero => simp [bitsValue, Nat.mod_one]
  | succ n ih =>
    rw [emit_succ, bitsValue, ih, pow_succ, Nat.mul_comm (2 ^ n) 2, Nat.mod_mul]
    have : (bit v 0).toNat = v % 2 := by
      rw [bit, pow_zero, Nat.div_one]
      rcases Nat.mod_two_eq_zero_or_one v with h | h <;> simp [h]
    omega

/-- The bits of a value are the bits it was read from. -/
theorem emit_bitsValue (l : List Bool) : emit (bitsValue l) l.length = l := by
  induction l with
  | nil => rfl
  | cons b l ih =>
    rw [List.length_cons, emit_succ, bitsValue]
    have h1 : bit (b.toNat + 2 * bitsValue l) 0 = b := by
      rw [bit, pow_zero, Nat.div_one]
      cases b
      · simp
      · simp [Nat.add_mod]
    have h2 : (b.toNat + 2 * bitsValue l) / 2 = bitsValue l := by cases b <;> simp <;> omega
    rw [h1, h2, ih]

theorem bitsValue_lt (l : List Bool) : bitsValue l < 2 ^ l.length := by
  induction l with
  | nil => simp [bitsValue]
  | cons b l ih =>
    rw [bitsValue, List.length_cons, pow_succ]
    cases b <;> simp <;> omega

theorem bitsValue_append (l m : List Bool) : bitsValue (l ++ m) = bitsValue l + 2 ^ l.length * bitsValue m := by
  induction l with
  | nil => simp [bitsValue]
  | cons b l ih =>
    rw [List.cons_append, bitsValue, bitsValue, ih, List.length_cons, pow_succ]
    ring

/-- The low `n` bits, then the `m` above them. -/
theorem emit_add (v n m : Nat) : emit v (n + m) = emit v n ++ emit (v / 2 ^ n) m := by
  induction n generalizing v with
  | zero => simp
  | succ n ih =>
    rw [show n + 1 + m = n + m + 1 by omega, emit_succ, emit_succ, ih, List.cons_append, Nat.div_div_eq_div_mul, pow_succ,
      Nat.mul_comm 2]

/-- Only the low bits matter. -/
theorem emit_mod (v n m : Nat) (h : n ≤ m) : emit (v % 2 ^ m) n = emit v n := by
  apply List.map_congr_left
  intro i hi
  rw [List.mem_range] at hi
  rw [bit_eq_testBit, bit_eq_testBit, Nat.testBit_mod_two_pow]
  simp [show i < m by omega]

theorem emit_take (v n k : Nat) (h : k ≤ n) : (emit v n).take k = emit v k := by
  obtain ⟨m, rfl⟩ := Nat.exists_eq_add_of_le h
  rw [emit_add, List.take_left' (emit_length v k)]

theorem emit_drop (v n k : Nat) (h : k ≤ n) : (emit v n).drop k = emit (v / 2 ^ k) (n - k) := by
  obtain ⟨m, rfl⟩ := Nat.exists_eq_add_of_le h
  rw [emit_add, List.drop_left' (emit_length v k), Nat.add_sub_cancel_left]

/-- A number of at most `n` bits and another above it. -/
theorem emit_or (v w n m : Nat) (h : v < 2 ^ n) : emit (v + 2 ^ n * w) (n + m) = emit v n ++ emit w m := by
  rw [emit_add]
  congr 1
  · rw [← emit_mod _ n n (Nat.le_refl n), Nat.add_mul_mod_self_left, emit_mod _ n n (Nat.le_refl n)]
  · rw [Nat.add_mul_div_left _ _ (Nat.two_pow_pos n), Nat.div_eq_of_lt h, Nat.zero_add]

theorem bitrev_lt (v n : Nat) : bitrev v n < 2 ^ n := by
  induction n generalizing v with
  | zero => simp [bitrev]
  | succ n ih =>
    rw [bitrev, pow_succ]
    have := ih (v / 2)
    rcases Nat.mod_two_eq_zero_or_one v with h | h <;> rw [h] <;> omega

/-- Reversal of a number's bits. -/
theorem emit_bitrev (v n : Nat) : emit (bitrev v n) n = (emit v n).reverse := by
  induction n generalizing v with
  | zero => rfl
  | succ n ih =>
    rw [bitrev, Nat.add_comm, Nat.mul_comm, emit_or _ _ _ _ (bitrev_lt _ _), ih, emit_succ v n, List.reverse_cons]
    congr 1
    simp only [emit, List.range_one, List.map_cons, List.map_nil, bit, pow_zero, Nat.div_one, Nat.mod_mod]

/-- The bytes of a byte sequence as bits. -/
theorem flatMap_emit_length (bs : List Byte) : (bs.flatMap fun b => emit b.toNat 8).length = 8 * bs.length := by
  induction bs with
  | nil => rfl
  | cons b bs ih => rw [List.flatMap_cons, List.length_append, ih, emit_length, List.length_cons]; omega

@[simp] theorem byte_toNat (v : Nat) : (byte v).toNat = v % 256 := by simp [byte]

/-- Packing loses no bit: the bits of the packed bytes are the sequence and up to seven 0 bits after it. -/
theorem packBits_bits (l : List Bool) :
    ∃ k, k < 8 ∧ (packBits l).flatMap (fun b => emit b.toNat 8) = l ++ List.replicate k false := by
  have whole : ∀ b0 b1 b2 b3 b4 b5 b6 b7, emit (byte (bitsValue [b0, b1, b2, b3, b4, b5, b6, b7])).toNat 8 =
      [b0, b1, b2, b3, b4, b5, b6, b7] := by decide
  have few : ∀ f : List Bool, 0 < f.length → f.length < 8 →
      emit (byte (bitsValue f)).toNat 8 = f ++ List.replicate (8 - f.length) false := by
    intro f _ h8
    have hv := bitsValue_lt f
    have h256 : 2 ^ f.length ≤ 256 := Nat.pow_le_pow_right (by omega) (by omega : f.length ≤ 8)
    rw [byte_toNat, Nat.mod_eq_of_lt (by omega), show 8 = f.length + (8 - f.length) by omega, emit_add, emit_bitsValue,
      Nat.div_eq_of_lt hv, show f.length + (8 - f.length) - f.length = 8 - f.length by omega]
    congr 1
    simp [emit, List.eq_replicate_iff, bit]
  fun_induction packBits l with
  | case1 => exact ⟨0, by omega, rfl⟩
  | case2 b0 b1 b2 b3 b4 b5 b6 b7 rest ih =>
    obtain ⟨k, hk, h⟩ := ih
    exact ⟨k, hk, by rw [List.flatMap_cons, h, whole]; rfl⟩
  | case3 f h1 h2 =>
    have h0 : 0 < f.length := by
      cases f with
      | nil => exact absurd rfl h1
      | cons _ _ => simp
    have h8 : f.length < 8 := by
      by_contra hc
      rcases f with _ | ⟨b0, _ | ⟨b1, _ | ⟨b2, _ | ⟨b3, _ | ⟨b4, _ | ⟨b5, _ | ⟨b6, _ | ⟨b7, rest⟩⟩⟩⟩⟩⟩⟩⟩
      all_goals first
        | exact h2 _ _ _ _ _ _ _ _ _ rfl
        | simp at hc
    exact ⟨8 - f.length, by omega, by simpa using few f h0 h8⟩

end Sys2Proof.Machine
end

