-- ==== Sys2Proof/Laws/Memory.lean ====
section
/-! SUPPORT. Laws of host memory: a read after a write, and the canonical form. -/

namespace Sys2Proof.Machine

theorem Memory.get_filter (m : Memory) (x y : Nat) :
    Memory.get (m.filter (fun c => decide (c.1 ≠ x))) y = if y = x then Memory.initByte else m.get y := by
  induction m with
  | nil => simp [Memory.get]
  | cons c m ih =>
    obtain ⟨a, b⟩ := c
    by_cases h : a = x
    · subst h
      simp only [List.filter_cons, ne_eq, not_true_eq_false, decide_false, Bool.false_eq_true, if_false]
      rw [ih]
      by_cases hy : y = a
      · simp [hy]
      · simp [hy, Memory.get, Ne.symm hy]
    · simp only [List.filter_cons, ne_eq, h, not_false_eq_true, decide_true, if_true, Memory.get]
      rw [ih]
      by_cases hay : a = y
      · subst hay; simp [h]
      · simp [hay]

theorem Memory.get_insert (m : Memory) (x y : Nat) (v : Byte) (h : ∀ c ∈ m, c.1 ≠ x) :
    Memory.get (Memory.insert m x v) y = if y = x then v else m.get y := by
  induction m with
  | nil =>
    by_cases hy : y = x
    · simp [Memory.insert, Memory.get, hy]
    · simp [Memory.insert, Memory.get, hy, Ne.symm hy]
  | cons c m ih =>
    obtain ⟨a, b⟩ := c
    have ha : a ≠ x := h (a, b) (by simp)
    have ih := ih fun c hc => h c (by simp [hc])
    simp only [Memory.insert]
    split
    · by_cases hy : y = x
      · simp [Memory.get, hy]
      · simp [Memory.get, hy, Ne.symm hy]
    · simp only [Memory.get, ih]
      by_cases hay : a = y
      · subst hay; simp [ha]
      · simp [hay]

/-- A byte read after a byte is set. -/
theorem Memory.get_set (m : Memory) (x y : Nat) (v : Byte) : (m.set x v).get y = if y = x then v else m.get y := by
  unfold Memory.set
  split
  · rename_i h
    rw [Memory.get_filter, h]
  · rw [Memory.get_insert, Memory.get_filter]
    · by_cases h : y = x <;> simp [h]
    · intro c hc; simpa using (List.mem_filter.1 hc).2

/-- A byte read after a range is written. -/
theorem Memory.get_write (m : Memory) (a x : Nat) (bs : List Byte) :
    (m.write a bs).get x = if a ≤ x ∧ x < a + bs.length then bs.getD (x - a) 0 else m.get x := by
  induction bs generalizing m a with
  | nil => rw [Memory.write, if_neg (by simp only [List.length_nil]; omega)]
  | cons b bs ih =>
    rw [Memory.write, ih, Memory.get_set]
    by_cases h1 : a + 1 ≤ x ∧ x < a + 1 + bs.length
    · have h2 : a ≤ x ∧ x < a + (b :: bs).length := by simp only [List.length_cons]; omega
      rw [if_pos h1, if_pos h2, show x - a = (x - (a + 1)) + 1 by omega]
      simp
    · by_cases hx : x = a
      · subst hx; simp
      · have h2 : ¬(a ≤ x ∧ x < a + (b :: bs).length) := by simp only [List.length_cons]; omega
        rw [if_neg h1, if_neg hx, if_neg h2]

theorem Memory.get_write_of_lt (m : Memory) (a x : Nat) (bs : List Byte) (h : x < a ∨ a + bs.length ≤ x) :
    (m.write a bs).get x = m.get x := by
  rw [Memory.get_write, if_neg (by omega)]

@[simp] theorem Memory.read_length (m : Memory) (a n : Nat) : (m.read a n).length = n := by
  induction n generalizing a with
  | zero => rfl
  | succ n ih => simp [Memory.read, ih]

theorem Memory.read_getD (m : Memory) (a n i : Nat) (h : i < n) : (m.read a n).getD i 0 = m.get (a + i) := by
  induction n generalizing a i with
  | zero => omega
  | succ n ih =>
    cases i with
    | zero => simp [Memory.read]
    | succ i =>
      have := ih (a + 1) i (by omega)
      simp only [Memory.read, List.getD_cons_succ, this]
      congr 1; omega

theorem Memory.read_getElem (m : Memory) (a n i : Nat) (h : i < (m.read a n).length) : (m.read a n)[i] = m.get (a + i) := by
  have h' : i < n := by simpa using h
  rw [← Memory.read_getD m a n i h', List.getD_eq_getElem _ _ h]

/-- Two reads are equal if each byte is. -/
theorem Memory.read_congr {m m' : Memory} {a a' n : Nat} (h : ∀ i, i < n → m.get (a + i) = m'.get (a' + i)) :
    m.read a n = m'.read a' n := by
  apply List.ext_getElem (by simp)
  intro i h1 h2
  rw [Memory.read_getElem, Memory.read_getElem]
  exact h i (by simpa using h1)

theorem Memory.read_eq {m : Memory} {a : Nat} {bs : List Byte} (h : ∀ i, i < bs.length → m.get (a + i) = bs.getD i 0) :
    m.read a bs.length = bs := by
  apply List.ext_getElem (by simp)
  intro i h1 h2
  rw [Memory.read_getElem, h i h2, List.getD_eq_getElem _ _ h2]

theorem Memory.read_add (m : Memory) (a n k : Nat) : m.read a (n + k) = m.read a n ++ m.read (a + n) k := by
  induction n generalizing a with
  | zero => simp [Memory.read]
  | succ n ih =>
    rw [show n + 1 + k = (n + k) + 1 by omega, Memory.read, ih, Memory.read, show a + 1 + n = a + (n + 1) by omega]
    rfl

theorem Memory.read_take (m : Memory) (a n k : Nat) (h : k ≤ n) : (m.read a n).take k = m.read a k := by
  obtain ⟨j, rfl⟩ := Nat.exists_eq_add_of_le h
  rw [Memory.read_add, List.take_append_of_le_length (by simp), List.take_of_length_le (by simp)]

theorem Memory.read_drop (m : Memory) (a n k : Nat) (h : k ≤ n) : (m.read a n).drop k = m.read (a + k) (n - k) := by
  obtain ⟨j, rfl⟩ := Nat.exists_eq_add_of_le h
  rw [Memory.read_add, List.drop_append_of_le_length (by simp), List.drop_of_length_le (by simp)]
  simp

/-- A range read after it is written. -/
@[simp] theorem Memory.read_write_self (m : Memory) (a : Nat) (bs : List Byte) : (m.write a bs).read a bs.length = bs := by
  apply Memory.read_eq
  intro i hi
  rw [Memory.get_write, if_pos (by omega)]
  simp

/-- A range read after a range apart from it is written. -/
theorem Memory.read_write_of_apart (m : Memory) (a x n : Nat) (bs : List Byte) (h : x + n ≤ a ∨ a + bs.length ≤ x ∨ n = 0) :
    (m.write a bs).read x n = m.read x n := by
  apply Memory.read_congr
  intro i hi
  exact Memory.get_write_of_lt _ _ _ _ (by omega)

theorem Memory.write_append (m : Memory) (a : Nat) (bs cs : List Byte) :
    m.write a (bs ++ cs) = (m.write a bs).write (a + bs.length) cs := by
  induction bs generalizing m a with
  | nil => simp [Memory.write]
  | cons b bs ih =>
    simp only [List.cons_append, Memory.write, ih, List.length_cons]
    congr 1; omega

theorem overlap_false {a n b m : Nat} (h : overlap a n b m = false) : n = 0 ∨ m = 0 ∨ b + m ≤ a ∨ a + n ≤ b := by
  simp only [overlap, decide_eq_false_iff_not] at h
  omega

/-! ### Free values -/

theorem Memory.get_scramble (m : Memory) (draw x k n y : Nat) (h : ¬(x ≤ y ∧ y < x + n)) :
    (m.scramble draw x k n).get y = m.get y := by
  induction n generalizing m x k with
  | zero => rfl
  | succ n ih =>
    rw [Memory.scramble, ih _ _ _ (by omega), Memory.get_set, if_neg (by omega)]

theorem Memory.get_scrambleAll (m : Memory) (draw k y : Nat) (rs : List Written)
    (h : ∀ w ∈ rs, ¬(w.addr ≤ y ∧ y < w.addr + w.len)) : (m.scrambleAll draw k rs).get y = m.get y := by
  induction rs generalizing m k with
  | nil => rfl
  | cons r rs ih =>
    rw [Memory.scrambleAll, ih _ _ fun w hw => h w (by simp [hw]), Memory.get_scramble _ _ _ _ _ _ (h r (by simp))]

/-- After some of the writes `ws` each byte is as it was, or as one of them leaves it. -/
theorem Memory.get_partly (m : Memory) (draw k x : Nat) (ws : List Host.Cell) :
    (m.partly draw k ws).get x = m.get x ∨ (x, (m.partly draw k ws).get x) ∈ ws := by
  induction ws generalizing m k with
  | nil => exact .inl rfl
  | cons w ws ih =>
    rw [Memory.partly]
    rcases ih (if bit (Config.free draw k).toNat 0 then m.set w.1 w.2 else m) (k + 1) with h | h
    · rw [h]
      split
      · rw [Memory.get_set]
        split
        · rename_i hx
          exact .inr (by simp [hx])
        · exact .inl rfl
      · exact .inl rfl
    · exact .inr (List.mem_cons_of_mem _ h)

/-! ### The canonical form -/

theorem Memory.wf_nil : Memory.wf [] := by simp [Memory.wf]

theorem Memory.insert_mem {m : Memory} {x : Nat} {v : Byte} {c : Host.Cell} (h : c ∈ Memory.insert m x v) :
    c = (x, v) ∨ c ∈ m := by
  induction m with
  | nil => simpa [Memory.insert] using h
  | cons d m ih =>
    obtain ⟨a, b⟩ := d
    simp only [Memory.insert] at h
    split at h
    · simpa using h
    · rcases List.mem_cons.1 h with h | h
      · simp [h]
      · rcases ih h with h | h
        · exact .inl h
        · simp [h]

theorem Memory.insert_sorted {m : Memory} (h : m.Pairwise (fun c d => c.1 < d.1)) (x : Nat) (v : Byte)
    (hx : ∀ c ∈ m, c.1 ≠ x) : (Memory.insert m x v).Pairwise (fun c d => c.1 < d.1) := by
  induction m with
  | nil => simp [Memory.insert]
  | cons d m ih =>
    obtain ⟨a, b⟩ := d
    have ha : a ≠ x := hx (a, b) (by simp)
    rw [List.pairwise_cons] at h
    simp only [Memory.insert]
    split
    · rename_i hlt
      rw [List.pairwise_cons]
      refine ⟨fun c hc => ?_, List.pairwise_cons.2 h⟩
      rcases List.mem_cons.1 hc with rfl | hc
      · exact hlt
      · exact Nat.lt_trans hlt (h.1 c hc)
    · rw [List.pairwise_cons]
      refine ⟨fun c hc => ?_, ih h.2 fun c hc => hx c (by simp [hc])⟩
      rcases Memory.insert_mem hc with rfl | hc
      · simp only; omega
      · exact h.1 c hc

theorem Memory.wf_set {m : Memory} (h : m.wf) (x : Nat) (v : Byte) : (m.set x v).wf := by
  have hf : (m.filter (fun c => decide (c.1 ≠ x))).Pairwise (fun c d => c.1 < d.1) := h.1.filter _
  have hn : ∀ c ∈ m.filter (fun c => decide (c.1 ≠ x)), c.2 ≠ Memory.initByte := fun c hc => h.2 c (List.mem_filter.1 hc).1
  unfold Memory.set
  split
  · exact ⟨hf, hn⟩
  · rename_i hv
    refine ⟨Memory.insert_sorted hf x v fun c hc => by simpa using (List.mem_filter.1 hc).2, fun c hc => ?_⟩
    rcases Memory.insert_mem hc with rfl | hc
    · exact hv
    · exact hn c hc

theorem Memory.wf_write {m : Memory} (h : m.wf) (a : Nat) (bs : List Byte) : (m.write a bs).wf := by
  induction bs generalizing m a with
  | nil => exact h
  | cons b bs ih => exact ih (Memory.wf_set h a b) _

theorem Memory.wf_scramble {m : Memory} (h : m.wf) (draw x k n : Nat) : (m.scramble draw x k n).wf := by
  induction n generalizing m x k with
  | zero => exact h
  | succ n ih => exact ih (Memory.wf_set h _ _) _ _

theorem Memory.wf_scrambleAll {m : Memory} (h : m.wf) (draw k : Nat) (rs : List Written) : (m.scrambleAll draw k rs).wf := by
  induction rs generalizing m k with
  | nil => exact h
  | cons r rs ih => exact ih (Memory.wf_scramble h _ _ _ _) _

theorem Memory.wf_partly {m : Memory} (h : m.wf) (draw k : Nat) (ws : List Host.Cell) : (m.partly draw k ws).wf := by
  induction ws generalizing m k with
  | nil => exact h
  | cons w ws ih =>
    rw [Memory.partly]
    apply ih
    split
    · exact Memory.wf_set h _ _
    · exact h

/-- What a host sees has the length it asks for. -/
@[simp] theorem Memory.look_length (m : Memory) (ws : List Written) (draw x k n : Nat) : (m.look ws draw x k n).length = n := by
  induction n generalizing x k with
  | zero => rfl
  | succ n ih => simp [Memory.look, ih]

/-- What a host sees, byte by byte: a free value in `ws`, the byte of memory outside it. -/
theorem Memory.look_getD (m : Memory) (ws : List Written) (draw x k n i : Nat) (h : i < n) :
    (m.look ws draw x k n).getD i 0 =
      if ws.any fun w => decide (w.addr ≤ x + i ∧ x + i < w.addr + w.len) then Config.freeRead draw (k + i) else m.get (x + i) := by
  induction n generalizing x k i with
  | zero => omega
  | succ n ih =>
    cases i with
    | zero => simp [Memory.look]
    | succ i => simpa [Memory.look, Nat.add_assoc, Nat.add_comm 1] using ih (x + 1) (k + 1) i (by omega)

/-- A byte outside `ws` is seen as it is. -/
theorem Memory.look_of_apart (m : Memory) (ws : List Written) (draw x k n i : Nat) (h : i < n)
    (hw : ∀ w ∈ ws, x + i < w.addr ∨ w.addr + w.len ≤ x + i) : (m.look ws draw x k n).getD i 0 = m.get (x + i) := by
  rw [Memory.look_getD m ws draw x k n i h, if_neg]
  simp only [List.any_eq_true, decide_eq_true_eq, not_exists, not_and]
  intro w hm
  have := hw w hm
  omega

/-- Where nothing is written a host sees memory. -/
@[simp] theorem Memory.look_nil (m : Memory) (draw x k n : Nat) : m.look [] draw x k n = m.read x n := by
  induction n generalizing x k with
  | zero => rfl
  | succ n ih => simp [Memory.look, Memory.read, ih]

/-- Equal memories in the canonical form are equal data. -/
theorem Memory.wf_ext {m m' : Memory} (h : m.wf) (h' : m'.wf) (hg : ∀ x, m.get x = m'.get x) : m = m' := by
  have low : ∀ (m : Memory) (x : Nat), (∀ c ∈ m, x < c.1) → m.get x = Memory.initByte := by
    intro m x hm
    induction m with
    | nil => rfl
    | cons c m ih =>
      obtain ⟨a, b⟩ := c
      have : x < a := hm (a, b) (by simp)
      rw [Memory.get, if_neg (by omega)]
      exact ih fun c hc => hm c (by simp [hc])
  induction m generalizing m' with
  | nil =>
    cases m' with
    | nil => rfl
    | cons c m' =>
      obtain ⟨a, b⟩ := c
      have h2 := hg a
      have h3 := h'.2 (a, b) (by simp)
      simp [Memory.get] at h2 h3
      exact absurd h2.symm h3
  | cons c m ih =>
    obtain ⟨a, b⟩ := c
    have hb := h.2 (a, b) (by simp)
    have h1 := List.pairwise_cons.1 h.1
    cases m' with
    | nil =>
      have h2 := hg a
      simp [Memory.get] at h2
      exact absurd h2 hb
    | cons c' m' =>
      obtain ⟨a', b'⟩ := c'
      have hb' := h'.2 (a', b') (by simp)
      have h1' := List.pairwise_cons.1 h'.1
      have haa : a = a' := by
        rcases Nat.lt_trichotomy a a' with hlt | heq | hlt
        · have h2 := hg a
          rw [Memory.get, if_pos rfl, low ((a', b') :: m') a] at h2
          · exact absurd h2 hb
          · intro c hc
            rcases List.mem_cons.1 hc with rfl | hc
            · exact hlt
            · exact Nat.lt_trans hlt (h1'.1 c hc)
        · exact heq
        · have h2 := hg a'
          rw [Memory.get.eq_2 a' a' b' m', if_pos rfl, low ((a, b) :: m) a'] at h2
          · exact absurd h2.symm hb'
          · intro c hc
            rcases List.mem_cons.1 hc with rfl | hc
            · exact hlt
            · exact Nat.lt_trans hlt (h1.1 c hc)
      subst haa
      have hbb : b = b' := by simpa [Memory.get] using hg a
      subst hbb
      congr 1
      apply ih ⟨h1.2, fun c hc => h.2 c (by simp [hc])⟩ ⟨h1'.2, fun c hc => h'.2 c (by simp [hc])⟩
      intro x
      by_cases hx : a = x
      · subst hx
        rw [low m a fun c hc => h1.1 c hc, low m' a fun c hc => h1'.1 c hc]
      · simpa [Memory.get, hx] using hg x

end Sys2Proof.Machine
end

