-- ==== Sys2Proof/Laws/Engine.lean ====
section
/-! SUPPORT. Laws of the engine's steps: what each operation of Ops does to the engine, and how a command's run ends. -/

namespace Sys2Proof.Machine

/-! ### Steps in sequence -/

theorem EngM.bind_run {α β : Type} (x : EngM α) (f : α → EngM β) (e : Eng) :
    (x >>= f) e = match x e with
      | .ok a e' => f a e'
      | .error s e' => .error s e' := by
  simp only [bind, EStateM.bind]
  cases x e <;> rfl

/-- A step that succeeds, and then the rest. -/
theorem EngM.bind_ok {α β : Type} {x : EngM α} {f : α → EngM β} {e e' : Eng} {a : α} (h : x e = .ok a e') :
    (x >>= f) e = f a e' := by
  rw [EngM.bind_run, h]

/-- A step that stops, whatever would come after it. -/
theorem EngM.bind_error {α β : Type} {x : EngM α} {f : α → EngM β} {e e' : Eng} {s : Stop} (h : x e = .error s e') :
    (x >>= f) e = .error s e' := by
  rw [EngM.bind_run, h]

@[simp] theorem EngM.pure_run {α : Type} (a : α) (e : Eng) : (pure a : EngM α) e = .ok a e := rfl
@[simp] theorem getE_run (e : Eng) : getE e = .ok e e := rfl
@[simp] theorem modE_run (f : Eng → Eng) (e : Eng) : modE f e = .ok () (f e) := rfl
@[simp] theorem stop_run {α : Type} (x : Stop) (e : Eng) : (stop x : EngM α) e = .error x e := rfl
@[simp] theorem raise_run {α : Type} (c i : Nat) (e : Eng) : (raise c i : EngM α) e = .error (.raise c i) e := rfl

/-- A change of the engine, and then the rest. -/
theorem modE_bind {α : Type} (f : Eng → Eng) (k : Unit → EngM α) (e : Eng) : (modE f >>= k) e = k () (f e) := rfl

/-- A look at the engine, and then the rest. -/
theorem getE_bind {α : Type} (k : Eng → EngM α) (e : Eng) : (getE >>= k) e = k e e := rfl

theorem ensure_run (ok : Bool) (c i : Nat) (e : Eng) :
    ensure ok c i e = if ok then .ok () e else .error (.raise c i) e := by cases ok <;> rfl

@[simp] theorem ensure_true (c i : Nat) (e : Eng) : ensure true c i e = .ok () e := rfl
@[simp] theorem ensure_false (c i : Nat) (e : Eng) : ensure false c i e = .error (.raise c i) e := rfl

theorem EngM.ite_run {α : Type} (p : Prop) [Decidable p] (x y : EngM α) (e : Eng) :
    (if p then x else y) e = if p then x e else y e := by split <;> rfl

/-- A check that holds, and then the rest. -/
theorem ensure_bind {α : Type} {ok : Bool} {c i : Nat} {f : Unit → EngM α} {e : Eng} (h : ok = true) :
    (ensure ok c i >>= f) e = f () e := by
  subst h; rfl

/-- A check that fails. -/
theorem ensure_bind_fails {α : Type} {ok : Bool} {c i : Nat} {f : Unit → EngM α} {e : Eng} (h : ok = false) :
    (ensure ok c i >>= f) e = .error (.raise c i) e := by
  subst h; rfl

/-! ### Regions and memory -/

theorem declare_ok {r : Region} {e : Eng} (h : e.placed = []) :
    declare r e = .ok () { e with regions := r :: e.regions } := by
  simp [declare, h]

theorem checkIn_ok {a n : Nat} {e : Eng} (h : e.placed = []) (hn : a + n ≤ Config.addrSpace) :
    checkIn a n e = .ok () { e with regions := ⟨a, n, true⟩ :: e.regions } := by
  rw [checkIn, ensure_bind (by simpa using hn), declare_ok h]

theorem checkOut_ok {a n : Nat} {e : Eng} (h : e.placed = []) (hn : a + n ≤ Config.addrSpace) :
    checkOut a n e = .ok () { e with regions := ⟨a, n, false⟩ :: e.regions } := by
  rw [checkOut, ensure_bind (by simpa using hn), declare_ok h]

theorem checkIn_fails {a n : Nat} {e : Eng} (hn : Config.addrSpace < a + n) : checkIn a n e = .error (.raise 0x0604 a) e := by
  rw [checkIn, ensure_bind_fails (by simpa using hn)]

theorem checkOut_fails {a n : Nat} {e : Eng} (hn : Config.addrSpace < a + n) : checkOut a n e = .error (.raise 0x0604 a) e := by
  rw [checkOut, ensure_bind_fails (by simpa using hn)]

theorem memRead_ok {a n : Nat} {e : Eng} (h : a + n ≤ Config.addrSpace) : memRead a n e = .ok (e.mem.read a n) e := by
  simp [memRead, h]

theorem memByte_ok {a : Nat} {e : Eng} (h : a < Config.addrSpace) : memByte a e = .ok (e.mem.get a) e := by
  simp [memByte, h]

theorem memWrite_ok {toHost : Bool} {a : Nat} {bs : List Byte} {e : Eng} (h : a + bs.length ≤ Config.addrSpace) :
    memWrite toHost a bs e =
      .ok () { e with
        mem := e.mem.write a bs
        written := noteWrite a bs.length toHost e.written
        journal := journalBytes a bs e.journal } := by
  simp [memWrite, h]

/-- The journal is the older one with the new byte writes before it, the last byte first. -/
theorem journalBytes_eq (a : Nat) (bs : List Byte) (j : List Host.Cell) :
    journalBytes a bs j = (List.zip (List.range' a bs.length) bs).reverse ++ j := by
  induction bs generalizing a j with
  | nil => rfl
  | cons b bs ih => simp [journalBytes, ih, List.range'_succ]

/-- The pieces take place in order, and nothing else changes but the record of what has been written. -/
theorem writePieces_ok {toHost : Bool} {ps : List (Nat × List Byte)} {e : Eng}
    (h : ∀ p ∈ ps, p.1 + p.2.length ≤ Config.addrSpace) :
    ∃ f, writePieces toHost ps e = .ok () f ∧ f.mem = ps.foldl (fun m p => m.write p.1 p.2) e.mem ∧
      f = { e with mem := f.mem, written := f.written, journal := f.journal } := by
  induction ps generalizing e with
  | nil => exact ⟨e, rfl, rfl, rfl⟩
  | cons p ps ih =>
    rw [writePieces, EngM.bind_ok (memWrite_ok (h p (by simp)))]
    obtain ⟨f, hf, hm, hs⟩ := ih (e := { e with
      mem := e.mem.write p.1 p.2
      written := noteWrite p.1 p.2.length toHost e.written
      journal := journalBytes p.1 p.2 e.journal }) fun q hq => h q (by simp [hq])
    exact ⟨f, hf, hm, by rw [hs]⟩

/-! ### What the command has written, and the host's writes -/

/-- The pieces of a range outside `[a, a+n)` hold its bytes that do not lie there. -/
theorem Written.mem_outside (a n : Nat) (w : Written) (x : Nat) :
    (∃ v ∈ w.outside a n, v.addr ≤ x ∧ x < v.addr + v.len) ↔
      (w.addr ≤ x ∧ x < w.addr + w.len) ∧ (x < a ∨ a + n ≤ x) := by
  unfold Written.outside overlap
  split
  · rename_i h
    simp only [decide_eq_true_eq] at h
    simp only [List.mem_filter, List.mem_cons, List.not_mem_nil, or_false, decide_eq_true_eq, or_and_right, exists_or,
      and_assoc, exists_eq_left]
    omega
  · rename_i h
    simp only [decide_eq_true_eq] at h
    simp only [List.mem_singleton, exists_eq_left]
    omega

/-- The moved part of a range holds the bytes of the range in `[p, p+n)`, where their copy at `r` has them. -/
theorem Written.mem_moved (p n r : Nat) (w : Written) (x : Nat) :
    (∃ v ∈ w.moved p n r, v.addr ≤ x ∧ x < v.addr + v.len) ↔
      ∃ y, (w.addr ≤ y ∧ y < w.addr + w.len) ∧ (p ≤ y ∧ y < p + n) ∧ x = r + (y - p) := by
  unfold Written.moved
  dsimp only
  split
  · simp only [List.mem_singleton, exists_eq_left]
    exact ⟨fun h => ⟨x - r + p, by omega, by omega, by omega⟩, fun ⟨y, _, _, _⟩ => by omega⟩
  · simp only [List.not_mem_nil, false_and, exists_false, false_iff]
    rintro ⟨y, _, _, _⟩
    omega

/-- A host write to SRC_BUF while a read request is pending lands. -/
theorem hostPlace_srcBuf {a : Nat} {bs : List Byte} {e : Eng} (h : a + bs.length ≤ Config.addrSpace)
    (hs : e.inSrcBuf a bs.length = true) : hostPlace a bs e = .ok (e.hostWrite a bs) := by
  simp [hostPlace, Nat.not_lt.mpr h, hs]

/-- A host write clear of the running command's regions and of LIVE lands, and the command may not claim its bytes. -/
theorem hostPlace_clear {a : Nat} {bs : List Byte} {e : Eng} (h : a + bs.length ≤ Config.addrSpace)
    (hs : e.inSrcBuf a bs.length = false) (hc : e.clearOf a bs.length = true) :
    hostPlace a bs e = .ok { e.hostWrite a bs with placed := ⟨a, bs.length, false⟩ :: e.placed } := by
  simp [hostPlace, Nat.not_lt.mpr h, hs, hc]

/-- Any other host write within host memory is refused. -/
theorem hostPlace_refused {a : Nat} {bs : List Byte} {e : Eng} (h : a + bs.length ≤ Config.addrSpace)
    (hs : e.inSrcBuf a bs.length = false) (hc : e.clearOf a bs.length = false) :
    hostPlace a bs e = .error .hostWroteRegion := by
  simp [hostPlace, Nat.not_lt.mpr h, hs, hc]

/-! ### The ports -/

/-- The allocator's answer, when it is the host's next move. -/
theorem answer_alloc {e : Eng} {v : Word} {ms : List PortMove} (h : e.moves = .allocResp v :: ms) :
    answer .alloc e = .ok v { e.answered with allocReq := 0, moves := ms } := by
  simp [answer, h, takeAnswer]

/-- The stream source's answer, when it is the host's next move. -/
theorem answer_src {e : Eng} {v : Word} {ms : List PortMove} (h : e.moves = .srcResp v :: ms) :
    answer .src e = .ok v { e.answered with srcReq := 0, moves := ms } := by
  simp [answer, h, takeAnswer]

/-- With no move of the host left the engine waits. -/
theorem answer_none {e : Eng} (p : Port) (h : e.moves = []) : answer p e = .error .wait { e with moves := [] } := by
  simp [answer, h, takeAnswer]

/-- `Alloc(n)` with an answer that keeps the host's duty. -/
theorem portAlloc_ok {e : Eng} {n : Nat} {v : Word} {ms : List PortMove} (hn : n ≤ Config.sizeCeiling)
    (hm : e.moves = .allocResp v :: ms) (hv : v ≠ 0) (hok : e.allocOk e.live v.toNat n = true) :
    portAlloc n e = .ok v.toNat { e.answered with
      allocReq := 0, allocSize := BitVec.ofNat 32 n, allocPtr := 0, moves := ms, live := e.live ++ [⟨v.toNat, n⟩] } := by
  have hv' : v.toNat ≠ 0 := fun h => hv (BitVec.eq_of_toNat_eq (by simpa using h))
  rw [portAlloc, ensure_bind (by simpa using hn), modE_bind, EngM.bind_ok (answer_alloc (v := v) (ms := ms) ?_),
    ensure_bind (by simpa using hv'), getE_bind, EngM.ite_run, if_pos (by simpa [Eng.allocOk, Eng.answered] using hok)]
  · rfl
  · exact hm

/-- `Alloc(n)` answered with 0. -/
theorem portAlloc_refused {e : Eng} {n : Nat} {ms : List PortMove} (hn : n ≤ Config.sizeCeiling)
    (hm : e.moves = .allocResp 0 :: ms) :
    portAlloc n e = .error (.raise 0x0401 n) { e.answered with
      allocReq := 0, allocSize := BitVec.ofNat 32 n, allocPtr := 0, moves := ms } := by
  rw [portAlloc, ensure_bind (by simpa using hn), modE_bind, EngM.bind_ok (answer_alloc (v := 0) (ms := ms) ?_),
    ensure_bind_fails (by decide)]
  · rfl
  · exact hm

/-- `Alloc(n)` without an answer. -/
theorem portAlloc_waits {e : Eng} {n : Nat} (hn : n ≤ Config.sizeCeiling) (hm : e.moves = []) :
    portAlloc n e = .error .wait { e with allocReq := 1, allocSize := BitVec.ofNat 32 n, allocPtr := 0, moves := [] } := by
  rw [portAlloc, ensure_bind (by simpa using hn), modE_bind, EngM.bind_error (answer_none _ ?_)]
  exact hm

/-- A granted Realloc: the buffer moves. -/
theorem portRealloc_ok {e : Eng} {p old n : Nat} {v : Word} {ms : List PortMove} (hn : n ≤ Config.sizeCeiling)
    (hm : e.moves = .allocResp v :: ms) (hv : v ≠ 0) (hok : e.allocOk (dropBuf p e.live) v.toNat n = true) :
    portRealloc p old n e =
      .ok v.toNat
        (Eng.moveBuffer
          { e.answered with allocReq := 0, allocSize := BitVec.ofNat 32 n, allocPtr := BitVec.ofNat 32 p, moves := ms }
          p old ⟨v.toNat, n⟩) := by
  have hv' : v.toNat ≠ 0 := fun h => hv (BitVec.eq_of_toNat_eq (by simpa using h))
  rw [portRealloc, ensure_bind (by simpa using hn), modE_bind, EngM.bind_ok (answer_alloc (v := v) (ms := ms) ?_),
    ensure_bind (by simpa using hv'), getE_bind, EngM.ite_run, if_pos (by simpa [Eng.allocOk, Eng.answered] using hok)]
  · rfl
  · exact hm

/-- `Free(p)` with an answer. -/
theorem portFree_ok {e : Eng} {p : Nat} {v : Word} {ms : List PortMove} (hm : e.moves = .allocResp v :: ms) :
    portFree p e = .ok () { e.answered with
      allocReq := 0, allocSize := 0, allocPtr := BitVec.ofNat 32 p, moves := ms, live := dropBuf p e.live } := by
  rw [portFree, modE_bind, EngM.bind_ok (answer_alloc (v := v) (ms := ms) ?_)]
  · rfl
  · exact hm

@[simp] theorem handOver_run (p : Nat) (e : Eng) :
    handOver p e = .ok () { e with live := dropBuf p e.live, regions := outputAt p e.live ++ e.regions } := rfl

theorem freeLive_empty {e : Eng} (h : e.live = []) : freeLive e = .ok () e := by
  rw [freeLive, getE_bind, h]
  rfl

theorem settleMoves_empty {e : Eng} (h : e.moves = []) : settleMoves e = .ok () e := by
  obtain ⟨_, _, _, _, _, _, _, _, _, _, _, _, _, _, _, m, _, _, _, _⟩ := e
  subst h
  rfl

/-! ### How a command ends -/

/-- A command whose steps succeed and leave nothing to free completes. -/
theorem runCommand_ok {kind : CmdKind} {body : Snapshot → EngM Results} {s : State} {r : Results} {e : Eng}
    (h : body s.running.snap { s.running.base with moves := s.running.log } = .ok r e) (hl : e.live = [])
    (hm : e.moves = []) : runCommand kind body s = .next (s.complete kind r e) := by
  have : finishing (body s.running.snap) { s.running.base with moves := s.running.log } = .ok r e := by
    rw [finishing, EngM.bind_ok h, EngM.bind_ok (freeLive_empty hl), EngM.bind_ok (settleMoves_empty hm)]
    rfl
  simp only [runCommand, course, this]

/-- A command whose steps raise an error and leave nothing to free fails. -/
theorem runCommand_raises {kind : CmdKind} {body : Snapshot → EngM Results} {s : State} {c i : Nat} {e : Eng}
    (h : body s.running.snap { s.running.base with moves := s.running.log } = .error (.raise c i) e) (hl : e.live = [])
    (hm : e.moves = []) : runCommand kind body s = .next (s.fail kind c i e) := by
  have h1 : finishing (body s.running.snap) { s.running.base with moves := s.running.log } = .error (.raise c i) e := by
    rw [finishing, EngM.bind_error h]
  have h2 : unwinding e = .ok () e := by
    rw [unwinding, EngM.bind_ok (freeLive_empty hl), settleMoves_empty hm]
  simp only [runCommand, course, h1, h2, State.halt]

/-- A command whose steps come to a port request without an answer waits. -/
theorem runCommand_waits {kind : CmdKind} {body : Snapshot → EngM Results} {s : State} {e : Eng}
    (h : body s.running.snap { s.running.base with moves := s.running.log } = .error .wait e) :
    runCommand kind body s = .next (s.suspend s.running e) := by
  have h1 : finishing (body s.running.snap) { s.running.base with moves := s.running.log } = .error .wait e := by
    rw [finishing, EngM.bind_error h]
  simp only [runCommand, course, h1, State.halt]

end Sys2Proof.Machine
end

