-- ==== Sys2Proof/Laws/BitReader.lean ====
section
/-! SUPPORT. Laws of the BitReader over a MEM-mode source or a memory buffer: what each of its operations does to the bits ahead. -/

namespace Sys2Proof.Machine

/-- A BitReader that can read: it is valid, and its input is a MEM-mode source or a memory buffer. -/
structure CanRead (e : Eng) : Prop where
  valid : e.br.valid = true
  reader : ReaderOk e.br
  source : SourceOk e.bs
  mode : e.br.input = .source → e.bs.mode = .mem

/-- `f` is `e` after reads: only the BitReader, the source's position and STATUS.SRC_EOF differ. -/
structure ReadsOn (e f : Eng) : Prop where
  same : f = { e with br := f.br, bs := { e.bs with pos := f.bs.pos }, srcEof := f.srcEof }
  source : e.br.input = .source → f.br.input = .source
  buffer : ∀ a n, e.br.input = .mem a n → ∃ b m, f.br.input = .mem b m ∧ a ≤ b ∧ b + m = a + n

theorem ReadsOn.refl (e : Eng) : ReadsOn e e := ⟨rfl, id, fun a n h => ⟨a, n, h, Nat.le_refl _, rfl⟩⟩

theorem ReadsOn.trans {e f g : Eng} (h : ReadsOn e f) (h' : ReadsOn f g) : ReadsOn e g := by
  refine ⟨?_, fun hs => h'.source (h.source hs), fun a n hb => ?_⟩
  · rw [h'.same, h.same]
  · obtain ⟨b, m, hf, hab, hm⟩ := h.buffer a n hb
    obtain ⟨c, k, hg, hbc, hk⟩ := h'.buffer b m hf
    exact ⟨c, k, hg, by omega, by omega⟩

theorem Memory.read_cons {m : Memory} {a n : Nat} {b : Byte} {r : List Byte} (h : m.read a n = b :: r) :
    ∃ k, n = k + 1 ∧ m.get a = b ∧ m.read (a + 1) k = r := by
  cases n with
  | zero => cases h
  | succ k =>
    rw [Memory.read] at h
    injection h with h1 h2
    exact ⟨k, rfl, h1, h2⟩

theorem Memory.read_eq_nil {m : Memory} {a n : Nat} (h : m.read a n = []) : n = 0 := by
  cases n with
  | zero => rfl
  | succ k => cases h

/-- The next byte of the input. -/
theorem inGet_some {e : Eng} {b : Byte} {r : List Byte} (c : CanRead e) (h : e.bytesAhead = b :: r) :
    ∃ f, inGet e = .ok (some b) f ∧ ReadsOn e f ∧ CanRead f ∧ f.br.code = e.br.code ∧ f.br.nbits = e.br.nbits ∧
      f.bytesAhead = r := by
  rw [inGet, getE_bind]
  cases hi : e.br.input with
  | source =>
    simp only [Eng.bytesAhead, hi] at h
    obtain ⟨k, hk, hb, hr⟩ := Memory.read_cons h
    have hm := c.mode hi
    have hs := c.source.slice hm
    refine ⟨{ e with bs := { e.bs with pos := e.bs.pos + 1 } }, ?_, ⟨rfl, fun _ => hi, fun a n h' => by rw [hi] at h'; cases h'⟩,
      ⟨c.valid, c.reader, ⟨fun _ => ⟨hs.1, by simp only; omega⟩, c.source.buffer, c.source.held⟩, fun _ => hm⟩, rfl, rfl, ?_⟩
    · simp only [bsGet]
      rw [getE_bind]
      simp only [hm]
      rw [EngM.ite_run, if_pos (by omega), EngM.bind_ok (memByte_ok (by omega)), hb, ← hm]
      rfl
    · simp only [Eng.bytesAhead, hi]
      rw [show e.bs.base + (e.bs.pos + 1) = e.bs.base + e.bs.pos + 1 by omega, show e.bs.len - (e.bs.pos + 1) = k by omega, hr]
  | mem a n =>
    simp only [Eng.bytesAhead, hi] at h
    obtain ⟨k, hk, hb, hr⟩ := Memory.read_cons h
    subst hk
    have hr' := c.reader.input c.valid a (k + 1) hi
    refine ⟨{ e with br := { e.br with input := .mem (a + 1) k } }, ?_,
      ⟨rfl, fun h' => (by rw [hi] at h'; cases h'), fun x n h' => ?_⟩,
      ⟨c.valid, ⟨c.reader.nbits, c.reader.code, fun _ x n h' => ?_⟩, c.source, fun h' => by cases h'⟩, rfl, rfl, ?_⟩
    · simp only []
      rw [EngM.bind_ok (memByte_ok (by omega)), hb]
      rfl
    · rw [hi] at h'
      cases h'
      exact ⟨a + 1, k, rfl, by omega, by omega⟩
    · cases h'
      omega
    · simp only [Eng.bytesAhead]
      exact hr

/-- The input has no byte left. -/
theorem inGet_none {e : Eng} (c : CanRead e) (h : e.bytesAhead = []) :
    ∃ f, inGet e = .ok none f ∧ ReadsOn e f ∧ CanRead f ∧ f.br = e.br ∧ f.bytesAhead = [] := by
  rw [inGet, getE_bind]
  cases hi : e.br.input with
  | source =>
    simp only [Eng.bytesAhead, hi] at h
    have hn := Memory.read_eq_nil h
    have hm := c.mode hi
    refine ⟨{ e with srcEof := true }, ?_, ⟨rfl, fun _ => hi, fun a n h' => by rw [hi] at h'; cases h'⟩,
      ⟨c.valid, c.reader, c.source, fun _ => hm⟩, rfl, by simpa only [Eng.bytesAhead, hi] using h⟩
    simp only [bsGet]
    rw [getE_bind]
    simp only [hm]
    rw [EngM.ite_run, if_neg (by omega)]
    rfl
  | mem a n =>
    simp only [Eng.bytesAhead, hi] at h
    have hn := Memory.read_eq_nil h
    subst hn
    exact ⟨e, rfl, .refl e, c, rfl, by simp only [Eng.bytesAhead, hi]; rfl⟩

/-- The held bits with one more byte above them. -/
theorem emit_refill (code : Word) (n : Nat) (b : Byte) (hn : n ≤ 24) (hc : code.toNat < 2 ^ n) :
    (code ||| (b.setWidth 32 <<< n)).toNat < 2 ^ (n + 8) ∧
      emit (code ||| (b.setWidth 32 <<< n)).toNat (n + 8) = emit code.toNat n ++ emit b.toNat 8 := by
  have hb := b.isLt
  have hpow : 2 ^ (n + 8) = 2 ^ n * 256 := by rw [pow_add]; norm_num
  have hbig : 2 ^ n * 256 ≤ 2 ^ 32 := by
    rw [← hpow]
    exact Nat.pow_le_pow_right (by omega) (by omega)
  have hle : 2 ^ n * b.toNat + 2 ^ n ≤ 2 ^ n * 256 := by
    calc 2 ^ n * b.toNat + 2 ^ n = 2 ^ n * (b.toNat + 1) := by ring
      _ ≤ 2 ^ n * 256 := Nat.mul_le_mul_left _ (by omega)
  have hv : (code ||| (b.setWidth 32 <<< n)).toNat = code.toNat + 2 ^ n * b.toNat := by
    rw [BitVec.toNat_or, BitVec.toNat_shiftLeft, BitVec.toNat_setWidth, Nat.mod_eq_of_lt (by omega : b.toNat < 2 ^ 32),
      Nat.shiftLeft_eq, Nat.mul_comm b.toNat, Nat.mod_eq_of_lt (by omega), Nat.or_comm,
      ← Nat.two_pow_add_eq_or_of_lt hc, Nat.add_comm]
  rw [hv]
  exact ⟨by omega, emit_or _ _ _ _ hc⟩

/-- A refill changes no bit ahead, and leaves at least 25 bits, or the input empty, or `8 k` more bits. -/
theorem brRefill_spec (k : Nat) {e : Eng} (c : CanRead e) :
    ∃ f, brRefill k e = .ok () f ∧ ReadsOn e f ∧ CanRead f ∧ f.bitsAhead = e.bitsAhead ∧
      (25 ≤ f.br.nbits ∨ f.bytesAhead = [] ∨ e.br.nbits + 8 * k ≤ f.br.nbits) := by
  induction k generalizing e with
  | zero => exact ⟨e, rfl, .refl e, c, rfl, .inr (.inr (Nat.le_refl _))⟩
  | succ k ih =>
    rw [brRefill, getE_bind, EngM.ite_run]
    by_cases hn : e.br.nbits ≤ 24
    · rw [if_pos hn]
      cases hb : e.bytesAhead with
      | nil =>
        obtain ⟨f, hf, ro, cf, hbr, hbf⟩ := inGet_none c hb
        refine ⟨f, by rw [EngM.bind_ok hf]; rfl, ro, cf, ?_, .inr (.inl hbf)⟩
        rw [Eng.bitsAhead, Eng.bitsAhead, hbr, hbf, hb]
      | cons b r =>
        obtain ⟨f, hf, ro, cf, hcode, hnb, hr⟩ := inGet_some c hb
        obtain ⟨hlt, hem⟩ := emit_refill e.br.code e.br.nbits b hn c.reader.code
        let g : Eng := { f with br := { f.br with code := f.br.code ||| (b.setWidth 32 <<< f.br.nbits), nbits := f.br.nbits + 8 } }
        have cg : CanRead g := by
          refine ⟨cf.valid, ⟨?_, ?_, cf.reader.input⟩, cf.source, cf.mode⟩
          · show f.br.nbits + 8 ≤ 32
            omega
          · show (f.br.code ||| (b.setWidth 32 <<< f.br.nbits)).toNat < 2 ^ (f.br.nbits + 8)
            rw [hcode, hnb]
            exact hlt
        have rg : ReadsOn f g := ⟨rfl, id, fun a n h => ⟨a, n, h, Nat.le_refl _, rfl⟩⟩
        have hg : g.bitsAhead = e.bitsAhead := by
          show emit (f.br.code ||| (b.setWidth 32 <<< f.br.nbits)).toNat (f.br.nbits + 8) ++
            f.bytesAhead.flatMap (fun b => emit b.toNat 8) = _
          rw [hcode, hnb, hem, hr, Eng.bitsAhead, hb, List.flatMap_cons, List.append_assoc]
        obtain ⟨x, hx, rx, cx, bx, nx⟩ := ih cg
        refine ⟨x, ?_, (ro.trans rg).trans rx, cx, bx.trans hg, ?_⟩
        · rw [EngM.bind_ok hf]
          exact hx
        · rcases nx with h | h | h
          · exact .inl h
          · exact .inr (.inl h)
          · exact .inr (.inr (by show e.br.nbits + 8 * (k + 1) ≤ _; simp only [g] at h; omega))
    · rw [if_neg hn]
      exact ⟨e, rfl, .refl e, c, rfl, .inl (by omega)⟩

theorem bitsAhead_length (e : Eng) : e.bitsAhead.length = e.br.nbits + 8 * e.bytesAhead.length := by
  rw [Eng.bitsAhead, List.length_append, emit_length, flatMap_emit_length]

/-- At least `n` bits are held, or the input is empty. -/
theorem brNeed_spec {n : Nat} {e : Eng} (hn : n ≤ 25) (c : CanRead e) :
    ∃ f, brNeed n e = .ok () f ∧ ReadsOn e f ∧ CanRead f ∧ f.bitsAhead = e.bitsAhead ∧
      (n ≤ f.br.nbits ∨ f.bytesAhead = []) := by
  rw [brNeed, getE_bind, EngM.ite_run]
  by_cases h : e.br.nbits < n
  · rw [if_pos h]
    obtain ⟨f, hf, ro, cf, hb, hx⟩ := brRefill_spec 4 c
    refine ⟨f, hf, ro, cf, hb, ?_⟩
    rcases hx with h | h | h
    · exact .inl (by omega)
    · exact .inr h
    · exact .inl (by omega)
  · rw [if_neg h]
    exact ⟨e, rfl, .refl e, c, rfl, .inl (by omega)⟩

/-- Taking held bits. -/
theorem brConsume_ok {n : Nat} {e : Eng} (h : n ≤ e.br.nbits) (c : CanRead e) :
    ∃ f, brConsume n e = .ok () f ∧ ReadsOn e f ∧ CanRead f ∧ f.bitsAhead = e.bitsAhead.drop n ∧
      f.br.nbits = e.br.nbits - n ∧ f.bytesAhead = e.bytesAhead := by
  refine ⟨{ e with br := { e.br with code := e.br.code >>> n, nbits := e.br.nbits - n } }, ?_, ⟨rfl, id, ?_⟩, ⟨c.valid, ⟨?_, ?_, ?_⟩,
    c.source, c.mode⟩, ?_, rfl, rfl⟩
  · rw [brConsume, getE_bind, ensure_bind (by simpa using h)]
    rfl
  · exact fun a m hm => ⟨a, m, hm, Nat.le_refl _, rfl⟩
  · have := c.reader.nbits
    show e.br.nbits - n ≤ 32
    omega
  · show (e.br.code >>> n).toNat < 2 ^ (e.br.nbits - n)
    have hc := c.reader.code
    rw [BitVec.toNat_ushiftRight, Nat.shiftRight_eq_div_pow, Nat.div_lt_iff_lt_mul (Nat.two_pow_pos n), ← pow_add,
      Nat.sub_add_cancel h]
    exact hc
  · exact c.reader.input
  · show emit (e.br.code >>> n).toNat (e.br.nbits - n) ++ _ = _
    rw [Eng.bitsAhead, List.drop_append_of_le_length (by rw [emit_length]; exact h), emit_drop _ _ _ h,
      BitVec.toNat_ushiftRight, Nat.shiftRight_eq_div_pow]
    rfl

/-- `br_get(n)` takes the next `n` bits as a number. -/
theorem brGet_ok {n : Nat} {e : Eng} (hn : n ≤ 16) (c : CanRead e) (h : n ≤ e.bitsAhead.length) :
    ∃ f, brGet n e = .ok (bitsValue (e.bitsAhead.take n)) f ∧ ReadsOn e f ∧ CanRead f ∧ f.bitsAhead = e.bitsAhead.drop n := by
  obtain ⟨f, hf, ro, cf, hb, hx⟩ := brNeed_spec (by omega : n ≤ 25) c
  have hnb : n ≤ f.br.nbits := by
    rcases hx with h' | h'
    · exact h'
    · have := bitsAhead_length f
      rw [h', hb] at this
      simp only [List.length_nil] at this
      omega
  obtain ⟨g, hg, rg, cg, bg, -, -⟩ := brConsume_ok hnb cf
  refine ⟨g, ?_, ro.trans rg, cg, by rw [bg, hb]⟩
  rw [brGet, EngM.bind_ok hf, getE_bind, EngM.bind_ok hg]
  have hv : bitsValue (e.bitsAhead.take n) = f.br.code.toNat % 2 ^ n := by
    rw [← hb, Eng.bitsAhead, List.take_append_of_le_length (by rw [emit_length]; exact hnb), emit_take _ _ _ hnb, bitsValue_emit]
  rw [hv]
  rfl

/-- `br_get(n)` past the end of input. -/
theorem brGet_fails {n : Nat} {e : Eng} (hn : n ≤ 16) (c : CanRead e) (h : e.bitsAhead.length < n) :
    ∃ f, brGet n e = .error (.raise 0x0205 n) f ∧ ReadsOn e f ∧ CanRead f := by
  obtain ⟨f, hf, ro, cf, hb, -⟩ := brNeed_spec (by omega : n ≤ 25) c
  have hnb : f.br.nbits < n := by
    have := bitsAhead_length f
    rw [hb] at this
    omega
  refine ⟨f, ?_, ro, cf⟩
  rw [brGet, EngM.bind_ok hf, getE_bind, EngM.bind_error (s := .raise 0x0205 n) (e' := f)]
  rw [brConsume, getE_bind, ensure_bind_fails (by simp; omega)]

/-- `br_peek16()` gives the next 16 bits as a number, 0 above the last one, and takes none. -/
theorem brPeek16_ok {e : Eng} (c : CanRead e) :
    ∃ f, brPeek16 e = .ok (bitsValue (e.bitsAhead.take 16)) f ∧ ReadsOn e f ∧ CanRead f ∧ f.bitsAhead = e.bitsAhead ∧
      (16 ≤ f.br.nbits ∨ f.br.nbits = e.bitsAhead.length) := by
  obtain ⟨f, hf, ro, cf, hb, hx⟩ := brNeed_spec (by omega : 16 ≤ 25) c
  have hl := bitsAhead_length f
  refine ⟨f, ?_, ro, cf, hb, ?_⟩
  · rw [brPeek16, EngM.bind_ok hf, getE_bind]
    have hv : bitsValue (e.bitsAhead.take 16) = f.br.code.toNat % 65536 := by
      rw [← hb, Eng.bitsAhead]
      by_cases h16 : 16 ≤ f.br.nbits
      · rw [List.take_append_of_le_length (by rw [emit_length]; exact h16), emit_take _ _ _ h16, bitsValue_emit]
        norm_num
      · have hnil : f.bytesAhead = [] := by
          rcases hx with h' | h'
          · omega
          · exact h'
        have hc := cf.reader.code
        have : 2 ^ f.br.nbits ≤ 65536 := Nat.pow_le_pow_right (by omega) (by omega : f.br.nbits ≤ 16)
        rw [hnil, List.flatMap_nil, List.append_nil, List.take_of_length_le (by rw [emit_length]; omega), bitsValue_emit,
          Nat.mod_eq_of_lt hc, Nat.mod_eq_of_lt (by omega)]
    rw [hv]
    rfl
  · rcases hx with h | h
    · exact .inl h
    · refine .inr ?_
      rw [hb, h] at hl
      simpa using hl.symm

/-- `br_align()` drops the bits up to the byte boundary. -/
theorem brAlign_ok {e : Eng} (c : CanRead e) :
    ∃ f, brAlign e = .ok (e.br.nbits % 8) f ∧ ReadsOn e f ∧ CanRead f ∧ f.bitsAhead = e.bitsAhead.drop (e.br.nbits % 8) ∧
      f.br.nbits % 8 = 0 := by
  obtain ⟨f, hf, ro, cf, hb, hn, -⟩ := brConsume_ok (Nat.mod_le e.br.nbits 8) c
  refine ⟨f, ?_, ro, cf, hb, by rw [hn]; omega⟩
  rw [brConsume, getE_bind, ensure_bind (by simpa using Nat.mod_le e.br.nbits 8)] at hf
  have hf' : ({ e with br := { e.br with code := e.br.code >>> (e.br.nbits % 8), nbits := e.br.nbits - e.br.nbits % 8 } } : Eng) = f := by
    injection hf
  rw [← hf']
  rfl

/-- `br_byte(err)` at a byte boundary takes the next byte. -/
theorem brByte_ok {err : Nat} {e : Eng} (c : CanRead e) (h8 : e.br.nbits % 8 = 0) (h : 8 ≤ e.bitsAhead.length) :
    ∃ f, brByte err e = .ok (bitsValue (e.bitsAhead.take 8)) f ∧ ReadsOn e f ∧ CanRead f ∧
      f.bitsAhead = e.bitsAhead.drop 8 ∧ f.br.nbits % 8 = 0 := by
  rw [brByte, getE_bind, EngM.ite_run]
  by_cases hn : 8 ≤ e.br.nbits
  · rw [if_pos hn]
    obtain ⟨g, hg, rg, cg, bg, ng, -⟩ := brConsume_ok hn c
    have hneed : brNeed 8 e = .ok () e := by
      rw [brNeed, getE_bind, EngM.ite_run, if_neg (by omega)]
      rfl
    refine ⟨g, ?_, rg, cg, bg, by rw [ng]; omega⟩
    rw [brGet, EngM.bind_ok hneed, getE_bind, EngM.bind_ok hg]
    have hv : bitsValue (e.bitsAhead.take 8) = e.br.code.toNat % 2 ^ 8 := by
      rw [Eng.bitsAhead, List.take_append_of_le_length (by rw [emit_length]; exact hn), emit_take _ _ _ hn, bitsValue_emit]
    rw [hv]
    rfl
  · rw [if_neg hn]
    have h0 : e.br.nbits = 0 := by omega
    have hl := bitsAhead_length e
    cases hb : e.bytesAhead with
    | nil =>
      rw [hb] at hl
      simp only [List.length_nil] at hl
      omega
    | cons b r =>
      obtain ⟨f, hf, ro, cf, hcode, hnb, hr⟩ := inGet_some c hb
      have he : e.bitsAhead = emit b.toNat 8 ++ r.flatMap fun b => emit b.toNat 8 := by
        rw [Eng.bitsAhead, h0, hb, emit_zero, List.nil_append, List.flatMap_cons]
      refine ⟨f, ?_, ro, cf, ?_, by rw [hnb]; exact h8⟩
      · rw [EngM.bind_ok hf, he, List.take_left' (emit_length _ _), bitsValue_emit, Nat.mod_eq_of_lt b.isLt]
        rfl
      · rw [he, List.drop_left' (emit_length _ _), Eng.bitsAhead, hnb, h0, hr]
        rfl

/-- `br_byte(err)` at the end of input. -/
theorem brByte_fails {err : Nat} {e : Eng} (c : CanRead e) (h : e.bitsAhead = []) :
    ∃ f, brByte err e = .error (.raise err 0) f ∧ ReadsOn e f ∧ CanRead f := by
  have hl := bitsAhead_length e
  rw [h] at hl
  simp only [List.length_nil] at hl
  have hb : e.bytesAhead = [] := List.eq_nil_of_length_eq_zero (by omega)
  obtain ⟨f, hf, ro, cf, -, -⟩ := inGet_none c hb
  refine ⟨f, ?_, ro, cf⟩
  rw [brByte, getE_bind, EngM.ite_run, if_neg (by omega), EngM.bind_ok hf]
  rfl

end Sys2Proof.Machine
end

