-- ==== Sys2Proof/Laws/Huffman.lean ====
section
/-! SUPPORT. Laws of the Huffman slots: reads after writes, and what a build does. -/

namespace Sys2Proof.Machine

@[simp] theorem Eng.slot_setSlot_self (e : Eng) (t : Nat) (h : Huff) : (e.setSlot t h).slot t = h := by
  match t with
  | 0 => rfl
  | 1 => rfl
  | _ + 2 => rfl

/-- Two slot numbers below 3 name different slots. -/
theorem Eng.slot_setSlot_of_ne (e : Eng) {t u : Nat} (h : Huff) (ht : t < 3) (hu : u < 3) (hne : t ≠ u) :
    (e.setSlot t h).slot u = e.slot u := by
  match t, u with
  | 0, 0 => exact absurd rfl hne
  | 0, 1 => rfl
  | 0, 2 => rfl
  | 1, 0 => rfl
  | 1, 1 => exact absurd rfl hne
  | 1, 2 => rfl
  | 2, 0 => rfl
  | 2, 1 => rfl
  | 2, 2 => exact absurd rfl hne

/-- Setting a slot touches nothing but the slots. -/
theorem Eng.setSlot_same (e : Eng) (t : Nat) (h : Huff) :
    e.setSlot t h = { e with ht0 := (e.setSlot t h).ht0, ht1 := (e.setSlot t h).ht1, ht2 := (e.setSlot t h).ht2 } := by
  match t with
  | 0 => rfl
  | 1 => rfl
  | _ + 2 => rfl

/-- A build that succeeds. -/
theorem hbBuild_ok {t : Nat} {lens : List Nat} {h : Huff} {e : Eng} (hb : buildSlot lens = .ok h) :
    hbBuild t lens e = .ok () (e.setSlot t h) := by
  rw [hbBuild, hb]
  rfl

/-- A build that fails: the slot is not valid and its arrays are free. -/
theorem hbBuild_fails {t : Nat} {lens : List Nat} {code info : Nat} {e : Eng} (hb : buildSlot lens = .error (code, info)) :
    hbBuild t lens e = .error (.raise code info) { e.setSlot t (freeHuff e.free 0) with free := e.free + 1 } := by
  rw [hbBuild, hb]
  rfl

end Sys2Proof.Machine
end

