-- ==== Sys2Proof/Laws/InPlace.lean ====
section
/-! SUPPORT. Laws of the three in-place functions of the format converter: which bytes each writes, and with what values. -/

namespace Sys2Proof.Machine

/-- The memory after the pieces `ps`, in order. -/
abbrev Memory.pieces (m : Memory) (ps : List (Nat × List Byte)) : Memory := ps.foldl (fun m p => m.write p.1 p.2) m

/-- A byte that no piece meets. -/
theorem Memory.get_pieces_of_apart {ps : List (Nat × List Byte)} {m : Memory} {x : Nat}
    (h : ∀ p ∈ ps, x < p.1 ∨ p.1 + p.2.length ≤ x) : (m.pieces ps).get x = m.get x := by
  induction ps generalizing m with
  | nil => rfl
  | cons p ps ih =>
    rw [Memory.pieces, List.foldl_cons, ih fun q hq => h q (by simp [hq]), Memory.get_write_of_lt _ _ _ _ (h p (by simp))]

/-- A byte after the pieces depends on nothing but that byte before them. -/
theorem Memory.get_pieces_congr (ps : List (Nat × List Byte)) {m m' : Memory} {x : Nat} (h : m.get x = m'.get x) :
    (m.pieces ps).get x = (m'.pieces ps).get x := by
  induction ps generalizing m m' with
  | nil => exact h
  | cons p ps ih => exact ih (by rw [Memory.get_write, Memory.get_write, h])

/-- The bytes of the pixel `p` that the pieces `f` write lie in the pixel. -/
def PiecesWithin (ch : Nat) (f : Nat → List Byte → List (Nat × List Byte)) : Prop :=
  ∀ a p, p.length = ch → ∀ q ∈ f a p, a ≤ q.1 ∧ q.1 + q.2.length ≤ a + ch

/-- The pieces of `n` pixels lie in the buffer. -/
theorem pixelPieces_within {ch : Nat} {f : Nat → List Byte → List (Nat × List Byte)} (hf : PiecesWithin ch f) (n : Nat)
    {a : Nat} {bs : List Byte} (hb : bs.length = n * ch) :
    ∀ q ∈ pixelPieces ch f a (pixels ch n bs), a ≤ q.1 ∧ q.1 + q.2.length ≤ a + n * ch := by
  induction n generalizing a bs with
  | zero => simp [pixels, pixelPieces]
  | succ n ih =>
    rw [Nat.succ_mul] at hb
    intro q hq
    rw [pixels, pixelPieces, List.mem_append] at hq
    rw [Nat.succ_mul]
    rcases hq with hq | hq
    · have := hf a (bs.take ch) (by simp only [List.length_take]; omega) q hq
      omega
    · have := ih (a := a + ch) (bs := bs.drop ch) (by simp only [List.length_drop]; omega) q hq
      omega

/-- Each pixel is as its own pieces leave it. -/
theorem Memory.get_pixelPieces {ch : Nat} {f : Nat → List Byte → List (Nat × List Byte)} (hf : PiecesWithin ch f) (m₀ : Memory)
    (n : Nat) {m : Memory} {a i k : Nat} (hi : i < n) (hk : k < ch) (hm : m.get (a + i * ch + k) = m₀.get (a + i * ch + k)) :
    (m.pieces (pixelPieces ch f a (pixels ch n (m₀.read a (n * ch))))).get (a + i * ch + k) =
      (m.pieces (f (a + i * ch) (m₀.read (a + i * ch) ch))).get (a + i * ch + k) := by
  induction n generalizing m a i with
  | zero => omega
  | succ n ih =>
    have e : (n + 1) * ch = ch + n * ch := by rw [Nat.succ_mul, Nat.add_comm]
    rw [pixels, pixelPieces, Memory.read_take _ _ _ _ (by omega), Memory.read_drop _ _ _ _ (by omega),
      show (n + 1) * ch - ch = n * ch by omega, Memory.pieces, List.foldl_append]
    cases i with
    | zero =>
      have hw := pixelPieces_within hf n (a := a + ch) (bs := m₀.read (a + ch) (n * ch)) (by simp)
      rw [Nat.zero_mul, Nat.add_zero]
      exact Memory.get_pieces_of_apart fun q hq => .inl (by have := hw q hq; omega)
    | succ i =>
      have hx : a + (i + 1) * ch = a + ch + i * ch := by rw [Nat.succ_mul]; omega
      have hw := hf a (m₀.read a ch) (by simp)
      have h0 : ∀ q ∈ f a (m₀.read a ch), a + ch + i * ch + k < q.1 ∨ q.1 + q.2.length ≤ a + ch + i * ch + k :=
        fun q hq => .inr (by have := hw q hq; omega)
      rw [hx] at hm ⊢
      rw [ih (m := m.pieces (f a (m₀.read a ch))) (a := a + ch) (i := i) (by omega)
        (by rw [Memory.get_pieces_of_apart h0, hm])]
      exact Memory.get_pieces_congr _ (Memory.get_pieces_of_apart h0)

/-- `key_apply`: the last byte of every pixel is set by the key, and no other byte is written (45_format_converter.md R315). -/
theorem keyApply_ok {toHost : Bool} {buf n c : Nat} {key : List Byte} {e : Eng} (hc : 0 < c)
    (h : buf + n * c ≤ Config.addrSpace) :
    ∃ f, keyApply toHost buf n c key e = .ok () f ∧ f = { e with mem := f.mem, written := f.written, journal := f.journal } ∧
      (∀ i, i < n → f.mem.get (buf + i * c + (c - 1)) =
        if e.mem.read (buf + i * c) (c - 1) = key.take (c - 1) then 0 else 255) ∧
      ∀ x, (∀ i, i < n → x ≠ buf + i * c + (c - 1)) → f.mem.get x = e.mem.get x := by
  have hin : PiecesWithin c (keyPiece key) := by
    intro a p hp q hq
    rw [keyPiece, List.mem_singleton] at hq
    subst hq
    simp only [List.length_singleton]
    omega
  have hw := pixelPieces_within hin n (a := buf) (bs := e.mem.read buf (n * c)) (by simp)
  obtain ⟨f, hf, hm, hs⟩ := writePieces_ok (toHost := toHost) (e := e)
    (ps := pixelPieces c (keyPiece key) buf (pixels c n (e.mem.read buf (n * c)))) fun q hq => by have := hw q hq; omega
  refine ⟨f, by rw [keyApply, EngM.bind_ok (memRead_ok h), hf], hs, fun i hi => ?_, fun x hx => ?_⟩
  · rw [hm]
    refine (Memory.get_pixelPieces hin e.mem n hi (k := c - 1) (by omega) rfl).trans ?_
    have hd : (e.mem.read (buf + i * c) c).dropLast = e.mem.read (buf + i * c) (c - 1) := by
      rw [List.dropLast_eq_take, Memory.read_length, Memory.read_take _ _ _ _ (by omega)]
    rw [keyPiece, Memory.pieces, List.foldl_cons, List.foldl_nil, Memory.get_write, Memory.read_length, hd,
      if_pos (by simp only [List.length_singleton]; omega), show buf + i * c + (c - 1) - (buf + i * c + c - 1) = 0 by omega]
    rfl
  · rw [hm]
    by_cases hb : buf ≤ x ∧ x < buf + n * c
    · have hi : (x - buf) / c < n := Nat.div_lt_of_lt_mul (by rw [Nat.mul_comm]; omega)
      have hk : (x - buf) % c < c := Nat.mod_lt _ hc
      have hx' : buf + (x - buf) / c * c + (x - buf) % c = x := by
        have := Nat.div_add_mod' (x - buf) c
        omega
      have hne := hx _ hi
      have := Memory.get_pixelPieces hin e.mem n (m := e.mem) (a := buf) hi hk rfl
      rw [hx'] at this
      refine this.trans (Memory.get_pieces_of_apart fun q hq => ?_)
      rw [keyPiece, List.mem_singleton] at hq
      subst hq
      simp only [List.length_singleton, Memory.read_length]
      omega
    · exact Memory.get_pieces_of_apart fun q hq => by have := hw q hq; omega

theorem cgbiPieces_within {ch : Nat} (hch : ch = 3 ∨ ch = 4) (unpremul : Bool) : PiecesWithin ch (cgbiPieces unpremul) := by
  intro a p hp q hq
  unfold cgbiPieces at hq
  split at hq
  · split at hq <;> simp only [List.cons_append, List.nil_append, List.mem_cons, List.not_mem_nil, or_false] at hq <;>
      simp only [List.length_cons, List.length_nil] at hp <;>
      rcases hq with rfl | rfl | rfl | rfl | rfl <;> simp only [List.length_singleton] <;> omega
  · simp only [List.mem_cons, List.not_mem_nil, or_false] at hq
    rcases hq with rfl | rfl <;> simp only [List.length_singleton] <;> omega
  · cases hq

/-- What the pieces of one pixel leave in its bytes. -/
theorem Memory.get_cgbiPieces {ch : Nat} (hch : ch = 3 ∨ ch = 4) (unpremul : Bool) (m : Memory) (a k : Nat) (hk : k < ch) :
    (m.pieces (cgbiPieces unpremul a (m.read a ch))).get (a + k) =
      if k = 3 then m.get (a + 3)
      else if unpremul = true ∧ ch = 4 ∧ m.get (a + 3) ≠ 0 then unpremultiply (m.get (a + 3)) (m.get (a + (2 - k)))
      else m.get (a + (2 - k)) := by
  have hr : m.read a 3 = [m.get a, m.get (a + 1), m.get (a + 2)] := rfl
  have hr4 : m.read a 4 = [m.get a, m.get (a + 1), m.get (a + 2), m.get (a + 3)] := rfl
  rcases hch with rfl | rfl
  · have : k = 0 ∨ k = 1 ∨ k = 2 := by omega
    rw [hr]
    rcases this with rfl | rfl | rfl <;> simp [cgbiPieces, Memory.pieces, Memory.write, Memory.get_set]
  · have : k = 0 ∨ k = 1 ∨ k = 2 ∨ k = 3 := by omega
    rw [hr4]
    by_cases hu : unpremul = true ∧ m.get (a + 3) ≠ 0
    · rcases this with rfl | rfl | rfl | rfl <;>
        simp [cgbiPieces, Memory.pieces, Memory.write, Memory.get_set, hu.1, show m.get (a + 3) ≠ 0#8 from hu.2]
    · have hu' : ¬(unpremul = true ∧ 4 = 4 ∧ m.get (a + 3) ≠ 0) := fun h => hu ⟨h.1, h.2.2⟩
      rw [if_neg hu']
      rcases this with rfl | rfl | rfl | rfl <;>
        simp only [cgbiPieces, if_neg hu] <;> simp [Memory.pieces, Memory.write, Memory.get_set]

/-- `cgbi_fix`: channels 0 and 2 of every pixel change places, un-premultiplied with channel 1 where that is asked for and the
alpha is not 0; the alpha is as it was (45_format_converter.md R320). -/
theorem cgbiFix_ok {toHost : Bool} {buf n ch : Nat} {unpremul : Bool} {e : Eng} (hch : ch = 3 ∨ ch = 4)
    (h : buf + n * ch ≤ Config.addrSpace) :
    ∃ f, cgbiFix toHost buf n ch unpremul e = .ok () f ∧
      f = { e with mem := f.mem, written := f.written, journal := f.journal } ∧
      (∀ i k, i < n → k < 3 → f.mem.get (buf + i * ch + k) =
        if unpremul = true ∧ ch = 4 ∧ e.mem.get (buf + i * ch + 3) ≠ 0 then
          unpremultiply (e.mem.get (buf + i * ch + 3)) (e.mem.get (buf + i * ch + (2 - k)))
        else e.mem.get (buf + i * ch + (2 - k))) ∧
      (∀ i, i < n → ch = 4 → f.mem.get (buf + i * ch + 3) = e.mem.get (buf + i * ch + 3)) ∧
      ∀ x, x < buf ∨ buf + n * ch ≤ x → f.mem.get x = e.mem.get x := by
  have hin := cgbiPieces_within hch unpremul
  have hw := pixelPieces_within hin n (a := buf) (bs := e.mem.read buf (n * ch)) (by simp)
  obtain ⟨f, hf, hm, hs⟩ := writePieces_ok (toHost := toHost) (e := e)
    (ps := pixelPieces ch (cgbiPieces unpremul) buf (pixels ch n (e.mem.read buf (n * ch)))) fun q hq => by
      have := hw q hq; omega
  refine ⟨f, by rw [cgbiFix, EngM.bind_ok (memRead_ok h), hf], hs, fun i k hi hk => ?_, fun i hi h4 => ?_, fun x hx => ?_⟩
  · rw [hm]
    refine (Memory.get_pixelPieces hin e.mem n hi (k := k) (by omega) rfl).trans ?_
    rw [Memory.get_cgbiPieces hch _ _ _ _ (by omega), if_neg (by omega)]
  · rw [hm]
    refine (Memory.get_pixelPieces hin e.mem n hi (k := 3) (by omega) rfl).trans ?_
    rw [Memory.get_cgbiPieces hch _ _ _ _ (by omega), if_pos rfl]
  · rw [hm]
    exact Memory.get_pieces_of_apart fun q hq => by have := hw q hq; omega

/-- Row `r` of a buffer of `rows` rows. -/
theorem pixels_getD {rowlen rows : Nat} (m : Memory) (a : Nat) {r : Nat} (hr : r < rows) :
    (pixels rowlen rows (m.read a (rowlen * rows)))[r]? = some (m.read (a + r * rowlen) rowlen) := by
  induction rows generalizing a r with
  | zero => omega
  | succ rows ih =>
    have e : rowlen * (rows + 1) = rowlen + rowlen * rows := by rw [Nat.mul_succ, Nat.add_comm]
    rw [pixels, Memory.read_take _ _ _ _ (by omega), Memory.read_drop _ _ _ _ (by omega),
      show rowlen * (rows + 1) - rowlen = rowlen * rows by omega]
    cases r with
    | zero => simp
    | succ r => rw [List.getElem?_cons_succ, ih _ (by omega), Nat.succ_mul, Nat.add_assoc, Nat.add_comm rowlen]

@[simp] theorem pixels_length (ch n : Nat) (bs : List Byte) : (pixels ch n bs).length = n := by
  induction n generalizing bs with
  | zero => rfl
  | succ n ih => simp [pixels, ih]

/-- After the exchanges of `n` pairs of rows, from `lo` upward and from `hi` downward, each of these rows is the other of its pair,
and every byte outside them is as it was. -/
theorem Memory.get_flipPieces {rowlen : Nat} (n : Nat) {lo hi : Nat} {xs ys : List (List Byte)} {m : Memory}
    (hx : ∀ p ∈ xs, p.length = rowlen) (hy : ∀ p ∈ ys, p.length = rowlen) (nx : n ≤ xs.length) (ny : n ≤ ys.length)
    (h : lo + 2 * (n * rowlen) ≤ hi + rowlen) :
    (∀ j k, j < n → k < rowlen →
      (m.pieces (flipPieces rowlen n lo hi xs ys)).get (lo + j * rowlen + k) = (ys[j]?.getD []).getD k 0 ∧
      (m.pieces (flipPieces rowlen n lo hi xs ys)).get (hi - j * rowlen + k) = (xs[j]?.getD []).getD k 0) ∧
    ∀ x, (x < lo ∨ lo + n * rowlen ≤ x) → (x + n * rowlen < hi + rowlen ∨ hi + rowlen ≤ x) →
      (m.pieces (flipPieces rowlen n lo hi xs ys)).get x = m.get x := by
  induction n generalizing lo hi xs ys m with
  | zero => exact ⟨fun j k hj => absurd hj (Nat.not_lt_zero j), fun x _ _ => by rw [flipPieces]; rfl⟩
  | succ n ih =>
    cases xs with
    | nil => simp at nx
    | cons x xs =>
      cases ys with
      | nil => simp at ny
      | cons y ys =>
        have lx : x.length = rowlen := hx x (by simp)
        have ly : y.length = rowlen := hy y (by simp)
        rw [Nat.succ_mul n] at h
        obtain ⟨ih1, ih2⟩ := ih (lo := lo + rowlen) (hi := hi - rowlen) (xs := xs) (ys := ys) (m := (m.write lo y).write hi x)
          (fun p hp => hx p (by simp [hp])) (fun p hp => hy p (by simp [hp])) (by simpa using nx) (by simpa using ny) (by omega)
        rw [flipPieces]
        simp only [Memory.pieces, List.foldl_cons] at ih1 ih2 ⊢
        refine ⟨fun j k hj hk => ?_, fun z h1 h2 => ?_⟩
        · cases j with
          | zero =>
            constructor
            · rw [ih2 _ (by omega) (by omega), Memory.get_write_of_lt _ _ _ _ (by omega), Memory.get_write, if_pos (by omega)]
              simp
            · rw [ih2 _ (by omega) (by omega), Memory.get_write, if_pos (by omega)]
              simp
          | succ j =>
            have hj' : (j + 1) * rowlen ≤ n * rowlen := Nat.mul_le_mul_right _ (by omega)
            have := ih1 j k (by omega) hk
            rw [show lo + (j + 1) * rowlen + k = lo + rowlen + j * rowlen + k by rw [Nat.succ_mul]; omega,
              show hi - (j + 1) * rowlen + k = hi - rowlen - j * rowlen + k by rw [Nat.succ_mul]; omega]
            exact this
        · rw [Nat.succ_mul n] at h1 h2
          rw [ih2 _ (by omega) (by omega), Memory.get_write_of_lt _ _ _ _ (by omega), Memory.get_write_of_lt _ _ _ _ (by omega)]

/-- The pieces of an exchange of rows lie in those rows. -/
theorem flipPieces_bound {rowlen : Nat} (n : Nat) {lo hi top : Nat} {xs ys : List (List Byte)}
    (hx : ∀ p ∈ xs, p.length = rowlen) (hy : ∀ p ∈ ys, p.length = rowlen) (h : lo + n * rowlen ≤ top) (h' : hi + rowlen ≤ top) :
    ∀ q ∈ flipPieces rowlen n lo hi xs ys, q.1 + q.2.length ≤ top := by
  induction n generalizing lo hi xs ys with
  | zero => simp [flipPieces]
  | succ n ih =>
    cases xs with
    | nil => simp [flipPieces]
    | cons x xs =>
      cases ys with
      | nil => simp [flipPieces]
      | cons y ys =>
        rw [Nat.succ_mul] at h
        intro q hq
        rw [flipPieces, List.mem_cons, List.mem_cons] at hq
        rcases hq with rfl | rfl | hq
        · simp only [hy y (by simp)]; omega
        · simp only [hx x (by simp)]; omega
        · exact ih (fun p hp => hx p (by simp [hp])) (fun p hp => hy p (by simp [hp])) (by omega) (by omega) q hq

theorem pixels_mem {rowlen rows : Nat} (m : Memory) (a : Nat) :
    ∀ p ∈ pixels rowlen rows (m.read a (rowlen * rows)), p.length = rowlen := by
  intro p hp
  obtain ⟨r, hr⟩ := List.mem_iff_getElem?.1 hp
  have hlt : r < rows := by
    have := (List.getElem?_eq_some_iff.1 hr).1
    simpa using this
  rw [pixels_getD m a hlt, Option.some.injEq] at hr
  rw [← hr, Memory.read_length]

/-- `flip`: the rows in reverse order; an odd middle row is not written (45_format_converter.md R322). -/
theorem flip_ok {toHost : Bool} {buf rowlen rows : Nat} {e : Eng} (h : buf + rowlen * rows ≤ Config.addrSpace) :
    ∃ f, flip toHost buf rowlen rows e = .ok () f ∧
      f = { e with mem := f.mem, written := f.written, journal := f.journal } ∧
      (∀ r k, r < rows → k < rowlen → f.mem.get (buf + r * rowlen + k) = e.mem.get (buf + (rows - 1 - r) * rowlen + k)) ∧
      ∀ x, x < buf ∨ buf + rowlen * rows ≤ x → f.mem.get x = e.mem.get x := by
  have hx := pixels_mem (rowlen := rowlen) (rows := rows) e.mem buf
  have hy : ∀ p ∈ (pixels rowlen rows (e.mem.read buf (rowlen * rows))).reverse, p.length = rowlen :=
    fun p hp => hx p (List.mem_reverse.1 hp)
  have hn : rows / 2 * rowlen ≤ rowlen * rows := by
    rw [Nat.mul_comm rowlen]; exact Nat.mul_le_mul_right _ (Nat.div_le_self _ _)
  have h2 : 2 * (rows / 2 * rowlen) ≤ rowlen * rows := by
    rw [← Nat.mul_assoc, Nat.mul_comm rowlen]; exact Nat.mul_le_mul_right _ (by omega)
  rcases Nat.eq_zero_or_pos rows with rfl | hpos
  · refine ⟨e, ?_, rfl, fun r k hr => absurd hr (Nat.not_lt_zero r), fun _ _ => rfl⟩
    rw [flip, EngM.bind_ok (memRead_ok h)]
    rfl
  have hl : (rows - 1) * rowlen + rowlen = rowlen * rows := by
    rw [← Nat.succ_mul, Nat.mul_comm]; congr 1; omega
  obtain ⟨f, hf, hm, hs⟩ := writePieces_ok (toHost := toHost) (e := e)
    (ps := flipPieces rowlen (rows / 2) buf (buf + (rows - 1) * rowlen)
      (pixels rowlen rows (e.mem.read buf (rowlen * rows))) (pixels rowlen rows (e.mem.read buf (rowlen * rows))).reverse)
    fun q hq => Nat.le_trans (flipPieces_bound (top := buf + rowlen * rows) _ hx hy (by omega) (by omega) q hq) h
  obtain ⟨g1, g2⟩ := Memory.get_flipPieces (rowlen := rowlen) (rows / 2) (lo := buf) (hi := buf + (rows - 1) * rowlen)
    (m := e.mem) hx hy (by simp; omega) (by simp; omega) (by omega)
  refine ⟨f, by rw [flip, EngM.bind_ok (memRead_ok h)]; exact hf, hs, fun r k hr hk => ?_, fun x hx => ?_⟩
  · rw [hm]
    by_cases hlo : r < rows / 2
    · refine (g1 r k hlo hk).1.trans ?_
      rw [List.getElem?_reverse (by simpa using hr), pixels_length, pixels_getD _ _ (by omega), Option.getD_some,
        Memory.read_getD _ _ _ _ hk]
    · by_cases hhi : rows - 1 - r < rows / 2
      · have := (g1 (rows - 1 - r) k hhi hk).2
        rw [show buf + (rows - 1) * rowlen - (rows - 1 - r) * rowlen = buf + r * rowlen by
          rw [Nat.add_sub_assoc (Nat.mul_le_mul_right _ (by omega)), ← Nat.sub_mul]; congr 2; omega] at this
        refine this.trans ?_
        rw [pixels_getD _ _ (by omega), Option.getD_some, Memory.read_getD _ _ _ _ hk]
      · rw [show rows - 1 - r = r by omega]
        have e1 : rows / 2 * rowlen ≤ r * rowlen := Nat.mul_le_mul_right _ (by omega)
        have e2 : r * rowlen + rowlen + rows / 2 * rowlen ≤ rowlen * rows := by
          rw [← Nat.succ_mul, ← Nat.add_mul, Nat.mul_comm rowlen]; exact Nat.mul_le_mul_right _ (by omega)
        exact g2 _ (.inr (by omega)) (.inl (by omega))
  · rw [hm]
    exact g2 x (by omega) (by omega)

end Sys2Proof.Machine
end

