-- ==== Sys2Proof/Laws/Output.lean ====
section
/-! SUPPORT. Laws of the inflate output where it has room: appending bytes and copying back-references. -/

namespace Sys2Proof.Machine

/-- `f` is `e` with `n` bytes appended to the output. -/
structure Appends (e f : Eng) (n : Nat) : Prop where
  same : f = { e with mem := f.mem, written := f.written, journal := f.journal, inf := { e.inf with len := e.inf.len + n } }
  outside : ∀ x, x < e.inf.out + e.inf.len ∨ e.inf.out + e.inf.len + n ≤ x → f.mem.get x = e.mem.get x
  wf : e.mem.wf → f.mem.wf

theorem Appends.refl (e : Eng) : Appends e e 0 := ⟨rfl, fun _ _ => rfl, id⟩

theorem Appends.inf {e f : Eng} {n : Nat} (h : Appends e f n) : f.inf = { e.inf with len := e.inf.len + n } := by
  rw [h.same]

theorem Appends.trans {e f g : Eng} {n m : Nat} (h : Appends e f n) (h' : Appends f g m) : Appends e g (n + m) := by
  have hi := h.inf
  refine ⟨?_, fun x hx => ?_, fun w => h'.wf (h.wf w)⟩
  · rw [h'.same, hi, h.same, Nat.add_assoc]
  · have ho : f.inf.out = e.inf.out := by rw [hi]
    have hl : f.inf.len = e.inf.len + n := by rw [hi]
    rw [h'.outside x (by omega), h.outside x (by omega)]

/-- Where there is room nothing is reserved. -/
theorem outReserve_room {n : Nat} {e : Eng} (h : e.inf.len + n ≤ e.inf.cap) : outReserve n e = .ok () e := by
  rw [outReserve, getE_bind, EngM.ite_run, if_pos h]
  rfl

/-- A fixed output that is full. -/
theorem outReserve_fixed_full {n : Nat} {e : Eng} (h : e.inf.cap < e.inf.len + n) (hr : e.inf.realloc = false) :
    outReserve n e = .error (.raise 0x0403 (e.inf.len + n)) e := by
  rw [outReserve, getE_bind, EngM.ite_run, if_neg (by omega), ensure_bind_fails hr]

/-- One byte joins the output. -/
theorem outStore_ok {b : Byte} {e : Eng} (h : e.inf.out + e.inf.len < Config.addrSpace) :
    ∃ f, outStore b e = .ok () f ∧ Appends e f 1 ∧ f.mem.get (e.inf.out + e.inf.len) = b := by
  refine ⟨{ e with
    mem := e.mem.write (e.inf.out + e.inf.len) [b]
    written := noteWrite (e.inf.out + e.inf.len) 1 (!e.ownsOutput) e.written
    journal := (e.inf.out + e.inf.len, b) :: e.journal
    inf := { e.inf with len := e.inf.len + 1 } }, ?_, ⟨rfl, fun x hx => ?_, fun w => Memory.wf_write w _ _⟩, ?_⟩
  · rw [outStore, getE_bind, EngM.bind_ok (memWrite_ok (by simpa using h))]
    rfl
  · exact Memory.get_write_of_lt _ _ _ _ hx
  · show (e.mem.set _ b).get _ = b
    rw [Memory.get_set, if_pos rfl]

/-- `out_put(b)` where there is room. -/
theorem outPut_ok {b : Byte} {e : Eng} (hr : e.inf.len + 1 ≤ e.inf.cap) (h : e.inf.out + e.inf.cap ≤ Config.addrSpace) :
    ∃ f, outPut b e = .ok () f ∧ Appends e f 1 ∧ f.mem.get (e.inf.out + e.inf.len) = b := by
  obtain ⟨f, hf, ha, hb⟩ := outStore_ok (b := b) (e := e) (by omega)
  exact ⟨f, by rw [outPut, EngM.bind_ok (outReserve_room hr), hf], ha, hb⟩

/-- A copy from `dist` bytes behind: every byte it appends is the one `dist` before it in the output as it grows. -/
theorem copyBack_ok {dist : Nat} (n : Nat) {e : Eng} (h1 : 1 ≤ dist) (hd : dist ≤ e.inf.len)
    (h : e.inf.out + e.inf.len + n ≤ Config.addrSpace) :
    ∃ f, copyBack dist n e = .ok () f ∧ Appends e f n ∧
      ∀ k, k < n → f.mem.get (e.inf.out + e.inf.len + k) = f.mem.get (e.inf.out + e.inf.len + k - dist) := by
  induction n generalizing e with
  | zero => exact ⟨e, rfl, .refl e, fun k hk => absurd hk (Nat.not_lt_zero k)⟩
  | succ n ih =>
    obtain ⟨g, hg, ag, bg⟩ := outStore_ok (b := e.mem.get (e.inf.out + e.inf.len - dist)) (e := e) (by omega)
    have ho : g.inf.out = e.inf.out := by rw [ag.inf]
    have hl : g.inf.len = e.inf.len + 1 := by rw [ag.inf]
    obtain ⟨f, hf, af, bf⟩ := ih (e := g) (by omega) (by omega)
    refine ⟨f, ?_, ?_, fun k hk => ?_⟩
    · rw [copyBack, getE_bind, EngM.bind_ok (memByte_ok (by omega)), EngM.bind_ok hg, hf]
    · have := ag.trans af
      rwa [Nat.add_comm 1 n] at this
    · cases k with
      | zero =>
        rw [af.outside _ (by omega), af.outside _ (by omega), Nat.add_zero, bg, ag.outside _ (by omega)]
      | succ k =>
        have := bf k (by omega)
        rw [ho, hl] at this
        rw [show e.inf.out + e.inf.len + (k + 1) = e.inf.out + (e.inf.len + 1) + k by omega, this]

/-- `inf_copy(length, dist)` where there is room. -/
theorem infCopy_ok {length dist : Nat} {e : Eng} (h1 : 1 ≤ dist) (hd : dist ≤ e.inf.len) (hr : e.inf.len + length ≤ e.inf.cap)
    (h : e.inf.out + e.inf.cap ≤ Config.addrSpace) :
    ∃ f, infCopy length dist e = .ok () f ∧ Appends e f length ∧
      ∀ k, k < length → f.mem.get (e.inf.out + e.inf.len + k) = f.mem.get (e.inf.out + e.inf.len + k - dist) := by
  obtain ⟨f, hf, af, bf⟩ := copyBack_ok length h1 hd (by omega)
  refine ⟨f, ?_, af, bf⟩
  rw [infCopy, getE_bind, ensure_bind (by simpa using hd), EngM.bind_ok (outReserve_room hr), hf]

/-- `inf_copy(length, dist)` from before the beginning of the output. -/
theorem infCopy_far {length dist : Nat} {e : Eng} (h : e.inf.len < dist) :
    infCopy length dist e = .error (.raise 0x0302 dist) e := by
  rw [infCopy, getE_bind, ensure_bind_fails (by simpa using h)]

/-- The capacity a loop of doublings reaches holds what was asked for. -/
theorem growCap_ge (fuel : Nat) {c need : Nat} (h : need ≤ Config.sizeCeiling) : need ≤ growCap fuel c need := by
  induction fuel generalizing c with
  | zero => exact h
  | succ k ih =>
    rw [growCap]
    split
    · exact ih
    · omega

theorem growCap_le (fuel : Nat) {c need : Nat} (h : c ≤ Config.sizeCeiling) : growCap fuel c need ≤ Config.sizeCeiling := by
  induction fuel generalizing c with
  | zero => exact Nat.le_refl _
  | succ k ih =>
    rw [growCap]
    split
    · exact ih (Nat.min_le_right _ _)
    · exact h

end Sys2Proof.Machine
end

