-- ==== Sys2Proof/Laws/State.lean ====
section
/-! SUPPORT. Laws of the state: what each named update leaves in each field. -/

namespace Sys2Proof.Machine

/-! ### The ends of a command (60_exceptions.md R414, R420) -/

@[simp] theorem State.complete_ctrl (s : State) (kind : CmdKind) (r : Results) (e : Eng) : (s.complete kind r e).ctrl = s.ctrl := rfl
@[simp] theorem State.complete_quality (s : State) (kind : CmdKind) (r : Results) (e : Eng) :
    (s.complete kind r e).quality = s.quality := rfl
@[simp] theorem State.complete_done (s : State) (kind : CmdKind) (r : Results) (e : Eng) : (s.complete kind r e).done = true := rfl
@[simp] theorem State.complete_err (s : State) (kind : CmdKind) (r : Results) (e : Eng) : (s.complete kind r e).err = s.err := rfl
@[simp] theorem State.complete_cmdOvr (s : State) (kind : CmdKind) (r : Results) (e : Eng) : (s.complete kind r e).cmdOvr = s.cmdOvr := rfl
@[simp] theorem State.complete_errcode (s : State) (kind : CmdKind) (r : Results) (e : Eng) :
    (s.complete kind r e).errcode = s.errcode := rfl
@[simp] theorem State.complete_errinfo (s : State) (kind : CmdKind) (r : Results) (e : Eng) :
    (s.complete kind r e).errinfo = s.errinfo := rfl
@[simp] theorem State.complete_cmd (s : State) (kind : CmdKind) (r : Results) (e : Eng) : (s.complete kind r e).cmd = s.cmd := rfl
@[simp] theorem State.complete_args (s : State) (kind : CmdKind) (r : Results) (e : Eng) : (s.complete kind r e).args = s.args := rfl
@[simp] theorem State.complete_res (s : State) (kind : CmdKind) (r : Results) (e : Eng) :
    (s.complete kind r e).res = (let f := (if kind = .top then e.invalidateUnits else e).free; #v[regWord f 0 r.r0, regWord f 1 r.r1, regWord f 2 r.r2, regWord f 3 r.r3]) := rfl
@[simp] theorem State.complete_eng (s : State) (kind : CmdKind) (r : Results) (e : Eng) :
    (s.complete kind r e).eng = (if kind = .top then e.invalidateUnits else e).idle := rfl
@[simp] theorem State.complete_run (s : State) (kind : CmdKind) (r : Results) (e : Eng) : (s.complete kind r e).run = none := rfl
@[simp] theorem State.complete_rst (s : State) (kind : CmdKind) (r : Results) (e : Eng) : (s.complete kind r e).rst = s.rst := rfl
@[simp] theorem State.complete_host (s : State) (kind : CmdKind) (r : Results) (e : Eng) : (s.complete kind r e).host = s.host := rfl
@[simp] theorem State.complete_rdata (s : State) (kind : CmdKind) (r : Results) (e : Eng) : (s.complete kind r e).rdata = s.rdata := rfl
@[simp] theorem State.complete_mdata (s : State) (kind : CmdKind) (r : Results) (e : Eng) : (s.complete kind r e).mdata = s.mdata := rfl
@[simp] theorem State.complete_reads (s : State) (kind : CmdKind) (r : Results) (e : Eng) : (s.complete kind r e).reads = s.reads := rfl

@[simp] theorem State.fail_ctrl (s : State) (kind : CmdKind) (code info : Nat) (e : Eng) : (s.fail kind code info e).ctrl = s.ctrl := rfl
@[simp] theorem State.fail_quality (s : State) (kind : CmdKind) (code info : Nat) (e : Eng) :
    (s.fail kind code info e).quality = s.quality := rfl
@[simp] theorem State.fail_done (s : State) (kind : CmdKind) (code info : Nat) (e : Eng) : (s.fail kind code info e).done = s.done := rfl
@[simp] theorem State.fail_err (s : State) (kind : CmdKind) (code info : Nat) (e : Eng) : (s.fail kind code info e).err = true := rfl
@[simp] theorem State.fail_cmdOvr (s : State) (kind : CmdKind) (code info : Nat) (e : Eng) :
    (s.fail kind code info e).cmdOvr = s.cmdOvr := rfl
@[simp] theorem State.fail_errcode (s : State) (kind : CmdKind) (code info : Nat) (e : Eng) :
    (s.fail kind code info e).errcode = BitVec.ofNat 32 code := rfl
@[simp] theorem State.fail_errinfo (s : State) (kind : CmdKind) (code info : Nat) (e : Eng) :
    (s.fail kind code info e).errinfo = regWord (if failClearsUnits kind code then e.spoilHostRegions.invalidateUnits else e.spoilHostRegions).free 0 info := rfl
@[simp] theorem State.fail_cmd (s : State) (kind : CmdKind) (code info : Nat) (e : Eng) : (s.fail kind code info e).cmd = s.cmd := rfl
@[simp] theorem State.fail_args (s : State) (kind : CmdKind) (code info : Nat) (e : Eng) : (s.fail kind code info e).args = s.args := rfl
@[simp] theorem State.fail_res (s : State) (kind : CmdKind) (code info : Nat) (e : Eng) :
    (s.fail kind code info e).res = Vector.replicate 4 0 := rfl
@[simp] theorem State.fail_eng (s : State) (kind : CmdKind) (code info : Nat) (e : Eng) :
    (s.fail kind code info e).eng = (if failClearsUnits kind code then e.spoilHostRegions.invalidateUnits else e.spoilHostRegions).idle := rfl
@[simp] theorem State.fail_run (s : State) (kind : CmdKind) (code info : Nat) (e : Eng) : (s.fail kind code info e).run = none := rfl
@[simp] theorem State.fail_rst (s : State) (kind : CmdKind) (code info : Nat) (e : Eng) : (s.fail kind code info e).rst = s.rst := rfl
@[simp] theorem State.fail_host (s : State) (kind : CmdKind) (code info : Nat) (e : Eng) : (s.fail kind code info e).host = s.host := rfl
@[simp] theorem State.fail_rdata (s : State) (kind : CmdKind) (code info : Nat) (e : Eng) : (s.fail kind code info e).rdata = s.rdata := rfl
@[simp] theorem State.fail_mdata (s : State) (kind : CmdKind) (code info : Nat) (e : Eng) : (s.fail kind code info e).mdata = s.mdata := rfl
@[simp] theorem State.fail_reads (s : State) (kind : CmdKind) (code info : Nat) (e : Eng) : (s.fail kind code info e).reads = s.reads := rfl

@[simp] theorem State.suspend_ctrl (s : State) (r : Running) (e : Eng) : (s.suspend r e).ctrl = s.ctrl := rfl
@[simp] theorem State.suspend_quality (s : State) (r : Running) (e : Eng) : (s.suspend r e).quality = s.quality := rfl
@[simp] theorem State.suspend_done (s : State) (r : Running) (e : Eng) : (s.suspend r e).done = s.done := rfl
@[simp] theorem State.suspend_err (s : State) (r : Running) (e : Eng) : (s.suspend r e).err = s.err := rfl
@[simp] theorem State.suspend_cmdOvr (s : State) (r : Running) (e : Eng) : (s.suspend r e).cmdOvr = s.cmdOvr := rfl
@[simp] theorem State.suspend_errcode (s : State) (r : Running) (e : Eng) : (s.suspend r e).errcode = s.errcode := rfl
@[simp] theorem State.suspend_errinfo (s : State) (r : Running) (e : Eng) : (s.suspend r e).errinfo = s.errinfo := rfl
@[simp] theorem State.suspend_cmd (s : State) (r : Running) (e : Eng) : (s.suspend r e).cmd = s.cmd := rfl
@[simp] theorem State.suspend_args (s : State) (r : Running) (e : Eng) : (s.suspend r e).args = s.args := rfl
@[simp] theorem State.suspend_res (s : State) (r : Running) (e : Eng) : (s.suspend r e).res = s.res := rfl
@[simp] theorem State.suspend_eng (s : State) (r : Running) (e : Eng) : (s.suspend r e).eng = e := rfl
@[simp] theorem State.suspend_run (s : State) (r : Running) (e : Eng) : (s.suspend r e).run = some r := rfl
@[simp] theorem State.suspend_rst (s : State) (r : Running) (e : Eng) : (s.suspend r e).rst = s.rst := rfl
@[simp] theorem State.suspend_host (s : State) (r : Running) (e : Eng) : (s.suspend r e).host = s.host := rfl
@[simp] theorem State.suspend_rdata (s : State) (r : Running) (e : Eng) : (s.suspend r e).rdata = s.rdata := rfl
@[simp] theorem State.suspend_mdata (s : State) (r : Running) (e : Eng) : (s.suspend r e).mdata = s.mdata := rfl
@[simp] theorem State.suspend_reads (s : State) (r : Running) (e : Eng) : (s.suspend r e).reads = s.reads := rfl

/-! ### The host's writes (10_state.md R25, R29, R33, R35) and the resets (70_reset_and_hazards.md R451 to R453) -/

@[simp] theorem State.clearStatus_ctrl (s : State) (v : Word) : (s.clearStatus v).ctrl = s.ctrl := rfl
@[simp] theorem State.clearStatus_quality (s : State) (v : Word) : (s.clearStatus v).quality = s.quality := rfl
@[simp] theorem State.clearStatus_done (s : State) (v : Word) : (s.clearStatus v).done = (s.done && !bit v.toNat 1) := rfl
@[simp] theorem State.clearStatus_err (s : State) (v : Word) : (s.clearStatus v).err = (s.err && !bit v.toNat 2) := rfl
@[simp] theorem State.clearStatus_cmdOvr (s : State) (v : Word) : (s.clearStatus v).cmdOvr = (s.cmdOvr && !bit v.toNat 5) := rfl
@[simp] theorem State.clearStatus_errcode (s : State) (v : Word) : (s.clearStatus v).errcode = s.errcode := rfl
@[simp] theorem State.clearStatus_errinfo (s : State) (v : Word) : (s.clearStatus v).errinfo = s.errinfo := rfl
@[simp] theorem State.clearStatus_cmd (s : State) (v : Word) : (s.clearStatus v).cmd = s.cmd := rfl
@[simp] theorem State.clearStatus_args (s : State) (v : Word) : (s.clearStatus v).args = s.args := rfl
@[simp] theorem State.clearStatus_res (s : State) (v : Word) : (s.clearStatus v).res = s.res := rfl
@[simp] theorem State.clearStatus_eng (s : State) (v : Word) : (s.clearStatus v).eng = s.eng := rfl
@[simp] theorem State.clearStatus_run (s : State) (v : Word) : (s.clearStatus v).run = s.run := rfl
@[simp] theorem State.clearStatus_rst (s : State) (v : Word) : (s.clearStatus v).rst = s.rst := rfl
@[simp] theorem State.clearStatus_host (s : State) (v : Word) : (s.clearStatus v).host = s.host := rfl
@[simp] theorem State.clearStatus_rdata (s : State) (v : Word) : (s.clearStatus v).rdata = s.rdata := rfl
@[simp] theorem State.clearStatus_mdata (s : State) (v : Word) : (s.clearStatus v).mdata = s.mdata := rfl
@[simp] theorem State.clearStatus_reads (s : State) (v : Word) : (s.clearStatus v).reads = s.reads := rfl

@[simp] theorem State.accept_ctrl (s : State) (v : Word) : (s.accept v).ctrl = s.ctrl := rfl
@[simp] theorem State.accept_quality (s : State) (v : Word) : (s.accept v).quality = s.quality := rfl
@[simp] theorem State.accept_done (s : State) (v : Word) : (s.accept v).done = false := rfl
@[simp] theorem State.accept_err (s : State) (v : Word) : (s.accept v).err = false := rfl
@[simp] theorem State.accept_cmdOvr (s : State) (v : Word) : (s.accept v).cmdOvr = s.cmdOvr := rfl
@[simp] theorem State.accept_errcode (s : State) (v : Word) : (s.accept v).errcode = s.errcode := rfl
@[simp] theorem State.accept_errinfo (s : State) (v : Word) : (s.accept v).errinfo = s.errinfo := rfl
@[simp] theorem State.accept_cmd (s : State) (v : Word) : (s.accept v).cmd = v := rfl
@[simp] theorem State.accept_args (s : State) (v : Word) : (s.accept v).args = s.args := rfl
@[simp] theorem State.accept_res (s : State) (v : Word) : (s.accept v).res = s.res := rfl
@[simp] theorem State.accept_eng (s : State) (v : Word) : (s.accept v).eng = s.eng := rfl
@[simp] theorem State.accept_run (s : State) (v : Word) : (s.accept v).run = some s.starting := rfl
@[simp] theorem State.accept_rst (s : State) (v : Word) : (s.accept v).rst = s.rst := rfl
@[simp] theorem State.accept_host (s : State) (v : Word) : (s.accept v).host = s.host := rfl
@[simp] theorem State.accept_rdata (s : State) (v : Word) : (s.accept v).rdata = s.rdata := rfl
@[simp] theorem State.accept_mdata (s : State) (v : Word) : (s.accept v).mdata = s.mdata := rfl
@[simp] theorem State.accept_reads (s : State) (v : Word) : (s.accept v).reads = s.reads := rfl

@[simp] theorem State.logMove_ctrl (s : State) (m : PortMove) : (s.logMove m).ctrl = s.ctrl := rfl
@[simp] theorem State.logMove_quality (s : State) (m : PortMove) : (s.logMove m).quality = s.quality := rfl
@[simp] theorem State.logMove_done (s : State) (m : PortMove) : (s.logMove m).done = s.done := rfl
@[simp] theorem State.logMove_err (s : State) (m : PortMove) : (s.logMove m).err = s.err := rfl
@[simp] theorem State.logMove_cmdOvr (s : State) (m : PortMove) : (s.logMove m).cmdOvr = s.cmdOvr := rfl
@[simp] theorem State.logMove_errcode (s : State) (m : PortMove) : (s.logMove m).errcode = s.errcode := rfl
@[simp] theorem State.logMove_errinfo (s : State) (m : PortMove) : (s.logMove m).errinfo = s.errinfo := rfl
@[simp] theorem State.logMove_cmd (s : State) (m : PortMove) : (s.logMove m).cmd = s.cmd := rfl
@[simp] theorem State.logMove_args (s : State) (m : PortMove) : (s.logMove m).args = s.args := rfl
@[simp] theorem State.logMove_res (s : State) (m : PortMove) : (s.logMove m).res = s.res := rfl
@[simp] theorem State.logMove_eng (s : State) (m : PortMove) : (s.logMove m).eng = s.eng := rfl
@[simp] theorem State.logMove_run (s : State) (m : PortMove) : (s.logMove m).run = s.run.map fun r => { r with log := r.log ++ [m] } := rfl
@[simp] theorem State.logMove_rst (s : State) (m : PortMove) : (s.logMove m).rst = s.rst := rfl
@[simp] theorem State.logMove_host (s : State) (m : PortMove) : (s.logMove m).host = s.host := rfl
@[simp] theorem State.logMove_rdata (s : State) (m : PortMove) : (s.logMove m).rdata = s.rdata := rfl
@[simp] theorem State.logMove_mdata (s : State) (m : PortMove) : (s.logMove m).mdata = s.mdata := rfl
@[simp] theorem State.logMove_reads (s : State) (m : PortMove) : (s.logMove m).reads = s.reads := rfl

@[simp] theorem State.restart_ctrl (s : State) (mem : Memory) : (s.restart mem).ctrl = State.reset.ctrl := rfl
@[simp] theorem State.restart_quality (s : State) (mem : Memory) : (s.restart mem).quality = State.reset.quality := rfl
@[simp] theorem State.restart_done (s : State) (mem : Memory) : (s.restart mem).done = State.reset.done := rfl
@[simp] theorem State.restart_err (s : State) (mem : Memory) : (s.restart mem).err = State.reset.err := rfl
@[simp] theorem State.restart_cmdOvr (s : State) (mem : Memory) : (s.restart mem).cmdOvr = State.reset.cmdOvr := rfl
@[simp] theorem State.restart_errcode (s : State) (mem : Memory) : (s.restart mem).errcode = State.reset.errcode := rfl
@[simp] theorem State.restart_errinfo (s : State) (mem : Memory) : (s.restart mem).errinfo = State.reset.errinfo := rfl
@[simp] theorem State.restart_cmd (s : State) (mem : Memory) : (s.restart mem).cmd = State.reset.cmd := rfl
@[simp] theorem State.restart_args (s : State) (mem : Memory) : (s.restart mem).args = State.reset.args := rfl
@[simp] theorem State.restart_res (s : State) (mem : Memory) : (s.restart mem).res = State.reset.res := rfl
@[simp] theorem State.restart_eng (s : State) (mem : Memory) : (s.restart mem).eng = s.eng.restart mem := rfl
@[simp] theorem State.restart_run (s : State) (mem : Memory) : (s.restart mem).run = State.reset.run := rfl
@[simp] theorem State.restart_rst (s : State) (mem : Memory) : (s.restart mem).rst = s.rst := rfl
@[simp] theorem State.restart_host (s : State) (mem : Memory) : (s.restart mem).host = s.host := rfl
@[simp] theorem State.restart_rdata (s : State) (mem : Memory) : (s.restart mem).rdata = s.rdata := rfl
@[simp] theorem State.restart_mdata (s : State) (mem : Memory) : (s.restart mem).mdata = s.mdata := rfl
@[simp] theorem State.restart_reads (s : State) (mem : Memory) : (s.restart mem).reads = s.reads := rfl

@[simp] theorem State.withCommand_ctrl (s : State) (v : Word) : (s.withCommand v).ctrl = s.ctrl := rfl
@[simp] theorem State.withCommand_quality (s : State) (v : Word) : (s.withCommand v).quality = s.quality := rfl
@[simp] theorem State.withCommand_done (s : State) (v : Word) : (s.withCommand v).done = s.done := rfl
@[simp] theorem State.withCommand_err (s : State) (v : Word) : (s.withCommand v).err = s.err := rfl
@[simp] theorem State.withCommand_cmdOvr (s : State) (v : Word) : (s.withCommand v).cmdOvr = s.cmdOvr := rfl
@[simp] theorem State.withCommand_errcode (s : State) (v : Word) : (s.withCommand v).errcode = s.errcode := rfl
@[simp] theorem State.withCommand_errinfo (s : State) (v : Word) : (s.withCommand v).errinfo = s.errinfo := rfl
@[simp] theorem State.withCommand_cmd (s : State) (v : Word) : (s.withCommand v).cmd = s.cmd := rfl
@[simp] theorem State.withCommand_args (s : State) (v : Word) : (s.withCommand v).args = s.args := rfl
@[simp] theorem State.withCommand_res (s : State) (v : Word) : (s.withCommand v).res = s.res := rfl
@[simp] theorem State.withCommand_eng (s : State) (v : Word) : (s.withCommand v).eng = { s.eng with srcReq := 0, allocReq := 0 } := rfl
@[simp] theorem State.withCommand_run (s : State) (v : Word) : (s.withCommand v).run = none := rfl
@[simp] theorem State.withCommand_rst (s : State) (v : Word) : (s.withCommand v).rst = false := rfl
@[simp] theorem State.withCommand_host (s : State) (v : Word) : (s.withCommand v).host = ⟨.regWrite 0x14#8 .w32 v, false⟩ :: s.host := rfl
@[simp] theorem State.withCommand_rdata (s : State) (v : Word) : (s.withCommand v).rdata = s.rdata := rfl
@[simp] theorem State.withCommand_mdata (s : State) (v : Word) : (s.withCommand v).mdata = s.mdata := rfl
@[simp] theorem State.withCommand_reads (s : State) (v : Word) : (s.withCommand v).reads = s.reads := rfl

/-! ### The engine's part -/

@[simp] theorem Eng.idle_mem (e : Eng) : (e.idle).mem = e.mem := rfl
@[simp] theorem Eng.idle_bs (e : Eng) : (e.idle).bs = e.bs := rfl
@[simp] theorem Eng.idle_srcEof (e : Eng) : (e.idle).srcEof = e.srcEof := rfl
@[simp] theorem Eng.idle_br (e : Eng) : (e.idle).br = e.br := rfl
@[simp] theorem Eng.idle_ht0 (e : Eng) : (e.idle).ht0 = e.ht0 := rfl
@[simp] theorem Eng.idle_ht1 (e : Eng) : (e.idle).ht1 = e.ht1 := rfl
@[simp] theorem Eng.idle_ht2 (e : Eng) : (e.idle).ht2 = e.ht2 := rfl
@[simp] theorem Eng.idle_inf (e : Eng) : (e.idle).inf = e.inf := rfl
@[simp] theorem Eng.idle_png (e : Eng) : (e.idle).png = none := rfl
@[simp] theorem Eng.idle_live (e : Eng) : (e.idle).live = e.live := rfl
@[simp] theorem Eng.idle_srcReq (e : Eng) : (e.idle).srcReq = e.srcReq := rfl
@[simp] theorem Eng.idle_srcReqLen (e : Eng) : (e.idle).srcReqLen = e.srcReqLen := rfl
@[simp] theorem Eng.idle_allocReq (e : Eng) : (e.idle).allocReq = e.allocReq := rfl
@[simp] theorem Eng.idle_allocSize (e : Eng) : (e.idle).allocSize = e.allocSize := rfl
@[simp] theorem Eng.idle_allocPtr (e : Eng) : (e.idle).allocPtr = e.allocPtr := rfl
@[simp] theorem Eng.idle_moves (e : Eng) : (e.idle).moves = [] := rfl
@[simp] theorem Eng.idle_regions (e : Eng) : (e.idle).regions = [] := rfl
@[simp] theorem Eng.idle_placed (e : Eng) : (e.idle).placed = [] := rfl
@[simp] theorem Eng.idle_written (e : Eng) : (e.idle).written = [] := rfl
@[simp] theorem Eng.idle_journal (e : Eng) : (e.idle).journal = [] := rfl
@[simp] theorem Eng.idle_free (e : Eng) : (e.idle).free = e.free + 1 := rfl

@[simp] theorem Eng.invalidateUnits_mem (e : Eng) : (e.invalidateUnits).mem = e.mem := rfl
@[simp] theorem Eng.invalidateUnits_bs (e : Eng) : (e.invalidateUnits).bs = e.bs := rfl
@[simp] theorem Eng.invalidateUnits_srcEof (e : Eng) : (e.invalidateUnits).srcEof = e.srcEof := rfl
@[simp] theorem Eng.invalidateUnits_br (e : Eng) : (e.invalidateUnits).br = freeBitReader e.free 0 := rfl
@[simp] theorem Eng.invalidateUnits_ht0 (e : Eng) : (e.invalidateUnits).ht0 = freeHuff e.free 2000 := rfl
@[simp] theorem Eng.invalidateUnits_ht1 (e : Eng) : (e.invalidateUnits).ht1 = freeHuff e.free 4000 := rfl
@[simp] theorem Eng.invalidateUnits_ht2 (e : Eng) : (e.invalidateUnits).ht2 = freeHuff e.free 6000 := rfl
@[simp] theorem Eng.invalidateUnits_inf (e : Eng) : (e.invalidateUnits).inf = freeInflateOut e.free 10 := rfl
@[simp] theorem Eng.invalidateUnits_png (e : Eng) : (e.invalidateUnits).png = e.png := rfl
@[simp] theorem Eng.invalidateUnits_live (e : Eng) : (e.invalidateUnits).live = e.live := rfl
@[simp] theorem Eng.invalidateUnits_srcReq (e : Eng) : (e.invalidateUnits).srcReq = e.srcReq := rfl
@[simp] theorem Eng.invalidateUnits_srcReqLen (e : Eng) : (e.invalidateUnits).srcReqLen = e.srcReqLen := rfl
@[simp] theorem Eng.invalidateUnits_allocReq (e : Eng) : (e.invalidateUnits).allocReq = e.allocReq := rfl
@[simp] theorem Eng.invalidateUnits_allocSize (e : Eng) : (e.invalidateUnits).allocSize = e.allocSize := rfl
@[simp] theorem Eng.invalidateUnits_allocPtr (e : Eng) : (e.invalidateUnits).allocPtr = e.allocPtr := rfl
@[simp] theorem Eng.invalidateUnits_moves (e : Eng) : (e.invalidateUnits).moves = e.moves := rfl
@[simp] theorem Eng.invalidateUnits_regions (e : Eng) : (e.invalidateUnits).regions = e.regions := rfl
@[simp] theorem Eng.invalidateUnits_placed (e : Eng) : (e.invalidateUnits).placed = e.placed := rfl
@[simp] theorem Eng.invalidateUnits_written (e : Eng) : (e.invalidateUnits).written = e.written := rfl
@[simp] theorem Eng.invalidateUnits_journal (e : Eng) : (e.invalidateUnits).journal = e.journal := rfl
@[simp] theorem Eng.invalidateUnits_free (e : Eng) : (e.invalidateUnits).free = e.free + 1 := rfl

@[simp] theorem Eng.spoilHostRegions_mem (e : Eng) :
    (e.spoilHostRegions).mem = e.mem.scrambleAll e.free 0 (e.written.filter (·.toHost)) := rfl
@[simp] theorem Eng.spoilHostRegions_bs (e : Eng) : (e.spoilHostRegions).bs = e.bs := rfl
@[simp] theorem Eng.spoilHostRegions_srcEof (e : Eng) : (e.spoilHostRegions).srcEof = e.srcEof := rfl
@[simp] theorem Eng.spoilHostRegions_br (e : Eng) : (e.spoilHostRegions).br = e.br := rfl
@[simp] theorem Eng.spoilHostRegions_ht0 (e : Eng) : (e.spoilHostRegions).ht0 = e.ht0 := rfl
@[simp] theorem Eng.spoilHostRegions_ht1 (e : Eng) : (e.spoilHostRegions).ht1 = e.ht1 := rfl
@[simp] theorem Eng.spoilHostRegions_ht2 (e : Eng) : (e.spoilHostRegions).ht2 = e.ht2 := rfl
@[simp] theorem Eng.spoilHostRegions_inf (e : Eng) : (e.spoilHostRegions).inf = e.inf := rfl
@[simp] theorem Eng.spoilHostRegions_png (e : Eng) : (e.spoilHostRegions).png = e.png := rfl
@[simp] theorem Eng.spoilHostRegions_live (e : Eng) : (e.spoilHostRegions).live = e.live := rfl
@[simp] theorem Eng.spoilHostRegions_srcReq (e : Eng) : (e.spoilHostRegions).srcReq = e.srcReq := rfl
@[simp] theorem Eng.spoilHostRegions_srcReqLen (e : Eng) : (e.spoilHostRegions).srcReqLen = e.srcReqLen := rfl
@[simp] theorem Eng.spoilHostRegions_allocReq (e : Eng) : (e.spoilHostRegions).allocReq = e.allocReq := rfl
@[simp] theorem Eng.spoilHostRegions_allocSize (e : Eng) : (e.spoilHostRegions).allocSize = e.allocSize := rfl
@[simp] theorem Eng.spoilHostRegions_allocPtr (e : Eng) : (e.spoilHostRegions).allocPtr = e.allocPtr := rfl
@[simp] theorem Eng.spoilHostRegions_moves (e : Eng) : (e.spoilHostRegions).moves = e.moves := rfl
@[simp] theorem Eng.spoilHostRegions_regions (e : Eng) : (e.spoilHostRegions).regions = e.regions := rfl
@[simp] theorem Eng.spoilHostRegions_placed (e : Eng) : (e.spoilHostRegions).placed = e.placed := rfl
@[simp] theorem Eng.spoilHostRegions_written (e : Eng) : (e.spoilHostRegions).written = e.written := rfl
@[simp] theorem Eng.spoilHostRegions_journal (e : Eng) : (e.spoilHostRegions).journal = e.journal := rfl
@[simp] theorem Eng.spoilHostRegions_free (e : Eng) : (e.spoilHostRegions).free = e.free + 1 := rfl

@[simp] theorem Eng.restart_mem (e : Eng) (mem : Memory) : (e.restart mem).mem = mem := rfl
@[simp] theorem Eng.restart_bs (e : Eng) (mem : Memory) : (e.restart mem).bs = Eng.reset.bs := rfl
@[simp] theorem Eng.restart_srcEof (e : Eng) (mem : Memory) : (e.restart mem).srcEof = Eng.reset.srcEof := rfl
@[simp] theorem Eng.restart_br (e : Eng) (mem : Memory) : (e.restart mem).br = Eng.reset.br := rfl
@[simp] theorem Eng.restart_ht0 (e : Eng) (mem : Memory) : (e.restart mem).ht0 = freeHuff (e.free + 1) 2000 := rfl
@[simp] theorem Eng.restart_ht1 (e : Eng) (mem : Memory) : (e.restart mem).ht1 = freeHuff (e.free + 1) 4000 := rfl
@[simp] theorem Eng.restart_ht2 (e : Eng) (mem : Memory) : (e.restart mem).ht2 = freeHuff (e.free + 1) 6000 := rfl
@[simp] theorem Eng.restart_inf (e : Eng) (mem : Memory) : (e.restart mem).inf = Eng.reset.inf := rfl
@[simp] theorem Eng.restart_png (e : Eng) (mem : Memory) : (e.restart mem).png = Eng.reset.png := rfl
@[simp] theorem Eng.restart_live (e : Eng) (mem : Memory) : (e.restart mem).live = Eng.reset.live := rfl
@[simp] theorem Eng.restart_srcReq (e : Eng) (mem : Memory) : (e.restart mem).srcReq = Eng.reset.srcReq := rfl
@[simp] theorem Eng.restart_srcReqLen (e : Eng) (mem : Memory) : (e.restart mem).srcReqLen = Eng.reset.srcReqLen := rfl
@[simp] theorem Eng.restart_allocReq (e : Eng) (mem : Memory) : (e.restart mem).allocReq = Eng.reset.allocReq := rfl
@[simp] theorem Eng.restart_allocSize (e : Eng) (mem : Memory) : (e.restart mem).allocSize = Eng.reset.allocSize := rfl
@[simp] theorem Eng.restart_allocPtr (e : Eng) (mem : Memory) : (e.restart mem).allocPtr = Eng.reset.allocPtr := rfl
@[simp] theorem Eng.restart_moves (e : Eng) (mem : Memory) : (e.restart mem).moves = Eng.reset.moves := rfl
@[simp] theorem Eng.restart_regions (e : Eng) (mem : Memory) : (e.restart mem).regions = Eng.reset.regions := rfl
@[simp] theorem Eng.restart_placed (e : Eng) (mem : Memory) : (e.restart mem).placed = Eng.reset.placed := rfl
@[simp] theorem Eng.restart_written (e : Eng) (mem : Memory) : (e.restart mem).written = Eng.reset.written := rfl
@[simp] theorem Eng.restart_journal (e : Eng) (mem : Memory) : (e.restart mem).journal = Eng.reset.journal := rfl
@[simp] theorem Eng.restart_free (e : Eng) (mem : Memory) : (e.restart mem).free = e.free + 2 := rfl

@[simp] theorem Eng.answered_mem (e : Eng) : (e.answered).mem = e.mem := rfl
@[simp] theorem Eng.answered_bs (e : Eng) : (e.answered).bs = e.bs := rfl
@[simp] theorem Eng.answered_srcEof (e : Eng) : (e.answered).srcEof = e.srcEof := rfl
@[simp] theorem Eng.answered_br (e : Eng) : (e.answered).br = e.br := rfl
@[simp] theorem Eng.answered_ht0 (e : Eng) : (e.answered).ht0 = e.ht0 := rfl
@[simp] theorem Eng.answered_ht1 (e : Eng) : (e.answered).ht1 = e.ht1 := rfl
@[simp] theorem Eng.answered_ht2 (e : Eng) : (e.answered).ht2 = e.ht2 := rfl
@[simp] theorem Eng.answered_inf (e : Eng) : (e.answered).inf = e.inf := rfl
@[simp] theorem Eng.answered_png (e : Eng) : (e.answered).png = e.png := rfl
@[simp] theorem Eng.answered_live (e : Eng) : (e.answered).live = e.live := rfl
@[simp] theorem Eng.answered_srcReq (e : Eng) : (e.answered).srcReq = e.srcReq := rfl
@[simp] theorem Eng.answered_srcReqLen (e : Eng) : (e.answered).srcReqLen = e.srcReqLen := rfl
@[simp] theorem Eng.answered_allocReq (e : Eng) : (e.answered).allocReq = e.allocReq := rfl
@[simp] theorem Eng.answered_allocSize (e : Eng) : (e.answered).allocSize = e.allocSize := rfl
@[simp] theorem Eng.answered_allocPtr (e : Eng) : (e.answered).allocPtr = e.allocPtr := rfl
@[simp] theorem Eng.answered_moves (e : Eng) : (e.answered).moves = e.moves := rfl
@[simp] theorem Eng.answered_regions (e : Eng) : (e.answered).regions = e.regions := rfl
@[simp] theorem Eng.answered_placed (e : Eng) : (e.answered).placed = e.placed := rfl
@[simp] theorem Eng.answered_written (e : Eng) : (e.answered).written = e.written := rfl
@[simp] theorem Eng.answered_journal (e : Eng) : (e.answered).journal = [] := rfl
@[simp] theorem Eng.answered_free (e : Eng) : (e.answered).free = e.free := rfl

@[simp] theorem Eng.hostWrite_mem (e : Eng) (a : Nat) (bs : List Byte) : (e.hostWrite a bs).mem = e.mem.write a bs := rfl
@[simp] theorem Eng.hostWrite_bs (e : Eng) (a : Nat) (bs : List Byte) : (e.hostWrite a bs).bs = e.bs := rfl
@[simp] theorem Eng.hostWrite_srcEof (e : Eng) (a : Nat) (bs : List Byte) : (e.hostWrite a bs).srcEof = e.srcEof := rfl
@[simp] theorem Eng.hostWrite_br (e : Eng) (a : Nat) (bs : List Byte) : (e.hostWrite a bs).br = e.br := rfl
@[simp] theorem Eng.hostWrite_ht0 (e : Eng) (a : Nat) (bs : List Byte) : (e.hostWrite a bs).ht0 = e.ht0 := rfl
@[simp] theorem Eng.hostWrite_ht1 (e : Eng) (a : Nat) (bs : List Byte) : (e.hostWrite a bs).ht1 = e.ht1 := rfl
@[simp] theorem Eng.hostWrite_ht2 (e : Eng) (a : Nat) (bs : List Byte) : (e.hostWrite a bs).ht2 = e.ht2 := rfl
@[simp] theorem Eng.hostWrite_inf (e : Eng) (a : Nat) (bs : List Byte) : (e.hostWrite a bs).inf = e.inf := rfl
@[simp] theorem Eng.hostWrite_png (e : Eng) (a : Nat) (bs : List Byte) : (e.hostWrite a bs).png = e.png := rfl
@[simp] theorem Eng.hostWrite_live (e : Eng) (a : Nat) (bs : List Byte) : (e.hostWrite a bs).live = e.live := rfl
@[simp] theorem Eng.hostWrite_srcReq (e : Eng) (a : Nat) (bs : List Byte) : (e.hostWrite a bs).srcReq = e.srcReq := rfl
@[simp] theorem Eng.hostWrite_srcReqLen (e : Eng) (a : Nat) (bs : List Byte) : (e.hostWrite a bs).srcReqLen = e.srcReqLen := rfl
@[simp] theorem Eng.hostWrite_allocReq (e : Eng) (a : Nat) (bs : List Byte) : (e.hostWrite a bs).allocReq = e.allocReq := rfl
@[simp] theorem Eng.hostWrite_allocSize (e : Eng) (a : Nat) (bs : List Byte) : (e.hostWrite a bs).allocSize = e.allocSize := rfl
@[simp] theorem Eng.hostWrite_allocPtr (e : Eng) (a : Nat) (bs : List Byte) : (e.hostWrite a bs).allocPtr = e.allocPtr := rfl
@[simp] theorem Eng.hostWrite_moves (e : Eng) (a : Nat) (bs : List Byte) : (e.hostWrite a bs).moves = e.moves := rfl
@[simp] theorem Eng.hostWrite_regions (e : Eng) (a : Nat) (bs : List Byte) : (e.hostWrite a bs).regions = e.regions := rfl
@[simp] theorem Eng.hostWrite_placed (e : Eng) (a : Nat) (bs : List Byte) : (e.hostWrite a bs).placed = e.placed := rfl
@[simp] theorem Eng.hostWrite_written (e : Eng) (a : Nat) (bs : List Byte) :
    (e.hostWrite a bs).written = e.written.flatMap (Written.outside a bs.length) := rfl
@[simp] theorem Eng.hostWrite_journal (e : Eng) (a : Nat) (bs : List Byte) : (e.hostWrite a bs).journal = e.journal := rfl
@[simp] theorem Eng.hostWrite_free (e : Eng) (a : Nat) (bs : List Byte) : (e.hostWrite a bs).free = e.free := rfl

@[simp] theorem Eng.moveBuffer_mem (e : Eng) (p old : Nat) (r : Buf) :
    (e.moveBuffer p old r).mem = e.mem.write r.addr (e.mem.read p (min old r.size)) := rfl
@[simp] theorem Eng.moveBuffer_bs (e : Eng) (p old : Nat) (r : Buf) : (e.moveBuffer p old r).bs = e.bs := rfl
@[simp] theorem Eng.moveBuffer_srcEof (e : Eng) (p old : Nat) (r : Buf) : (e.moveBuffer p old r).srcEof = e.srcEof := rfl
@[simp] theorem Eng.moveBuffer_br (e : Eng) (p old : Nat) (r : Buf) : (e.moveBuffer p old r).br = e.br := rfl
@[simp] theorem Eng.moveBuffer_ht0 (e : Eng) (p old : Nat) (r : Buf) : (e.moveBuffer p old r).ht0 = e.ht0 := rfl
@[simp] theorem Eng.moveBuffer_ht1 (e : Eng) (p old : Nat) (r : Buf) : (e.moveBuffer p old r).ht1 = e.ht1 := rfl
@[simp] theorem Eng.moveBuffer_ht2 (e : Eng) (p old : Nat) (r : Buf) : (e.moveBuffer p old r).ht2 = e.ht2 := rfl
@[simp] theorem Eng.moveBuffer_inf (e : Eng) (p old : Nat) (r : Buf) : (e.moveBuffer p old r).inf = e.inf := rfl
@[simp] theorem Eng.moveBuffer_png (e : Eng) (p old : Nat) (r : Buf) : (e.moveBuffer p old r).png = e.png := rfl
@[simp] theorem Eng.moveBuffer_live (e : Eng) (p old : Nat) (r : Buf) : (e.moveBuffer p old r).live = replaceBuf p r e.live := rfl
@[simp] theorem Eng.moveBuffer_srcReq (e : Eng) (p old : Nat) (r : Buf) : (e.moveBuffer p old r).srcReq = e.srcReq := rfl
@[simp] theorem Eng.moveBuffer_srcReqLen (e : Eng) (p old : Nat) (r : Buf) : (e.moveBuffer p old r).srcReqLen = e.srcReqLen := rfl
@[simp] theorem Eng.moveBuffer_allocReq (e : Eng) (p old : Nat) (r : Buf) : (e.moveBuffer p old r).allocReq = e.allocReq := rfl
@[simp] theorem Eng.moveBuffer_allocSize (e : Eng) (p old : Nat) (r : Buf) : (e.moveBuffer p old r).allocSize = e.allocSize := rfl
@[simp] theorem Eng.moveBuffer_allocPtr (e : Eng) (p old : Nat) (r : Buf) : (e.moveBuffer p old r).allocPtr = e.allocPtr := rfl
@[simp] theorem Eng.moveBuffer_moves (e : Eng) (p old : Nat) (r : Buf) : (e.moveBuffer p old r).moves = e.moves := rfl
@[simp] theorem Eng.moveBuffer_regions (e : Eng) (p old : Nat) (r : Buf) :
    (e.moveBuffer p old r).regions = e.regions.map fun t => if t = ⟨p, old, false⟩ then ⟨r.addr, r.size, false⟩ else t := rfl
@[simp] theorem Eng.moveBuffer_placed (e : Eng) (p old : Nat) (r : Buf) : (e.moveBuffer p old r).placed = e.placed := rfl
@[simp] theorem Eng.moveBuffer_written (e : Eng) (p old : Nat) (r : Buf) :
    (e.moveBuffer p old r).written = e.written.flatMap (Written.moved p (min old r.size) r.addr) ++ e.written := rfl
@[simp] theorem Eng.moveBuffer_journal (e : Eng) (p old : Nat) (r : Buf) : (e.moveBuffer p old r).journal = e.journal := rfl
@[simp] theorem Eng.moveBuffer_free (e : Eng) (p old : Nat) (r : Buf) : (e.moveBuffer p old r).free = e.free := rfl

/-! ### Registers by their word index (10_state.md R20) -/

@[simp] theorem State.writeReg_ctrl (s : State) (v : Word) : s.writeReg 1 v = s.writeCtrl v := rfl
@[simp] theorem State.writeReg_status (s : State) (v : Word) : s.writeReg 2 v = s.clearStatus v := rfl
@[simp] theorem State.writeReg_cmd (s : State) (v : Word) : s.writeReg 5 v = s.writeCmd v := rfl
@[simp] theorem State.writeReg_quality (s : State) (v : Word) : s.writeReg 6 v = { s with quality := v &&& qualityMask } := rfl
@[simp] theorem State.writeReg_srcResp (s : State) (v : Word) : s.writeReg 23 v = s.writeSrcResp v := rfl
@[simp] theorem State.writeReg_allocResp (s : State) (v : Word) : s.writeReg 27 v = s.writeAllocResp v := rfl

/-- A register access that the model admits. -/
theorem accessOk_iff (o : BitVec 8) (w : AccessWidth) : accessOk o w = true ↔ w = .w32 ∧ o.toNat % 4 = 0 := by
  simp [accessOk]

/-! ### The phase -/

@[simp] theorem State.busy_eq (s : State) : s.busy = s.run.isSome := rfl
@[simp] theorem State.srcWait_eq (s : State) : s.srcWait = decide (s.eng.srcReq ≠ 0) := rfl
@[simp] theorem State.allocWait_eq (s : State) : s.allocWait = decide (s.eng.allocReq ≠ 0) := rfl

/-- The engine runs where a command runs and waits at no port, and the machine is not held in reset. -/
theorem State.engineRuns_iff (s : State) :
    s.engineRuns = true ↔ s.rst = false ∧ s.run.isSome = true ∧ s.eng.srcReq = 0 ∧ s.eng.allocReq = 0 := by
  simp only [State.engineRuns, State.phase, Bool.and_eq_true, Bool.not_eq_true', decide_eq_true_eq, State.srcWait_eq,
    State.allocWait_eq, State.busy_eq, ne_eq, decide_not]
  by_cases h1 : s.eng.srcReq = 0 <;> by_cases h2 : s.eng.allocReq = 0 <;> by_cases h3 : s.run.isSome = true <;> simp_all

/-- The running command of a busy engine. -/
theorem State.running_some {s : State} {r : Running} (h : s.run = some r) : s.running = r := by
  simp [State.running, h]

end Sys2Proof.Machine
end

