-- ==== Sys2Proof/Laws/Triple.lean ====
section
/-! SUPPORT. Rules for what holds after the engine's steps, however they end; what each shared operation can do; and how a turn
of the engine and a step of the machine can end. -/

namespace Sys2Proof.Machine

/-! ### Endings -/

/-- From `e` the steps `x` end in a result and an engine of which `Q` holds, or stop for a reason and in an engine of which `X`
holds. -/
def EngM.Ends {α : Type} (x : EngM α) (e : Eng) (Q : α → Eng → Prop) (X : Stop → Eng → Prop) : Prop :=
  match x e with
  | .ok a f => Q a f
  | .error s f => X s f

theorem EngM.Ends.mono {α : Type} {x : EngM α} {e : Eng} {Q Q' : α → Eng → Prop} {X X' : Stop → Eng → Prop}
    (h : x.Ends e Q X) (hq : ∀ a f, Q a f → Q' a f) (hx : ∀ s f, X s f → X' s f) : x.Ends e Q' X' := by
  simp only [EngM.Ends] at h ⊢
  split at h
  · exact hq _ _ h
  · exact hx _ _ h

theorem EngM.ends_pure {α : Type} {a : α} {e : Eng} {Q : α → Eng → Prop} {X : Stop → Eng → Prop} (h : Q a e) :
    (pure a : EngM α).Ends e Q X := h

theorem EngM.ends_bind {α β : Type} {x : EngM α} {f : α → EngM β} {e : Eng} {Q : β → Eng → Prop} {X : Stop → Eng → Prop}
    (h : x.Ends e (fun a e' => (f a).Ends e' Q X) X) : (x >>= f).Ends e Q X := by
  simp only [EngM.Ends] at h ⊢
  rw [EngM.bind_run]
  cases hx : x e with
  | ok a e' => rw [hx] at h; exact h
  | error s e' => rw [hx] at h; exact h

theorem EngM.ends_ite {α : Type} {p : Prop} [Decidable p] {x y : EngM α} {e : Eng} {Q : α → Eng → Prop} {X : Stop → Eng → Prop}
    (hx : p → x.Ends e Q X) (hy : ¬p → y.Ends e Q X) : (if p then x else y).Ends e Q X := by
  split
  · exact hx ‹_›
  · exact hy ‹_›

theorem EngM.ends_getE {e : Eng} {Q : Eng → Eng → Prop} {X : Stop → Eng → Prop} (h : Q e e) : getE.Ends e Q X := h

theorem EngM.ends_modE {f : Eng → Eng} {e : Eng} {Q : Unit → Eng → Prop} {X : Stop → Eng → Prop} (h : Q () (f e)) :
    (modE f).Ends e Q X := h

theorem EngM.ends_stop {α : Type} {x : Stop} {e : Eng} {Q : α → Eng → Prop} {X : Stop → Eng → Prop} (h : X x e) :
    (stop x : EngM α).Ends e Q X := h

theorem EngM.ends_raise {α : Type} {c i : Nat} {e : Eng} {Q : α → Eng → Prop} {X : Stop → Eng → Prop} (h : X (.raise c i) e) :
    (raise c i : EngM α).Ends e Q X := h

theorem EngM.ends_ensure {ok : Bool} {c i : Nat} {e : Eng} {Q : Unit → Eng → Prop} {X : Stop → Eng → Prop}
    (h : ok = true → Q () e) (hx : ok = false → X (.raise c i) e) : (ensure ok c i).Ends e Q X := by
  simp only [EngM.Ends, ensure_run]
  cases ok
  · exact hx rfl
  · exact h rfl

/-- What `Ends` says, read at a run that succeeds. -/
theorem EngM.Ends.ok {α : Type} {x : EngM α} {e f : Eng} {a : α} {Q : α → Eng → Prop} {X : Stop → Eng → Prop}
    (h : x.Ends e Q X) (hx : x e = .ok a f) : Q a f := by
  simpa only [EngM.Ends, hx] using h

/-- What `Ends` says, read at a run that stops. -/
theorem EngM.Ends.error {α : Type} {x : EngM α} {e f : Eng} {s : Stop} {Q : α → Eng → Prop} {X : Stop → Eng → Prop}
    (h : x.Ends e Q X) (hx : x e = .error s f) : X s f := by
  simpa only [EngM.Ends, hx] using h

/-! ### What each shared operation can do -/

theorem declare_ends {r : Region} {e : Eng} {Q : Unit → Eng → Prop} {X : Stop → Eng → Prop}
    (h : e.placed.any (fun t => t.meets r) = false → Q () { e with regions := r :: e.regions })
    (hx : X (.refuse .hostWroteRegion) e) : (declare r).Ends e Q X := by
  simp only [EngM.Ends, declare]
  by_cases hp : e.placed.any (fun t => t.meets r) = true
  · rw [if_pos hp]; exact hx
  · rw [if_neg hp]; exact h (by simpa using hp)

theorem checkIn_ends {a n : Nat} {e : Eng} {Q : Unit → Eng → Prop} {X : Stop → Eng → Prop}
    (h : a + n ≤ Config.addrSpace → Q () { e with regions := ⟨a, n, true⟩ :: e.regions })
    (hx : Config.addrSpace < a + n → X (.raise 0x0604 a) e) (hr : X (.refuse .hostWroteRegion) e) : (checkIn a n).Ends e Q X :=
  EngM.ends_bind (EngM.ends_ensure (fun ok => declare_ends (fun _ => h (by simpa using ok)) hr) fun no => hx (by simpa using no))

theorem checkOut_ends {a n : Nat} {e : Eng} {Q : Unit → Eng → Prop} {X : Stop → Eng → Prop}
    (h : a + n ≤ Config.addrSpace → Q () { e with regions := ⟨a, n, false⟩ :: e.regions })
    (hx : Config.addrSpace < a + n → X (.raise 0x0604 a) e) (hr : X (.refuse .hostWroteRegion) e) : (checkOut a n).Ends e Q X :=
  EngM.ends_bind (EngM.ends_ensure (fun ok => declare_ends (fun _ => h (by simpa using ok)) hr) fun no => hx (by simpa using no))

theorem memRead_ends {a n : Nat} {e : Eng} {Q : List Byte → Eng → Prop} {X : Stop → Eng → Prop}
    (h : a + n ≤ Config.addrSpace → Q (e.mem.read a n) e) (hx : Config.addrSpace < a + n → X (.fault .outsideMemory) e) :
    (memRead a n).Ends e Q X := by
  by_cases hn : a + n ≤ Config.addrSpace
  · simpa only [EngM.Ends, memRead, if_pos hn] using h hn
  · simpa only [EngM.Ends, memRead, if_neg hn] using hx (by omega)

theorem memByte_ends {a : Nat} {e : Eng} {Q : Byte → Eng → Prop} {X : Stop → Eng → Prop}
    (h : a < Config.addrSpace → Q (e.mem.get a) e) (hx : Config.addrSpace ≤ a → X (.fault .outsideMemory) e) :
    (memByte a).Ends e Q X := by
  by_cases hn : a < Config.addrSpace
  · simpa only [EngM.Ends, memByte, if_pos hn] using h hn
  · simpa only [EngM.Ends, memByte, if_neg hn] using hx (by omega)

theorem memWrite_ends {toHost : Bool} {a : Nat} {bs : List Byte} {e : Eng} {Q : Unit → Eng → Prop} {X : Stop → Eng → Prop}
    (h : a + bs.length ≤ Config.addrSpace →
      Q () { e with
        mem := e.mem.write a bs
        written := noteWrite a bs.length toHost e.written
        journal := journalBytes a bs e.journal })
    (hx : Config.addrSpace < a + bs.length → X (.fault .outsideMemory) e) : (memWrite toHost a bs).Ends e Q X := by
  by_cases hn : a + bs.length ≤ Config.addrSpace
  · simpa only [EngM.Ends, memWrite, if_pos hn] using h hn
  · simpa only [EngM.Ends, memWrite, if_neg hn] using hx (by omega)

/-- A run of pieces changes memory and the record of what has been written, whether or not it leaves host memory. -/
theorem writePieces_ends {toHost : Bool} (ps : List (Nat × List Byte)) {e : Eng} {Q : Unit → Eng → Prop} {X : Stop → Eng → Prop}
    (h : ∀ f, f = { e with mem := f.mem, written := f.written, journal := f.journal } → (e.mem.wf → f.mem.wf) →
      (∀ p ∈ ps, p.1 + p.2.length ≤ Config.addrSpace) → Q () f)
    (hx : ∀ f, f = { e with mem := f.mem, written := f.written, journal := f.journal } → (e.mem.wf → f.mem.wf) →
      ¬(∀ p ∈ ps, p.1 + p.2.length ≤ Config.addrSpace) → X (.fault .outsideMemory) f) :
    (writePieces toHost ps).Ends e Q X := by
  induction ps generalizing e with
  | nil => exact h e rfl id (by simp)
  | cons p ps ih =>
    rw [writePieces]
    refine EngM.ends_bind (memWrite_ends (fun hp => ?_) fun hp => hx e rfl id fun hall => ?_)
    · refine ih (fun f hs hw hall => h f (by rw [hs]) (fun w => hw (Memory.wf_write w _ _)) ?_)
        fun f hs hw hall => hx f (by rw [hs]) (fun w => hw (Memory.wf_write w _ _)) ?_
      · simpa [hp] using hall
      · simpa [hp] using hall
    · have := hall p (by simp)
      omega

/-- `f` is `e` after some memory writes of the host: memory, and the record of who has written what. -/
structure HostWrote (e f : Eng) : Prop where
  same : f = { e with mem := f.mem, placed := f.placed, written := f.written, journal := f.journal }
  wf : e.mem.wf → f.mem.wf

theorem HostWrote.refl (e : Eng) : HostWrote e e := ⟨rfl, id⟩

theorem HostWrote.trans {e f g : Eng} (h : HostWrote e f) (h' : HostWrote f g) : HostWrote e g := by
  refine ⟨?_, fun w => h'.wf (h.wf w)⟩
  rw [h'.same, h.same]

/-- An answer by itself. -/
theorem Eng.answered_wrote (e : Eng) : HostWrote e e.answered := ⟨rfl, id⟩

theorem hostPlace_wrote {a : Nat} {bs : List Byte} {e f : Eng} (h : hostPlace a bs e = .ok f) : HostWrote e f := by
  simp only [hostPlace] at h
  split at h
  · cases h
  · split at h
    · cases h
      exact ⟨rfl, fun w => Memory.wf_write w a bs⟩
    · split at h
      · cases h
        exact ⟨rfl, fun w => Memory.wf_write w a bs⟩
      · cases h

/-- An answer comes after some memory writes of the host and withdraws the request; else the engine waits, or a write of the host
has no move. -/
theorem takeAnswer_ends {p : Port} (ms : List PortMove) (e : Eng) :
    EngM.Ends (takeAnswer p ms) e
      (fun _ f => ∃ g ns, HostWrote e g ∧ f = match p with
        | .src => { g with srcReq := 0, moves := ns }
        | .alloc => { g with allocReq := 0, moves := ns })
      (fun x f => (x = .wait ∧ ∃ g, HostWrote e g ∧ f = { g with moves := [] }) ∨ ((∃ r, x = .refuse r) ∧ HostWrote e f)) := by
  induction ms generalizing e with
  | nil => exact .inl ⟨rfl, e, .refl e, rfl⟩
  | cons m ms ih =>
    cases m with
    | place a bs =>
      simp only [EngM.Ends, takeAnswer]
      cases hp : hostPlace a bs e with
      | error r => exact .inr ⟨⟨r, rfl⟩, .refl e⟩
      | ok g =>
        have w := hostPlace_wrote hp
        refine EngM.Ends.mono (ih g) ?_ ?_
        · rintro _ _ ⟨k, ns, hk, rfl⟩
          exact ⟨k, ns, w.trans hk, rfl⟩
        · rintro x f (⟨rfl, k, hk, rfl⟩ | ⟨hr, hk⟩)
          · exact .inl ⟨rfl, k, w.trans hk, rfl⟩
          · exact .inr ⟨hr, w.trans hk⟩
    | srcResp v =>
      cases p
      · exact ⟨e.answered, ms, e.answered_wrote, rfl⟩
      · exact ih e
    | allocResp v =>
      cases p
      · exact ih e
      · exact ⟨e.answered, ms, e.answered_wrote, rfl⟩

/-- `settle` lets the host's remaining writes take place. -/
theorem settle_ends (ms : List PortMove) (e : Eng) :
    EngM.Ends (settle ms) e (fun _ f => ∃ g, HostWrote e g ∧ f = { g with moves := [] })
      (fun x f => (∃ r, x = .refuse r) ∧ HostWrote e f) := by
  induction ms generalizing e with
  | nil => exact ⟨e, .refl e, rfl⟩
  | cons m ms ih =>
    cases m with
    | place a bs =>
      simp only [EngM.Ends, settle]
      cases hp : hostPlace a bs e with
      | error r => exact ⟨⟨r, rfl⟩, .refl e⟩
      | ok g =>
        have w := hostPlace_wrote hp
        refine EngM.Ends.mono (ih g) ?_ ?_
        · rintro _ _ ⟨k, hk, rfl⟩
          exact ⟨k, w.trans hk, rfl⟩
        · rintro x f ⟨hr, hk⟩
          exact ⟨hr, w.trans hk⟩
    | srcResp v => exact ih e
    | allocResp v => exact ih e

/-- `Alloc(n)` gives a nonzero buffer that keeps the host's duty, raises out-of-memory or size-limit, waits, or refuses. -/
theorem portAlloc_ends {n : Nat} {e : Eng} {Q : Nat → Eng → Prop} {X : Stop → Eng → Prop}
    (h : ∀ (r : Nat) g ns, HostWrote { e with allocReq := 1, allocSize := BitVec.ofNat 32 n, allocPtr := 0 } g → n ≤ Config.sizeCeiling →
      r ≠ 0 → Eng.allocOk { g with allocReq := 0, moves := ns } g.live r n = true →
      Q r { g with allocReq := 0, moves := ns, live := g.live ++ [⟨r, n⟩] })
    (hbig : Config.sizeCeiling < n → X (.raise 0x0402 n) e)
    (hoom : ∀ g ns, HostWrote { e with allocReq := 1, allocSize := BitVec.ofNat 32 n, allocPtr := 0 } g →
      X (.raise 0x0401 n) { g with allocReq := 0, moves := ns })
    (hwait : ∀ g, HostWrote { e with allocReq := 1, allocSize := BitVec.ofNat 32 n, allocPtr := 0 } g →
      X .wait { g with moves := [] })
    (href : ∀ r f, X (.refuse r) f) : (portAlloc n).Ends e Q X := by
  refine EngM.ends_bind (EngM.ends_ensure (fun ok => ?_) fun no => hbig (by simpa using no))
  refine EngM.ends_bind (EngM.ends_modE ?_)
  refine EngM.ends_bind ?_
  refine EngM.Ends.mono (takeAnswer_ends (p := .alloc) e.moves _) ?_ ?_
  · rintro v _ ⟨g, ns, hg, rfl⟩
    refine EngM.ends_bind (EngM.ends_ensure (fun nz => ?_) fun _ => hoom g ns hg)
    refine EngM.ends_bind (EngM.ends_getE ?_)
    refine EngM.ends_ite (fun ok' => ?_) fun _ => EngM.ends_stop (href _ _)
    exact h v.toNat g ns hg (by simpa using ok) (by simpa using nz) ok'
  · rintro x f (⟨rfl, g, hg, rfl⟩ | ⟨⟨r, rfl⟩, _⟩)
    · exact hwait g hg
    · exact href r f

/-- `Realloc(p, n)` in the same way; the new buffer begins with the bytes of the old one. -/
theorem portRealloc_ends {p old n : Nat} {e : Eng} {Q : Nat → Eng → Prop} {X : Stop → Eng → Prop}
    (h : ∀ (r : Nat) g ns, HostWrote { e with allocReq := 2, allocSize := BitVec.ofNat 32 n, allocPtr := BitVec.ofNat 32 p } g →
      n ≤ Config.sizeCeiling → r ≠ 0 →
      Eng.allocOk { g with allocReq := 0, moves := ns } (dropBuf p g.live) r n = true →
      Q r (Eng.moveBuffer { g with allocReq := 0, moves := ns } p old ⟨r, n⟩))
    (hbig : Config.sizeCeiling < n → X (.raise 0x0402 n) e)
    (hoom : ∀ g ns, HostWrote { e with allocReq := 2, allocSize := BitVec.ofNat 32 n, allocPtr := BitVec.ofNat 32 p } g →
      X (.raise 0x0401 n) { g with allocReq := 0, moves := ns })
    (hwait : ∀ g, HostWrote { e with allocReq := 2, allocSize := BitVec.ofNat 32 n, allocPtr := BitVec.ofNat 32 p } g →
      X .wait { g with moves := [] })
    (href : ∀ r f, X (.refuse r) f) : (portRealloc p old n).Ends e Q X := by
  refine EngM.ends_bind (EngM.ends_ensure (fun ok => ?_) fun no => hbig (by simpa using no))
  refine EngM.ends_bind (EngM.ends_modE ?_)
  refine EngM.ends_bind ?_
  refine EngM.Ends.mono (takeAnswer_ends (p := .alloc) e.moves _) ?_ ?_
  · rintro v _ ⟨g, ns, hg, rfl⟩
    refine EngM.ends_bind (EngM.ends_ensure (fun nz => ?_) fun _ => hoom g ns hg)
    refine EngM.ends_bind (EngM.ends_getE ?_)
    refine EngM.ends_ite (fun ok' => ?_) fun _ => EngM.ends_stop (href _ _)
    exact h v.toNat g ns hg (by simpa using ok) (by simpa using nz) ok'
  · rintro x f (⟨rfl, g, hg, rfl⟩ | ⟨⟨r, rfl⟩, _⟩)
    · exact hwait g hg
    · exact href r f

/-- `Free(p)` takes the buffer out of LIVE, waits, or refuses. -/
theorem portFree_ends {p : Nat} {e : Eng} {Q : Unit → Eng → Prop} {X : Stop → Eng → Prop}
    (h : ∀ g ns, HostWrote { e with allocReq := 3, allocSize := 0, allocPtr := BitVec.ofNat 32 p } g →
      Q () { g with allocReq := 0, moves := ns, live := dropBuf p g.live })
    (hwait : ∀ g, HostWrote { e with allocReq := 3, allocSize := 0, allocPtr := BitVec.ofNat 32 p } g → X .wait { g with moves := [] })
    (href : ∀ r f, X (.refuse r) f) : (portFree p).Ends e Q X := by
  refine EngM.ends_bind (EngM.ends_modE ?_)
  refine EngM.ends_bind ?_
  refine EngM.Ends.mono (takeAnswer_ends (p := .alloc) e.moves _) ?_ ?_
  · rintro v _ ⟨g, ns, hg, rfl⟩
    exact h g ns hg
  · rintro x f (⟨rfl, g, hg, rfl⟩ | ⟨⟨r, rfl⟩, _⟩)
    · exact hwait g hg
    · exact href r f

/-- `SrcRead(n)` gives at most `n`, waits, or refuses. -/
theorem srcRead_ends {n : Nat} {e : Eng} {Q : Nat → Eng → Prop} {X : Stop → Eng → Prop}
    (h : ∀ k g ns, HostWrote { e with srcReq := 1, srcReqLen := BitVec.ofNat 32 n } g → k ≤ n →
      Q k { g with srcReq := 0, moves := ns })
    (hwait : ∀ g, HostWrote { e with srcReq := 1, srcReqLen := BitVec.ofNat 32 n } g → X .wait { g with moves := [] })
    (href : ∀ r f, X (.refuse r) f) : (srcRead n).Ends e Q X := by
  refine EngM.ends_bind (EngM.ends_modE ?_)
  refine EngM.ends_bind ?_
  refine EngM.Ends.mono (takeAnswer_ends (p := .src) e.moves _) ?_ ?_
  · rintro v _ ⟨g, ns, hg, rfl⟩
    exact h _ g ns hg (Nat.min_le_right _ _)
  · rintro x f (⟨rfl, g, hg, rfl⟩ | ⟨⟨r, rfl⟩, _⟩)
    · exact hwait g hg
    · exact href r f

/-- `SrcSkip(n)` is answered, waits, or refuses. -/
theorem srcSkip_ends {n : Nat} {e : Eng} {Q : Unit → Eng → Prop} {X : Stop → Eng → Prop}
    (h : ∀ g ns, HostWrote { e with srcReq := 2, srcReqLen := BitVec.ofNat 32 n } g → Q () { g with srcReq := 0, moves := ns })
    (hwait : ∀ g, HostWrote { e with srcReq := 2, srcReqLen := BitVec.ofNat 32 n } g → X .wait { g with moves := [] })
    (href : ∀ r f, X (.refuse r) f) : (srcSkip n).Ends e Q X := by
  refine EngM.ends_bind (EngM.ends_modE ?_)
  refine EngM.ends_bind ?_
  refine EngM.Ends.mono (takeAnswer_ends (p := .src) e.moves _) ?_ ?_
  · rintro v _ ⟨g, ns, hg, rfl⟩
    exact h g ns hg
  · rintro x f (⟨rfl, g, hg, rfl⟩ | ⟨⟨r, rfl⟩, _⟩)
    · exact hwait g hg
    · exact href r f

/-- `SrcEof()` gives an answer, waits, or refuses. -/
theorem srcEofQuery_ends {e : Eng} {Q : Bool → Eng → Prop} {X : Stop → Eng → Prop}
    (h : ∀ b g ns, HostWrote { e with srcReq := 3, srcReqLen := 0 } g → Q b { g with srcReq := 0, moves := ns })
    (hwait : ∀ g, HostWrote { e with srcReq := 3, srcReqLen := 0 } g → X .wait { g with moves := [] })
    (href : ∀ r f, X (.refuse r) f) : srcEofQuery.Ends e Q X := by
  refine EngM.ends_bind (EngM.ends_modE ?_)
  refine EngM.ends_bind ?_
  refine EngM.Ends.mono (takeAnswer_ends (p := .src) e.moves _) ?_ ?_
  · rintro v _ ⟨g, ns, hg, rfl⟩
    exact h _ g ns hg
  · rintro x f (⟨rfl, g, hg, rfl⟩ | ⟨⟨r, rfl⟩, _⟩)
    · exact hwait g hg
    · exact href r f

/-- `f` is `e` after Frees: only the allocator port, LIVE and what the host wrote differ. -/
structure Freed (e f : Eng) : Prop where
  same : f = { e with
    mem := f.mem, placed := f.placed, written := f.written, journal := f.journal, live := f.live, moves := f.moves,
    allocReq := f.allocReq, allocSize := f.allocSize, allocPtr := f.allocPtr }
  wf : e.mem.wf → f.mem.wf

theorem Freed.refl (e : Eng) : Freed e e := ⟨rfl, id⟩

theorem Freed.trans {e f g : Eng} (h : Freed e f) (h' : Freed f g) : Freed e g := by
  refine ⟨?_, fun w => h'.wf (h.wf w)⟩
  rw [h'.same, h.same]

/-- One Free after the other: at the end the buffers are out of LIVE; or the engine waits at one of them, or refuses. -/
theorem freeAll_ends (bs : List Buf) (e : Eng) :
    (freeAll bs).Ends e
      (fun _ f => Freed e f ∧ (e.allocReq = 0 → f.allocReq = 0) ∧
        f.live = e.live.filter (fun c => decide (∀ b ∈ bs, c.addr ≠ b.addr)))
      (fun x f => (x = .wait ∧ Freed e f ∧ f.allocReq = 3) ∨ ∃ r, x = .refuse r) := by
  induction bs generalizing e with
  | nil => exact ⟨.refl e, id, by simp⟩
  | cons b bs ih =>
    refine EngM.ends_bind (portFree_ends (fun g ns hg => ?_) (fun g hg => ?_) fun r _ => .inr ⟨r, rfl⟩)
    · have fr : Freed e { g with allocReq := 0, moves := ns, live := dropBuf b.addr g.live } := by
        refine ⟨?_, hg.wf⟩
        rw [hg.same]
      have hlive : g.live = e.live := by rw [hg.same]
      refine EngM.Ends.mono (ih _) ?_ ?_
      · rintro _ f ⟨ff, fa, fl⟩
        refine ⟨fr.trans ff, fun _ => fa rfl, ?_⟩
        rw [fl]
        simp only [dropBuf, hlive, List.filter_filter]
        apply List.filter_congr
        intro c _
        simp only [List.mem_cons, forall_eq_or_imp]
        by_cases h1 : c.addr = b.addr <;> simp [h1]
      · rintro x f (⟨rfl, ff, fa⟩ | hr)
        · exact .inl ⟨rfl, fr.trans ff, fa⟩
        · exact .inr hr
    · refine .inl ⟨rfl, ⟨?_, hg.wf⟩, ?_⟩
      · rw [hg.same]
      · show g.allocReq = 3
        rw [hg.same]

/-- After the Frees LIVE is empty. -/
theorem freeLive_ends (e : Eng) :
    freeLive.Ends e (fun _ f => Freed e f ∧ (e.allocReq = 0 → f.allocReq = 0) ∧ f.live = [])
      (fun x f => (x = .wait ∧ Freed e f ∧ f.allocReq = 3) ∨ ∃ r, x = .refuse r) := by
  refine EngM.ends_bind (EngM.ends_getE ?_)
  refine EngM.Ends.mono (freeAll_ends e.live e) ?_ fun _ _ h => h
  rintro _ f ⟨ff, fa, fl⟩
  refine ⟨ff, fa, ?_⟩
  rw [fl, List.filter_eq_nil_iff]
  intro c hc
  simp only [decide_eq_true_eq, not_forall]
  exact ⟨c, hc, by simp⟩

/-! ### How a turn of the engine can end -/

/-- A command's turn that gives a next state has completed it, failed it, or left it waiting. -/
theorem runCommand_cases {kind : CmdKind} {body : Snapshot → EngM Results} {s t : State} (h : runCommand kind body s = .next t) :
    (∃ res e, course body s.running = .ok res e ∧ t = s.complete kind res e) ∨
    (∃ c i e, course body s.running = .error (.raise c i) e ∧ t = s.fail kind c i e) ∨
    (∃ e, course body s.running = .error .wait e ∧ t = s.suspend s.running e) := by
  simp only [runCommand] at h
  split at h
  · exact .inl ⟨_, _, ‹_›, by injection h with h; exact h.symm⟩
  · rename_i x e he
    cases x with
    | raise c i => exact .inr (.inl ⟨c, i, e, he, by simp only [State.halt] at h; injection h with h; exact h.symm⟩)
    | wait => exact .inr (.inr ⟨e, he, by simp only [State.halt] at h; injection h with h; exact h.symm⟩)
    | refuse q => simp [State.halt] at h
    | fault f => simp [State.halt] at h

/-- A run that completes has taken every step and freed what was left. -/
theorem course_ok {body : Snapshot → EngM Results} {r : Running} {res : Results} {e : Eng} (h : course body r = .ok res e) :
    finishing (body r.snap) { r.base with moves := r.log } = .ok res e := by
  simp only [course] at h
  split at h
  · split at h <;> cases h
  · exact h

/-- A run that stops has stopped in its own steps, for a reason other than an error, or in the failure sequence of an error: at
its end, or on the way. -/
theorem course_error {body : Snapshot → EngM Results} {r : Running} {x : Stop} {f : Eng} (h : course body r = .error x f) :
    (finishing (body r.snap) { r.base with moves := r.log } = .error x f ∧ ∀ c i, x ≠ .raise c i) ∨
    ∃ c i e, finishing (body r.snap) { r.base with moves := r.log } = .error (.raise c i) e ∧
      ((unwinding e = .ok () f ∧ x = .raise c i) ∨ unwinding e = .error x f) := by
  simp only [course] at h
  split at h
  · rename_i c i e he
    refine .inr ⟨c, i, e, he, ?_⟩
    split at h
    · cases h
      exact .inl ⟨‹_›, rfl⟩
    · cases h
      exact .inr ‹_›
  · rename_i hx
    exact .inl ⟨h, fun c i hc => hx c i f (by rw [h, hc])⟩

/-- The meaning of every command is the run of its steps. -/
theorem exec_eq_runCommand (i : Instr) (s : State) : exec i s = runCommand (kindOf i) (bodyOf i) s := by
  cases i <;> rfl

/-- A step that gives a next state is an access of the host, a turn of the engine, or both. -/
theorem step_cases {s t : State} (h : step s = .next t) :
    (s.host = [] ∧ engineTurn s = .next t) ∨
    (∃ a hs, s.host = ⟨a, true⟩ :: hs ∧ State.hostAct { s with host := hs } a = .ok t) ∨
    (∃ a hs u, s.host = ⟨a, false⟩ :: hs ∧ State.hostAct { s with host := hs } a = .ok u ∧ engineTurn u = .next t) := by
  simp only [step] at h
  split at h
  · exact .inl ⟨‹_›, h⟩
  · rename_i x hs hh
    obtain ⟨a, b⟩ := x
    cases ha : State.hostAct { s with host := hs } a with
    | error r => rw [ha] at h; cases h
    | ok u =>
      rw [ha] at h
      cases b
      · exact .inr (.inr ⟨a, hs, u, hh, ha, h⟩)
      · exact .inr (.inl ⟨a, hs, hh, by injection h with h; rw [h] at ha; exact ha⟩)

/-- A turn of the engine that gives a next state is the meaning of the command, its rejection, or nothing. -/
theorem engineTurn_cases {s t : State} (h : engineTurn s = .next t) :
    (∃ i, s.engineRuns = true ∧ decode s.cmd = .ok i ∧ exec i s = .next t) ∨
    (∃ x, s.engineRuns = true ∧ decode s.cmd = .error x ∧ execIllegal s = .next t) ∨
    (s.engineRuns = false ∧ t = s) := by
  simp only [engineTurn] at h
  split at h
  · rename_i hr
    cases hd : decode s.cmd with
    | ok i => exact .inl ⟨i, hr, rfl, by simpa only [State.currentCommand, hd] using h⟩
    | error x => exact .inr (.inl ⟨x, hr, rfl, by simpa only [State.currentCommand, hd] using h⟩)
  · rename_i hr
    exact .inr (.inr ⟨by simpa using hr, by injection h with h; exact h.symm⟩)

end Sys2Proof.Machine
end

