-- ==== Sys2Proof/Tests/Slice0.lean ====
section
/-! SUPPORT. Tests: the ill-formed commands, decoding of written-out words, one or two steps per command with the results of
spec/95_test_vectors.md, and a witness for the hypotheses of every statement. -/

namespace Sys2Proof.Tests

set_option Elab.async false

open Sys2Proof Sys2Proof.Machine

/-! ### Ill-formed commands -/

theorem test_illformed_brGet : WellFormed (.brGet 32) = false := by decide
theorem test_illformed_htBuild : WellFormed (.htBuild 4) = false := by decide
theorem test_illformed_htDecode : WellFormed (.htDecode 4) = false := by decide
theorem test_illformed_pngDecode : WellFormed (.pngDecode 8) = false := by decide
theorem test_illformed_sfRecon_channels : WellFormed (.sfRecon 8 1 false false) = false := by decide
theorem test_illformed_sfRecon_depth : WellFormed (.sfRecon 1 16 false false) = false := by decide
theorem test_illformed_sfFilterRow_filter : WellFormed (.sfFilterRow 8 1 false) = false := by decide
theorem test_illformed_sfFilterRow_stride : WellFormed (.sfFilterRow 1 16 false) = false := by decide
theorem test_illformed_fcConvert_source : WellFormed (.fcConvert 8 1) = false := by decide
theorem test_illformed_fcConvert_requested : WellFormed (.fcConvert 1 8) = false := by decide
theorem test_illformed_fcPalette : WellFormed (.fcPalette 8) = false := by decide
theorem test_illformed_fcTrnsKey : WellFormed (.fcTrnsKey 8) = false := by decide
theorem test_illformed_fcCgbi : WellFormed (.fcCgbi 8 true) = false := by decide
theorem test_illformed_defCompress : WellFormed (.defCompress 65536) = false := by decide
theorem test_illformed_hufEncSym : WellFormed (.hufEncSym true 512) = false := by decide
theorem test_illformed_pngEncode : WellFormed (.pngEncode 8) = false := by decide

/-! ### Words written out from 30_encoding.md R90 and R93: IMM, RSV, SEL, OPC -/

theorem test_word_nop : decode 0b0000000000000000_0000_0000_00000000#32 = .ok .nop := by decide
theorem test_word_bsOpenMem : decode 0b0000000000000000_0000_0000_00010000#32 = .ok .bsOpenMem := by decide
theorem test_word_bsOpenStream : decode 0b0000000000000000_0000_0000_00010001#32 = .ok .bsOpenStream := by decide
theorem test_word_bsRead : decode 0b0000000000000000_0000_0000_00010010#32 = .ok .bsRead := by decide
theorem test_word_bsPeek : decode 0b0000000000000000_0000_0000_00010011#32 = .ok .bsPeek := by decide
theorem test_word_bsSkip : decode 0b0000000000000000_0000_0000_00010100#32 = .ok .bsSkip := by decide
theorem test_word_bsEof : decode 0b0000000000000000_0000_0000_00010101#32 = .ok .bsEof := by decide
theorem test_word_brInit : decode 0b0000000000000000_0000_0000_00011000#32 = .ok .brInit := by decide
theorem test_word_brGet : decode 0b0000000000010001_0000_0000_00011001#32 = .ok (.brGet 17) := by decide
theorem test_word_brAlign : decode 0b0000000000000000_0000_0000_00011010#32 = .ok .brAlign := by decide
theorem test_word_htBuild : decode 0b0000000000000000_0000_0010_00100000#32 = .ok (.htBuild 2) := by decide
theorem test_word_htDecode : decode 0b0000000000000000_0000_0001_00100001#32 = .ok (.htDecode 1) := by decide
theorem test_word_htFixed : decode 0b0000000000000000_0000_0000_00100010#32 = .ok .htFixed := by decide
theorem test_word_infOpen : decode 0b0000000000000000_0000_0001_00110000#32 = .ok (.infOpen true) := by decide
theorem test_word_infZhdr : decode 0b0000000000000000_0000_0000_00110001#32 = .ok .infZhdr := by decide
theorem test_word_infBlock : decode 0b0000000000000000_0000_0000_00110010#32 = .ok .infBlock := by decide
theorem test_word_infCopy : decode 0b0000000000000000_0000_0000_00110011#32 = .ok .infCopy := by decide
theorem test_word_infStream : decode 0b0000000000000000_0000_0010_00110100#32 = .ok (.infStream false true) := by decide
theorem test_word_pngDecode : decode 0b0000000000000000_0000_0011_01000000#32 = .ok (.pngDecode 3) := by decide
theorem test_word_sfRecon : decode 0b0000000100000100_0000_0001_01010000#32 = .ok (.sfRecon 1 4 true false) := by decide
theorem test_word_sfFilterRow : decode 0b0000000100000011_0000_0100_01010001#32 = .ok (.sfFilterRow 4 3 true) := by decide
theorem test_word_fcConvert : decode 0b0000000000000001_0000_0011_01011000#32 = .ok (.fcConvert 3 1) := by decide
theorem test_word_fcPalette : decode 0b0000000000000000_0000_0100_01011001#32 = .ok (.fcPalette 4) := by decide
theorem test_word_fcTrnsKey : decode 0b0000000000000000_0000_0010_01011010#32 = .ok (.fcTrnsKey 2) := by decide
theorem test_word_fcCgbi : decode 0b0000000000000001_0000_0100_01011011#32 = .ok (.fcCgbi 4 true) := by decide
theorem test_word_fcFlip : decode 0b0000000000000000_0000_0000_01011100#32 = .ok .fcFlip := by decide
theorem test_word_defCompress : decode 0b1000000000000001_0000_0000_01100000#32 = .ok (.defCompress 32769) := by decide
theorem test_word_lzHash : decode 0b0000000000000000_0000_0000_01100001#32 = .ok .lzHash := by decide
theorem test_word_lzMatchlen : decode 0b0000000000000000_0000_0000_01100010#32 = .ok .lzMatchlen := by decide
theorem test_word_hufEncSym : decode 0b0000000100000000_0000_0000_01100011#32 = .ok (.hufEncSym false 256) := by decide
theorem test_word_pngEncode : decode 0b0000000000000000_0000_0100_01100100#32 = .ok (.pngEncode 4) := by decide
theorem test_word_adler32 : decode 0b0000000000000000_0000_0000_01110000#32 = .ok .adler32 := by decide
theorem test_word_crc32 : decode 0b0000000000000000_0000_0000_01110001#32 = .ok .crc32 := by decide
theorem test_word_reserved : decode 0b0000000000000000_1000_0000_00010000#32 = .error .reservedBits := by decide
theorem test_word_opcode : decode 0b0000000000000000_0000_0000_00010110#32 = .error .unknownOpcode := by decide
theorem test_word_sel : decode 0b0000000000000000_1000_1000_01000000#32 = .error .reservedBits := by decide
theorem test_word_unused_sel : decode 0b0000000000000000_0000_1000_01000000#32 = .error .unusedSel := by decide
theorem test_word_unused_imm : decode 0b0000000000100000_0000_0000_00011001#32 = .error .unusedImm := by decide
theorem test_tableWord : decodeTableWord 32 0x00110019 = some (.brGet 17) := by decide

/-! ### One step on a small state -/

/-- The snapshot with the ARGs `args` and the reset values of CTRL and QUALITY. -/
def snap (args : List Nat) : Snapshot :=
  { args := Vector.ofFn fun i => BitVec.ofNat 32 (args.getD i.val 0), ctrl := 0x00000700#32, quality := 8#32 }

/-- A command that runs from the engine `e`, with the host's moves `log` since its acceptance. -/
def at_ (e : Eng) (args : List Nat) (log : List PortMove := []) : State :=
  { State.reset with eng := e, run := some ⟨snap args, e, log⟩ }

/-- The engine at reset, with the bytes `bs` at `a`. -/
def mem (a : Nat) (bs : List Byte) : Eng := { Eng.reset with mem := Memory.write [] a bs }

/-- The ByteSource open over the bytes `bs` at 4096. -/
def source (bs : List Byte) : Eng := { mem 4096 bs with bs := ⟨.mem, 4096, bs.length, 0, [], false, 0⟩ }

/-- The BitReader started over the bytes `bs`. -/
def reader (bs : List Byte) : Eng := { source bs with br := ⟨true, 0, 0, .source⟩ }

/-- The results of a command that completes, and the `n` bytes at `a` after it. -/
def results (i : Instr) (s : State) (a : Nat := 0) (n : Nat := 0) : Option (List Nat × List Nat) :=
  match exec i s with
  | .next t => if t.done then some (t.res.toList.map (·.toNat), (t.eng.mem.read a n).map (·.toNat)) else none
  | _ => none

/-- The code and the info word of a command that fails. -/
def failure (i : Instr) (s : State) : Option (Nat × Nat) :=
  match exec i s with
  | .next t => if t.err then some (t.errcode.toNat, t.errinfo.toNat) else none
  | _ => none

/-- The pending requests of a command that waits: SRC_REQ.KIND, SRC_REQ_LEN, ALLOC_REQ.KIND, ALLOC_SIZE, ALLOC_PTR. -/
def waits (i : Instr) (s : State) : Option (List Nat) :=
  match exec i s with
  | .next t =>
    if t.busy then
      some [t.eng.srcReq.toNat, t.eng.srcReqLen.toNat, t.eng.allocReq.toNat, t.eng.allocSize.toNat, t.eng.allocPtr.toNat]
    else none
  | _ => none

theorem test_nop : results .nop (at_ .reset []) = some ([0, 0, 0, 0], []) := by decide +kernel
theorem test_bsOpenMem : results .bsOpenMem (at_ .reset [0x1000, 4]) = some ([0, 0, 0, 0], []) := by decide +kernel
theorem test_bsOpenMem_range : failure .bsOpenMem (at_ .reset [0xFFFFFFFF, 2]) = some (0x0604, 0xFFFFFFFF) := by decide +kernel
theorem test_bsOpenStream : results .bsOpenStream (at_ .reset [0x8000]) = some ([0, 0, 0, 0], []) := by decide +kernel
theorem test_bsOpenStream_range : failure .bsOpenStream (at_ .reset [0xFFFFFF81]) = some (0x0604, 0xFFFFFF81) := by
  decide +kernel
/-- B1. -/
theorem test_bsRead : results .bsRead (at_ (source [1, 2, 3]) [0x2000, 5]) 0x2000 5 = some ([3, 0, 0, 0], [1, 2, 3, 0, 0]) := by
  decide +kernel
theorem test_bsRead_overlap : failure .bsRead (at_ (source [1, 2, 3]) [4098, 1]) = some (0x0604, 4098) := by decide +kernel
/-- The stream buffer is the input region of a STREAM-mode source. -/
theorem test_bsRead_streamOverlap :
    failure .bsRead (at_ { Eng.reset with bs := ⟨.stream, 0, 0, 0, [1, 2, 3], false, 0x8000⟩ } [0x807F, 1]) = some (0x0604, 0x807F) := by
  decide +kernel
/-- B2, B4. -/
theorem test_bsPeek : results .bsPeek (at_ (source [0x89, 0x50]) []) = some ([0x89, 1, 0, 0], []) := by decide +kernel
theorem test_bsPeek_end : results .bsPeek (at_ (source []) []) = some ([0, 0, 0, 0], []) := by decide +kernel
/-- B17. -/
theorem test_bsSkip : waits .bsSkip (at_ { Eng.reset with bs := ⟨.stream, 0, 0, 0, [1, 2, 3], false, 0x8000⟩ } [0, 10]) =
    some [2, 7, 0, 0, 0] := by decide +kernel
/-- B6, B16. -/
theorem test_bsEof : results .bsEof (at_ (source []) []) = some ([1, 0, 0, 0], []) := by decide +kernel
theorem test_bsEof_stream : results .bsEof
    (at_ { Eng.reset with bs := ⟨.stream, 0, 0, 0, [], false, 0x8000⟩ } [] [.srcResp 1]) = some ([1, 0, 0, 0], []) := by
  decide +kernel
/-- B13. -/
theorem test_brInit : results .brInit (at_ (source [0x8D]) []) = some ([0, 0, 0, 0], []) := by decide +kernel
theorem test_brInit_closed : failure .brInit (at_ .reset []) = some (0x0603, 0) := by decide +kernel
/-- B7, B10. -/
theorem test_brGet : results (.brGet 3) (at_ (reader [0x8D]) []) = some ([5, 0, 0, 0], []) := by decide +kernel
theorem test_brGet_end : failure (.brGet 9) (at_ (reader [0x8D]) []) = some (0x0205, 9) := by decide +kernel
/-- B8: after three bits of 8D 5A. -/
theorem test_brAlign : results .brAlign (at_ { reader [] with br := ⟨true, 0xB51, 13, .source⟩ } []) =
    some ([5, 0, 0, 0], []) := by decide +kernel
/-- H1: the four entries of the fast table that H1 names. -/
theorem test_htBuild :
    (match exec (.htBuild 0) (at_ (mem 0x100 [2, 1, 3, 3]) [0x100, 4]) with
      | .next t => [0, 1, 3, 7].map fun j => (t.eng.ht0.fast.toList.getD j 0).toNat
      | _ => []) = [0x201, 0x400, 0x602, 0x603] := by decide +kernel
/-- V3: three codes of length 1. -/
theorem test_htBuild_bad : failure (.htBuild 0) (at_ (mem 0x100 [1, 1, 1]) [0x100, 3]) = some (0x0305, 1) := by decide +kernel

/-- The engine with the slot that the code lengths give. -/
def withSlot0 (e : Eng) (lens : List Nat) : Eng :=
  match buildSlot lens with
  | .ok h => { e with ht0 := h }
  | .error _ => e

/-- H2. -/
theorem test_htDecode : results (.htDecode 0) (at_ (withSlot0 (reader [0x03]) [2, 1, 3, 3]) []) = some ([2, 0, 0, 0], []) := by
  decide +kernel
/-- H4: a code of ten bits, by the slow path. -/
theorem test_htDecode_slow : results (.htDecode 0)
    (at_ (withSlot0 (reader [0xFF, 0x01]) [1, 2, 3, 4, 5, 6, 7, 8, 9, 10, 10]) []) = some ([9, 0, 0, 0], []) := by
  decide +kernel
/-- H3: after HT_FIXED the seven bits 0 are symbol 256. -/
theorem test_htFixed :
    (match exec .htFixed (at_ .reset []) with
      | .next t => ((t.eng.ht0.fast.toList.getD 0 0).toNat, t.eng.ht1.valid, t.eng.ht2.valid)
      | _ => (0, false, false)) = (7 * 512 + 256, true, false) := by decide +kernel
theorem test_infOpen : results (.infOpen false) (at_ .reset [0x2000, 64]) = some ([0x2000, 64, 0, 0], []) := by decide +kernel
theorem test_infOpen_alloc : waits (.infOpen true) (at_ .reset [0, 0]) = some [0, 0, 1, 1, 0] := by decide +kernel
/-- I23, I25. -/
theorem test_infZhdr : results .infZhdr (at_ (reader [0x78, 0x9C]) []) = some ([0x78, 0x9C, 0, 0], []) := by decide +kernel
theorem test_infZhdr_dictionary : failure .infZhdr (at_ (reader [0x78, 0xBB]) []) = some (0x0115, 0xBB) := by decide +kernel

/-- A fixed output of 16 bytes at 0x2000 with `n` bytes written. -/
def output (n : Nat) : InflateOut := ⟨true, 0x2000, n, 16, false⟩

/-- I4. -/
theorem test_infBlock : results .infBlock
    (at_ { reader [0x01, 0x03, 0x00, 0xFC, 0xFF, 0x41, 0x42, 0x43] with inf := output 0 } []) 0x2000 3 =
    some ([1, 0, 0x2000, 3], [0x41, 0x42, 0x43]) := by decide +kernel
/-- I8. -/
theorem test_infBlock_reserved : failure .infBlock (at_ { reader [0x07] with inf := output 0 } []) = some (0x0303, 3) := by
  decide +kernel
/-- 70_reset_and_hazards.md R458: the fixed output begins at the last byte of the slice; 20_memory.md R74: a buffer of the allocator
is not checked. -/
theorem test_infBlock_overlap : failure .infBlock (at_ { reader [0x01, 0x00, 0x00, 0xFF, 0xFF] with inf := ⟨true, 4100, 0, 4, false⟩ } []) =
    some (0x0604, 4100) := by decide +kernel
theorem test_infBlock_allocated : results .infBlock
    (at_ { reader [0x01, 0x00, 0x00, 0xFF, 0xFF] with inf := ⟨true, 4100, 0, 4, true⟩ } []) = some ([1, 0, 4100, 0], []) := by
  decide +kernel
/-- I28, I29. -/
theorem test_infCopy : results .infCopy (at_ { mem 0x2000 [0x61] with inf := output 1 } [4, 1]) 0x2000 5 =
    some ([0, 0, 0x2000, 5], [0x61, 0x61, 0x61, 0x61, 0x61]) := by decide +kernel
theorem test_infCopy_length : failure .infCopy (at_ { mem 0x2000 [0x61] with inf := output 1 } [2, 1]) = some (0x0602, 2) := by
  decide +kernel
/-- I1. -/
theorem test_infStream : results (.infStream true true)
    (at_ (source [0x78, 0x9C, 0x4B, 0x04, 0x00, 0x00, 0x62, 0x00, 0x62]) [0, 1] [.allocResp 0x3000]) 0x3000 1 =
    some ([0x3000, 1, 1, 0], [0x61]) := by decide +kernel
/-- I15, a dynamic block. -/
theorem test_infStream_dynamic : results (.infStream false false)
    (at_ (source [0x05, 0xC0, 0x81, 0x00, 0x00, 0x00, 0x00, 0x00, 0x90, 0x56, 0xFF, 0x13, 0x10]) [0x3000, 8]) 0x3000 2 =
    some ([0x3000, 2, 8, 0], [0x61, 0x61]) := by decide +kernel

/-- The file of V8. -/
def v8File : List Byte :=
  [0x89, 0x50, 0x4E, 0x47, 0x0D, 0x0A, 0x1A, 0x0A] ++
  [0x00, 0x00, 0x00, 0x0D, 0x49, 0x48, 0x44, 0x52, 0x00, 0x00, 0x00, 0x02, 0x00, 0x00, 0x00, 0x01] ++
  [0x08, 0x00, 0x00, 0x00, 0x00, 0xD1, 0x49, 0x20, 0x56] ++
  [0x00, 0x00, 0x00, 0x02, 0x74, 0x52, 0x4E, 0x53, 0x00, 0x40, 0x00, 0x4F, 0x8C, 0xA8] ++
  [0x00, 0x00, 0x00, 0x0B, 0x49, 0x44, 0x41, 0x54, 0x78, 0x5E, 0x63, 0x70, 0x38, 0x00, 0x00, 0x01] ++
  [0x43, 0x01, 0x01, 0x79, 0x5B, 0xA9, 0xE0, 0x00, 0x00, 0x00, 0x00, 0x49, 0x45, 0x4E, 0x44, 0xAE, 0x42, 0x60, 0x82]

/-- V8, req = 0: the accumulator, the inflated data, the raster and the keyed image, with their Frees. -/
theorem test_pngDecode : results (.pngDecode 0)
    (at_ (source v8File) [] [.allocResp 0x10000, .allocResp 0x20000, .allocResp 0, .allocResp 0x30000, .allocResp 0,
      .allocResp 0x40000, .allocResp 0]) 0x40000 4 = some ([0x40000, 2, 1, 2], [0x40, 0x00, 0xC0, 0xFF]) := by decide +kernel
/-- P-2. -/
theorem test_pngDecode_req : failure (.pngDecode 5) (at_ (source v8File) []) = some (0x0602, 5) := by decide +kernel
/-- S6. -/
theorem test_sfRecon : results (.sfRecon 1 4 true false) (at_ (mem 0x100 [0x00, 0x0F, 0x80]) [0x100, 3, 3, 1] [.allocResp 0x200])
    0x200 3 = some ([0x200, 3, 0, 0], [0x00, 0x0F, 0x08]) := by decide +kernel
/-- S9. -/
theorem test_sfRecon_interlaced : results (.sfRecon 1 8 false true)
    (at_ (mem 0x100 [0, 1, 0, 3, 0, 2, 0, 4, 5, 6]) [0x100, 10, 3, 2] [.allocResp 0x200]) 0x200 6 =
    some ([0x200, 6, 0, 0], [1, 2, 3, 4, 5, 6]) := by decide +kernel
/-- Section 6: Average on the first row, Paeth on a later one. -/
theorem test_sfFilterRow_average : results (.sfFilterRow 3 1 true)
    (at_ (mem 0x100 [0x0A, 0x14, 0x1E, 0x28]) [0x100, 0, 4, 0x200]) 0x200 5 =
    some ([70, 0, 0, 0], [3, 0x0A, 0x0F, 0x14, 0x19]) := by decide +kernel
theorem test_sfFilterRow_paeth : results (.sfFilterRow 4 1 false)
    (at_ (mem 0x100 [0x0B, 0x15, 0x1F, 0x29, 0x0A, 0x14, 0x1E, 0x28]) [0x100, 0x104, 4, 0x200]) 0x200 5 =
    some ([4, 0, 0, 0], [4, 1, 1, 1, 1]) := by decide +kernel
/-- Section 7. -/
theorem test_fcConvert : results (.fcConvert 3 1)
    (at_ (mem 0x100 [0xFF, 0, 0, 0xFF, 0xFF, 0xFF]) [0x100, 2] [.allocResp 0x200]) 0x200 2 =
    some ([0x200, 2, 0, 0], [0x4C, 0xFF]) := by decide +kernel
theorem test_fcPalette : results (.fcPalette 4)
    (at_ (mem 0x100 [0, 5, 0x0A, 0x14, 0x1E, 0x28]) [0x100, 2, 0x102, 1] [.allocResp 0x1000]) 0x1000 8 =
    some ([0x1000, 8, 0, 0], [0x0A, 0x14, 0x1E, 0x28, 0, 0, 0, 0xFF]) := by decide +kernel
theorem test_fcTrnsKey : results (.fcTrnsKey 2) (at_ (mem 0x100 [0x80, 0xFF, 0x81, 0xFF]) [0x100, 2, 0x80]) 0x100 4 =
    some ([0, 0, 0, 0], [0x80, 0x00, 0x81, 0xFF]) := by decide +kernel
theorem test_fcCgbi : results (.fcCgbi 4 true) (at_ (mem 0x100 [0x32, 0x64, 0x19, 0x80]) [0x100, 1]) 0x100 4 =
    some ([0, 0, 0, 0], [0x32, 0xC7, 0x64, 0x80]) := by decide +kernel
theorem test_fcCgbi_three : results (.fcCgbi 3 false) (at_ (mem 0x100 [1, 2, 3]) [0x100, 1]) 0x100 3 =
    some ([0, 0, 0, 0], [3, 2, 1]) := by decide +kernel
theorem test_fcFlip : results .fcFlip (at_ (mem 0x100 [1, 2, 3, 4, 5, 6]) [0x100, 2, 3]) 0x100 6 =
    some ([0, 0, 0, 0], [5, 6, 3, 4, 1, 2]) := by decide +kernel
/-- Section 8. -/
theorem test_defCompress : results (.defCompress 0)
    (at_ (mem 0x100 (List.replicate 10 0x61)) [0x100, 10] [.allocResp 0x200]) 0x200 10 =
    some ([0x200, 10, 0, 0], [0x78, 0x5E, 0x4B, 0x84, 0x03, 0x00, 0x14, 0xE1, 0x03, 0xCB]) := by decide +kernel
theorem test_lzHash : results .lzHash (at_ (mem 0x100 [0x61, 0x62, 0x63]) [0x100]) = some ([0x3783, 0x04EAF783, 0, 0], []) := by
  decide +kernel
theorem test_lzMatchlen : results .lzMatchlen
    (at_ (mem 0x100 [0x61, 0x62, 0x63, 0x61, 0x62, 0x64]) [0x100, 0x103, 3]) = some ([2, 0, 0, 0], []) := by decide +kernel
theorem test_hufEncSym : results (.hufEncSym false 0x61) (at_ .reset []) = some ([0x89, 8, 0, 0], []) := by decide +kernel
theorem test_hufEncSym_distance : results (.hufEncSym true 29) (at_ .reset []) = some ([0x17, 5, 0, 0], []) := by decide +kernel
/-- W2. -/
theorem test_pngEncode : results (.pngEncode 1) (at_ (mem 0x100 [0x80]) [0x100, 1, 1, 0] [.allocResp 0x200]) 0x221 22 =
    some ([0x200, 67, 0, 0], [0x00, 0x00, 0x00, 0x0A, 0x49, 0x44, 0x41, 0x54, 0x78, 0x5E, 0x63, 0x68, 0x00, 0x00, 0x00, 0x82,
      0x00, 0x81, 0xE1, 0xFC, 0x59, 0x78]) := by decide +kernel
/-- Section 9. -/
theorem test_adler32 : results .adler32
    (at_ (mem 0x100 [0x57, 0x69, 0x6B, 0x69, 0x70, 0x65, 0x64, 0x69, 0x61]) [0x100, 9, 1]) =
    some ([0x11E60398, 0, 0, 0], []) := by decide +kernel
theorem test_crc32 : results .crc32 (at_ (mem 0x100 [0x49, 0x45, 0x4E, 0x44]) [0x100, 4, 0]) =
    some ([0xAE426082, 0, 0, 0], []) := by decide +kernel

/-! ### Steps -/

/-- The word of a command, written to CMD of the machine at reset, runs as its first command. -/
theorem test_first_step :
    (match step (State.reset.withFetchWord 32 0x00000000) with
      | .next t => (t.readReg 2, t.host.length)
      | _ => (0, 0)) = (2#32, 0) := by decide +kernel
/-- B12: an illegal word, as the first command after reset. -/
theorem test_illegal_step :
    (match step (State.reset.withFetchWord 32 0x00200019) with
      | .next t => (t.readReg 2, t.readReg 3, t.readReg 4)
      | _ => (0, 0, 0)) = (4#32, 0x0601#32, 0x00200019#32) := by decide +kernel

/-- The outcome of one host access: the register or memory data it gives, or a refusal. -/
def access (s : State) (act : HostAct) : Option (Word × List Byte) :=
  match step { s with host := [⟨act, true⟩] } with
  | .next t => some (t.rdata, t.mdata)
  | _ => none

/-- A command that waits, with the buffer of four bytes at 0x2000 granted. -/
def granted : State := at_ { Eng.reset with allocReq := 1, allocSize := 8, live := [⟨0x2000, 4⟩] } []

theorem test_memRead : access { State.reset with eng := mem 0x100 [1, 2, 3] } (.memRead 0x101 4) = some (0, [2, 3, 0, 0]) := by
  decide +kernel
theorem test_memRead_range : access .reset (.memRead 0xFFFFFFFF 2) = none := by decide +kernel
/-- The host does not write a buffer in LIVE, and reads what the command has not written there. -/
theorem test_memWrite_live : (access granted (.memWrite 0x2003 [1]), access granted (.memRead 0x2003 1)) = (none, some (0, [0])) := by
  decide +kernel
/-- A byte that the waiting command has written reads as a free value, the next one as it is. -/
theorem test_memRead_written :
    access { granted with eng := { granted.eng with mem := [(0x2000, 7), (0x2001, 8)], written := [⟨0x2000, 1, false⟩] } }
      (.memRead 0x2000 2) = some (0, [Config.freeRead 0 0, 8]) := rfl
/-- A granted buffer joins LIVE with the answer, not when the engine goes on. -/
theorem test_allocResp_live :
    (match step { granted with host := [⟨.regWrite 0x6C#8 .w32 0x3000, true⟩] } with
      | .next t => t.eng.live
      | _ => []) = [⟨0x2000, 4⟩, ⟨0x3000, 8⟩] := by decide +kernel

/-- A command that is accepted and has not run, and the host's access. -/
def accepted (cmd : Word) (e : Eng) (args : List Nat) (host : List HostStep := []) : State :=
  { at_ e args with cmd := cmd, host := host }

/-- The ranges that a soft reset leaves unspecified then. -/
def lost (cmd : Word) (e : Eng) (args : List Nat) : List (Nat × Nat) :=
  (accepted cmd e args).mayHaveWritten.map fun w => (w.addr, w.len)

/-- FC_FLIP does not write an odd middle row, or a single row. -/
theorem test_reset_fcFlip : (lost 0x0000005C#32 (mem 0x100 [1, 2, 3, 4, 5, 6]) [0x100, 2, 3],
    lost 0x0000005C#32 (mem 0x100 [1, 2]) [0x100, 2, 1]) = ([(0x104, 2), (0x100, 2)], []) := by decide +kernel
/-- FC_TRNS_KEY does not write the colours: a soft reset frees the alpha slots, a hardware reset leaves them old or new. -/
theorem test_reset_fcTrnsKey : lost 0x0000025A#32 (mem 0x100 [0x80, 0xFE, 0x81, 0xFE]) [0x100, 2, 0x80] =
    [(0x103, 1), (0x101, 1)] ∧
    (accepted 0x0000025A#32 (mem 0x100 [0x80, 0xFE, 0x81, 0xFE]) [0x100, 2, 0x80]).inProgress = [(0x101, 0x00), (0x103, 0xFF)] := by
  decide +kernel
/-- FC_CGBI without un-premultiplying writes neither green nor alpha. -/
theorem test_reset_fcCgbi : lost 0x0000045B#32 (mem 0x100 [0x32, 0x64, 0x19, 0x80]) [0x100, 1] = [(0x102, 1), (0x100, 1)] := by
  decide +kernel

/-! ### Witnesses: a state and operands that meet the hypotheses of a statement, for each of its clauses -/

/-- A command that runs from an engine at rest is ready. -/
theorem ready (e : Eng) (args : List Nat) (log : List PortMove) (h : e.placed = [] ∧ e.regions = [] ∧ e.written = [] ∧
    e.live = [] ∧ e.srcReq = 0 ∧ e.allocReq = 0) : (at_ e args log).Ready log :=
  ⟨rfl, h.1, h.2.1, h.2.2.1, h.2.2.2.1, h.2.2.2.2.1, h.2.2.2.2.2⟩

/-- `ready` for an engine written out. -/
theorem rest (e : Eng) (args : List Nat) (log : List PortMove) (h1 : e.placed = [] := by rfl) (h2 : e.regions = [] := by rfl)
    (h3 : e.written = [] := by rfl) (h4 : e.live = [] := by rfl) (h5 : e.srcReq = 0 := by rfl) (h6 : e.allocReq = 0 := by rfl) :
    (at_ e args log).Ready log := ready e args log ⟨h1, h2, h3, h4, h5, h6⟩

theorem sourceOk (n : Nat) (h : n ≤ 65536) : SourceOk ⟨.mem, 4096, n, 0, [], false, 0⟩ := by
  refine ⟨fun _ => ⟨?_, Nat.zero_le _⟩, fun h => ?_, Nat.zero_le _⟩
  · show 4096 + n ≤ 4294967296
    omega
  · cases h

theorem readerOk (v : Bool) : ReaderOk ⟨v, 0, 0, .source⟩ where
  nbits := Nat.zero_le _
  code := Nat.zero_lt_one
  input := fun _ a n h => by cases h

theorem outputOk (n : Nat) (h : n ≤ 16) : OutputOk (output n) where
  len := fun _ => h
  range := fun _ => by show 0x2000 + 16 ≤ 4294967296; decide
  out := fun _ => by show 0x2000 < 2 ^ 32; decide
  cap := fun _ => by show 16 < 2 ^ 32; decide

theorem engOk_reset : EngOk Eng.reset where
  mem := ⟨List.Pairwise.nil, fun _ h => (nomatch h)⟩
  bs := { slice := fun h => (nomatch h), buffer := fun h => (nomatch h), held := Nat.zero_le _ }
  br := readerOk false
  ht0 := fun h => (nomatch h)
  ht1 := fun h => (nomatch h)
  ht2 := fun h => (nomatch h)
  inf := { len := fun h => (nomatch h), range := fun h => (nomatch h), out := fun h => (nomatch h), cap := fun h => (nomatch h) }
  png := fun _ h => (nomatch h)

theorem enginesOk_reset : EnginesOk State.reset where
  eng := engOk_reset
  base := fun _ h => (nomatch h)

/-- The reset state with the host's accesses `hs`. -/
def hosting (hs : List HostStep) : State := { State.reset with host := hs }

/-- A command that waits at a read request. -/
def waitingSrc (hs : List HostStep) : State :=
  { at_ { Eng.reset with srcReq := 1 } [] with host := hs }

/-- A command that waits at an Alloc. -/
def waitingAlloc (hs : List HostStep) : State :=
  { at_ { Eng.reset with allocReq := 1 } [] with host := hs }

theorem witness_DecodeOfEncode : WellFormed (.brGet 31) = true ∧ WellFormed (.defCompress 65535) = true := by decide
theorem witness_LegalWordsHaveOneMeaning : decode 0xFFFF0060#32 = .ok (.defCompress 65535) ∧
    ∃ r ∈ opcodeRows, 0xFFFF0060#32 &&& r.1 = r.2 := by decide
theorem witness_IllegalWordFails : ∃ s : State, ∃ x, s.Ready [] ∧ s.engineRuns = true ∧ decode s.cmd = .error x :=
  ⟨{ at_ .reset [] with cmd := 0x00200019#32 }, .unusedImm, ⟨rfl, rfl, rfl, rfl, rfl, rfl, rfl⟩, by decide, by decide⟩
theorem witness_StepRunsTheCommand_running : ∃ s : State, ∃ i, s.host = [] ∧ s.engineRuns = true ∧ decode s.cmd = .ok i :=
  ⟨{ at_ .reset [] with cmd := 0x00110019#32 }, .brGet 17, rfl, by decide, by decide⟩
theorem witness_StepRunsTheCommand_write : ∃ s : State, ∃ i hs, s.host = ⟨.regWrite 0x14#8 .w32 (encode i), false⟩ :: hs ∧
    s.rst = false ∧ s.phase = .idle ∧ s.srcWait = false ∧ s.allocWait = false ∧ WellFormed i = true :=
  ⟨hosting [⟨.regWrite 0x14#8 .w32 (encode (.brGet 31)), false⟩], .brGet 31, [], rfl, rfl, rfl, rfl, rfl, rfl⟩
theorem witness_CommandWrite_busy : ∃ s : State, ∃ v : Word, ∃ hs, s.host = ⟨.regWrite 0x14#8 .w32 v, true⟩ :: hs ∧ s.rst = false ∧
    (s.busy = true ∨ s.srcWait = true ∨ s.allocWait = true) :=
  ⟨waitingSrc [⟨.regWrite 0x14#8 .w32 0, true⟩], 0, [], rfl, rfl, .inl rfl⟩
theorem witness_CommandWrite_idle : ∃ s : State, ∃ v : Word, ∃ hs, s.host = ⟨.regWrite 0x14#8 .w32 v, true⟩ :: hs ∧ s.rst = false ∧
    s.busy = false ∧ s.srcWait = false ∧ s.allocWait = false :=
  ⟨hosting [⟨.regWrite 0x14#8 .w32 0, true⟩], 0, [], rfl, rfl, rfl, rfl, rfl⟩
theorem witness_RunningCommandKeepsItsSnapshot : ∃ s : State, ∃ r, s.run = some r := ⟨at_ .reset [], _, rfl⟩
theorem witness_StatusRegister : ∃ s : State, ∃ v : Word, ∃ hs, s.host = ⟨.regWrite 0x08#8 .w32 v, true⟩ :: hs ∧ s.rst = false :=
  ⟨hosting [⟨.regWrite 0x08#8 .w32 0x26, true⟩], 0x26, [], rfl, rfl⟩
theorem witness_IdentityRegister : ∃ s : State, ∃ v : Word, ∃ hs, s.host = ⟨.regWrite 0x00#8 .w32 v, true⟩ :: hs :=
  ⟨hosting [⟨.regWrite 0x00#8 .w32 1, true⟩], 1, [], rfl⟩
theorem witness_RegisterAccesses_read : ∃ s : State, ∃ o hs, s.host = ⟨.regRead o .w32, true⟩ :: hs ∧ o.toNat % 4 = 0 :=
  ⟨hosting [⟨.regRead 0xFC#8 .w32, true⟩], 0xFC#8, [], rfl, by decide⟩
theorem witness_RegisterAccesses_write : ∃ s : State, ∃ k : Fin 8, ∃ v : Word, ∃ hs,
    s.host = ⟨.regWrite (BitVec.ofNat 8 (0x20 + 4 * k.val)) .w32 v, true⟩ :: hs ∧ s.rst = false :=
  ⟨hosting [⟨.regWrite 0x3C#8 .w32 9, true⟩], 7, 9, [], rfl, rfl⟩
theorem witness_RegisterAccesses_refusedRead : ∃ s : State, ∃ o w b hs, s.host = ⟨.regRead o w, b⟩ :: hs ∧ (w ≠ .w32 ∨ o.toNat % 4 ≠ 0) :=
  ⟨hosting [⟨.regRead 0x01#8 .w32, true⟩], 0x01#8, .w32, true, [], rfl, by decide⟩
theorem witness_RegisterAccesses_refusedWrite : ∃ s : State, ∃ o w v b hs,
    s.host = ⟨.regWrite o w v, b⟩ :: hs ∧ (w ≠ .w32 ∨ o.toNat % 4 ≠ 0) :=
  ⟨hosting [⟨.regWrite 0x14#8 .w8 0, false⟩], 0x14#8, .w8, 0, false, [], rfl, by decide⟩
theorem witness_ControlWrites : ∃ s : State, ∃ v : Word, ∃ hs, s.rst = false ∧ s.host = ⟨.regWrite 0x04#8 .w32 v, true⟩ :: hs ∧
    v.getLsbD 1 = false := ⟨hosting [⟨.regWrite 0x04#8 .w32 0xFFFFFFFD, true⟩], 0xFFFFFFFD, [], rfl, rfl, by decide⟩
theorem witness_ControlWrites_quality : ∃ s : State, ∃ v : Word, ∃ hs, s.rst = false ∧ s.host = ⟨.regWrite 0x18#8 .w32 v, true⟩ :: hs :=
  ⟨hosting [⟨.regWrite 0x18#8 .w32 0xFFFFFFFF, true⟩], 0xFFFFFFFF, [], rfl, rfl⟩
theorem witness_PortResponses_src : ∃ s : State, ∃ v : Word, ∃ hs r, s.rst = false ∧ s.host = ⟨.regWrite 0x5C#8 .w32 v, true⟩ :: hs ∧
    s.eng.srcReq ≠ 0 ∧ s.run = some r := ⟨waitingSrc [⟨.regWrite 0x5C#8 .w32 3, true⟩], 3, [], _, rfl, rfl, by decide, rfl⟩
theorem witness_PortResponses_alloc : ∃ s : State, ∃ v : Word, ∃ hs r, s.rst = false ∧ s.host = ⟨.regWrite 0x6C#8 .w32 v, true⟩ :: hs ∧
    s.run = some r ∧ s.eng.allocReq = 1 ∧ v ≠ 0 ∧ s.eng.allocOk s.eng.live v.toNat s.eng.allocSize.toNat = true :=
  ⟨waitingAlloc [⟨.regWrite 0x6C#8 .w32 3, true⟩], 3, [], _, rfl, rfl, rfl, rfl, by decide, by decide +kernel⟩
theorem witness_PortResponses_refused : ∃ s : State, ∃ hs r, s.rst = false ∧ s.host = ⟨.regWrite 0x6C#8 .w32 0, true⟩ :: hs ∧
    s.run = some r ∧ s.eng.allocReq ≠ 0 ∧ s.eng.allocReq ≠ 3 :=
  ⟨waitingAlloc [⟨.regWrite 0x6C#8 .w32 0, true⟩], [], _, rfl, rfl, rfl, by decide, by decide⟩
/-- A Realloc of the four bytes at 0x2000 to eight, and a Free. -/
theorem witness_PortResponses_realloc : ∃ s : State, ∃ v : Word, ∃ hs r old, s.rst = false ∧
    s.host = ⟨.regWrite 0x6C#8 .w32 v, true⟩ :: hs ∧ s.run = some r ∧ s.eng.allocReq = 2 ∧ v ≠ 0 ∧
    s.eng.allocOk (dropBuf s.eng.allocPtr.toNat s.eng.live) v.toNat s.eng.allocSize.toNat = true ∧
    (s.eng.live.find? fun b => decide (b.addr = s.eng.allocPtr.toNat)) = some ⟨s.eng.allocPtr.toNat, old⟩ :=
  ⟨{ at_ { Eng.reset with allocReq := 2, allocSize := 8, allocPtr := 0x2000, live := [⟨0x2000, 4⟩] } [] with
      host := [⟨.regWrite 0x6C#8 .w32 0x2000, true⟩] }, 0x2000, [], _, 4, rfl, rfl, rfl, rfl, by decide, by decide +kernel,
    by decide +kernel⟩
theorem witness_PortResponses_free : ∃ s : State, ∃ v : Word, ∃ hs r, s.rst = false ∧ s.host = ⟨.regWrite 0x6C#8 .w32 v, true⟩ :: hs ∧
    s.run = some r ∧ s.eng.allocReq = 3 :=
  ⟨{ at_ { Eng.reset with allocReq := 3 } [] with host := [⟨.regWrite 0x6C#8 .w32 0, true⟩] }, 0, [], _, rfl, rfl, rfl, rfl⟩
theorem witness_PortResponses_idle : ∃ s : State, ∃ v : Word, ∃ hs, s.rst = false ∧ s.host = ⟨.regWrite 0x6C#8 .w32 v, true⟩ :: hs ∧
    s.eng.allocReq = 0 ∧ s.eng.srcReq = 0 := ⟨hosting [⟨.regWrite 0x6C#8 .w32 3, true⟩], 3, [], rfl, rfl, rfl, rfl⟩
theorem witness_HostMemory_range : ∃ s : State, ∃ a : Word, ∃ bs hs, s.host = ⟨.memWrite a bs, true⟩ :: hs ∧
    ¬ a.toNat + bs.length ≤ 0x100000000 := ⟨hosting [⟨.memWrite 0xFFFFFFFF [1, 2], true⟩], 0xFFFFFFFF, [1, 2], [], rfl, by decide⟩
theorem witness_HostMemory_idle : ∃ s : State, ∃ a : Word, ∃ bs hs, s.host = ⟨.memWrite a bs, true⟩ :: hs ∧
    a.toNat + bs.length ≤ 0x100000000 ∧ s.run = none := ⟨hosting [⟨.memWrite 0xFFFFFFFF [1], true⟩], 0xFFFFFFFF, [1], [], rfl, by decide, rfl⟩
/-- A command that waits at a read request with the input region of its stream buffer. -/
def asking (act : HostAct) : State :=
  { at_ { Eng.reset with
      bs := ⟨.stream, 0, 0, 0, [], false, 0x8000⟩, srcReq := 1, srcReqLen := 128
      regions := [⟨0x8000, 128, true⟩, ⟨0x9000, 4, false⟩] } [] with host := [⟨act, true⟩] }
theorem witness_HostMemory_meets : ∃ s : State, ∃ a : Word, ∃ bs hs r, s.host = ⟨.memWrite a bs, true⟩ :: hs ∧ s.run = some r ∧
    a.toNat + bs.length ≤ 0x100000000 ∧ (∃ t ∈ s.eng.regions, overlap t.addr t.len a.toNat bs.length = true) ∧
    ¬ (s.eng.srcReq = 1 ∧ s.eng.bs.bufaddr ≤ a.toNat ∧ a.toNat + bs.length ≤ s.eng.bs.bufaddr + 128) :=
  ⟨asking (.memWrite 0x807F [1, 2]), 0x807F, [1, 2], [], _, rfl, rfl, by decide, ⟨⟨0x8000, 128, true⟩, .head _, by decide⟩, by decide⟩
theorem witness_HostMemory_srcBuf : ∃ s : State, ∃ a : Word, ∃ bs hs r, s.host = ⟨.memWrite a bs, true⟩ :: hs ∧ s.run = some r ∧
    a.toNat + bs.length ≤ 0x100000000 ∧ s.srcWait = true ∧
    (s.eng.srcReq = 1 ∧ s.eng.bs.bufaddr ≤ a.toNat ∧ a.toNat + bs.length ≤ s.eng.bs.bufaddr + 128) :=
  ⟨asking (.memWrite 0x807F [1]), 0x807F, [1], [], _, rfl, rfl, by decide, by decide, by decide⟩
theorem witness_HostMemory_clear : ∃ s : State, ∃ a : Word, ∃ bs hs r, s.host = ⟨.memWrite a bs, true⟩ :: hs ∧ s.run = some r ∧
    a.toNat + bs.length ≤ 0x100000000 ∧ s.srcWait = true ∧
    ¬ ((∃ t ∈ s.eng.regions, overlap t.addr t.len a.toNat bs.length = true) ∨
      ∃ c ∈ s.eng.live, overlap c.addr c.size a.toNat bs.length = true) :=
  ⟨asking (.memWrite 0x8080 [1]), 0x8080, [1], [], _, rfl, rfl, by decide, by decide, by decide⟩
theorem witness_HostMemory_readRange : ∃ s : State, ∃ a : Word, ∃ n hs, s.host = ⟨.memRead a n, true⟩ :: hs ∧
    0x100000000 < a.toNat + n := ⟨hosting [⟨.memRead 0xFFFFFFFF 2, true⟩], 0xFFFFFFFF, 2, [], rfl, by decide⟩
theorem witness_HostMemory_readIdle : ∃ s : State, ∃ a : Word, ∃ n hs, s.host = ⟨.memRead a n, true⟩ :: hs ∧
    a.toNat + n ≤ 0x100000000 ∧ s.run = none := ⟨hosting [⟨.memRead 0xFFFFFFFF 1, true⟩], 0xFFFFFFFF, 1, [], rfl, by decide, rfl⟩
theorem witness_HostMemory_notStarted : ∃ s : State, ∃ a : Word, ∃ bs hs r, s.host = ⟨.memWrite a bs, true⟩ :: hs ∧ s.run = some r ∧
    a.toNat + bs.length ≤ 0x100000000 ∧ s.srcWait = false ∧ s.allocWait = false ∧ r.log = [] ∧
    ¬ ((∃ t ∈ s.eng.regions, overlap t.addr t.len a.toNat bs.length = true) ∨
      ∃ c ∈ s.eng.live, overlap c.addr c.size a.toNat bs.length = true) :=
  ⟨accepted 0x00000070#32 (mem 0x100 [1, 2]) [0x100, 2] [⟨.memWrite 0x101 [9], true⟩], 0x101, [9], [], _, rfl, rfl, by decide, by decide,
    by decide, rfl, by decide⟩
/-- A read of eight bytes, the first four written by the command that waits. -/
theorem witness_HostMemory_readWaiting : ∃ s : State, ∃ a : Word, ∃ n hs k, s.host = ⟨.memRead a n, true⟩ :: hs ∧
    a.toNat + n ≤ 0x100000000 ∧ s.run ≠ none ∧ s.phase ≠ .run ∧ k < n ∧
    ∀ w ∈ s.mayHaveWritten, a.toNat + k < w.addr ∨ w.addr + w.len ≤ a.toNat + k :=
  ⟨{ asking (.memRead 0x9000 8) with eng := { (asking (.memRead 0x9000 8)).eng with written := [⟨0x9000, 4, false⟩] } },
    0x9000, 8, [], 4, rfl, by decide, (nomatch ·), by decide, by decide, by decide⟩
/-- FC_FLIP on three rows has its run to make and will not write the middle one. -/
theorem witness_HostMemory_readRunning : ∃ s : State, ∃ a : Word, ∃ n hs k, s.host = ⟨.memRead a n, true⟩ :: hs ∧
    a.toNat + n ≤ 0x100000000 ∧ s.run ≠ none ∧ s.phase = .run ∧ s.mayHaveWritten ≠ [] ∧ k < n ∧
    ∀ w ∈ s.mayHaveWritten, a.toNat + k < w.addr ∨ w.addr + w.len ≤ a.toNat + k :=
  ⟨accepted 0x0000005C#32 (mem 0x100 [1, 2, 3, 4, 5, 6]) [0x100, 2, 3] [⟨.memRead 0x100 6, true⟩], 0x100, 6, [], 2, rfl, by decide,
    (nomatch ·), by decide, by decide +kernel, by decide, by decide +kernel⟩
theorem witness_SoftReset_idle : ∃ s : State, ∃ v : Word, ∃ hs, s.host = ⟨.regWrite 0x04#8 .w32 v, true⟩ :: hs ∧ s.rst = false ∧
    v.getLsbD 1 = true ∧ s.busy = false := ⟨hosting [⟨.regWrite 0x04#8 .w32 2, true⟩], 2, [], rfl, rfl, by decide, rfl⟩
theorem witness_SoftReset : ∃ s : State, ∃ v : Word, ∃ hs, s.host = ⟨.regWrite 0x04#8 .w32 v, true⟩ :: hs ∧ s.rst = false ∧
    v.getLsbD 1 = true ∧ s.phase = .waitSrc := ⟨waitingSrc [⟨.regWrite 0x04#8 .w32 2, true⟩], 2, [], rfl, rfl, by decide, rfl⟩
theorem witness_HardwareReset_assert : ∃ s : State, ∃ hs, s.host = ⟨.setRst true, true⟩ :: hs ∧ s.phase ≠ .run :=
  ⟨waitingSrc [⟨.setRst true, true⟩], [], rfl, by decide⟩
theorem witness_HardwareReset_run : ∃ s : State, ∃ hs, s.host = ⟨.setRst true, true⟩ :: hs ∧ s.phase = .run ∧ s.inProgress ≠ [] :=
  ⟨accepted 0x0000005C#32 (mem 0x100 [1, 2]) [0x100, 1, 2] [⟨.setRst true, true⟩], [], rfl, by decide, by decide +kernel⟩
theorem witness_HardwareReset_write : ∃ s : State, ∃ o v b hs, s.host = ⟨.regWrite o .w32 v, b⟩ :: hs ∧ s.rst = true ∧ o.toNat % 4 = 0 :=
  ⟨{ hosting [⟨.regWrite 0x14#8 .w32 0, false⟩] with rst := true }, 0x14#8, 0, false, [], rfl, rfl, by decide⟩
theorem witness_HardwareReset_release : ∃ s : State, ∃ hs, s.host = ⟨.setRst false, true⟩ :: hs :=
  ⟨hosting [⟨.setRst false, true⟩], [], rfl⟩
theorem witness_TurnEndsInOneOfThreeWays : ∃ i : Instr, ∃ s t : State, AtRest s.start ∧ exec i s = .next t :=
  ⟨.nop, at_ .reset [], _, ⟨rfl, rfl, rfl⟩, rfl⟩
theorem witness_FailureFreesOldestFirst_waits : ∃ e : Eng, ∃ b bs, e.live = b :: bs ∧ e.moves = [] :=
  ⟨{ Eng.reset with live := [⟨16, 4⟩, ⟨32, 4⟩] }, ⟨16, 4⟩, [⟨32, 4⟩], rfl, rfl⟩
theorem witness_FailureFreesOldestFirst_answered : ∃ e : Eng, ∃ b bs v ms, e.live = b :: bs ∧ e.moves = .allocResp v :: ms ∧
    ∀ c ∈ bs, c.addr ≠ b.addr :=
  ⟨{ Eng.reset with live := [⟨16, 4⟩, ⟨32, 4⟩], moves := [.allocResp 0] }, ⟨16, 4⟩, [⟨32, 4⟩], 0, [], rfl, rfl, by decide⟩
theorem regsOk_reset : RegsOk State.reset := ⟨by decide, by decide, by decide⟩
theorem phaseOk_reset : PhaseOk State.reset where
  ends := by decide
  busy := fun h => (nomatch h)
  idle := fun _ => ⟨rfl, rfl, rfl⟩
  port := .inl rfl
  base := fun _ h => (nomatch h)
theorem witness_StepKeepsRegistersAndPhases : ∃ s t, RegsOk s ∧ PhaseOk s ∧ step s = .next t :=
  ⟨State.reset, State.reset, regsOk_reset, phaseOk_reset, rfl⟩
theorem witness_StepKeepsEngines : ∃ s t : State, EnginesOk s ∧ step s = .next t := ⟨State.reset, State.reset, enginesOk_reset, rfl⟩
theorem witness_StepNeverFaults : EnginesOk State.reset := enginesOk_reset
/-- Of the entry checks of `i` the first `k` hold and the next fails. -/
def failsAt (s : State) (i : Instr) (k : Nat) : Bool :=
  ((entryChecks s i).take k).all (·.ok) &&
    match (entryChecks s i)[k]? with
    | some c => !c.ok && decide (c.info < 0x100000000)
    | none => false

/-- What `failsAt` says is what the statement on entry checks asks. -/
theorem failsAt_splits (s : State) (i : Instr) (k : Nat) (h : failsAt s i k = true) : ∃ passed c later,
    entryChecks s i = passed ++ c :: later ∧ (∀ d ∈ passed, d.ok = true) ∧ c.ok = false ∧ c.info < 0x100000000 := by
  simp only [failsAt, Bool.and_eq_true, List.all_eq_true] at h
  obtain ⟨h1, h2⟩ := h
  split at h2
  · next c hc =>
    obtain ⟨hk, rfl⟩ := List.getElem?_eq_some_iff.mp hc
    simp only [Bool.and_eq_true, Bool.not_eq_true', decide_eq_true_eq] at h2
    exact ⟨_, _, _, (List.take_append_drop k _).symm.trans (by rw [List.drop_eq_getElem_cons hk]), h1, h2.1, h2.2⟩
  · cases h2

/-- Every check of every command fails somewhere, with the checks before it held, at a boundary value of what it checks. -/
theorem witness_OperandsOutOfRangeFail_first : ([
    (.bsOpenMem, [0xFFFFFFFF, 2], 0), (.bsOpenStream, [0xFFFFFF81], 0), (.bsRead, [0xFFFFFFFF, 2], 0), (.bsRead, [0, 1], 1),
      (.bsPeek, [], 0), (.bsSkip, [], 0), (.bsEof, [], 0), (.brInit, [], 0), (.brGet 17, [], 0), (.brAlign, [], 0),
      (.htBuild 3, [], 0), (.htBuild 2, [0, 289], 1), (.htBuild 2, [0xFFFFFFFF, 2], 2), (.htDecode 3, [], 0),
      (.htDecode 2, [], 1), (.infOpen true, [0, 0x80000000], 0), (.infOpen false, [0xFFFFFFFF, 2], 0), (.infZhdr, [], 0),
      (.infBlock, [], 0), (.infCopy, [], 0), (.infStream true false, [], 0), (.pngDecode 5, [], 0), (.pngDecode 4, [], 1)] : List (Instr × List Nat × Nat)).all
      (fun x => failsAt (at_ .reset x.2.1) x.1 x.2.2) = true := by decide +kernel
theorem witness_OperandsOutOfRangeFail_images : ([
    (.sfRecon 0 8 false false, [], 0), (.sfRecon 5 8 false false, [], 0), (.sfRecon 1 3 false false, [], 1),
      (.sfRecon 2 8 true false, [], 2), (.sfRecon 1 8 false false, [0, 0, 1, 0], 3),
      (.sfRecon 1 8 false false, [0, 0, 0x10000, 0x8000], 4), (.sfRecon 1 8 false true, [0, 0, 0x7FFFFFFF, 1], 5),
      (.sfRecon 1 8 false false, [0xFFFFFFFF, 2, 1, 1], 6), (.sfRecon 1 8 false false, [0, 3, 1, 1], 7),
      (.sfFilterRow 5 1 true, [], 0), (.sfFilterRow 4 5 true, [], 1), (.sfFilterRow 4 1 true, [0xFFFFFFFF, 0, 2, 0], 2),
      (.sfFilterRow 4 1 false, [0, 0xFFFFFFFF, 2, 256], 3), (.sfFilterRow 4 1 true, [0, 0, 2, 0xFFFFFFFE], 3),
      (.sfFilterRow 4 1 false, [0, 4, 2, 4], 5), (.fcConvert 5 1, [], 0), (.fcConvert 4 0, [], 1),
      (.fcConvert 4 4, [0, 0], 2), (.fcConvert 4 4, [0, 0x20000000], 3), (.fcConvert 4 4, [0xFFFFFFFD, 1], 4),
      (.fcPalette 2, [], 0), (.fcPalette 3, [], 1), (.fcPalette 3, [0, 1, 0, 257], 2),
      (.fcPalette 4, [0, 0x20000000, 0, 256], 3), (.fcPalette 4, [0xFFFFFFFF, 2, 0, 0], 4),
      (.fcPalette 4, [0, 1, 0xFFFFFC01, 0], 5)] : List (Instr × List Nat × Nat)).all
      (fun x => failsAt (at_ .reset x.2.1) x.1 x.2.2) = true := by decide +kernel
theorem witness_OperandsOutOfRangeFail_others : ([
    (.fcTrnsKey 3, [], 0), (.fcTrnsKey 4, [0xFFFFFFFD, 1], 1), (.fcCgbi 2 true, [], 0),
      (.fcCgbi 3 true, [0xFFFFFFFE, 1], 1), (.fcFlip, [0xFFFFFFFF, 1, 2], 0), (.defCompress 8, [0xFFFFFFFF, 2], 0),
      (.defCompress 8, [0, 0x80000000], 1), (.lzHash, [0xFFFFFFFE], 0), (.lzMatchlen, [0xFFFFFFFF, 0, 2], 0),
      (.lzMatchlen, [0, 0xFFFFFEFF, 300], 1), (.hufEncSym false 288, [], 0), (.hufEncSym true 32, [], 0),
      (.pngEncode 0, [], 0), (.pngEncode 5, [], 0), (.pngEncode 4, [0, 1, 0], 1), (.pngEncode 1, [0, 0x80000000, 1], 2),
      (.pngEncode 4, [0, 2, 2, 7], 3), (.pngEncode 1, [0, 0x7FFFFFFF, 1], 4), (.pngEncode 4, [0xFFFFFFFA, 1, 2], 5),
      (.adler32, [0xFFFFFFFF, 2], 0), (.crc32, [0xFFFFFFFF, 2], 0)] : List (Instr × List Nat × Nat)).all
      (fun x => failsAt (at_ .reset x.2.1) x.1 x.2.2) = true := by decide +kernel
theorem witness_OperandsOutOfRangeFail_units : ([
    ((source [1, 2]), [0x1001, 1], .bsRead, 2), ((reader [1]), [], .brGet 17, 1), ((reader [1]), [], .infBlock, 1),
      ({ source [] with inf := output 1 }, [2, 1], .infCopy, 1),
      ({ source [] with inf := output 1 }, [258, 0x8001], .infCopy, 2),
      ((source [1]), [0, 0x80000000], .infStream false true, 1), ((source [1]), [0xFFFFFFFF, 2], .infStream true false, 1),
      ((source [1]), [4095, 2], .infStream true false, 2),
      ({ reader [1] with inf := ⟨true, 4096, 0, 1, false⟩ }, [], .infBlock, 2)] : List (Eng × List Nat × Instr × Nat)).all
      (fun x => failsAt (at_ x.1 x.2.1) x.2.2.1 x.2.2.2) = true := by decide +kernel
theorem witness_OperandsOutOfRangeFail : ∃ s : State, ∃ i passed c later, s.Ready [] ∧ entryChecks s i = passed ++ c :: later ∧
    (∀ d ∈ passed, d.ok = true) ∧ c.ok = false ∧ c.info < 0x100000000 :=
  ⟨at_ (reader [1]) [], .brGet 17, [⟨true, 0x0603, 0⟩], ⟨false, 0x0602, 17⟩, [], rest _ _ _, by decide +kernel, by decide, rfl, by decide⟩
theorem witness_NopCompletes : ∃ s : State, s.Ready [] := ⟨at_ .reset [], rest _ _ _⟩
theorem witness_NopCompletes_illegal : ∃ s : State, s.Ready [] ∧ s.engineRuns = true ∧ s.cmd.toNat % 256 = 0 ∧ s.cmd ≠ 0 :=
  ⟨{ at_ .reset [] with cmd := 0x00001000#32 }, ⟨rfl, rfl, rfl, rfl, rfl, rfl, rfl⟩, by decide, by decide, by decide⟩
theorem witness_BsOpenCompletes_mem : ∃ s : State, s.Ready [] ∧ s.arg 0 + s.arg 1 ≤ 0x100000000 :=
  ⟨at_ .reset [0xFFFFFFFF, 1], rest _ _ _, by decide +kernel⟩
theorem witness_BsOpenCompletes_stream : ∃ s : State, s.Ready [] ∧ s.arg 0 + 128 ≤ 0x100000000 :=
  ⟨at_ .reset [0xFFFFFF80], rest _ _ _, by decide +kernel⟩
theorem witness_BsReadCompletes_mem : ∃ s : State, s.Ready [] ∧ s.start.bs.mode = .mem ∧ SourceOk s.start.bs ∧
    s.arg 0 + s.arg 1 ≤ 0x100000000 ∧ overlap (s.arg 0) (s.arg 1) s.start.bs.base s.start.bs.len = false :=
  ⟨at_ (source [1, 2, 3]) [4099, 5], rest _ _ _, rfl, sourceOk 3 (by decide), by decide +kernel, by decide +kernel⟩

/-- A STREAM-mode source that holds the bytes `q`. -/
def stream (q : List Byte) (eof : Bool) : Eng := { Eng.reset with bs := ⟨.stream, 0, 0, 0, q, eof, 0x8000⟩ }

theorem witness_BsReadCompletes_stream : ∃ s : State, s.Ready [] ∧ s.start.bs.mode = .stream ∧ s.arg 1 ≤ s.start.bs.q.length ∧
    s.arg 0 + s.arg 1 ≤ 0x100000000 ∧ overlap (s.arg 0) (s.arg 1) s.start.bs.bufaddr 128 = false :=
  ⟨at_ (stream [1, 2, 3] false) [0x8080, 3], rest _ _ _, rfl, by decide +kernel, by decide +kernel, by decide +kernel⟩
theorem witness_BsReadCompletes_overlap : ∃ s : State, s.Ready [] ∧ s.arg 0 + s.arg 1 ≤ 0x100000000 ∧ s.start.bs.mode = .mem ∧
    overlap (s.arg 0) (s.arg 1) s.start.bs.base s.start.bs.len = true :=
  ⟨at_ (source [1, 2, 3]) [4098, 1], rest _ _ _, by decide +kernel, rfl, by decide +kernel⟩
theorem witness_BsReadCompletes_streamOverlap : ∃ s : State, s.Ready [] ∧ s.arg 0 + s.arg 1 ≤ 0x100000000 ∧
    s.start.bs.mode = .stream ∧ overlap (s.arg 0) (s.arg 1) s.start.bs.bufaddr 128 = true :=
  ⟨at_ (stream [] false) [0x807F, 1], rest _ _ _, by decide +kernel, rfl, by decide +kernel⟩
theorem witness_BsPeekSkipEofComplete_left : ∃ s : State, s.Ready [] ∧ s.start.bs.mode = .mem ∧ SourceOk s.start.bs ∧
    s.start.bs.pos < s.start.bs.len := ⟨at_ (source [1]) [], rest _ _ _, rfl, sourceOk 1 (by decide), by decide⟩
theorem witness_BsPeekSkipEofComplete_end : ∃ s : State, s.Ready [] ∧ s.start.bs.mode = .mem ∧ SourceOk s.start.bs ∧
    s.start.bs.pos = s.start.bs.len := ⟨at_ (source []) [], rest _ _ _, rfl, sourceOk 0 (by decide), rfl⟩
theorem witness_UnitsNotReadyFail_source : ∃ s : State, s.Ready [] ∧ s.start.bs.mode = .closed ∧ s.arg 0 + s.arg 1 ≤ 0x100000000 :=
  ⟨at_ .reset [0xFFFFFFFF, 1], rest _ _ _, rfl, by decide +kernel⟩
theorem witness_UnitsNotReadyFail_reader : ∃ s : State, s.Ready [] ∧ s.start.br.valid = false := ⟨at_ (source [1]) [], rest _ _ _, rfl⟩
theorem witness_UnitsNotReadyFail_output : ∃ s : State, s.Ready [] ∧ s.start.inf.isOpen = false ∧ s.start.br.valid = true :=
  ⟨at_ (reader [1]) [], rest _ _ _, rfl, rfl⟩
theorem witness_StreamRefill_asks : ∃ s : State, s.start.bs.mode = .stream ∧ s.start.bs.q = [] ∧ s.start.bs.eof = false ∧
    s.start.bs.bufaddr + 128 ≤ 0x100000000 ∧ s.Ready [] :=
  ⟨at_ (stream [] false) [], rfl, rfl, rfl, by decide, rest _ _ _⟩
theorem witness_StreamRefill_takes : ∃ s : State, ∃ b bs, s.start.bs.mode = .stream ∧ s.start.bs.q = [] ∧ s.start.bs.eof = false ∧
    s.start.bs.bufaddr + 128 ≤ 0x100000000 ∧ List.length bs < 128 ∧
    s.Ready [.place s.start.bs.bufaddr (b :: bs), .srcResp (BitVec.ofNat 32 (bs.length + 1))] :=
  ⟨at_ (stream [] false) [] [.place 0x8000 (7 :: List.replicate 127 0), .srcResp 128], 7, List.replicate 127 0, rfl, rfl, rfl,
    by decide, by rw [List.length_replicate]; decide, rest _ _ _⟩
theorem witness_StreamRefill_ends : ∃ s : State, s.start.bs.mode = .stream ∧ s.start.bs.q = [] ∧ s.start.bs.eof = false ∧
    s.start.bs.bufaddr + 128 ≤ 0x100000000 ∧ s.Ready [.srcResp 0] :=
  ⟨at_ (stream [] false) [] [.srcResp 0], rfl, rfl, rfl, by decide, rest _ _ _⟩
theorem witness_StreamSkipAndEof_held : ∃ s : State, s.start.bs.mode = .stream ∧ s.Ready [] ∧ s.arg 1 ≤ s.start.bs.q.length ∧
    s.start.bs.q ≠ [] := ⟨at_ (stream [1, 2] false) [0, 2], rfl, rest _ _ _, by decide +kernel, by decide⟩
theorem witness_StreamSkipAndEof_skips : ∃ s : State, ∃ v, s.start.bs.mode = .stream ∧ s.start.bs.q.length < s.arg 1 ∧
    s.start.bs.eof = false ∧ s.Ready [.srcResp v] :=
  ⟨at_ (stream [1, 2] false) [0, 3] [.srcResp 9], 9, rfl, by decide +kernel, rfl, rest _ _ _⟩
theorem witness_StreamSkipAndEof_skipWaits : ∃ s : State, s.start.bs.mode = .stream ∧ s.start.bs.q.length < s.arg 1 ∧
    s.start.bs.eof = false ∧ s.Ready [] := ⟨at_ (stream [1, 2] false) [0, 3], rfl, by decide +kernel, rfl, rest _ _ _⟩
theorem witness_StreamSkipAndEof_seen : ∃ s : State, s.start.bs.mode = .stream ∧ s.Ready [] ∧ s.start.bs.q = [] ∧
    s.start.bs.eof = true := ⟨at_ (stream [] true) [], rfl, rest _ _ _, rfl, rfl⟩
theorem witness_StreamSkipAndEof_asks : ∃ s : State, s.start.bs.mode = .stream ∧ s.start.bs.q = [] ∧ s.start.bs.eof = false ∧
    s.Ready [] := ⟨at_ (stream [] false) [], rfl, rfl, rfl, rest _ _ _⟩
theorem witness_StreamSkipAndEof_answered : ∃ s : State, ∃ v, s.start.bs.mode = .stream ∧ s.start.bs.q = [] ∧ s.start.bs.eof = false ∧
    s.Ready [.srcResp v] := ⟨at_ (stream [] false) [] [.srcResp 1], 1, rfl, rfl, rfl, rest _ _ _⟩
theorem witness_BrInitAndBrAlignComplete_init : ∃ s : State, s.Ready [] ∧ s.start.bs.mode ≠ .closed :=
  ⟨at_ (source []) [], rest _ _ _, by decide⟩
theorem witness_BrInitAndBrAlignComplete_align : ∃ s : State, s.Ready [] ∧ s.start.br.valid = true ∧ ReaderOk s.start.br :=
  ⟨at_ (reader []) [], rest _ _ _, rfl, readerOk true⟩
theorem witness_BrGetReadsTheStream : ∃ s : State, ∃ n, s.Ready [] ∧ n ≤ 16 ∧ s.start.br.valid = true ∧ ReaderOk s.start.br ∧
    SourceOk s.start.bs ∧ (s.start.br.input = .source → s.start.bs.mode = .mem) ∧ n ≤ s.start.bitsAhead.length :=
  ⟨at_ (reader [1, 2]) [], 16, rest _ _ _, by decide, rfl, readerOk true, sourceOk 2 (by decide), fun _ => rfl, by decide +kernel⟩
theorem witness_BrGetReadsTheStream_end : ∃ s : State, ∃ n, s.Ready [] ∧ n ≤ 16 ∧ s.start.br.valid = true ∧ ReaderOk s.start.br ∧
    SourceOk s.start.bs ∧ (s.start.br.input = .source → s.start.bs.mode = .mem) ∧ s.start.bitsAhead.length < n :=
  ⟨at_ (reader [1]) [], 9, rest _ _ _, by decide, rfl, readerOk true, sourceOk 1 (by decide), fun _ => rfl, by decide +kernel⟩
/-- A BitReader at rest over a STREAM-mode source that holds `q`. -/
def streamReader (q : List Byte) (eof : Bool) : Eng := { stream q eof with br := ⟨true, 0, 0, .source⟩ }

/-- What the statement on BR_GET over a STREAM-mode source asks of the state. -/
def StreamReader (s : State) (n : Nat) : Prop :=
  n ≤ 16 ∧ s.start.br.valid = true ∧ ReaderOk s.start.br ∧ SourceOk s.start.bs ∧ s.start.br.input = .source ∧ s.start.bs.mode = .stream

theorem streamReader_ok (q : List Byte) (eof : Bool) (log : List PortMove) (n : Nat) (hn : n ≤ 16) (hq : q.length ≤ 128) :
    StreamReader (at_ (streamReader q eof) [] log) n := by
  refine ⟨hn, rfl, readerOk true,
    { slice := fun h => (nomatch h), buffer := fun _ => ?_, held := hq }, rfl, rfl⟩
  show 0x8000 + 128 ≤ 4294967296
  decide

theorem witness_BrGetReadsTheStream_held : ∃ s : State, ∃ n, StreamReader s n ∧ s.Ready [] ∧
    s.start.br.refillCount n ≤ s.start.bs.q.length :=
  ⟨at_ (streamReader [1, 2, 3, 4] false) [], 16, streamReader_ok _ _ _ _ (by decide) (by decide), rest _ _ _, by decide +kernel⟩
theorem witness_BrGetReadsTheStream_waits : ∃ s : State, ∃ n, StreamReader s n ∧ s.Ready [] ∧ s.start.bs.eof = false ∧
    s.start.bs.q.length < s.start.br.refillCount n :=
  ⟨at_ (streamReader [1, 2, 3] false) [], 1, streamReader_ok _ _ _ _ (by decide) (by decide), rest _ _ _, rfl, by decide +kernel⟩
theorem witness_BrGetReadsTheStream_fed : ∃ s : State, ∃ n, ∃ c : List Byte, StreamReader s n ∧ s.start.bs.eof = false ∧
    s.start.bs.q.length < s.start.br.refillCount n ∧ c.length ≤ 128 ∧ c ≠ [] ∧
    s.start.br.refillCount n ≤ s.start.bs.q.length + c.length ∧
    s.Ready [.place s.start.bs.bufaddr c, .srcResp (BitVec.ofNat 32 c.length)] :=
  ⟨at_ (streamReader [1] false) [] [.place 0x8000 [2, 3, 4], .srcResp 3], 16, [2, 3, 4], streamReader_ok _ _ _ _ (by decide) (by decide),
    rfl, by decide +kernel, by decide, by decide, by decide +kernel, rest _ _ _⟩
theorem witness_BrGetReadsTheStream_ends : ∃ s : State, ∃ n answers, StreamReader s n ∧
    s.start.bs.q.length < s.start.br.refillCount n ∧ (s.start.bs.eof = false ∧ answers = [.srcResp 0]) ∧ s.Ready answers ∧
    n ≤ (s.start.br.bitsWith s.start.bs.q).length :=
  ⟨at_ (streamReader [1, 2] false) [] [.srcResp 0], 16, _, streamReader_ok _ _ _ _ (by decide) (by decide), by decide +kernel, ⟨rfl, rfl⟩,
    rest _ _ _, by decide +kernel⟩
theorem witness_BrGetReadsTheStream_past : ∃ s : State, ∃ n, StreamReader s n ∧ s.start.bs.q.length < s.start.br.refillCount n ∧
    s.start.bs.eof = true ∧ s.Ready [] ∧ (s.start.br.bitsWith s.start.bs.q).length < n :=
  ⟨at_ (streamReader [1] true) [], 9, streamReader_ok _ _ _ _ (by decide) (by decide), by decide +kernel, rfl, rest _ _ _, by decide +kernel⟩
theorem witness_HtBuildAndHtFixedComplete_count : ∃ s : State, ∃ slot, s.Ready [] ∧ slot < 3 ∧ 288 < s.arg 1 :=
  ⟨at_ .reset [0, 289], 2, rest _ _ _, by decide, by decide +kernel⟩
theorem witness_HtBuildAndHtFixedComplete_long : ∃ s : State, ∃ slot lens i, s.Ready [] ∧ slot < 3 ∧
    lens = (s.start.mem.read (s.arg 0) (s.arg 1)).map (·.toNat) ∧ s.arg 1 ≤ 288 ∧ s.arg 0 + s.arg 1 ≤ 0x100000000 ∧
    i < s.arg 1 ∧ 15 < lens.getD i 0 ∧ ∀ j, j < i → lens.getD j 0 ≤ 15 :=
  ⟨at_ (mem 0x100 [16]) [0x100, 1], 0, [16], 0, rest _ _ _, by decide, by decide +kernel, by decide +kernel, by decide +kernel,
    by decide +kernel, by decide, fun j h => absurd h (Nat.not_lt_zero j)⟩
theorem witness_HtBuildAndHtFixedComplete_built : ∃ s : State, ∃ slot lens h, s.Ready [] ∧ slot < 3 ∧
    lens = (s.start.mem.read (s.arg 0) (s.arg 1)).map (·.toNat) ∧ s.arg 1 ≤ 288 ∧ s.arg 0 + s.arg 1 ≤ 0x100000000 ∧
    (∀ l ∈ lens, l ≤ 15) ∧ buildSlot lens = .ok h :=
  ⟨at_ (mem 0x100 [2, 1, 3, 3]) [0x100, 4], 0, [2, 1, 3, 3], _, rest _ _ _, by decide, by decide +kernel, by decide +kernel,
    by decide +kernel, by decide, rfl⟩
theorem witness_HtBuildAndHtFixedComplete_rejected : ∃ s : State, ∃ slot lens x, s.Ready [] ∧ slot < 3 ∧
    lens = (s.start.mem.read (s.arg 0) (s.arg 1)).map (·.toNat) ∧ s.arg 1 ≤ 288 ∧ s.arg 0 + s.arg 1 ≤ 0x100000000 ∧
    (∀ l ∈ lens, l ≤ 15) ∧ buildSlot lens = .error x :=
  ⟨at_ (mem 0x100 [1, 1, 1]) [0x100, 3], 0, [1, 1, 1], (0x0305, 1), rest _ _ _, by decide, by decide +kernel, by decide +kernel,
    by decide +kernel, by decide, rfl⟩
theorem witness_CodeLengthsAcceptedOrRejected_sizes : 2 ^ 1 < [1, 1, 1].count 1 := by decide
theorem witness_CodeLengthsAcceptedOrRejected_codes :
    (∀ m, 1 ≤ m → m ≤ 15 → ¬ 2 ^ m < [1, 2, 2, 2].count m) ∧ [1, 2, 2, 2].count 2 ≠ 0 ∧
      2 ^ 2 < canonicalFirst [1, 2, 2, 2] 2 + [1, 2, 2, 2].count 2 := by
  refine ⟨fun m h1 h2 => ?_, by decide, by decide⟩
  interval_cases m <;> decide
theorem witness_CodeLengthsAcceptedOrRejected_accepted :
    ∀ m, 1 ≤ m → m ≤ 15 → ¬ 2 ^ m < [1, 2, 2].count m ∧ ¬([1, 2, 2].count m ≠ 0 ∧
      2 ^ m < canonicalFirst [1, 2, 2] m + [1, 2, 2].count m) := by
  intro m h1 h2
  interval_cases m <;> decide
theorem witness_HtDecodeReadsCanonicalCodes : ∃ s : State, ∃ slot lens h, s.Ready [] ∧ slot < 3 ∧ s.start.br.valid = true ∧
    ReaderOk s.start.br ∧ SourceOk s.start.bs ∧ (s.start.br.input = .source → s.start.bs.mode = .mem) ∧ lens.length ≤ 288 ∧
    (∀ l ∈ lens, l ≤ 15) ∧ buildSlot lens = .ok h ∧ s.start.slot slot = h ∧ 2 < lens.length ∧ lens.getD 2 0 ≠ 0 ∧
    s.start.bitsAhead.take (lens.getD 2 0) = emit (bitrev (canonicalCode lens 2) (lens.getD 2 0)) (lens.getD 2 0) :=
  ⟨at_ { reader [0x03] with ht0 := _ } [], 0, [2, 1, 3, 3], _, rest _ _ _, by decide, rfl, readerOk true, sourceOk 1 (by decide),
    fun _ => rfl, by decide, by decide, rfl, rfl, by decide, by decide, by decide +kernel⟩
theorem witness_HtDecodeReadsCanonicalCodes_none : ∃ s : State, ∃ slot lens h, s.Ready [] ∧ slot < 3 ∧ s.start.br.valid = true ∧
    ReaderOk s.start.br ∧ SourceOk s.start.bs ∧ (s.start.br.input = .source → s.start.bs.mode = .mem) ∧ lens.length ≤ 288 ∧
    (∀ l ∈ lens, l ≤ 15) ∧ buildSlot lens = .ok h ∧ s.start.slot slot = h ∧ 16 ≤ s.start.bitsAhead.length ∧
    ∀ i, i < lens.length → lens.getD i 0 ≠ 0 →
      s.start.bitsAhead.take (lens.getD i 0) ≠ emit (bitrev (canonicalCode lens i) (lens.getD i 0)) (lens.getD i 0) :=
  ⟨at_ { reader [0x01, 0x00] with ht0 := _ } [], 0, [1], _, rest _ _ _, by decide, rfl, readerOk true, sourceOk 2 (by decide),
    fun _ => rfl, by decide, by decide, rfl, rfl, by decide +kernel, by decide +kernel⟩
theorem witness_HtDecodeReadsCanonicalCodes_invalid : ∃ s : State, ∃ slot, s.Ready [] ∧ slot < 3 ∧ s.start.br.valid = true ∧
    (s.start.slot slot).valid = false := ⟨at_ (reader []) [], 2, rest _ _ _, by decide, rfl, rfl⟩
theorem witness_HtBuildAndHtFixedComplete_fixed : ∃ s : State, s.Ready [] := ⟨at_ .reset [], rest _ _ _⟩
theorem witness_InfOpenCompletes_fixed : ∃ s : State, s.Ready [] ∧ s.arg 0 + s.arg 1 ≤ 0x100000000 :=
  ⟨at_ .reset [0x2000, 64], rest _ _ _, by decide +kernel⟩
theorem witness_InfOpenCompletes_allocated : ∃ s : State, ∃ p, s.Ready [.allocResp p] ∧ max (s.arg 1) 1 ≤ 0x7fffffff ∧ p ≠ 0 ∧
    p.toNat + max (s.arg 1) 1 ≤ 0x100000000 :=
  ⟨at_ .reset [0, 0] [.allocResp 0x3000], 0x3000, rest _ _ _, by decide +kernel, by decide, by decide +kernel⟩
theorem witness_InfOpenCompletes_waits : ∃ s : State, s.Ready [] ∧ max (s.arg 1) 1 ≤ 0x7fffffff :=
  ⟨at_ .reset [0, 0x7fffffff], rest _ _ _, by decide +kernel⟩
theorem witness_InfOpenCompletes_refused : ∃ s : State, s.Ready [.allocResp 0] ∧ max (s.arg 1) 1 ≤ 0x7fffffff :=
  ⟨at_ .reset [0, 8] [.allocResp 0], rest _ _ _, by decide +kernel⟩
theorem witness_InfZhdrCompletes : ∃ s : State, s.Ready [] ∧ s.start.br.valid = true ∧ ReaderOk s.start.br ∧ SourceOk s.start.bs ∧
    (s.start.br.input = .source → s.start.bs.mode = .mem) ∧
    16 ≤ (s.start.bitsAhead.drop (s.start.br.nbits % 8)).length ∧
    (let v := s.start.bitsAhead.drop (s.start.br.nbits % 8)
     let cmf := bitsValue (v.take 8)
     let flg := bitsValue ((v.drop 8).take 8)
     (cmf * 256 + flg) % 31 = 0 ∧ flg.testBit 5 = false ∧ cmf % 16 = 8) :=
  ⟨at_ (reader [0x78, 0x9C]) [], rest _ _ _, rfl, readerOk true, sourceOk 2 (by decide), fun _ => rfl, by decide +kernel,
    by decide +kernel⟩
theorem witness_InfZhdrCompletes_bad : ∃ s : State, s.Ready [] ∧ s.start.br.valid = true ∧ ReaderOk s.start.br ∧
    SourceOk s.start.bs ∧ (s.start.br.input = .source → s.start.bs.mode = .mem) ∧
    16 ≤ (s.start.bitsAhead.drop (s.start.br.nbits % 8)).length ∧
    (let v := s.start.bitsAhead.drop (s.start.br.nbits % 8)
     (bitsValue (v.take 8) * 256 + bitsValue ((v.drop 8).take 8)) % 31 ≠ 0) :=
  ⟨at_ (reader [0x78, 0x9D]) [], rest _ _ _, rfl, readerOk true, sourceOk 2 (by decide), fun _ => rfl, by decide +kernel,
    by decide +kernel⟩
/-- I25 and its neighbours: the dictionary bit, then the method. -/
theorem witness_InfZhdrCompletes_dictionary : ∃ s : State, s.Ready [] ∧ s.start.br.valid = true ∧ ReaderOk s.start.br ∧
    SourceOk s.start.bs ∧ (s.start.br.input = .source → s.start.bs.mode = .mem) ∧
    16 ≤ (s.start.bitsAhead.drop (s.start.br.nbits % 8)).length ∧
    (let v := s.start.bitsAhead.drop (s.start.br.nbits % 8)
     let cmf := bitsValue (v.take 8)
     let flg := bitsValue ((v.drop 8).take 8)
     (cmf * 256 + flg) % 31 = 0 ∧ flg.testBit 5 = true) :=
  ⟨at_ (reader [0x78, 0xBB]) [], rest _ _ _, rfl, readerOk true, sourceOk 2 (by decide), fun _ => rfl, by decide +kernel,
    by decide +kernel⟩
theorem witness_InfZhdrCompletes_method : ∃ s : State, s.Ready [] ∧ s.start.br.valid = true ∧ ReaderOk s.start.br ∧
    SourceOk s.start.bs ∧ (s.start.br.input = .source → s.start.bs.mode = .mem) ∧
    16 ≤ (s.start.bitsAhead.drop (s.start.br.nbits % 8)).length ∧
    (let v := s.start.bitsAhead.drop (s.start.br.nbits % 8)
     let cmf := bitsValue (v.take 8)
     let flg := bitsValue ((v.drop 8).take 8)
     (cmf * 256 + flg) % 31 = 0 ∧ flg.testBit 5 = false ∧ cmf % 16 ≠ 8) :=
  ⟨at_ (reader [0x77, 0x09]) [], rest _ _ _, rfl, readerOk true, sourceOk 2 (by decide), fun _ => rfl, by decide +kernel,
    by decide +kernel⟩
/-- I27. -/
theorem witness_InfZhdrCompletes_short : ∃ s : State, s.Ready [] ∧ s.start.br.valid = true ∧ ReaderOk s.start.br ∧
    SourceOk s.start.bs ∧ (s.start.br.input = .source → s.start.bs.mode = .mem) ∧
    (s.start.bitsAhead.drop (s.start.br.nbits % 8)).length < 16 :=
  ⟨at_ (reader [0x78]) [], rest _ _ _, rfl, readerOk true, sourceOk 1 (by decide), fun _ => rfl, by decide +kernel⟩
/-- The bits of a block, padded to whole bytes, ahead of a BitReader, with the output `o`. -/
def inBits (o : InflateOut) (bits : List Bool) (log : List PortMove := []) : State := at_ { reader (packBits bits) with inf := o } [] log

/-- What the statements on INF_BLOCK ask of the BitReader and its input. -/
def BlockInput (s : State) : Prop :=
  s.start.br.valid = true ∧ ReaderOk s.start.br ∧ SourceOk s.start.bs ∧ (s.start.br.input = .source → s.start.bs.mode = .mem)

theorem inBits_input (o : InflateOut) (bits : List Bool) (log : List PortMove) (h : (packBits bits).length ≤ 65536) :
    BlockInput (inBits o bits log) := ⟨rfl, readerOk true, sourceOk _ h, fun _ => rfl⟩

/-- An output of `cap` bytes at 0x2000 with none written. -/
def empty (cap : Nat) (realloc : Bool) : InflateOut := ⟨true, 0x2000, 0, cap, realloc⟩

theorem emptyOk (cap : Nat) (realloc : Bool) (h : cap ≤ 65536) : OutputOk (empty cap realloc) where
  len := fun _ => Nat.zero_le _
  range := fun _ => by show 0x2000 + cap ≤ 4294967296; omega
  out := fun _ => by show 0x2000 < 2 ^ 32; decide
  cap := fun _ => by show cap < 2 ^ 32; omega

theorem inBits_open (cap : Nat) (realloc : Bool) (bits : List Bool) (ps : List Word) (h : cap ≤ 65536 := by decide)
    (ha : (inBits (empty cap realloc) bits (ps.map .allocResp)).start.inputMeets 0x2000 cap = false := by decide +kernel) :
    (inBits (empty cap realloc) bits (ps.map .allocResp)).OutputOpen ps := ⟨rest _ _ _, rfl, emptyOk cap realloc h, fun _ => ha⟩

/-- Room in an output that need not grow. -/
theorem inBits_room (cap : Nat) (bits : List Bool) (ns : List Nat)
    (h : (inBits (empty cap false) bits []).asks ns = []) (hc : cap ≤ 65536)
    (hs : (inBits (empty cap false) bits []).start.inputMeets 0x2000 cap = false) :
    (inBits (empty cap false) bits []).Room ns [] where
  opened := inBits_open cap false bits [] hc hs
  apart := hs
  answers := by rw [h]; rfl
  grows := fun x => absurd h x
  granted := fun x hx => by cases hx

/-- The bits of the bytes `bs`. -/
def bitsOf (bs : List Byte) : List Bool := bs.flatMap fun b => emit b.toNat 8

/-- A stored block of the bytes `bs` after its padding. -/
def storedBits (bs : List Byte) : List Bool := true :: false :: false :: (List.replicate 5 false ++ bitsOf bs)

/-- What the clauses on a stored block ask: the block's bits are those of `bs`. -/
def StoredBlock (s : State) (bs : List Byte) : Prop :=
  BlockInput s ∧ ∃ final : Bool, ∃ pad : List Bool, pad.length < 8 ∧
    s.start.bitsAhead = final :: false :: false :: (pad ++ bs.flatMap fun b => emit b.toNat 8)

theorem storedBlock (o : InflateOut) (bs : List Byte) (log : List PortMove) (h1 : (packBits (storedBits bs)).length ≤ 65536)
    (h2 : (inBits o (storedBits bs) log).start.bitsAhead = storedBits bs) : StoredBlock (inBits o (storedBits bs) log) bs :=
  ⟨inBits_input _ _ _ h1, true, List.replicate 5 false, by decide, h2⟩

theorem witness_InfBlockCopiesAStoredBlock : ∃ s : State, ∃ bs, StoredBlock s bs ∧ 4 ≤ bs.length ∧ le16 bs 2 = le16 bs 0 ^^^ 0xFFFF ∧
    s.Room [le16 bs 0] [] ∧ le16 bs 0 ≤ (bs.drop 4).length :=
  ⟨_, [3, 0, 0xFC, 0xFF, 0x41, 0x42, 0x43], storedBlock (empty 3 false) _ [] (by decide +kernel) (by decide +kernel), by decide, by decide,
    inBits_room 3 _ _ (by decide +kernel) (by decide) (by decide +kernel), by decide⟩
/-- Two bytes of room: the output is reallocated to four. -/
theorem witness_InfBlockCopiesAStoredBlock_grows : ∃ s : State, ∃ bs, StoredBlock s bs ∧ 4 ≤ bs.length ∧
    le16 bs 2 = le16 bs 0 ^^^ 0xFFFF ∧ s.Room [le16 bs 0] [0x3000] ∧ s.asks [le16 bs 0] = [4] ∧ le16 bs 0 ≤ (bs.drop 4).length :=
  ⟨_, [3, 0, 0xFC, 0xFF, 0x41, 0x42, 0x43], storedBlock (empty 2 true) _ [.allocResp 0x3000] (by decide +kernel) (by decide +kernel),
    by decide, by decide, ⟨inBits_open 2 true _ [0x3000], by decide +kernel, by decide +kernel, fun _ => ⟨rfl, by decide +kernel⟩, by decide +kernel⟩, by decide +kernel, by decide⟩
theorem witness_InfBlockCopiesAStoredBlock_mismatch : ∃ s : State, ∃ bs, StoredBlock s bs ∧ s.OutputOpen [] ∧ 4 ≤ bs.length ∧
    le16 bs 2 ≠ le16 bs 0 ^^^ 0xFFFF :=
  ⟨_, [3, 0, 0xFD, 0xFF], storedBlock (empty 3 false) _ [] (by decide +kernel) (by decide +kernel), inBits_open 3 false _ [], by decide,
    by decide⟩
theorem witness_InfBlockCopiesAStoredBlock_head : ∃ s : State, ∃ bs, StoredBlock s bs ∧ s.OutputOpen [] ∧ bs.length < 4 :=
  ⟨_, [3, 0, 0xFC], storedBlock (empty 3 false) _ [] (by decide +kernel) (by decide +kernel), inBits_open 3 false _ [], by decide⟩
theorem witness_InfBlockCopiesAStoredBlock_full : ∃ s : State, ∃ bs, StoredBlock s bs ∧ s.OutputOpen [] ∧ 4 ≤ bs.length ∧
    le16 bs 2 = le16 bs 0 ^^^ 0xFFFF ∧ s.start.inf.realloc = false ∧ s.start.inf.cap < s.start.inf.len + le16 bs 0 ∧
    s.start.inf.len + le16 bs 0 < 0x100000000 :=
  ⟨_, [3, 0, 0xFC, 0xFF], storedBlock (empty 2 false) _ [] (by decide +kernel) (by decide +kernel), inBits_open 2 false _ [], by decide,
    by decide, rfl, by decide, by decide⟩
theorem witness_InfBlockCopiesAStoredBlock_cut : ∃ s : State, ∃ bs, StoredBlock s bs ∧ 4 ≤ bs.length ∧
    le16 bs 2 = le16 bs 0 ^^^ 0xFFFF ∧ s.Room [le16 bs 0] [] ∧ (bs.drop 4).length < le16 bs 0 :=
  ⟨_, [3, 0, 0xFC, 0xFF, 0x41, 0x42], storedBlock (empty 3 false) _ [] (by decide +kernel) (by decide +kernel), by decide, by decide,
    inBits_room 3 _ _ (by decide +kernel) (by decide) (by decide +kernel), by decide⟩
theorem witness_InfBlockCopiesAStoredBlock_short : ∃ s : State, BlockInput s ∧ s.OutputOpen [] ∧ s.start.bitsAhead.length = 2 :=
  ⟨at_ { reader [] with br := ⟨true, 1, 2, .source⟩, inf := empty 3 false } [],
    ⟨rfl, ⟨by decide, by decide, fun _ a n h => by cases h⟩, sourceOk 0 (by decide), fun _ => rfl⟩,
    ⟨rest _ _ _, rfl, emptyOk 3 false (by decide), fun _ => by decide +kernel⟩, by decide +kernel⟩
theorem witness_InfBlockCopiesAStoredBlock_reserved : ∃ s : State, ∃ final rest, BlockInput s ∧ s.OutputOpen [] ∧
    s.start.bitsAhead = final :: true :: true :: rest :=
  ⟨inBits (empty 3 false) [true, true, true], true, List.replicate 5 false, inBits_input _ _ _ (by decide +kernel),
    inBits_open 3 false _ [], by decide +kernel⟩

/-- A fixed-Huffman block: its type, tokens and then `tail`. -/
def fixedBits (ts : List Token) (tail : List Bool) : List Bool := true :: true :: false :: (ts.flatMap Token.bits ++ tail)

/-- I11: "xy" and a copy of four bytes from two behind. -/
theorem witness_InfBlockExpandsFixedTokens : ∃ s : State, ∃ final ts rest, BlockInput s ∧ s.Room (ts.map Token.size) [] ∧
    TokensValid s.outputBefore ts ∧ s.start.bitsAhead = final :: true :: false :: (ts.flatMap Token.bits ++ emitSym 256 ++ rest) :=
  ⟨inBits (empty 6 false) (bitsOf [0xAB, 0xA8, 0x04, 0x41, 0x00]), true, [.lit 0x78, .lit 0x79, .copy 4 2],
    [false, false], inBits_input _ _ _ (by decide +kernel), inBits_room 6 _ _ (by decide +kernel) (by decide) (by decide +kernel),
    ⟨trivial, trivial, ⟨by decide, by decide, by decide, by decide, by decide +kernel⟩, trivial⟩, by decide +kernel⟩
/-- The same with one byte of room: two reallocations, to two and to eight bytes. -/
theorem witness_InfBlockExpandsFixedTokens_grows : ∃ s : State, ∃ final ts ps rest, BlockInput s ∧ s.Room (ts.map Token.size) ps ∧
    s.asks (ts.map Token.size) = [2, 8] ∧ TokensValid s.outputBefore ts ∧
    s.start.bitsAhead = final :: true :: false :: (ts.flatMap Token.bits ++ emitSym 256 ++ rest) :=
  ⟨inBits (empty 1 true) (bitsOf [0xAB, 0xA8, 0x04, 0x41, 0x00]) [.allocResp 0x3000, .allocResp 0x4000], true,
    [.lit 0x78, .lit 0x79, .copy 4 2], [0x3000, 0x4000], [false, false], inBits_input _ _ _ (by decide +kernel),
    ⟨inBits_open 1 true _ [0x3000, 0x4000], by decide +kernel, by decide +kernel, fun _ => ⟨rfl, by decide +kernel⟩, by decide +kernel⟩, by decide +kernel,
    ⟨trivial, trivial, ⟨by decide, by decide, by decide, by decide, by decide +kernel⟩, trivial⟩, by decide +kernel⟩

/-- A fixed block of one literal with one byte of room, and then the bits of a bad symbol. -/
def FixedBad (code info : Nat) : Prop :=
  ∃ s : State, ∃ final bits rest, BlockInput s ∧ s.Room ([Token.lit 0x61].map Token.size) [] ∧ TokensValid s.outputBefore [.lit 0x61] ∧
    BadSymbol (fun _ => True) (fun _ => True) emitSym (fun d => emit (bitrev d 5) 5) s.start.inf 1 bits code info ∧
    s.start.bitsAhead = final :: true :: false :: ([Token.lit 0x61].flatMap Token.bits ++ bits ++ rest)

theorem fixedBad (bits : List Bool) (code info : Nat)
    (h : BadSymbol (fun _ => True) (fun _ => True) emitSym (fun d => emit (bitrev d 5) 5) (empty 1 false) 1 bits code info)
    (h1 : (packBits (fixedBits [.lit 0x61] bits)).length ≤ 65536)
    (h2 : (inBits (empty 1 false) (fixedBits [.lit 0x61] bits)).asks [1] = [])
    (h3 : (inBits (empty 1 false) (fixedBits [.lit 0x61] bits)).start.inputMeets 0x2000 1 = false)
    (h4 : (inBits (empty 1 false) (fixedBits [.lit 0x61] bits)).start.bitsAhead.take (fixedBits [.lit 0x61] bits).length =
      fixedBits [.lit 0x61] bits) : FixedBad code info :=
  ⟨inBits (empty 1 false) (fixedBits [.lit 0x61] bits), true, bits, _, inBits_input _ _ _ h1, inBits_room 1 _ _ h2 (by decide) h3,
    ⟨trivial, trivial⟩, h, (List.take_append_drop _ _).symm.trans (congrArg (· ++ _) h4)⟩

theorem witness_InfBlockExpandsFixedTokens_length : FixedBad 0x0301 286 ∧ FixedBad 0x0301 287 :=
  ⟨fixedBad _ _ _ (.length 286 (.inl rfl) trivial) (by decide +kernel) (by decide +kernel) (by decide +kernel) (by decide +kernel),
    fixedBad _ _ _ (.length 287 (.inr rfl) trivial) (by decide +kernel) (by decide +kernel) (by decide +kernel) (by decide +kernel)⟩
theorem witness_InfBlockExpandsFixedTokens_distance : FixedBad 0x0301 30 ∧ FixedBad 0x0301 31 :=
  ⟨fixedBad _ _ _ (.distance 0 0 30 (by decide) trivial (by decide) (.inl rfl) trivial) (by decide +kernel) (by decide +kernel)
      (by decide +kernel) (by decide +kernel),
    fixedBad _ _ _ (.distance 0 0 31 (by decide) trivial (by decide) (.inr rfl) trivial) (by decide +kernel) (by decide +kernel)
      (by decide +kernel) (by decide +kernel)⟩
/-- A distance of 2 with one byte there. -/
theorem witness_InfBlockExpandsFixedTokens_far : FixedBad 0x0302 2 :=
  fixedBad _ _ _ (.far 0 0 1 0 (by decide) trivial (by decide) (by decide) trivial (by decide) (by decide)) (by decide +kernel)
    (by decide +kernel) (by decide +kernel) (by decide +kernel)
theorem witness_InfBlockExpandsFixedTokens_full : FixedBad 0x0403 2 ∧ FixedBad 0x0403 4 :=
  ⟨fixedBad _ _ _ (.litFull 0x62 trivial rfl (by decide) (by decide)) (by decide +kernel) (by decide +kernel) (by decide +kernel)
      (by decide +kernel),
    fixedBad _ _ _ (.copyFull 0 0 0 0 (by decide) trivial (by decide) (by decide) trivial (by decide) (by decide) rfl (by decide)
      (by decide)) (by decide +kernel) (by decide +kernel) (by decide +kernel) (by decide +kernel)⟩
/-- What the statement on dynamic blocks asks of the state, with the block's bits `bits`. -/
def DynamicBlock (s : State) (d : DynHeader) (bits : List Bool) : Prop :=
  s.OutputOpen [] ∧ BlockInput s ∧ d.FieldsOk ∧
    ∃ final rest, s.start.bitsAhead = final :: false :: true :: (bits ++ rest)

/-- A dynamic block in the bytes `bs`, the first three bits its type, with `n` bits after it. -/
def inBlock (bs : List Byte) : State := at_ { reader bs with inf := output 0 } []

/-- The header of I15: its code-length code gives length 1 to symbols 1 and 18. -/
def i15 : DynHeader :=
  ⟨257, 1, 18, (List.replicate 19 0).set 1 1 |>.set 18 1, [.manyZeros 97, .len 1, .manyZeros 138, .manyZeros 20, .len 1, .len 1]⟩

theorem fieldsOk_i15 : i15.FieldsOk := ⟨by decide, by decide, by decide, by decide, by decide⟩

theorem built (lens : List Nat) (h : (buildSlot lens).isOk = true) : ∃ t, buildSlot lens = .ok t := by
  cases hb : buildSlot lens with
  | ok t => exact ⟨t, rfl⟩
  | error x => rw [hb] at h; cases h

/-- The code lengths that I15's header gives are whole. -/
theorem itemsValid_i15 : LenItemsValid i15.cl [] i15.items := by
  refine ⟨⟨by decide, by decide⟩, (nomatch ·, ·), ⟨by decide, by decide⟩, (nomatch ·, ·), ⟨by decide, by decide⟩, (nomatch ·, ·),
    ⟨by decide, by decide⟩, (nomatch ·, ·), ⟨by decide, by decide⟩, (nomatch ·, ·), ⟨by decide, by decide⟩, (nomatch ·, ·), trivial⟩

/-- What the statement asks of a block with a sound header and symbols, before their end: its tables, the symbols and the room. -/
def DynamicSymbols (s : State) (d : DynHeader) (syms : List BlockSym) (ps : List Word) : Prop :=
  BlockInput s ∧ d.FieldsOk ∧ LenItemsValid d.cl [] d.items ∧ d.lens.length = d.hlit + d.hdist ∧
    (∃ h2, buildSlot d.cl = .ok h2) ∧ (∃ h0, buildSlot (d.lens.take d.hlit) = .ok h0) ∧
    (∃ h1, buildSlot (d.lens.drop d.hlit) = .ok h1) ∧ (∀ y ∈ syms, y.Coded (d.lens.take d.hlit) (d.lens.drop d.hlit)) ∧
    s.Room ((syms.map BlockSym.token).map Token.size) ps ∧ TokensValid s.outputBefore (syms.map BlockSym.token)

/-- The bits of such a block, with `tail` after its symbols. -/
def dynamicBits (d : DynHeader) (syms : List BlockSym) (tail : List Bool) : List Bool :=
  true :: false :: true :: (d.bits ++ syms.flatMap (BlockSym.bits (d.lens.take d.hlit) (d.lens.drop d.hlit)) ++ tail)

/-- I15: the symbols 'a' and 'a'. -/
theorem witness_InfBlockExpandsDynamicTokens : ∃ s : State, ∃ syms rest, DynamicSymbols s i15 syms [] ∧
    (i15.lens.take i15.hlit).getD 256 0 ≠ 0 ∧
    s.start.bitsAhead = dynamicBits i15 syms (codeBits (i15.lens.take i15.hlit) 256) ++ rest :=
  ⟨inBits (empty 2 false) (bitsOf [0x05, 0xC0, 0x81, 0x00, 0x00, 0x00, 0x00, 0x00, 0x90, 0x56, 0xFF, 0x13, 0x10]),
    [.lit 0x61, .lit 0x61], [false, false, false],
    ⟨inBits_input _ _ _ (by decide +kernel), fieldsOk_i15, itemsValid_i15, by decide +kernel, built _ (by decide +kernel),
      built _ (by decide +kernel), built _ (by decide +kernel), by
        intro y hy
        simp only [List.mem_cons, List.not_mem_nil, or_false, or_self] at hy
        subst hy
        show (i15.lens.take i15.hlit).getD 97 0 ≠ 0
        decide +kernel,
      inBits_room 2 _ _ (by decide +kernel) (by decide) (by decide +kernel), ⟨trivial, trivial, trivial⟩⟩,
    by decide +kernel, by decide +kernel⟩
/-- I15 with one byte of room. -/
theorem witness_InfBlockExpandsDynamicTokens_grows : ∃ s : State, ∃ syms ps rest, DynamicSymbols s i15 syms ps ∧
    s.asks ((syms.map BlockSym.token).map Token.size) = [2] ∧
    s.start.bitsAhead = dynamicBits i15 syms (codeBits (i15.lens.take i15.hlit) 256) ++ rest :=
  ⟨inBits (empty 1 true) (bitsOf [0x05, 0xC0, 0x81, 0x00, 0x00, 0x00, 0x00, 0x00, 0x90, 0x56, 0xFF, 0x13, 0x10]) [.allocResp 0x3000],
    [.lit 0x61, .lit 0x61], [0x3000], [false, false, false],
    ⟨inBits_input _ _ _ (by decide +kernel), fieldsOk_i15, itemsValid_i15, by decide +kernel, built _ (by decide +kernel),
      built _ (by decide +kernel), built _ (by decide +kernel), by
        intro y hy
        simp only [List.mem_cons, List.not_mem_nil, or_false, or_self] at hy
        subst hy
        show (i15.lens.take i15.hlit).getD 97 0 ≠ 0
        decide +kernel,
      ⟨inBits_open 1 true _ [0x3000], by decide +kernel, by decide +kernel, fun _ => ⟨rfl, by decide +kernel⟩, by decide +kernel⟩, ⟨trivial, trivial, trivial⟩⟩,
    by decide +kernel, by decide +kernel⟩

/-- A header that gives codes of two bits to the symbols 97, 256, 257 and 286 and to the distance symbols 0, 1 and 30. -/
def wide : DynHeader :=
  ⟨287, 31, 16, (List.replicate 19 0).set 18 1 |>.set 2 1,
    [.manyZeros 97, .len 2, .manyZeros 138, .manyZeros 20, .len 2, .len 2, .manyZeros 28, .len 2, .len 2, .len 2, .manyZeros 28, .len 2]⟩

theorem wide_lens : (wide.lens.length = 318 ∧ [97, 256, 257, 286, 287, 288, 317].all (fun i => wide.lens.getD i 0 == 2) = true) ∧
    (buildSlot wide.cl).isOk = true ∧ (buildSlot (wide.lens.take 287)).isOk = true ∧ (buildSlot (wide.lens.drop 287)).isOk = true := by
  decide +kernel

theorem itemsValid_wide : LenItemsValid wide.cl [] wide.items := by
  refine ⟨⟨by decide, by decide⟩, (nomatch ·, ·), ⟨by decide, by decide⟩, (nomatch ·, ·), ⟨by decide, by decide⟩, (nomatch ·, ·),
    ⟨by decide, by decide⟩, (nomatch ·, ·), ⟨by decide, by decide⟩, (nomatch ·, ·), ⟨by decide, by decide⟩, (nomatch ·, ·),
    ⟨by decide, by decide⟩, (nomatch ·, ·), ⟨by decide, by decide⟩, (nomatch ·, ·), ⟨by decide, by decide⟩, (nomatch ·, ·),
    ⟨by decide, by decide⟩, (nomatch ·, ·), ⟨by decide, by decide⟩, (nomatch ·, ·), ⟨by decide, by decide⟩, (nomatch ·, ·), trivial⟩

/-- The codes of `wide`. -/
def WideBad (inf : InflateOut) (bits : List Bool) (code info : Nat) : Prop :=
  BadSymbol (fun z => (wide.lens.take 287).getD z 0 ≠ 0) (fun z => (wide.lens.drop 287).getD z 0 ≠ 0) (codeBits (wide.lens.take 287))
    (codeBits (wide.lens.drop 287)) inf 1 bits code info

/-- A dynamic block of one literal with one byte of room, and then the bits of a bad symbol. -/
def DynamicBad (code info : Nat) : Prop :=
  ∃ s : State, ∃ bits rest, DynamicSymbols s wide [.lit 0x61] [] ∧ WideBad s.start.inf bits code info ∧
    s.start.bitsAhead = dynamicBits wide [.lit 0x61] bits ++ rest

theorem dynamicBad (bits : List Bool) (code info : Nat) (h : WideBad (empty 1 false) bits code info)
    (h1 : (packBits (dynamicBits wide [.lit 0x61] bits)).length ≤ 65536)
    (h2 : (inBits (empty 1 false) (dynamicBits wide [.lit 0x61] bits)).asks [1] = [])
    (h3 : (inBits (empty 1 false) (dynamicBits wide [.lit 0x61] bits)).start.inputMeets 0x2000 1 = false)
    (h4 : (inBits (empty 1 false) (dynamicBits wide [.lit 0x61] bits)).start.bitsAhead.take (dynamicBits wide [.lit 0x61] bits).length =
      dynamicBits wide [.lit 0x61] bits) : DynamicBad code info :=
  ⟨inBits (empty 1 false) (dynamicBits wide [.lit 0x61] bits), bits, _,
    ⟨inBits_input _ _ _ h1, ⟨by decide, by decide, by decide, by decide, by decide⟩, itemsValid_wide, by decide +kernel,
      built _ wide_lens.2.1, built _ wide_lens.2.2.1, built _ wide_lens.2.2.2, by
        intro y hy
        simp only [List.mem_cons, List.not_mem_nil, or_false] at hy
        subst hy
        show (wide.lens.take wide.hlit).getD 97 0 ≠ 0
        decide +kernel,
      inBits_room 1 _ _ h2 (by decide) h3, ⟨trivial, trivial⟩⟩, h, (List.take_append_drop _ _).symm.trans (congrArg (· ++ _) h4)⟩

theorem witness_InfBlockExpandsDynamicTokens_length : DynamicBad 0x0301 286 :=
  dynamicBad _ _ _ (.length 286 (.inl rfl) (by decide +kernel)) (by decide +kernel) (by decide +kernel) (by decide +kernel)
    (by decide +kernel)
theorem witness_InfBlockExpandsDynamicTokens_distance : DynamicBad 0x0301 30 :=
  dynamicBad _ _ _ (.distance 0 0 30 (by decide) (by decide +kernel) (by decide) (.inl rfl) (by decide +kernel)) (by decide +kernel)
    (by decide +kernel) (by decide +kernel) (by decide +kernel)
/-- A distance of 2 with one byte there. -/
theorem witness_InfBlockExpandsDynamicTokens_far : DynamicBad 0x0302 2 :=
  dynamicBad _ _ _ (.far 0 0 1 0 (by decide) (by decide +kernel) (by decide) (by decide) (by decide +kernel) (by decide) (by decide))
    (by decide +kernel) (by decide +kernel) (by decide +kernel) (by decide +kernel)
theorem witness_InfBlockExpandsDynamicTokens_full : DynamicBad 0x0403 2 ∧ DynamicBad 0x0403 4 :=
  ⟨dynamicBad _ _ _ (.litFull 0x61 (by decide +kernel) rfl (by decide) (by decide)) (by decide +kernel) (by decide +kernel)
      (by decide +kernel) (by decide +kernel),
    dynamicBad _ _ _ (.copyFull 0 0 0 0 (by decide) (by decide +kernel) (by decide) (by decide) (by decide +kernel) (by decide) (by decide)
      rfl (by decide) (by decide)) (by decide +kernel) (by decide +kernel) (by decide +kernel) (by decide +kernel)⟩

/-- The header of I16 and I17 but for its items: four code-length code lengths. -/
def short (sym : Nat) (items : List LenItem) : DynHeader :=
  ⟨257, 1, 4, (List.replicate 19 0).set 0 (if sym = 16 then 1 else 0) |>.set sym 1, items⟩

/-- I16: a repeat code first. -/
theorem witness_InfBlockExpandsDynamicTokens_repeat : ∃ s : State, ∃ h2 : Huff, ∃ x : LenItem,
    DynamicBlock s (short 16 []) ((short 16 []).bits ++ x.bits (short 16 []).cl) ∧ buildSlot (short 16 []).cl = .ok h2 ∧
      LenItemsValid (short 16 []).cl [] (short 16 []).items ∧ (short 16 []).lens.length < 257 + 1 ∧ x.Coded (short 16 []).cl ∧
      (short 16 []).lens = [] ∧ x.symbol = 16 :=
  ⟨inBlock [0x05, 0x00, 0x02, 0x24], _, .again 3,
    ⟨⟨rest _ _ _, rfl, outputOk 0 (by decide), fun _ => by decide +kernel⟩, ⟨rfl, readerOk true, sourceOk 4 (by decide), fun _ => rfl⟩,
      ⟨by decide, by decide, by decide, by decide, by decide⟩, true, [], by decide +kernel⟩,
    rfl, trivial, by decide, ⟨by decide, by decide⟩, rfl, rfl⟩
/-- I17: two runs of 138 zeros. -/
theorem witness_InfBlockExpandsDynamicTokens_past : ∃ s : State, ∃ d : DynHeader, ∃ h2 : Huff, ∃ x : LenItem,
    DynamicBlock s d (d.bits ++ x.bits d.cl) ∧ buildSlot d.cl = .ok h2 ∧ LenItemsValid d.cl [] d.items ∧
      d.lens.length < d.hlit + d.hdist ∧ x.Coded d.cl ∧ d.hlit + d.hdist < (x.apply d.lens).length :=
  ⟨inBlock [0x05, 0x00, 0x80, 0xE4, 0xFF, 0x1F],
    ⟨257, 1, 4, (List.replicate 19 0).set 0 1 |>.set 18 1, [.manyZeros 138]⟩, _, .manyZeros 138,
    ⟨⟨rest _ _ _, rfl, outputOk 0 (by decide), fun _ => by decide +kernel⟩, ⟨rfl, readerOk true, sourceOk 6 (by decide), fun _ => rfl⟩,
      ⟨by decide, by decide, by decide, by decide, by decide⟩, true, [false, false, false], by decide +kernel⟩,
    rfl, ⟨⟨by decide, by decide⟩, (nomatch ·, ·), trivial⟩, by decide +kernel, ⟨by decide, by decide⟩, by decide +kernel⟩
/-- Three code-length codes of length 1. -/
theorem witness_InfBlockExpandsDynamicTokens_codeLengths : ∃ s : State, ∃ d : DynHeader, ∃ x,
    DynamicBlock s d d.fieldBits ∧ buildSlot d.cl = .error x :=
  ⟨inBlock [0x05, 0x00, 0x92, 0x00], ⟨257, 1, 4, (List.replicate 19 0).set 16 1 |>.set 17 1 |>.set 18 1, []⟩, (0x0305, 1),
    ⟨⟨rest _ _ _, rfl, outputOk 0 (by decide), fun _ => by decide +kernel⟩, ⟨rfl, readerOk true, sourceOk 4 (by decide), fun _ => rfl⟩,
      ⟨by decide, by decide, by decide, by decide, by decide⟩, true, [false, false, false], by decide +kernel⟩, rfl⟩
/-- A header whose codes are for the lengths 1 and 18 zeros and more. -/
def ones (hdist : Nat) (items : List LenItem) : DynHeader :=
  ⟨257, hdist, 18, (List.replicate 19 0).set 1 1 |>.set 18 1, items⟩

/-- A dynamic block with this header, and what the clauses on its tables ask. -/
def DynamicTables (s : State) (d : DynHeader) : Prop :=
  DynamicBlock s d d.bits ∧ (∃ h2, buildSlot d.cl = .ok h2) ∧ LenItemsValid d.cl [] d.items ∧ d.lens.length = d.hlit + d.hdist

/-- The bits of a block with this header. -/
def onesBlock (d : DynHeader) : State := inBits (output 0) (true :: false :: true :: d.bits)

/-- Three codes of length 1 for the first symbols. -/
theorem witness_InfBlockExpandsDynamicTokens_literals : ∃ s : State, ∃ d x, DynamicTables s d ∧
    buildSlot (d.lens.take d.hlit) = .error x :=
  ⟨onesBlock (ones 1 [.len 1, .len 1, .len 1, .manyZeros 138, .manyZeros 116, .len 1]),
    ones 1 [.len 1, .len 1, .len 1, .manyZeros 138, .manyZeros 116, .len 1], (0x0305, 1),
    ⟨⟨⟨rest _ _ _, rfl, outputOk 0 (by decide), fun _ => by decide +kernel⟩, ⟨rfl, readerOk true, sourceOk _ (by decide +kernel), fun _ => rfl⟩,
        ⟨by decide, by decide, by decide, by decide, by decide⟩, true, List.replicate 5 false, by decide +kernel⟩,
      built _ (by decide +kernel), by
        refine ⟨⟨by decide, by decide⟩, (nomatch ·, ·), ⟨by decide, by decide⟩, (nomatch ·, ·), ⟨by decide, by decide⟩, (nomatch ·, ·),
          ⟨by decide, by decide⟩, (nomatch ·, ·), ⟨by decide, by decide⟩, (nomatch ·, ·), ⟨by decide, by decide⟩, (nomatch ·, ·), trivial⟩,
      by decide +kernel⟩, by decide +kernel⟩
/-- A code for symbol 256, and three codes of length 1 for distances. -/
theorem witness_InfBlockExpandsDynamicTokens_distances : ∃ s : State, ∃ d x, DynamicTables s d ∧
    (∃ h0, buildSlot (d.lens.take d.hlit) = .ok h0) ∧ buildSlot (d.lens.drop d.hlit) = .error x :=
  ⟨onesBlock (ones 3 [.manyZeros 138, .manyZeros 118, .len 1, .len 1, .len 1, .len 1]),
    ones 3 [.manyZeros 138, .manyZeros 118, .len 1, .len 1, .len 1, .len 1], (0x0305, 1),
    ⟨⟨⟨rest _ _ _, rfl, outputOk 0 (by decide), fun _ => by decide +kernel⟩, ⟨rfl, readerOk true, sourceOk _ (by decide +kernel), fun _ => rfl⟩,
        ⟨by decide, by decide, by decide, by decide, by decide⟩, true, List.replicate 5 false, by decide +kernel⟩,
      built _ (by decide +kernel), by
        refine ⟨⟨by decide, by decide⟩, (nomatch ·, ·), ⟨by decide, by decide⟩, (nomatch ·, ·), ⟨by decide, by decide⟩, (nomatch ·, ·),
          ⟨by decide, by decide⟩, (nomatch ·, ·), ⟨by decide, by decide⟩, (nomatch ·, ·), ⟨by decide, by decide⟩, (nomatch ·, ·), trivial⟩,
      by decide +kernel⟩, built _ (by decide +kernel), by decide +kernel⟩
theorem witness_InfCopyCompletes_room : ∃ s : State, s.Ready [] ∧ s.start.inf.isOpen = true ∧ OutputOk s.start.inf ∧ 3 ≤ s.arg 0 ∧
    s.arg 0 ≤ 258 ∧ 1 ≤ s.arg 1 ∧ s.arg 1 ≤ 32768 ∧ s.arg 1 ≤ s.start.inf.len ∧
    s.start.inf.len + s.arg 0 ≤ s.start.inf.cap :=
  ⟨at_ { mem 0x2000 [0x61] with inf := output 1 } [15, 1], rest _ _ _, rfl, outputOk 1 (by decide), by decide +kernel,
    by decide +kernel, by decide +kernel, by decide +kernel, by decide +kernel, by decide +kernel⟩
theorem witness_InfCopyCompletes_far : ∃ s : State, s.Ready [] ∧ s.start.inf.isOpen = true ∧ OutputOk s.start.inf ∧ 3 ≤ s.arg 0 ∧
    s.arg 0 ≤ 258 ∧ 1 ≤ s.arg 1 ∧ s.arg 1 ≤ 32768 ∧ s.start.inf.len < s.arg 1 :=
  ⟨at_ { mem 0x2000 [0x61] with inf := output 1 } [258, 2], rest _ _ _, rfl, outputOk 1 (by decide), by decide +kernel,
    by decide +kernel, by decide +kernel, by decide +kernel, by decide +kernel⟩
theorem witness_InfCopyCompletes_full : ∃ s : State, s.Ready [] ∧ s.start.inf.isOpen = true ∧ OutputOk s.start.inf ∧ 3 ≤ s.arg 0 ∧
    s.arg 0 ≤ 258 ∧ 1 ≤ s.arg 1 ∧ s.arg 1 ≤ 32768 ∧ s.arg 1 ≤ s.start.inf.len ∧ s.start.inf.cap < s.start.inf.len + s.arg 0 ∧
    s.start.inf.len + s.arg 0 < 0x100000000 ∧ s.start.inf.realloc = false :=
  ⟨at_ { mem 0x2000 [0x61] with inf := output 1 } [16, 1], rest _ _ _, rfl, outputOk 1 (by decide), by decide +kernel,
    by decide +kernel, by decide +kernel, by decide +kernel, by decide +kernel, by decide +kernel, by decide +kernel, rfl⟩
theorem witness_InfCopyCompletes_grows : ∃ s : State, ∃ k p, s.Ready [.allocResp p] ∧ s.start.inf.isOpen = true ∧
    OutputOk s.start.inf ∧ 3 ≤ s.arg 0 ∧ s.arg 0 ≤ 258 ∧ 1 ≤ s.arg 1 ∧ s.arg 1 ≤ 32768 ∧ s.arg 1 ≤ s.start.inf.len ∧
    s.start.inf.cap < s.start.inf.len + s.arg 0 ∧ s.start.inf.len + s.arg 0 ≤ 0x7fffffff ∧ s.start.inf.realloc = true ∧
    s.start.inf.len + s.arg 0 ≤ min (s.start.inf.cap * 2 ^ k) 0x7fffffff ∧
    (∀ j, j < k → min (s.start.inf.cap * 2 ^ j) 0x7fffffff < s.start.inf.len + s.arg 0) ∧ p ≠ 0 ∧
    p.toNat + min (s.start.inf.cap * 2 ^ k) 0x7fffffff ≤ 0x100000000 :=
  ⟨at_ { mem 0x2000 [0x61] with inf := { output 1 with realloc := true } } [32, 1] [.allocResp 0x3000], 2, 0x3000, rest _ _ _, rfl,
    ⟨fun _ => by decide, fun _ => by decide, fun _ => by decide, fun _ => by decide⟩, by decide +kernel, by decide +kernel,
    by decide +kernel, by decide +kernel, by decide +kernel, by decide +kernel, by decide +kernel, rfl, by decide +kernel,
    by decide +kernel, by decide, by decide +kernel⟩
theorem witness_InfStreamInvertsCompress_fixed : ∃ s : State, ∃ d q rest out cap, s.Ready [] ∧ out = s.arg 0 ∧ cap = s.arg 1 ∧
    s.start.bs.mode = .mem ∧ SourceOk s.start.bs ∧
    s.start.mem.read (s.start.bs.base + s.start.bs.pos) (s.start.bs.len - s.start.bs.pos) = compress d q ++ rest ∧
    List.length d ≤ cap ∧ out + cap ≤ 0x100000000 ∧ overlap out cap s.start.bs.base s.start.bs.len = false :=
  ⟨at_ (source [0x78, 0x5E, 0x4B, 0x04, 0x00, 0x00, 0x62, 0x00, 0x62, 0x55]) [0x2000, 1], [0x61], 8, [0x55], 0x2000, 1, rest _ _ _,
    by decide +kernel, by decide +kernel, rfl, sourceOk 10 (by decide), by decide +kernel, by decide, by decide,
    by decide +kernel⟩
theorem witness_InfStreamInvertsCompress_raw : ∃ s : State, ∃ d q rest p out cap, s.Ready [.allocResp p] ∧ p ≠ 0 ∧ out = p.toNat ∧
    cap = max (s.arg 1) 1 ∧ cap ≤ 0x7fffffff ∧ s.start.bs.mode = .mem ∧ SourceOk s.start.bs ∧
    s.start.mem.read (s.start.bs.base + s.start.bs.pos) (s.start.bs.len - s.start.bs.pos) = (compress d q).drop 2 ++ rest ∧
    List.length d ≤ cap ∧ out + cap ≤ 0x100000000 ∧ overlap out cap s.start.bs.base s.start.bs.len = false :=
  ⟨at_ (source [0x4B, 0x04, 0x00, 0x00, 0x62, 0x00, 0x62]) [0, 0] [.allocResp 0x3000], [0x61], 8, [], 0x3000, 0x3000, 1,
    rest _ _ _, by decide, by decide, by decide +kernel, by decide, rfl, sourceOk 7 (by decide), by decide +kernel, by decide,
    by decide, by decide +kernel⟩
/-- What the clause on a trailer asks: VERIFY_ADLER is set, and `trailer` stands where the Adler-32 of `d` belongs. -/
def TrailerOf (s : State) (d : List Byte) (q : Nat) (trailer : List Byte) : Prop :=
  s.running.snap.verifyAdler = true ∧ s.start.bs.mode = .mem ∧ SourceOk s.start.bs ∧
    s.start.mem.read (s.start.bs.base + s.start.bs.pos) (s.start.bs.len - s.start.bs.pos) =
      (compress d q).take ((compress d q).length - 4) ++ trailer

/-- A command with CTRL.VERIFY_ADLER set over the bytes `bs`. -/
def verifyingAdler (bs : List Byte) (args : List Nat) (log : List PortMove) : State :=
  { State.reset with eng := source bs, run := some ⟨{ snap args with ctrl := 0x00000708#32 }, source bs, log⟩ }

theorem witness_InfStreamInvertsCompress_trailer : ∃ s : State, ∃ out cap trailer, TrailerOf s [0x61] 8 trailer ∧ s.Ready [] ∧
    out = s.arg 0 ∧ cap = s.arg 1 ∧ 1 ≤ cap ∧ out + cap ≤ 0x100000000 ∧ overlap out cap s.start.bs.base s.start.bs.len = false ∧
    4 ≤ trailer.length ∧ be32 trailer 0 ≠ (adler32 1 [0x61]).toNat :=
  ⟨verifyingAdler [0x78, 0x5E, 0x4B, 0x04, 0x00, 0x00, 0x62, 0x00, 0x63] [0x2000, 1] [], 0x2000, 1, [0x00, 0x62, 0x00, 0x63],
    ⟨by decide, rfl, sourceOk 9 (by decide), by decide +kernel⟩, ⟨rfl, rfl, rfl, rfl, rfl, rfl, rfl⟩, by decide +kernel, by decide +kernel,
    by decide, by decide, by decide +kernel, by decide, by decide +kernel⟩
theorem witness_InfStreamInvertsCompress_trailerCut : ∃ s : State, ∃ p f out cap trailer, TrailerOf s [0x61] 8 trailer ∧
    s.Ready [.allocResp p, .allocResp f] ∧ p ≠ 0 ∧ out = p.toNat ∧ cap = max (s.arg 1) 1 ∧ cap ≤ 0x7fffffff ∧ out + cap ≤ 0x100000000 ∧
    overlap out cap s.start.bs.base s.start.bs.len = false ∧ trailer.length < 4 :=
  ⟨verifyingAdler [0x78, 0x5E, 0x4B, 0x04, 0x00, 0x00, 0x62, 0x00] [0, 1] [.allocResp 0x3000, .allocResp 0], 0x3000, 0, 0x3000, 1,
    [0x00, 0x62, 0x00], ⟨by decide, rfl, sourceOk 8 (by decide), by decide +kernel⟩, ⟨rfl, rfl, rfl, rfl, rfl, rfl, rfl⟩, by decide,
    by decide, by decide +kernel, by decide, by decide, by decide +kernel, by decide⟩

/-- The file of W2. -/
def w2File : List Byte :=
  [0x89, 0x50, 0x4E, 0x47, 0x0D, 0x0A, 0x1A, 0x0A] ++
  [0x00, 0x00, 0x00, 0x0D, 0x49, 0x48, 0x44, 0x52, 0x00, 0x00, 0x00, 0x01, 0x00, 0x00, 0x00, 0x01] ++
  [0x08, 0x00, 0x00, 0x00, 0x00, 0x3A, 0x7E, 0x9B, 0x55, 0x00, 0x00, 0x00, 0x0A, 0x49, 0x44, 0x41, 0x54] ++
  [0x78, 0x5E, 0x63, 0x68, 0x00, 0x00, 0x00, 0x82, 0x00, 0x81, 0xE1, 0xFC, 0x59, 0x78] ++
  [0x00, 0x00, 0x00, 0x00, 0x49, 0x45, 0x4E, 0x44, 0xAE, 0x42, 0x60, 0x82]

/-- The writer's file of W2 is the one the spec prints. -/
theorem test_pngFile : pngFile 1 1 1 8 (filteredImage 7 1 [[0x80]] []) = w2File := by decide +kernel

theorem witness_PngDecodeInvertsPngEncode : ∃ s : State, ∃ p1 p2 f1 p3 f2,
    s.Ready [.allocResp p1, .allocResp p2, .allocResp f1, .allocResp p3, .allocResp f2] ∧ s.start.bs.mode = .mem ∧
    SourceOk s.start.bs ∧ s.start.mem.read (s.start.bs.base + s.start.bs.pos) (s.start.bs.len - s.start.bs.pos) =
      pngFile 1 1 1 8 (filteredImage 7 1 [[0x80]] []) ++ [] ∧
    p1 ≠ 0 ∧ p1.toNat + 4096 ≤ 0x100000000 ∧ overlap s.start.bs.base s.start.bs.len p1.toNat 4096 = false ∧
    p2 ≠ 0 ∧ p2.toNat + 2 ≤ 0x100000000 ∧ overlap s.start.bs.base s.start.bs.len p2.toNat 2 = false ∧
    overlap p1.toNat 4096 p2.toNat 2 = false ∧ p3 ≠ 0 ∧ p3.toNat + 1 ≤ 0x100000000 ∧
    overlap s.start.bs.base s.start.bs.len p3.toNat 1 = false ∧ overlap p2.toNat 2 p3.toNat 1 = false :=
  ⟨at_ (source w2File) [] [.allocResp 0x10000, .allocResp 0x20000, .allocResp 0, .allocResp 0x30000, .allocResp 0],
    0x10000, 0x20000, 0, 0x30000, 0, rest _ _ _, rfl, sourceOk 67 (by decide), by rw [test_pngFile]; decide +kernel, by decide,
    by decide, by decide +kernel, by decide, by decide, by decide +kernel, by decide +kernel, by decide, by decide,
    by decide +kernel, by decide +kernel⟩
/-- The further buffer of a conversion from one channel to four. -/
theorem witness_PngDecodeInvertsPngEncode_converts : ∃ s : State, ∃ p1 p2 f1 p3 f2 p4 f3,
    s.Ready [.allocResp p1, .allocResp p2, .allocResp f1, .allocResp p3, .allocResp f2, .allocResp p4, .allocResp f3] ∧
    (if 4 = 0 then 1 else 4) ≠ 1 ∧ s.start.bs.mode = .mem ∧ p4 ≠ 0 ∧ p4.toNat + 1 * 1 * 4 ≤ 0x100000000 ∧
    overlap s.start.bs.base s.start.bs.len p4.toNat (1 * 1 * 4) = false ∧
    overlap p3.toNat (1 * 1 * 1) p4.toNat (1 * 1 * 4) = false :=
  ⟨at_ (source w2File) [] [.allocResp 0x10000, .allocResp 0x20000, .allocResp 0, .allocResp 0x30000, .allocResp 0,
      .allocResp 0x40000, .allocResp 0],
    0x10000, 0x20000, 0, 0x30000, 0, 0x40000, 0, rest _ _ _, by decide, rfl, by decide, by decide, by decide +kernel,
    by decide +kernel⟩
theorem witness_PngHeaderChecked_signature : ∃ s : State, ∃ req, s.Ready [] ∧ s.start.bs.mode = .mem ∧ SourceOk s.start.bs ∧ req ≤ 4 ∧
    (s.start.mem.read (s.start.bs.base + s.start.bs.pos) (s.start.bs.len - s.start.bs.pos)).take 8 ≠
      [137, 80, 78, 71, 13, 10, 26, 10] :=
  ⟨at_ (source [137, 80, 78, 71, 13, 10, 26]) [], 4, rest _ _ _, rfl, sourceOk 7 (by decide), by decide, by decide +kernel⟩

/-- A file that begins with the signature and an IHDR of the data `d`. -/
def headed (d : List Byte) : List Byte := [137, 80, 78, 71, 13, 10, 26, 10] ++ [0, 0, 0, 13, 73, 72, 68, 82] ++ d ++ []

theorem witness_PngHeaderChecked_ihdr : ∃ s : State, ∃ d rest : List Byte, s.Ready [] ∧ s.start.bs.mode = .mem ∧ SourceOk s.start.bs ∧
    d.length = 13 ∧ s.start.mem.read (s.start.bs.base + s.start.bs.pos) (s.start.bs.len - s.start.bs.pos) =
      [137, 80, 78, 71, 13, 10, 26, 10] ++ [0, 0, 0, 13, 73, 72, 68, 82] ++ d ++ rest ∧ 16777216 < be32 d 0 :=
  ⟨at_ (source (headed [1, 0, 0, 1, 0, 0, 0, 1, 8, 0, 0, 0, 0])) [], [1, 0, 0, 1, 0, 0, 0, 1, 8, 0, 0, 0, 0], [], rest _ _ _, rfl,
    sourceOk 29 (by decide), by decide, by decide +kernel, by decide +kernel⟩
/-- The other fields: data bytes at the boundary of each clause, width and height at their limits. -/
theorem witness_PngHeaderChecked_fields :
    (be32 [1, 0, 0, 0, 1, 0, 0, 0, 3] 0 = 16777216 ∧ byteAt [1, 0, 0, 0, 1, 0, 0, 0, 3] 8 = 3) ∧ byteAt [0, 0, 0, 0, 0, 0, 0, 0, 8, 5] 9 = 5 ∧
      byteAt [0, 0, 0, 0, 0, 0, 0, 0, 8, 6, 1] 10 ≠ 0 ∧ byteAt [0, 0, 0, 0, 0, 0, 0, 0, 8, 6, 0, 1] 11 ≠ 0 ∧
      1 < byteAt [0, 0, 0, 0, 0, 0, 0, 0, 8, 6, 0, 0, 2] 12 ∧ be32 [0, 0, 0, 0, 0, 0, 0, 1, 8, 6, 0, 0, 1] 0 = 0 := by decide +kernel
/-- The last clause: the largest width and height. -/
theorem witness_PngHeaderChecked_area : ∃ d : List Byte, d.length = 13 ∧ be32 d 0 = 16777216 ∧ be32 d 4 = 16777216 ∧
    byteAt d 8 = 8 ∧ byteAt d 9 = 6 ∧ byteAt d 10 = 0 ∧ byteAt d 11 = 0 ∧ byteAt d 12 = 1 ∧
    0x7fffffff < be32 d 0 * be32 d 4 * 4 := ⟨[1, 0, 0, 0, 1, 0, 0, 0, 8, 6, 0, 0, 1], by decide +kernel⟩

/-- A chunk with its CRC. -/
def chunkOf (type : Nat) (data : List Byte) : Chunk := ⟨type, data, putBe32 (crc32 0 (putBe32 type ++ data)).toNat⟩

/-- The IHDR of a small image of this depth, colour type and interlacing. -/
def ihdrOf (w h depth ctype interlace : Nat) : Chunk :=
  chunkOf 0x49484452 (putBe32 w ++ putBe32 h ++ [byte depth, byte ctype, 0, 0, byte interlace])

/-- The head of an indexed image with two palette entries and an unknown ancillary chunk. -/
def indexedHead : PngHead :=
  ⟨ihdrOf 1 1 8 3 1, some (chunkOf 0x504C5445 [10, 20, 30, 40, 50, 60]), [chunkOf 0x67414D41 [1]]⟩

/-- The head of a grey image of two pixels, as in V8. -/
def greyHead : PngHead := ⟨ihdrOf 2 1 8 0 0, none, []⟩

theorem headerOk_indexed : HeaderOk indexedHead.ihdr.data :=
  ⟨by decide, by decide +kernel, by decide +kernel, by decide +kernel, by decide +kernel, by decide +kernel, by decide +kernel,
    by decide +kernel⟩

theorem headerOk_grey : HeaderOk greyHead.ihdr.data :=
  ⟨by decide, by decide +kernel, by decide +kernel, by decide +kernel, by decide +kernel, by decide +kernel, by decide +kernel,
    by decide +kernel⟩

theorem soundChunk (type : Nat) (data : List Byte) (h1 : type < 0x100000000) (h2 : data.length ≤ 0x7fffffff)
    (h3 : be32 (putBe32 (crc32 0 (putBe32 type ++ data)).toNat) 0 = (crc32 0 (putBe32 type ++ data)).toNat) :
    (chunkOf type data).Sound true := ⟨h1, h2, rfl, fun _ => h3⟩

theorem sound_indexed : indexedHead.Sound true where
  chunks := by
    intro c hc
    simp only [PngHead.chunks, indexedHead, Option.toList_some, List.cons_append, List.nil_append, List.mem_cons,
      List.not_mem_nil, or_false] at hc
    rcases hc with rfl | rfl | rfl
    · exact soundChunk _ _ (by decide) (by decide) (by decide +kernel)
    · exact soundChunk _ _ (by decide) (by decide) (by decide +kernel)
    · exact soundChunk _ _ (by decide) (by decide) (by decide +kernel)
  ihdr := rfl
  header := headerOk_indexed
  plte := fun c hc => by cases hc; decide
  extra := fun c hc => by cases hc with | head => decide | tail _ h => cases h

theorem sound_grey : greyHead.Sound true where
  chunks := fun c hc => by
    cases hc with
    | head => exact soundChunk _ _ (by decide) (by decide) (by decide +kernel)
    | tail _ h => cases h
  ihdr := rfl
  header := headerOk_grey
  plte := fun c hc => by cases hc
  extra := fun c hc => by cases hc

/-- A file with CTRL.VERIFY_CRC set. -/
def verifying (bs : List Byte) (log : List PortMove) : State :=
  { State.reset with eng := source bs, run := some ⟨{ snap [] with ctrl := 0x00000704#32 }, source bs, log⟩ }

theorem verifyingReady (bs : List Byte) (log : List PortMove) : (verifying bs log).Ready log := ⟨rfl, rfl, rfl, rfl, rfl, rfl, rfl⟩

theorem witness_PngChunksChecked_short : ∃ s : State, ∃ bad : List Byte, s.start.bs.mode = .mem ∧ SourceOk s.start.bs ∧ s.Ready [] ∧
    s.start.mem.read (s.start.bs.base + s.start.bs.pos) (s.start.bs.len - s.start.bs.pos) = pngSig ++ bad ∧ bad.length < 8 :=
  ⟨verifying (pngSig ++ List.replicate 7 0) [], List.replicate 7 0, rfl, sourceOk _ (by decide +kernel), verifyingReady _ _,
    by decide +kernel, by decide⟩
/-- A sound IHDR but for its CRC. -/
theorem witness_PngChunksChecked_first : ∃ s : State, ∃ len type, ∃ rest : List Byte, s.start.bs.mode = .mem ∧ SourceOk s.start.bs ∧
    s.Ready [] ∧ len < 0x100000000 ∧ type < 0x100000000 ∧ type = 0x49484452 ∧ len = 13 ∧ HeaderOk (rest.take 13) ∧
    EndFails s.running.snap.verifyCrc len type rest 0x0307 type ∧
    s.start.mem.read (s.start.bs.base + s.start.bs.pos) (s.start.bs.len - s.start.bs.pos) =
      pngSig ++ putBe32 len ++ putBe32 type ++ rest :=
  ⟨verifying (pngSig ++ putBe32 13 ++ putBe32 0x49484452 ++ (greyHead.ihdr.data ++ [0, 0, 0, 0])) [], 13, 0x49484452,
    greyHead.ihdr.data ++ [0, 0, 0, 0], rfl, sourceOk _ (by decide +kernel), verifyingReady _ _, by decide, by decide, rfl, rfl,
    (by decide : (greyHead.ihdr.data ++ [0, 0, 0, 0]).take 13 = greyHead.ihdr.data) ▸ headerOk_grey,
    .inr (.inr ⟨rfl, by decide, by decide +kernel, rfl, rfl⟩), by decide +kernel⟩
/-- The ends of a chunk: data cut short, a CRC cut short, a wrong CRC; and of a skipped one, its CRC checked and not. -/
theorem witness_PngChunksChecked_ends : EndFails true 13 0x49484452 (greyHead.ihdr.data.take 12) 0x0201 12 ∧
    EndFails false 13 0x49484452 (greyHead.ihdr.data ++ [0, 0, 0]) 0x0201 3 ∧
    SkipFails true 2 0x43674249 [1] 0x0201 1 ∧ SkipFails false 2 0x43674249 [1] 0x0201 0 ∧
    SkipFails false 2 0x43674249 [1, 2, 3] 0x0201 1 ∧ SkipFails true 1 0x43674249 [1, 0, 0, 0, 0] 0x0307 0x43674249 :=
  ⟨.inl ⟨by decide, rfl, rfl⟩, .inr (.inl ⟨by decide, by decide, rfl, rfl⟩), .inl ⟨rfl, .inl ⟨by decide, rfl, rfl⟩⟩,
    .inr ⟨rfl, by decide, rfl, rfl⟩, .inr ⟨rfl, by decide, rfl, rfl⟩,
    .inl ⟨rfl, .inr (.inr ⟨rfl, by decide, by decide +kernel, rfl, rfl⟩)⟩⟩
/-- The other first chunks: a length at its limit, another type, a CgBI, another length, cut short in the data and in the CRC. -/
theorem witness_PngChunksChecked_firstFields : 0x7fffffff < 0x80000000 ∧ (0x7fffffff ≤ 0x7fffffff ∧ 0x49444154 ≠ 0x49484452 ∧
    0x49444154 ≠ 0x43674249) ∧ 14 ≠ 13 ∧ (greyHead.ihdr.data.take 12).length < 13 ∧
    HeaderOk ((greyHead.ihdr.data ++ [0, 0, 0]).take 13) :=
  ⟨by decide, by decide, by decide, by decide, (by decide : (greyHead.ihdr.data ++ [0, 0, 0]).take 13 = greyHead.ihdr.data) ▸ headerOk_grey⟩
/-- An indexed image: IHDR, PLTE, gAMA and an IDAT, then a PLTE. -/
theorem witness_PngChunksChecked_late : ∃ s : State, ∃ p f bad, (∃ rest : List Byte, bad = putBe32 3 ++ putBe32 0x504C5445 ++ rest ∧
      ChunkFails true indexedHead true false 3 0x504C5445 rest 0x010D 0) ∧ s.start.bs.mode = .mem ∧ SourceOk s.start.bs ∧
    s.running.snap.verifyCrc = true ∧ indexedHead.Sound true ∧ (chunkOf 0x49444154 [7]).Sound true ∧ indexedHead.palLen ≠ 0 ∧
    s.Ready [.allocResp p, .allocResp f] ∧ p ≠ 0 ∧ p.toNat + 4096 ≤ 0x100000000 ∧
    overlap s.start.bs.base s.start.bs.len p.toNat 4096 = false ∧
    s.start.mem.read (s.start.bs.base + s.start.bs.pos) (s.start.bs.len - s.start.bs.pos) =
      pngSig ++ indexedHead.chunks.flatMap Chunk.bytes ++ (chunkOf 0x49444154 [7]).bytes ++ bad :=
  ⟨verifying (pngSig ++ indexedHead.chunks.flatMap Chunk.bytes ++ (chunkOf 0x49444154 [7]).bytes ++ (putBe32 3 ++ putBe32 0x504C5445 ++ []))
      [.allocResp 0x10000, .allocResp 0], 0x10000, 0, _, ⟨[], rfl, .inr ⟨by decide, .inr (.inl ⟨rfl, rfl, rfl, rfl⟩)⟩⟩, rfl,
    sourceOk _ (by decide +kernel), rfl, sound_indexed, soundChunk _ _ (by decide) (by decide) (by decide +kernel), by decide,
    verifyingReady _ _, by decide, by decide, by decide +kernel, by decide +kernel⟩
/-- Every check that a chunk can fail, with its operand at a boundary. -/
theorem witness_PngChunksChecked_fields :
    ChunkFails true greyHead false true 0x80000000 0x49444154 [] 0x0117 0x80000000 ∧
    ChunkFails true greyHead false true 13 0x49484452 [] 0x0103 0 ∧
    ChunkFails true greyHead true false 3 0x504C5445 [] 0x010D 0 ∧
    ChunkFails true greyHead false true 771 0x504C5445 [] 0x010C 771 ∧
    ChunkFails true greyHead false true 4 0x504C5445 [] 0x010C 4 ∧
    ChunkFails true greyHead true false 2 0x74524E53 [] 0x010E 0 ∧
    ChunkFails true { indexedHead with plte := none } false true 1 0x74524E53 [] 0x010F 0 ∧
    ChunkFails true indexedHead false true 3 0x74524E53 [] 0x0110 3 ∧
    ChunkFails true greyHead false true 1 0x74524E53 [] 0x0110 1 ∧
    ChunkFails true { greyHead with ihdr := ihdrOf 1 1 8 4 0 } false true 4 0x74524E53 [] 0x0111 0 ∧
    ChunkFails true { indexedHead with plte := none } false true 1 0x49444154 [] 0x0112 0 ∧
    ChunkFails true greyHead true true 0 0x49454E44 [] 0x0113 0 ∧
    ChunkFails true greyHead false true 1 0x49444155 [] 0x0501 0x49444155 ∧
    ChunkFails true greyHead false true 2 0x74524E53 [1] 0x0201 1 ∧
    ChunkFails true indexedHead false true 2 0x74524E53 [1, 2, 3, 4, 5] 0x0201 3 ∧
    ChunkFails false greyHead false true 2 0x67414D41 [1] 0x0201 0 ∧
    ChunkFails true greyHead false true 3 0x504C5445 [1, 2, 3, 0, 0, 0, 0] 0x0307 0x504C5445 ∧
    ChunkFails true greyHead true false 1 0x49454E44 [] 0x0201 0 ∧
    ChunkFails true greyHead true false 0 0x49454E44 [0xAE, 0x42, 0x60] 0x0201 3 ∧
    ChunkFails true greyHead true false 0 0x49454E44 [0xAE, 0x42, 0x60, 0x83] 0x0307 0x49454E44 ∧
    ChunkFails true greyHead true false 2 0x43674249 [1] 0x0201 1 ∧
    ChunkFails false greyHead false true 2 0x43674249 [1, 2, 3] 0x0201 1 ∧
    ChunkFails true greyHead false true 1 0x43674249 [1, 0, 0, 0, 0] 0x0307 0x43674249 := by
  unfold ChunkFails SkipFails EndFails
  dsimp only
  refine ⟨.inl (by decide), ?_, ?_, ?_, ?_, ?_, ?_, ?_, ?_, ?_, ?_, ?_, ?_, ?_, ?_, ?_, ?_, ?_, ?_, ?_, ?_, ?_, ?_⟩ <;>
    refine .inr ⟨by decide, ?_⟩ <;> repeat (first | (left; decide +kernel) | right | decide +kernel)
/-- A grey image with the IDAT `idat`, or none, and then an IDAT of `len` bytes with `rest` after its header. -/
def IdatFile (s : State) (idat : Option Chunk) (len : Nat) (rest : List Byte) : Prop :=
  s.start.bs.mode = .mem ∧ SourceOk s.start.bs ∧ s.running.snap.verifyCrc = true ∧ greyHead.Sound true ∧ greyHead.ctype ≠ 3 ∧
    (∀ c ∈ idat, c.Sound true ∧ c.type = 0x49444154) ∧ len ≤ 0x7fffffff ∧
    s.start.mem.read (s.start.bs.base + s.start.bs.pos) (s.start.bs.len - s.start.bs.pos) =
      pngSig ++ greyHead.chunks.flatMap Chunk.bytes ++ idat.toList.flatMap Chunk.bytes ++ putBe32 len ++ putBe32 0x49444154 ++ rest

/-- Its bytes. -/
def idatBytes (idat : Option Chunk) (len : Nat) (rest : List Byte) : List Byte :=
  pngSig ++ greyHead.chunks.flatMap Chunk.bytes ++ idat.toList.flatMap Chunk.bytes ++ putBe32 len ++ putBe32 0x49444154 ++ rest

/-- The sound IDAT with the byte 7. -/
def seven : Chunk := chunkOf 0x49444154 [7]

theorem seven_sound : ∀ c ∈ some seven, c.Sound true ∧ c.type = 0x49444154 := fun c h => by
  cases h
  exact ⟨soundChunk _ _ (by decide) (by decide) (by decide +kernel), rfl⟩

theorem idatFile (idat : Option Chunk) (len : Nat) (rest : List Byte) (log : List PortMove)
    (h1 : ∀ c ∈ idat, c.Sound true ∧ c.type = 0x49444154) (h2 : len ≤ 0x7fffffff) (h3 : (idatBytes idat len rest).length ≤ 65536)
    (h4 : Memory.read (source (idatBytes idat len rest)).mem 4096 (idatBytes idat len rest).length = idatBytes idat len rest) :
    IdatFile (verifying (idatBytes idat len rest) log) idat len rest :=
  ⟨rfl, sourceOk _ h3, (by decide : bit (0x00000704#32).toNat 2 = true), sound_grey, by decide, h1, h2, h4⟩

/-- An IDAT without data and three bytes of its CRC. -/
theorem witness_PngChunksChecked_idatEmpty : ∃ s : State, ∃ rest, IdatFile s none 0 rest ∧ s.Ready [] ∧
    EndFails true 0 0x49444154 rest 0x0201 3 :=
  ⟨verifying (idatBytes none 0 [0, 0, 0]) [], _, idatFile none 0 [0, 0, 0] _ (fun _ h => by cases h) (by decide) (by decide +kernel)
    (by decide +kernel), verifyingReady _ _, .inr (.inl ⟨by decide, by decide, rfl, rfl⟩)⟩
/-- A first IDAT of 5000 bytes with none there, and one of one byte with a wrong CRC. -/
theorem witness_PngChunksChecked_idatFirst : (∃ s : State, ∃ p f rest, IdatFile s none 5000 rest ∧ s.Ready [.allocResp p, .allocResp f] ∧
      p ≠ 0 ∧ p.toNat + max 4096 5000 ≤ 0x100000000 ∧ overlap s.start.bs.base s.start.bs.len p.toNat (max 4096 5000) = false ∧
      EndFails true 5000 0x49444154 rest 0x0201 0) ∧
    ∃ s : State, ∃ p f rest, IdatFile s none 1 rest ∧ s.Ready [.allocResp p, .allocResp f] ∧
      p ≠ 0 ∧ p.toNat + max 4096 1 ≤ 0x100000000 ∧ overlap s.start.bs.base s.start.bs.len p.toNat (max 4096 1) = false ∧
      EndFails true 1 0x49444154 rest 0x0307 0x49444154 :=
  ⟨⟨verifying (idatBytes none 5000 []) [.allocResp 0x10000, .allocResp 0], 0x10000, 0, [],
      idatFile none 5000 [] _ (fun _ h => by cases h) (by decide) (by decide +kernel) (by decide +kernel), verifyingReady _ _, by decide,
      by decide, by decide +kernel, .inl ⟨by decide, rfl, rfl⟩⟩,
    ⟨verifying (idatBytes none 1 [7, 0, 0, 0, 0]) [.allocResp 0x10000, .allocResp 0], 0x10000, 0, [7, 0, 0, 0, 0],
      idatFile none 1 [7, 0, 0, 0, 0] _ (fun _ h => by cases h) (by decide) (by decide +kernel) (by decide +kernel), verifyingReady _ _,
      by decide, by decide, by decide +kernel, .inr (.inr ⟨rfl, by decide, by decide +kernel, rfl, rfl⟩)⟩⟩
/-- A second IDAT, in the room of 4096 bytes, with a byte less than it needs. -/
theorem witness_PngChunksChecked_idatFits : ∃ s : State, ∃ p f rest, IdatFile s (some seven) 4095 rest ∧
    s.Ready [.allocResp p, .allocResp f] ∧ seven.data.length + 4095 ≤ 4096 ∧ p ≠ 0 ∧ p.toNat + 4096 ≤ 0x100000000 ∧
    overlap s.start.bs.base s.start.bs.len p.toNat 4096 = false ∧ EndFails true 4095 0x49444154 rest 0x0201 1 :=
  ⟨verifying (idatBytes (some seven) 4095 [9]) [.allocResp 0x10000, .allocResp 0], 0x10000, 0, [9],
    idatFile (some seven) 4095 [9] _ seven_sound (by decide) (by decide +kernel) (by decide +kernel), verifyingReady _ _, by decide,
    by decide, by decide, by decide +kernel, .inl ⟨by decide, rfl, rfl⟩⟩
/-- A second IDAT for which the accumulator is reallocated to 8192 bytes. -/
theorem witness_PngChunksChecked_idatGrows : ∃ s : State, ∃ p r f rest k, IdatFile s (some seven) 4096 rest ∧
    s.Ready [.allocResp p, .allocResp r, .allocResp f] ∧ 4096 < seven.data.length + 4096 ∧
    seven.data.length + 4096 ≤ min (4096 * 2 ^ k) 0x7fffffff ∧
    (∀ j, j < k → min (4096 * 2 ^ j) 0x7fffffff < seven.data.length + 4096) ∧ p ≠ 0 ∧ p.toNat + 4096 ≤ 0x100000000 ∧
    overlap s.start.bs.base s.start.bs.len p.toNat 4096 = false ∧ r ≠ 0 ∧ r.toNat + 8192 ≤ 0x100000000 ∧
    overlap s.start.bs.base s.start.bs.len r.toNat 8192 = false ∧ EndFails true 4096 0x49444154 rest 0x0201 0 :=
  ⟨verifying (idatBytes (some seven) 4096 []) [.allocResp 0x10000, .allocResp 0x20000, .allocResp 0], 0x10000, 0x20000, 0, [], 1,
    idatFile (some seven) 4096 [] _ seven_sound (by decide) (by decide +kernel) (by decide +kernel), verifyingReady _ _, by decide,
    by decide, by decide, by decide, by decide, by decide +kernel, by decide, by decide, by decide +kernel, .inl ⟨by decide, rfl, rfl⟩⟩
theorem witness_PngChunksChecked_idatLarge : ∃ s : State, ∃ p f, IdatFile s (some seven) 0x7fffffff [] ∧
    s.Ready [.allocResp p, .allocResp f] ∧ 0x7fffffff < seven.data.length + 0x7fffffff ∧ p ≠ 0 ∧ p.toNat + 4096 ≤ 0x100000000 ∧
    overlap s.start.bs.base s.start.bs.len p.toNat 4096 = false :=
  ⟨verifying (idatBytes (some seven) 0x7fffffff []) [.allocResp 0x10000, .allocResp 0], 0x10000, 0,
    idatFile (some seven) 0x7fffffff [] _ seven_sound (by decide) (by decide +kernel) (by decide +kernel), verifyingReady _ _, by decide,
    by decide, by decide, by decide +kernel⟩

/-- V8: two grey pixels with a key, the filtered row 00 40 C0. -/
theorem witness_PngDecodeShowsTheImage : ∃ s : State, ∃ idat : Chunk, ∃ raw : List Byte, ∃ rows p1 p2 f1 p3 f2 p4 f4,
    let trns := chunkOf 0x74524E53 [0, 0x40]
    let iend := chunkOf 0x49454E44 []
    s.Ready ([.allocResp p1, .allocResp p2, .allocResp f1, .allocResp p3, .allocResp f2] ++
      [(p4, f4)].flatMap fun x => [.allocResp x.1, .allocResp x.2]) ∧ s.start.bs.mode = .mem ∧ SourceOk s.start.bs ∧
    s.start.mem.read (s.start.bs.base + s.start.bs.pos) (s.start.bs.len - s.start.bs.pos) =
      pngSig ++ (greyHead.chunks ++ [trns] ++ [idat] ++ [iend]).flatMap Chunk.bytes ++ [] ∧
    greyHead.Sound true ∧ trns.Sound true ∧ trns.data.length = 2 * greyHead.imgN ∧ idat.Sound true ∧ idat.data ≠ [] ∧
    iend.Sound true ∧ raw.length = greyHead.layout.rawLen 2 1 false ∧ idat.data = compress raw 8 ∧
    defilter greyHead.layout.stride (greyHead.layout.rowbytes 2) 1 raw [] = .ok rows ∧
    (∀ b ∈ [(p1, 4096), (p2, 3), (p3, 2), (p4, 4)], b.1 ≠ 0 ∧ BitVec.toNat b.1 + b.2 ≤ 0x100000000 ∧
      overlap s.start.bs.base s.start.bs.len b.1.toNat b.2 = false) ∧
    overlap p1.toNat 4096 p2.toNat 3 = false ∧ overlap p2.toNat 3 p3.toNat 2 = false ∧ overlap p3.toNat 2 p4.toNat 4 = false :=
  ⟨at_ (source v8File) [] [.allocResp 0x10000, .allocResp 0x20000, .allocResp 0, .allocResp 0x30000, .allocResp 0,
      .allocResp 0x40000, .allocResp 0], chunkOf 0x49444154 [0x78, 0x5E, 0x63, 0x70, 0x38, 0x00, 0x00, 0x01, 0x43, 0x01, 0x01],
    [0x00, 0x40, 0xC0], [[0x40, 0xC0]], 0x10000, 0x20000, 0, 0x30000, 0, 0x40000, 0, rest _ _ _, rfl, sourceOk _ (by decide +kernel),
    by decide +kernel, sound_grey, soundChunk _ _ (by decide) (by decide) (by decide +kernel), by decide,
    soundChunk _ _ (by decide) (by decide) (by decide +kernel), by decide,
    soundChunk _ _ (by decide) (by decide) (by decide +kernel), by decide +kernel, by decide +kernel, by decide +kernel,
    by decide +kernel, by decide +kernel, by decide +kernel, by decide +kernel⟩
/-- An interlaced indexed image of one pixel in a CgBI file. -/
theorem witness_PngDecodeShowsTheImage_interlaced : ∃ s : State, ∃ idat : Chunk, ∃ raw : List Byte,
    let cgbi := chunkOf 0x43674249 [0x50]
    let iend := chunkOf 0x49454E44 []
    s.start.bs.mode = .mem ∧ SourceOk s.start.bs ∧
    s.start.mem.read (s.start.bs.base + s.start.bs.pos) (s.start.bs.len - s.start.bs.pos) =
      pngSig ++ ([cgbi] ++ indexedHead.chunks ++ [idat] ++ [iend]).flatMap Chunk.bytes ++ [] ∧
    indexedHead.Sound true ∧ indexedHead.palLen ≠ 0 ∧ cgbi.Sound true ∧ idat.Sound true ∧ idat.data ≠ [] ∧
    raw.length = indexedHead.layout.rawLen 1 1 true ∧ idat.data = (compress raw 8).drop 2 ∧
    ∀ k (hk : k < adam7.length), 0 < adam7[k].width 1 → 0 < adam7[k].height 1 →
      ∃ rows, defilter indexedHead.layout.stride (indexedHead.layout.rowbytes (adam7[k].width 1)) (adam7[k].height 1)
        (raw.drop (indexedHead.layout.passOffset 1 1 k)) [] = .ok rows := by
  refine ⟨at_ (source (pngSig ++ ([chunkOf 0x43674249 [0x50]] ++ indexedHead.chunks ++
      [chunkOf 0x49444154 ((compress [0, 1] 8).drop 2)] ++ [chunkOf 0x49454E44 []]).flatMap Chunk.bytes ++ [])) [],
    chunkOf 0x49444154 ((compress [0, 1] 8).drop 2), [0, 1], rfl, sourceOk _ (by decide +kernel), by decide +kernel, sound_indexed,
    by decide, soundChunk _ _ (by decide) (by decide) (by decide +kernel),
    soundChunk _ _ (by decide) (by decide +kernel) (by decide +kernel), by decide +kernel, by decide +kernel, rfl, fun k hk => ?_⟩
  have hk' : k < 7 := hk
  interval_cases k
  all_goals obtain rfl : hk = (by decide) := rfl
  · exact fun _ _ => ⟨[[1]], by decide +kernel⟩
  all_goals exact fun h1 h2 => absurd (And.intro h1 h2) (by decide +kernel)
theorem witness_SfReconCompletes : ∃ s : State, ∃ p, s.Ready [.allocResp p] ∧ s.arg 2 ≠ 0 ∧ s.arg 3 ≠ 0 ∧
    s.arg 2 * s.arg 3 * 1 ≤ 0x7fffffff ∧ Layout.rawLen ⟨1, 8, false⟩ (s.arg 2) (s.arg 3) false ≤ 0x7fffffff ∧
    s.arg 0 + s.arg 1 ≤ 0x100000000 ∧ s.arg 1 = Layout.rawLen ⟨1, 8, false⟩ (s.arg 2) (s.arg 3) false ∧ p ≠ 0 ∧
    p.toNat + s.arg 2 * s.arg 3 * 1 ≤ 0x100000000 ∧ overlap (s.arg 0) (s.arg 1) p.toNat (s.arg 2 * s.arg 3 * 1) = false ∧
    ∃ rows, defilter (Layout.stride ⟨1, 8, false⟩) (Layout.rowbytes ⟨1, 8, false⟩ (s.arg 2)) (s.arg 3)
      (s.start.mem.read (s.arg 0) (s.arg 1)) [] = .ok rows :=
  ⟨at_ (mem 0x100 [1, 5, 3, 2, 1, 1]) [0x100, 6, 2, 2] [.allocResp 0x200], 0x200, rest _ _ _, by decide +kernel, by decide +kernel,
    by decide +kernel, by decide +kernel, by decide +kernel, by decide +kernel, by decide, by decide +kernel, by decide +kernel,
    [[5, 8], [6, 9]], by decide +kernel⟩
theorem witness_SfReconCompletes_interlaced : ∃ s : State, ∃ p, s.Ready [.allocResp p] ∧
    s.arg 1 = Layout.rawLen ⟨3, 8, false⟩ (s.arg 2) (s.arg 3) true ∧ s.arg 0 + s.arg 1 ≤ 0x100000000 ∧
    overlap (s.arg 0) (s.arg 1) p.toNat (s.arg 2 * s.arg 3 * 3) = false ∧
    ∀ k (hk : k < adam7.length), 0 < adam7[k].width (s.arg 2) → 0 < adam7[k].height (s.arg 3) →
      ∃ rows, defilter 3 (Layout.rowbytes ⟨3, 8, false⟩ (adam7[k].width (s.arg 2))) (adam7[k].height (s.arg 3))
        ((s.start.mem.read (s.arg 0) (s.arg 1)).drop (Layout.passOffset ⟨3, 8, false⟩ (s.arg 2) (s.arg 3) k)) [] = .ok rows := by
  refine ⟨at_ (mem 0x100 [0, 0x10, 0x80, 0xF0]) [0x100, 4, 1, 1] [.allocResp 0x200], 0x200, rest _ _ _, by decide +kernel,
    by decide +kernel, by decide +kernel, fun k hk => ?_⟩
  have hk' : k < 7 := hk
  interval_cases k
  all_goals obtain rfl : hk = (by decide) := rfl
  · exact fun _ _ => ⟨[[0x10, 0x80, 0xF0]], by decide +kernel⟩
  all_goals exact fun h1 h2 => absurd (And.intro h1 h2) (by decide +kernel)
theorem witness_SfReconCompletes_tag : ∃ s : State, ∃ p f, s.Ready [.allocResp p, .allocResp f] ∧
    s.arg 1 = Layout.rawLen ⟨1, 8, false⟩ (s.arg 2) (s.arg 3) false ∧ p ≠ 0 ∧
    overlap (s.arg 0) (s.arg 1) p.toNat (s.arg 2 * s.arg 3 * 1) = false ∧
    defilter 1 (Layout.rowbytes ⟨1, 8, false⟩ (s.arg 2)) (s.arg 3) (s.start.mem.read (s.arg 0) (s.arg 1)) [] = .error 5 :=
  ⟨at_ (mem 0x100 [5, 0]) [0x100, 2, 1, 1] [.allocResp 0x200, .allocResp 0], 0x200, 0, rest _ _ _, by decide +kernel, by decide,
    by decide +kernel, by decide +kernel⟩
theorem witness_SfFilterRowCompletes : ∃ s : State, s.Ready [] ∧ s.arg 0 + s.arg 2 ≤ 0x100000000 ∧
    s.arg 1 + s.arg 2 ≤ 0x100000000 ∧ s.arg 3 + (s.arg 2 + 1) ≤ 0x100000000 ∧
    overlap (s.arg 3) (s.arg 2 + 1) (s.arg 0) (s.arg 2) = false ∧
    overlap (s.arg 3) (s.arg 2 + 1) (s.arg 1) (s.arg 2) = false ∧
    filterCost (filterRow 4 4 (s.start.mem.read (s.arg 0) (s.arg 2)) (s.start.mem.read (s.arg 1) (s.arg 2))) < 0x100000000 :=
  ⟨at_ (mem 0x100 [1, 2]) [0x100, 0x101, 1, 0xFFFFFFFE], rest _ _ _, by decide +kernel, by decide +kernel, by decide +kernel,
    by decide +kernel, by decide +kernel, by decide +kernel⟩
theorem witness_FiltersInvertAndPaethPicksTheNearest : (0 : Nat) ≤ 4 ∧ 4 ≤ 4 := by decide
theorem witness_FcConvertCompletes : ∃ s : State, ∃ p, s.Ready [.allocResp p] ∧ s.arg 1 ≠ 0 ∧ s.arg 1 * max 3 1 ≤ 0x7fffffff ∧
    s.arg 0 + s.arg 1 * 3 ≤ 0x100000000 ∧ p ≠ 0 ∧ p.toNat + s.arg 1 * 1 ≤ 0x100000000 ∧
    overlap (s.arg 0) (s.arg 1 * 3) p.toNat (s.arg 1 * 1) = false :=
  ⟨at_ (mem 0x100 [0xFF, 0, 0]) [0x100, 1] [.allocResp 0xFFFFFFFF], 0xFFFFFFFF, rest _ _ _, by decide +kernel, by decide +kernel,
    by decide +kernel, by decide, by decide +kernel, by decide +kernel⟩
theorem witness_FcPaletteCompletes : ∃ s : State, ∃ p, s.Ready [.allocResp p] ∧ s.arg 1 ≠ 0 ∧ s.arg 3 ≤ 256 ∧
    s.arg 1 * 4 ≤ 0x7fffffff ∧ s.arg 0 + s.arg 1 ≤ 0x100000000 ∧ s.arg 2 + 1024 ≤ 0x100000000 ∧ p ≠ 0 ∧
    p.toNat + s.arg 1 * 4 ≤ 0x100000000 ∧ overlap (s.arg 0) (s.arg 1) p.toNat (s.arg 1 * 4) = false ∧
    overlap (s.arg 2) 1024 p.toNat (s.arg 1 * 4) = false :=
  ⟨at_ (mem 0x100 [0, 5]) [0x100, 2, 0xFFFFFC00, 256] [.allocResp 0x1000], 0x1000, rest _ _ _, by decide +kernel, by decide +kernel,
    by decide +kernel, by decide +kernel, by decide +kernel, by decide, by decide +kernel, by decide +kernel, by decide +kernel⟩
theorem witness_InPlaceConvertersComplete : ∃ s : State, s.Ready [] ∧ s.arg 0 + s.arg 1 * 4 ≤ 0x100000000 ∧
    s.arg 0 + s.arg 1 * s.arg 2 ≤ 0x100000000 :=
  ⟨at_ (mem 0x100 [1, 2, 3, 4]) [0xFFFFFFF8, 2, 4], rest _ _ _, by decide +kernel, by decide +kernel⟩
theorem witness_DefCompressCompletes : ∃ s : State, ∃ p, s.Ready [.allocResp p] ∧ s.arg 0 + s.arg 1 ≤ 0x100000000 ∧
    s.arg 1 ≤ 0x7fffffff ∧ p ≠ 0 ∧ (compress (s.start.mem.read (s.arg 0) (s.arg 1)) 8).length ≤ 0x7fffffff ∧
    p.toNat + (compress (s.start.mem.read (s.arg 0) (s.arg 1)) 8).length ≤ 0x100000000 ∧
    overlap (s.arg 0) (s.arg 1) p.toNat (compress (s.start.mem.read (s.arg 0) (s.arg 1)) 8).length = false :=
  ⟨at_ (mem 0x100 [0x61]) [0x100, 1] [.allocResp 0x200], 0x200, rest _ _ _, by decide +kernel, by decide +kernel, by decide,
    by decide +kernel, by decide +kernel, by decide +kernel⟩
theorem witness_CompressedSizeIsBounded : ([0] : List Byte) ≠ [] := by decide
theorem witness_CompressionIsDeterministic : ∃ s1 s2 : State, ∃ p1 p2 t1 t2, State.Ready s1 [.allocResp p1] ∧ State.Ready s2 [.allocResp p2] ∧
    s1.start.mem.read (s1.arg 0) (s1.arg 1) = s2.start.mem.read (s2.arg 0) (s2.arg 1) ∧
    s1.running.snap.effectiveQuality 0 = s2.running.snap.effectiveQuality 8 ∧ exec (.defCompress 0) s1 = .next t1 ∧
    exec (.defCompress 8) s2 = .next t2 ∧ t1.done = true ∧ t2.done = true ∧ s1.done = false ∧ s2.done = false :=
  ⟨at_ (mem 0x100 []) [0x100, 0] [.allocResp 0x200], at_ (mem 0x300 []) [0x300, 0] [.allocResp 0x400], 0x200, 0x400, _, _, rest _ _ _,
    rest _ _ _, by decide +kernel, by decide +kernel, rfl, rfl, by decide +kernel, by decide +kernel, rfl, rfl⟩
theorem witness_LzAndHufCommandsComplete_lz : ∃ s : State, s.Ready [] ∧ s.arg 0 + 3 ≤ 0x100000000 ∧
    s.arg 0 + min (s.arg 2) 258 ≤ 0x100000000 ∧ s.arg 1 + min (s.arg 2) 258 ≤ 0x100000000 :=
  ⟨at_ .reset [0xFFFFFEFE, 0xFFFFFEFE, 300], rest _ _ _, by decide +kernel, by decide +kernel, by decide +kernel⟩
theorem witness_LzAndHufCommandsComplete_huf : (∃ s : State, s.Ready []) ∧ 287 ≤ 287 ∧ 31 ≤ 31 := ⟨⟨at_ .reset [], rest _ _ _⟩, by decide, by decide⟩
theorem witness_ChecksumsComplete : ∃ s : State, s.Ready [] ∧ s.arg 0 + s.arg 1 ≤ 0x100000000 :=
  ⟨at_ .reset [0xFFFFFFFF, 1], rest _ _ _, by decide +kernel⟩
theorem witness_PngEncodeCompletes : ∃ s : State, ∃ p, s.Ready [.allocResp p] ∧ s.arg 1 ≠ 0 ∧ s.arg 2 ≠ 0 ∧
    s.arg 1 * 1 ≤ (if s.arg 3 = 0 then s.arg 1 * 1 else s.arg 3) ∧ s.arg 1 * 1 ≤ 0x7fffffff ∧
    s.arg 2 * (1 + s.arg 1 * 1) ≤ 0x7fffffff ∧
    s.arg 0 + ((s.arg 2 - 1) * (if s.arg 3 = 0 then s.arg 1 * 1 else s.arg 3) + s.arg 1 * 1) ≤ 0x100000000 ∧ p ≠ 0 ∧
    (pngFile 1 1 1 8 (filteredImage 7 1 [[0x80]] [])).length ≤ 0x7fffffff ∧
    p.toNat + (pngFile 1 1 1 8 (filteredImage 7 1 [[0x80]] [])).length ≤ 0x100000000 ∧
    overlap (s.arg 0) ((s.arg 2 - 1) * (if s.arg 3 = 0 then s.arg 1 * 1 else s.arg 3) + s.arg 1 * 1) p.toNat
      (pngFile 1 1 1 8 (filteredImage 7 1 [[0x80]] [])).length = false :=
  ⟨at_ (mem 0x100 [0x80]) [0x100, 1, 1, 0] [.allocResp 0x200], 0x200, rest _ _ _, by decide +kernel, by decide +kernel,
    by decide +kernel, by decide +kernel, by decide +kernel, by decide +kernel, by decide, by rw [test_pngFile]; decide,
    by rw [test_pngFile]; decide, by rw [test_pngFile]; decide +kernel⟩
theorem witness_FilterSelection : (4 : Nat) ≤ 4 ∧ 5 ≤ 5 := by decide
theorem witness_FilterSelection_rows : (∀ r ∈ ([[1, 2], [3, 4]] : List (List Byte)), r.length = 2) ∧
    1 < ([[1, 2], [3, 4]] : List (List Byte)).length := by decide

end Sys2Proof.Tests
end

section
/-! SUPPORT. The LZ77 compressor's tokens expand to its input (46_deflate_encoder.md R344 to R347). -/

namespace Sys2Proof.Machine

/-! ### Matches -/

/-- The `len` bytes of `d` from `i` on are those from `loc` on, which lies before `i` and in the window
(46_deflate_encoder.md R345). -/
structure IsMatch (d : List Byte) (i len loc : Nat) : Prop where
  short : len ≤ 258
  within : i + len ≤ d.length
  before : loc < i
  window : i - loc ≤ 32767
  equal : ∀ k, k < len → d.getD (loc + k) 0 = d.getD (i + k) 0

theorem equalBytes_le (n : Nat) (xs ys : List Byte) : equalBytes n xs ys ≤ n := by
  fun_induction equalBytes n xs ys <;> omega

theorem getD_of_lt_equalBytes {n k : Nat} {xs ys : List Byte} (h : k < equalBytes n xs ys) : xs.getD k 0 = ys.getD k 0 := by
  fun_induction equalBytes n xs ys generalizing k with
  | case1 n x xs ys ih =>
    cases k with
    | zero => rfl
    | succ k => simpa using ih (by omega)
  | case2 => omega
  | case3 => omega

theorem getD_drop (d : List Byte) (i k : Nat) : (d.drop i).getD k 0 = d.getD (i + k) 0 := by
  simp [List.getD_eq_getElem?_getD]

/-- What `countm` counts at a position before `i` and in the window is a match (46_deflate_encoder.md R344). -/
theorem isMatch_countm {d : List Byte} {i p : Nat} (hi : i ≤ d.length) (hp : p < i) (hw : i < p + Config.window) :
    IsMatch d i (countm d p i (d.length - i)) p := by
  have hle := equalBytes_le (min (d.length - i) Config.maxMatch) (d.drop p) (d.drop i)
  simp only [Config.maxMatch, Config.window, countm] at *
  refine ⟨by omega, by omega, hp, by omega, fun k hk => ?_⟩
  simpa only [getD_drop] using getD_of_lt_equalBytes hk

/-! ### The search -/

/-- Every position in the hash table lies before `i` (10_state.md R47). -/
def HashTable.Below (t : HashTable) (i : Nat) : Prop := ∀ b, ∀ p ∈ positions b t, p < i

theorem HashTable.Below.mono {t : HashTable} {i j : Nat} (h : t.Below i) (hij : i ≤ j) : t.Below j :=
  fun b p hp => Nat.lt_of_lt_of_le (h b p hp) hij

theorem HashTable.below_nil (i : Nat) : HashTable.Below [] i := by
  intro b p hp
  cases hp

/-- A position of a bucket after an insertion is the new one or an old one of that bucket. -/
theorem mem_positions_insertPosition {q b i c p : Nat} {t : HashTable} (h : p ∈ positions c (insertPosition q b i t)) :
    p = i ∨ p ∈ positions c t := by
  have push : ∀ ps, p ∈ pushPosition q i ps → p = i ∨ p ∈ ps := by
    intro ps hps
    rw [pushPosition, List.mem_append, List.mem_singleton] at hps
    rcases hps with hps | hps
    · split at hps
      · exact .inr (List.mem_of_mem_drop hps)
      · exact .inr hps
    · exact .inl hps
  induction t with
  | nil =>
    simp only [insertPosition, positions] at h
    split at h
    · exact push [] h
    · cases h
  | cons x t ih =>
    obtain ⟨k, ps⟩ := x
    simp only [insertPosition] at h
    split at h <;> simp only [positions] at h ⊢ <;> split at h <;> rename_i hc
    · rw [if_pos hc]; exact push ps h
    · rw [if_neg hc]; exact .inr h
    · rw [if_pos hc]; exact .inr h
    · rw [if_neg hc]; exact ih h

theorem HashTable.Below.insertPosition {t : HashTable} {i : Nat} (h : t.Below i) (q b : Nat) :
    HashTable.Below (insertPosition q b i t) (i + 1) := by
  intro c p hp
  rcases mem_positions_insertPosition hp with rfl | hp
  · exact Nat.lt_succ_self _
  · exact Nat.lt_succ_of_lt (h c p hp)

/-- The candidates keep the best match so far a match of at least three bytes. -/
theorem foldl_tryCandidate {d : List Byte} {i : Nat} (hi : i ≤ d.length) (ps : List Nat) (hps : ∀ p ∈ ps, p < i)
    (best : Nat × Option Nat) (hb : 3 ≤ best.1 ∧ ∀ loc, best.2 = some loc → IsMatch d i best.1 loc) :
    3 ≤ (ps.foldl (tryCandidate d i) best).1 ∧
      ∀ loc, (ps.foldl (tryCandidate d i) best).2 = some loc → IsMatch d i (ps.foldl (tryCandidate d i) best).1 loc := by
  induction ps generalizing best with
  | nil => exact hb
  | cons p ps ih =>
    refine ih (fun p' hp' => hps p' (by simp [hp'])) _ ?_
    rw [tryCandidate]
    split
    · rename_i hc
      refine ⟨by dsimp only; omega, fun loc hloc => ?_⟩
      cases hloc
      exact isMatch_countm hi (hps p (by simp)) hc.1
    · exact hb

/-- A match that is taken is one, of at least three bytes (46_deflate_encoder.md R345 to R347). -/
theorem chooseMatch_isMatch {d : List Byte} {q i best loc : Nat} {t : HashTable} (hi : i ≤ d.length) (ht : t.Below i)
    (h : chooseMatch d q t i = some (best, loc)) : 3 ≤ best ∧ IsMatch d i best loc := by
  obtain ⟨h3, hm⟩ := foldl_tryCandidate hi (positions (bucketAt d i) t) (ht _) (3, none) ⟨Nat.le_refl 3, by simp⟩
  rw [chooseMatch, search] at h
  split at h
  · cases h
  · rename_i b l hs
    rw [hs] at h3 hm
    split at h
    · cases h
    · cases h
      exact ⟨h3, hm _ rfl⟩

/-! ### The output of the tokens -/

theorem copyFrom_length (dist n : Nat) (out : List Byte) : (copyFrom dist n out).length = out.length + n := by
  induction n generalizing out with
  | zero => rfl
  | succ n ih => rw [copyFrom, ih, List.length_append, List.length_singleton]; omega

theorem Token.apply_length (out : List Byte) (t : Token) : (t.apply out).length = out.length + t.size := by
  cases t with
  | lit b => simp [Token.apply, Token.size]
  | copy length dist => exact copyFrom_length _ _ _

/-- The tokens add what their sizes say. -/
theorem length_foldl_apply (ts : List Token) (out : List Byte) :
    (ts.foldl Token.apply out).length = out.length + (ts.map Token.size).sum := by
  induction ts generalizing out with
  | nil => rfl
  | cons t ts ih => rw [List.foldl_cons, ih, Token.apply_length, List.map_cons, List.sum_cons, Nat.add_assoc]

theorem take_succ_getD {d : List Byte} {i : Nat} (h : i < d.length) : d.take i ++ [d.getD i 0] = d.take (i + 1) := by
  rw [List.getD_eq_getElem _ _ h, List.take_append_getElem]

/-- Copying a match's bytes from where it lies goes on with the input. -/
theorem copyFrom_take {d : List Byte} {i loc n : Nat} (hb : loc < i) (hn : i + n ≤ d.length)
    (he : ∀ k, k < n → d.getD (loc + k) 0 = d.getD (i + k) 0) : copyFrom (i - loc) n (d.take i) = d.take (i + n) := by
  induction n generalizing i loc with
  | zero => rfl
  | succ n ih =>
    have hl : (d.take i).length = i := by rw [List.length_take]; omega
    have hx : (d.take i).getD (i - (i - loc)) 0 = d.getD i 0 := by
      have := he 0 (by omega)
      rw [Nat.add_zero, Nat.add_zero] at this
      rw [← this, show i - (i - loc) = loc by omega]
      simp [List.getD_eq_getElem?_getD, hb]
    rw [copyFrom, hl, hx, take_succ_getD (by omega), show i - loc = i + 1 - (loc + 1) by omega, ih (by omega) (by omega)]
    · congr 1; omega
    · intro k hk
      have := he (k + 1) (by omega)
      rwa [show loc + 1 + k = loc + (k + 1) by omega, show i + 1 + k = i + (k + 1) by omega]

/-- The tokens `ts` may stand after the output `out`, make it `d`, and reach at most 32767 bytes back. -/
structure ExpandTo (out : List Byte) (ts : List Token) (d : List Byte) : Prop where
  valid : TokensValid out ts
  expand : ts.foldl Token.apply out = d
  near : ∀ length dist, .copy length dist ∈ ts → dist ≤ 32767

theorem ExpandTo.cons {out d : List Byte} {t : Token} {ts : List Token} (hv : t.Valid out.length)
    (hn : ∀ length dist, t = .copy length dist → dist ≤ 32767) (h : ExpandTo (t.apply out) ts d) :
    ExpandTo out (t :: ts) d where
  valid := ⟨hv, h.valid⟩
  expand := h.expand
  near := by
    intro length dist hm
    rcases List.mem_cons.1 hm with hm | hm
    · exact hn length dist hm.symm
    · exact h.near length dist hm

/-- Literals expand to their bytes. -/
theorem expandTo_literals (out d : List Byte) : ExpandTo out (d.map .lit) (out ++ d) := by
  induction d generalizing out with
  | nil => exact ⟨trivial, by simp, by simp⟩
  | cons b d ih =>
    refine .cons trivial (by simp) ?_
    have := ih (out ++ [b])
    rwa [List.append_assoc] at this

/-- The main loop's tokens go on from the bytes before `i` to the whole input (46_deflate_encoder.md R347). -/
theorem lz77Loop_expandTo (d : List Byte) (q fuel i : Nat) (t : HashTable) (hi : i ≤ d.length) (ht : t.Below i) :
    ExpandTo (d.take i) (lz77Loop d q fuel i t) d := by
  have rest : ∀ i, ExpandTo (d.take i) ((d.drop i).map .lit) d := fun i => by
    have := expandTo_literals (d.take i) (d.drop i)
    rwa [List.take_append_drop] at this
  induction fuel generalizing i t with
  | zero => exact rest i
  | succ fuel ih =>
    rw [lz77Loop]
    split
    · have ht' := ht.insertPosition q (bucketAt d i)
      dsimp only
      split
      · rename_i best loc hc
        obtain ⟨h3, hm⟩ := chooseMatch_isMatch hi ht hc
        obtain ⟨hs, hw, hb, hwin, he⟩ := hm
        refine .cons ?_ ?_ ?_
        · exact ⟨h3, hs, by omega, by omega, by rw [List.length_take]; omega⟩
        · intro length dist h
          cases h
          exact hwin
        · rw [Token.apply, copyFrom_take hb hw he]
          exact ih _ _ hw (ht'.mono (by omega))
      · refine .cons trivial (by simp) ?_
        rw [Token.apply, take_succ_getD (by omega)]
        exact ih _ _ (by omega) ht'
    · exact rest i

/-- The compressor's tokens expand to its input (46_deflate_encoder.md R347, R355). -/
theorem lz77_expandTo (d : List Byte) (q : Nat) : ExpandTo [] (lz77 d q) d :=
  lz77Loop_expandTo d q d.length 0 [] (Nat.zero_le _) (HashTable.below_nil 0)

end Sys2Proof.Machine
end

section
/-! SUPPORT. Canonical codes: the slot that a build gives, and the fast path of its decoder (41_huffman_decoder.md R163 to R165). -/

namespace Sys2Proof.Machine

/-! ### The canonical assignment -/

/-- Each class begins after the codes of the class before it (41_huffman_decoder.md R163). -/
theorem canonicalFirst_succ (lens : List Nat) {l : Nat} (h : 1 ≤ l) :
    canonicalFirst lens (l + 1) = 2 * (canonicalFirst lens l + lens.count l) := by
  have hd : ∀ m ∈ List.range l, (if m = 0 then 0 else lens.count m * 2 ^ (l + 1 - m)) =
      2 * (if m = 0 then 0 else lens.count m * 2 ^ (l - m)) := by
    intro m hm
    rw [List.mem_range] at hm
    split
    · rfl
    · rw [show l + 1 - m = l - m + 1 by omega, pow_succ]
      ring
  rw [canonicalFirst, canonicalFirst, List.range_succ, List.map_append, List.sum_append, List.map_congr_left hd,
    List.sum_map_mul_left, List.map_singleton, List.sum_singleton, if_neg (by omega), show l + 1 - l = 1 by omega]
  ring

/-- The codes of a class, shifted to a longer length, all come before that length's codes. -/
theorem canonicalFirst_ge (lens : List Nat) {l : Nat} (h : 1 ≤ l) (k : Nat) :
    (canonicalFirst lens l + lens.count l) * 2 ^ (k + 1) ≤ canonicalFirst lens (l + (k + 1)) := by
  induction k with
  | zero => rw [canonicalFirst_succ lens h]; omega
  | succ k ih =>
    rw [← Nat.add_assoc, canonicalFirst_succ lens (by omega), pow_succ, ← Nat.mul_assoc]
    omega

theorem count_take_lt {lens : List Nat} {i : Nat} (h : i < lens.length) :
    (lens.take i).count (lens.getD i 0) < lens.count (lens.getD i 0) := by
  have h1 : lens.drop i = lens[i] :: lens.drop (i + 1) := List.drop_eq_getElem_cons h
  have h2 : lens.count lens[i] = (lens.take i).count lens[i] + (lens.drop i).count lens[i] := by
    rw [← List.count_append, List.take_append_drop]
  rw [h1, List.count_cons_self] at h2
  rw [List.getD_eq_getElem _ _ h]
  omega

/-- A code lies in its class. -/
theorem canonicalCode_lt {lens : List Nat} {i : Nat} (h : i < lens.length) :
    canonicalCode lens i < canonicalFirst lens (lens.getD i 0) + lens.count (lens.getD i 0) :=
  Nat.add_lt_add_left (count_take_lt h) _

/-- Two symbols of one length have two codes. -/
theorem canonicalCode_ne {lens : List Nat} {i j : Nat} (hij : i < j) (hj : j < lens.length)
    (hl : lens.getD i 0 = lens.getD j 0) : canonicalCode lens i < canonicalCode lens j := by
  have hlt := count_take_lt (lens := lens.take j) (i := i) (by rw [List.length_take]; omega)
  have hx : (lens.take j).getD i 0 = lens.getD j 0 := by
    rw [← hl]
    simp [List.getD_eq_getElem?_getD, hij]
  rw [hx, List.take_take, Nat.min_eq_left (Nat.le_of_lt hij)] at hlt
  rw [canonicalCode, canonicalCode, hl]
  exact Nat.add_lt_add_left hlt _

/-- No symbol's code begins another's (41_huffman_decoder.md R163). -/
theorem canonicalCode_prefixFree {lens : List Nat} {i j : Nat} (hi : i < lens.length) (hj : j < lens.length)
    (h1 : 1 ≤ lens.getD i 0) (hle : lens.getD i 0 ≤ lens.getD j 0)
    (h : canonicalCode lens j / 2 ^ (lens.getD j 0 - lens.getD i 0) = canonicalCode lens i) : i = j := by
  rcases Nat.eq_or_lt_of_le hle with hl | hl
  · rw [hl, Nat.sub_self, pow_zero, Nat.div_one] at h
    rcases Nat.lt_trichotomy i j with hij | hij | hij
    · have := canonicalCode_ne hij hj hl
      omega
    · exact hij
    · have := canonicalCode_ne hij hi hl.symm
      omega
  · obtain ⟨k, hk⟩ := Nat.exists_eq_add_of_lt hl
    have hge := canonicalFirst_ge lens h1 k
    have hlt := canonicalCode_lt hi
    have hc : canonicalFirst lens (lens.getD j 0) ≤ canonicalCode lens j := Nat.le_add_right _ _
    rw [← Nat.add_assoc, ← hk] at hge
    rw [show lens.getD j 0 - lens.getD i 0 = k + 1 by omega] at h
    have := (Nat.le_div_iff_mul_le (Nat.two_pow_pos (k + 1))).2 (Nat.le_trans hge hc)
    omega

/-- Where the reversals of two codes both are the low bits of one number, the shorter code begins the longer. -/
theorem div_eq_of_bitrev_eq {a b l m v : Nat} (hlm : l ≤ m) (ha : a < 2 ^ l) (hb : b < 2 ^ m)
    (h1 : v % 2 ^ l = bitrev a l) (h2 : v % 2 ^ m = bitrev b m) : b / 2 ^ (m - l) = a := by
  have e1 : emit v l = (emit a l).reverse := by rw [← emit_mod v l l le_rfl, h1, emit_bitrev]
  have e2 : emit v m = (emit b m).reverse := by rw [← emit_mod v m m le_rfl, h2, emit_bitrev]
  have e3 : emit (b / 2 ^ (m - l)) l = emit a l := by
    rw [← emit_take v m l hlm, e2, List.take_reverse, List.reverse_inj, emit_length, emit_drop _ _ _ (by omega),
      show m - (m - l) = l by omega] at e1
    exact e1
  have e4 := congrArg bitsValue e3
  have hq : b / 2 ^ (m - l) < 2 ^ l := by
    rw [Nat.div_lt_iff_lt_mul (Nat.two_pow_pos _), ← pow_add, show l + (m - l) = m by omega]
    exact hb
  rwa [bitsValue_emit, bitsValue_emit, Nat.mod_eq_of_lt hq, Nat.mod_eq_of_lt ha] at e4

/-! ### The build -/

/-- The classes of a build that is accepted: each begins at its canonical first code, and its codes fit. -/
theorem lengthClasses_ok {lens : List Nat} (n : Nat) {a k : Nat} {cs : List LengthClass} (ha : 1 ≤ a)
    (h : lengthClasses lens (List.range' a n) (canonicalFirst lens a) k = .ok cs) :
    cs.map (·.firstcode) = (List.range' a n).map (canonicalFirst lens) ∧
      ∀ l, a ≤ l → l < a + n → lens.count l ≠ 0 → canonicalFirst lens l + lens.count l ≤ 2 ^ l := by
  induction n generalizing a k cs with
  | zero =>
    cases h
    exact ⟨rfl, fun l h1 h2 => by omega⟩
  | succ n ih =>
    rw [List.range'_succ, lengthClasses] at h
    split at h
    · cases h
    · rename_i hfit
      rw [← canonicalFirst_succ lens ha] at h
      cases hr : lengthClasses lens (List.range' (a + 1) n) (canonicalFirst lens (a + 1)) (k + lens.count a) with
      | error x => rw [hr] at h; cases h
      | ok ds =>
        rw [hr] at h
        cases h
        obtain ⟨h1, h2⟩ := ih (by omega) hr
        refine ⟨?_, fun l hl hl' hc => ?_⟩
        · rw [List.range'_succ, List.map_cons, List.map_cons, h1]
        · rcases Nat.eq_or_lt_of_le hl with rfl | hl
          · omega
          · exact h2 l hl (by omega) hc

/-- The entry of symbol `i` in the list of codes, up to its rank (41_huffman_decoder.md R164). -/
structure IsCodeOf (lens : List Nat) (i : Nat) (c : SymbolCode) : Prop where
  symbol : c.symbol = i
  length : c.length = lens.getD i 0
  reversed : c.reversed = bitrev (canonicalCode lens i) (lens.getD i 0)

/-- The list of codes: one entry for each used symbol, with the next code of its length. -/
theorem mem_symbolCodes {cs : List LengthClass} (lens : List Nat) (i : Nat) {next : List Nat} (hlen : ∀ l ∈ lens, l ≤ next.length)
    {c : SymbolCode} : c ∈ symbolCodes cs lens i next ↔
      ∃ j, j < lens.length ∧ lens.getD j 0 ≠ 0 ∧ c =
        (let l := lens.getD j 0
         let code := next.getD (l - 1) 0 + (lens.take j).count l
         let d := cs.getD (l - 1) ⟨0, 0, 0⟩
         ⟨i + j, l, code - d.firstcode + d.firstsymbol, bitrev code l⟩) := by
  induction lens generalizing i next with
  | nil => simp [symbolCodes]
  | cons l lens ih =>
    have split0 : ∀ P : Nat → Prop, (∃ j, j < (l :: lens).length ∧ P j) ↔ P 0 ∨ ∃ j, j < lens.length ∧ P (j + 1) := by
      intro P
      constructor
      · rintro ⟨_ | j, hj, hp⟩
        · exact .inl hp
        · exact .inr ⟨j, by simpa using hj, hp⟩
      · rintro (hp | ⟨j, hj, hp⟩)
        · exact ⟨0, by simp, hp⟩
        · exact ⟨j + 1, by simpa using hj, hp⟩
    rw [split0, symbolCodes]
    by_cases h0 : l = 0
    · subst h0
      rw [if_pos rfl, ih _ fun x hx => hlen x (by simp [hx])]
      simp only [List.getD_cons_zero, ne_eq, not_true_eq_false, false_and, false_or, List.getD_cons_succ, List.take_succ_cons]
      refine exists_congr fun j => and_congr_right fun _ => and_congr_right fun hj => ?_
      rw [List.count_cons_of_ne (fun h => hj h.symm), show i + 1 + j = i + (j + 1) by omega]
    · have hll := hlen l (by simp)
      rw [if_neg h0]
      dsimp only
      rw [List.mem_cons, ih _ fun x hx => by rw [List.length_set]; exact hlen x (by simp [hx])]
      simp only [List.getD_cons_zero, List.take_zero, List.count_nil, Nat.add_zero, ne_eq, h0, not_false_eq_true, true_and,
        List.getD_cons_succ, List.take_succ_cons]
      refine or_congr_right (exists_congr fun j => and_congr_right fun hj => and_congr_right fun hne => ?_)
      have hset : (next.set (l - 1) (next.getD (l - 1) 0 + 1)).getD (lens.getD j 0 - 1) 0 + (lens.take j).count (lens.getD j 0) =
          next.getD (lens.getD j 0 - 1) 0 + (l :: lens.take j).count (lens.getD j 0) := by
        by_cases he : lens.getD j 0 = l
        · rw [he, List.count_cons_self, List.getD_eq_getElem _ _ (by rw [List.length_set]; omega), List.getElem_set_self]
          omega
        · rw [List.count_cons_of_ne (fun h => he h.symm), List.getD_eq_getElem?_getD, List.getElem?_set_ne (by omega),
            ← List.getD_eq_getElem?_getD]
      rw [hset, show i + 1 + j = i + (j + 1) by omega]

/-- What a successful build says: the lengths' classes fit, and the slot is that of a list of codes, one for each used symbol. -/
theorem buildSlot_ok {lens : List Nat} {h : Huff} (hlen : ∀ l ∈ lens, l ≤ 15) (hb : buildSlot lens = .ok h) :
    (∀ l, 1 ≤ l → l ≤ 15 → lens.count l ≠ 0 → canonicalFirst lens l + lens.count l ≤ 2 ^ l) ∧
      ∃ cs codes, h = slotOf cs codes ∧
        (∀ c ∈ codes, ∃ i, i < lens.length ∧ lens.getD i 0 ≠ 0 ∧ IsCodeOf lens i c) ∧
        ∀ i, i < lens.length → lens.getD i 0 ≠ 0 → ∃ c ∈ codes, IsCodeOf lens i c := by
  rw [buildSlot] at hb
  split at hb
  · cases hb
  · cases hc : lengthClasses lens codeLengths 0 0 with
    | error x => rw [hc] at hb; cases hb
    | ok cs =>
      rw [hc] at hb
      cases hb
      obtain ⟨hf, hfit⟩ := lengthClasses_ok (lens := lens) 15 (a := 1) (k := 0) (by omega) hc
      have hnl : (cs.map (·.firstcode)).length = 15 := by rw [hf]; rfl
      have hnext : ∀ l, 1 ≤ l → l ≤ 15 → (cs.map (·.firstcode)).getD (l - 1) 0 = canonicalFirst lens l := by
        intro l h1 h15
        rw [hf, List.getD_eq_getElem _ _ (by simp; omega), List.getElem_map, List.getElem_range',
          show 1 + 1 * (l - 1) = l by omega]
      have hmem := fun {c} => mem_symbolCodes (cs := cs) lens 0 (next := cs.map (·.firstcode)) (by rw [hnl]; exact hlen) (c := c)
      have hl15 : ∀ j, j < lens.length → lens.getD j 0 ≤ 15 := fun j hj => by
        rw [List.getD_eq_getElem _ _ hj]; exact hlen _ (List.getElem_mem hj)
      refine ⟨fun l h1 h15 => hfit l h1 (by omega), cs, _, rfl, fun c hm => ?_, fun i hi h0 => ?_⟩
      · obtain ⟨j, hj, h0, rfl⟩ := hmem.1 hm
        refine ⟨j, hj, h0, Nat.zero_add j, rfl, ?_⟩
        dsimp only
        rw [hnext _ (by omega) (hl15 j hj), canonicalCode]
      · refine ⟨_, hmem.2 ⟨i, hi, h0, rfl⟩, Nat.zero_add i, rfl, ?_⟩
        dsimp only
        rw [hnext _ (by omega) (hl15 i hi), canonicalCode]

/-! ### The fast table -/

/-- An entry that at least one code of at most 9 bits gives, and no two different codes, is that of such a code. -/
theorem fastEntry_eq {codes : List SymbolCode} {j x : Nat}
    (hall : ∀ c ∈ codes, c.length ≤ 9 → j % 2 ^ c.length = c.reversed → c.length * 512 + c.symbol = x)
    (hex : ∃ c ∈ codes, c.length ≤ 9 ∧ j % 2 ^ c.length = c.reversed) : fastEntry codes j = x := by
  have keep : ∀ cs : List SymbolCode, (∀ c ∈ cs, c ∈ codes) →
      cs.foldl (fun y s => if s.length ≤ 9 ∧ j % 2 ^ s.length = s.reversed then s.length * 512 + s.symbol else y) x = x := by
    intro cs hcs
    induction cs with
    | nil => rfl
    | cons c cs ih =>
      rw [List.foldl_cons]
      split
      · rename_i hc
        rw [hall c (hcs c (by simp)) hc.1 hc.2]
        exact ih fun d hd => hcs d (by simp [hd])
      · exact ih fun d hd => hcs d (by simp [hd])
  obtain ⟨c, hc, h9, hj⟩ := hex
  obtain ⟨pre, post, rfl⟩ := List.append_of_mem hc
  rw [fastEntry, List.foldl_append, List.foldl_cons, if_pos ⟨h9, hj⟩, hall c hc h9 hj]
  exact keep post fun d hd => by simp [hd]

/-- The fast entry of bits that begin with the code of symbol `i`, of at most 9 bits: its length and the symbol
(41_huffman_decoder.md R164). -/
theorem buildSlot_fast {lens : List Nat} {h : Huff} {i j : Nat} (hlen : ∀ l ∈ lens, l ≤ 15) (hb : buildSlot lens = .ok h)
    (hi : i < lens.length) (h0 : lens.getD i 0 ≠ 0) (h9 : lens.getD i 0 ≤ 9) (hi' : i < 512) (hj : j < 512)
    (hcode : j % 2 ^ lens.getD i 0 = bitrev (canonicalCode lens i) (lens.getD i 0)) :
    (h.fast.toList.getD j 0).toNat = lens.getD i 0 * 512 + i := by
  obtain ⟨hfit, cs, codes, rfl, hall, hex⟩ := buildSlot_ok hlen hb
  have hlt : ∀ k, k < lens.length → lens.getD k 0 ≠ 0 → lens.getD k 0 ≤ 15 → canonicalCode lens k < 2 ^ lens.getD k 0 :=
    fun k hk hk0 hk15 =>
      Nat.lt_of_lt_of_le (canonicalCode_lt hk) (hfit _ (by omega) hk15 (by have := count_take_lt hk; omega))
  have hentry : fastEntry codes j = lens.getD i 0 * 512 + i := by
    refine fastEntry_eq (fun c hc hc9 hcj => ?_) ?_
    · obtain ⟨k, hk, hk0, hsym, hl, hrev⟩ := hall c hc
      rw [hl] at hc9 hcj
      rw [hrev] at hcj
      have : i = k := by
        rcases Nat.le_total (lens.getD i 0) (lens.getD k 0) with hle | hle
        · exact canonicalCode_prefixFree hi hk (by omega) hle
            (div_eq_of_bitrev_eq hle (hlt i hi h0 (by omega)) (hlt k hk hk0 (by omega)) hcode hcj)
        · exact (canonicalCode_prefixFree hk hi (by omega) hle
            (div_eq_of_bitrev_eq hle (hlt k hk hk0 (by omega)) (hlt i hi h0 (by omega)) hcj hcode)).symm
      subst this
      rw [hl, hsym]
    · obtain ⟨c, hc, hsym, hl, hrev⟩ := hex i hi h0
      exact ⟨c, hc, by rw [hl]; exact h9, by rw [hl, hrev]; exact hcode⟩
  have hget : (slotOf cs codes).fast.toList.getD j 0 = BitVec.ofNat 16 (fastEntry codes j) := by
    rw [List.getD_eq_getElem _ _ (by simpa using hj), Vector.getElem_toList]
    simp [slotOf]
  rw [hget, hentry, BitVec.toNat_ofNat, Nat.mod_eq_of_lt (by omega)]

theorem buildSlot_valid {lens : List Nat} {h : Huff} (hb : buildSlot lens = .ok h) : h.valid = true := by
  rw [buildSlot] at hb
  split at hb
  · cases hb
  · split at hb
    · cases hb
    · cases hb
      rfl

/-! ### Reading a code -/

/-- Whatever follows them, the bits `code` decode to the symbol `z` in the slot `h`, and are consumed. -/
def Huff.Reads (h : Huff) (z : Nat) (code : List Bool) : Prop :=
  ∀ t e rest, e.slot t = h → CanRead e → e.bitsAhead = code ++ rest →
    ∃ f, hbDecode t e = .ok z f ∧ ReadsOn e f ∧ CanRead f ∧ f.bitsAhead = rest

theorem ReadsOn.slot {e f : Eng} (h : ReadsOn e f) (t : Nat) : f.slot t = e.slot t := by
  rw [h.same]
  rfl

/-- A canonical code of at most 9 bits decodes to its symbol (41_huffman_decoder.md R165). -/
theorem buildSlot_reads {lens : List Nat} {h : Huff} {i : Nat} (hlen : ∀ l ∈ lens, l ≤ 15) (hb : buildSlot lens = .ok h)
    (hi : i < lens.length) (h0 : lens.getD i 0 ≠ 0) (h9 : lens.getD i 0 ≤ 9) (hi' : i < 512) :
    h.Reads i (codeBits lens i) := by
  intro t e rest hslot c hbits
  obtain ⟨f, hf, ro, cf, hfb, hnb⟩ := brPeek16_ok c
  have hcl : (codeBits lens i).length = lens.getD i 0 := emit_length _ _
  have hlen16 : lens.getD i 0 ≤ f.br.nbits := by
    rcases hnb with hn | hn
    · omega
    · rw [hn, hbits, List.length_append, hcl]; omega
  have hlow : bitsValue (e.bitsAhead.take 16) % 512 % 2 ^ lens.getD i 0 =
      bitrev (canonicalCode lens i) (lens.getD i 0) := by
    rw [show 512 = 2 ^ 9 by rfl, Nat.mod_mod_of_dvd _ (pow_dvd_pow 2 h9), hbits, List.take_append, bitsValue_append,
      List.take_of_length_le (by omega), hcl, Nat.add_mul_mod_self_left, codeBits, bitsValue_emit, Nat.mod_mod,
      Nat.mod_eq_of_lt (bitrev_lt _ _)]
  have hentry := buildSlot_fast hlen hb hi h0 h9 hi' (Nat.mod_lt _ (by omega)) hlow
  obtain ⟨g, hg, rg, cg, hgb, -, -⟩ := brConsume_ok hlen16 cf
  refine ⟨g, ?_, ro.trans rg, cg, by rw [hgb, hfb, hbits, List.drop_left' hcl]⟩
  rw [hbDecode, getE_bind, ensure_bind (by rw [hslot]; exact buildSlot_valid hb), EngM.bind_ok hf, hslot]
  dsimp only
  rw [hentry, EngM.ite_run, if_pos (by omega), show (lens.getD i 0 * 512 + i) / 512 = lens.getD i 0 by omega,
    EngM.bind_ok hg, show (lens.getD i 0 * 512 + i) % 512 = i by omega, EngM.pure_run]

end Sys2Proof.Machine
end

section
/-! SUPPORT. The fixed Huffman code: the decoder's fixed tables read what the encoder emits (46_deflate_encoder.md R348, R350;
41_huffman_decoder.md R170). -/

namespace Sys2Proof.Machine

/-! ### The fixed code lengths (30_encoding.md R105) -/

theorem fixedLitLen_length : fixedLitLen.length = 288 := by decide +kernel

theorem fixedLitLen_le : ∀ l ∈ fixedLitLen, l ≤ 9 := by decide +kernel

theorem fixedLitLen_getD {s : Nat} (h : s < 288) : fixedLitLen.getD s 0 = (fixedCode s).2 := by
  unfold fixedCode
  simp only [fixedLitLen, List.getD_eq_getElem?_getD, List.getElem?_append, List.length_append, List.length_replicate,
    List.getElem?_replicate]
  split_ifs <;> grind

theorem fixedDistLen_getD : ∀ d < 32, fixedDistLen.getD d 0 = 5 := by decide

theorem canonicalFirst_fixedLitLen :
    canonicalFirst fixedLitLen 7 = 0 ∧ canonicalFirst fixedLitLen 8 = 0x30 ∧ canonicalFirst fixedLitLen 9 = 0x190 := by
  decide +kernel

/-- How many symbols below `s` share its code length. -/
theorem count_take_fixedLitLen {s : Nat} (h : s < 288) : (fixedLitLen.take s).count (fixedCode s).2 =
    if s ≤ 143 then s else if s ≤ 255 then s - 144 else if s ≤ 279 then s - 256 else 144 + (s - 280) := by
  unfold fixedCode
  split_ifs <;> simp only [fixedLitLen, List.take_append, List.take_replicate, List.count_append, List.count_replicate,
    List.length_append, List.length_replicate, Nat.reduceBEq, Bool.false_eq_true, if_false, if_true] <;> omega

/-- The fixed codes of the encoder are the canonical ones of the fixed code lengths (46_deflate_encoder.md R350). -/
theorem canonicalCode_fixedLitLen {s : Nat} (h : s < 288) : canonicalCode fixedLitLen s = (fixedCode s).1 := by
  obtain ⟨h7, h8, h9⟩ := canonicalFirst_fixedLitLen
  rw [canonicalCode, fixedLitLen_getD h, count_take_fixedLitLen h, fixedCode]
  split_ifs <;> simp only [h7, h8, h9] <;> omega

theorem canonicalCode_fixedDistLen : ∀ d < 32, canonicalCode fixedDistLen d = d := by decide +kernel

theorem emitSym_eq_codeBits {s : Nat} (h : s < 288) : emitSym s = codeBits fixedLitLen s := by
  rw [emitSym, codeBits, canonicalCode_fixedLitLen h, fixedLitLen_getD h]

/-- The bits of a distance symbol in the fixed code (46_deflate_encoder.md R348). -/
def emitDist (d : Nat) : List Bool := emit (bitrev d 5) 5

theorem emitDist_eq_codeBits {d : Nat} (h : d < 32) : emitDist d = codeBits fixedDistLen d := by
  rw [emitDist, codeBits, canonicalCode_fixedDistLen d h, fixedDistLen_getD d h]

/-- Code lengths that pass both checks of a build have a slot (41_huffman_decoder.md R161, R163). -/
theorem exists_buildSlot {lens : List Nat} (h1 : codeLengths.find? (fun l => decide (2 ^ l < lens.count l)) = none)
    (h2 : (lengthClasses lens codeLengths 0 0).isOk = true) : ∃ h, buildSlot lens = .ok h := by
  rw [buildSlot, h1]
  cases hc : lengthClasses lens codeLengths 0 0 with
  | error x => rw [hc] at h2; cases h2
  | ok cs => exact ⟨_, rfl⟩

/-- The two fixed slots exist, and they read the encoder's codes (41_huffman_decoder.md R170). -/
theorem buildFixed_reads : ∃ h0 h1, (∀ e, buildFixed e = .ok () ((e.setSlot 0 h0).setSlot 1 h1)) ∧
    (∀ z, z < 288 → h0.Reads z (emitSym z)) ∧ ∀ d, d < 32 → h1.Reads d (emitDist d) := by
  obtain ⟨h0, hb0⟩ := exists_buildSlot (lens := fixedLitLen) (by decide +kernel) (by decide +kernel)
  obtain ⟨h1, hb1⟩ := exists_buildSlot (lens := fixedDistLen) (by decide +kernel) (by decide +kernel)
  have pos : ∀ s, 1 ≤ (fixedCode s).2 ∧ (fixedCode s).2 ≤ 9 := fun s => by rw [fixedCode]; split_ifs <;> simp
  refine ⟨h0, h1, fun e => ?_, fun z hz => ?_, fun d hd => ?_⟩
  · rw [buildFixed, EngM.bind_ok (hbBuild_ok hb0), hbBuild_ok hb1]
  · have := pos z
    rw [emitSym_eq_codeBits hz]
    refine buildSlot_reads (fun l hl => ?_) hb0 ?_ ?_ ?_ (by omega)
    · have := fixedLitLen_le l hl
      omega
    · rw [fixedLitLen_length]; exact hz
    · rw [fixedLitLen_getD hz]; omega
    · rw [fixedLitLen_getD hz]; omega
  · rw [emitDist_eq_codeBits hd]
    refine buildSlot_reads (by decide) hb1 hd ?_ ?_ (by omega)
    · rw [fixedDistLen_getD d hd]; omega
    · rw [fixedDistLen_getD d hd]; omega

/-! ### The symbols of a token -/

/-- The extra values of a symbol fit, and it is none of the unused ones (30_encoding.md R102, R103). -/
def BlockSym.Fits : BlockSym → Prop
  | .lit _ => True
  | .copy j le d de => j < 29 ∧ le < 2 ^ lextra.getD j 0 ∧ d < 30 ∧ de < 2 ^ dextra.getD d 0

/-- The bits of a symbol where `lit` and `dist` give those of the two alphabets' symbols (42_lz77_decompressor.md R210). -/
def BlockSym.bitsBy (lit dist : Nat → List Bool) : BlockSym → List Bool
  | .lit b => lit b.toNat
  | .copy j le d de => lit (257 + j) ++ emit le (lextra.getD j 0) ++ dist d ++ emit de (dextra.getD d 0)

theorem largestBase_succ (table : List Nat) (n v : Nat) :
    largestBase table (n + 1) v = if table.getD n 0 ≤ v then n else largestBase table n v := by
  rw [largestBase, List.range_succ, List.filter_append]
  split <;> rename_i h
  · rw [List.filter_cons_of_pos (by simpa using h), List.filter_nil, List.getLastD_concat]
  · rw [List.filter_cons_of_neg (by simpa using h), List.filter_nil, List.append_nil, largestBase]

/-- The entry found is at most `v`, and every later one is above it (46_deflate_encoder.md R348). -/
theorem largestBase_spec {table : List Nat} {v : Nat} (n : Nat) (h : table.getD 0 0 ≤ v) :
    table.getD (largestBase table n v) 0 ≤ v ∧ ∀ j, largestBase table n v < j → j < n → v < table.getD j 0 := by
  induction n with
  | zero => exact ⟨h, fun j _ hj => absurd hj (Nat.not_lt_zero j)⟩
  | succ n ih =>
    rw [largestBase_succ]
    split <;> rename_i hn
    · exact ⟨hn, fun j h1 h2 => by omega⟩
    · refine ⟨ih.1, fun j h1 h2 => ?_⟩
      rcases Nat.eq_or_lt_of_le (Nat.le_of_lt_succ h2) with rfl | h2
      · omega
      · exact ih.2 j h1 h2

theorem largestBase_lt (table : List Nat) {n : Nat} (v : Nat) (h : 0 < n) : largestBase table n v < n := by
  induction n with
  | zero => omega
  | succ n ih =>
    rw [largestBase_succ]
    split
    · omega
    · rcases Nat.eq_zero_or_pos n with rfl | hn
      · exact Nat.lt_succ_self _
      · exact Nat.lt_succ_of_lt (ih hn)

/-- A match length has a length symbol (30_encoding.md R102). -/
theorem length_symbol {v : Nat} (h3 : 3 ≤ v) (h258 : v ≤ 258) :
    largestBase lbase 29 v < 29 ∧ lbase.getD (largestBase lbase 29 v) 0 ≤ v ∧
      v - lbase.getD (largestBase lbase 29 v) 0 < 2 ^ lextra.getD (largestBase lbase 29 v) 0 := by
  have hlt := largestBase_lt lbase v (show 0 < 29 by omega)
  obtain ⟨hle, hnext⟩ := largestBase_spec (table := lbase) 29 (v := v) h3
  generalize largestBase lbase 29 v = j at *
  have next : ∀ j < 28, lbase.getD (j + 1) 0 ≤ lbase.getD j 0 + 2 ^ lextra.getD j 0 := by decide
  have last : lbase.getD 28 0 = 258 := rfl
  refine ⟨hlt, hle, ?_⟩
  rcases Nat.lt_or_ge j 28 with hj | hj
  · have := next j hj
    have := hnext (j + 1) (by omega) (by omega)
    omega
  · obtain rfl : j = 28 := by omega
    rw [last, Nat.sub_eq_zero_of_le h258]
    exact Nat.two_pow_pos _

/-- A distance has a distance symbol (30_encoding.md R103). -/
theorem distance_symbol {v : Nat} (h1 : 1 ≤ v) (hmax : v ≤ 32768) :
    largestBase dbase 30 v < 30 ∧ dbase.getD (largestBase dbase 30 v) 0 ≤ v ∧
      v - dbase.getD (largestBase dbase 30 v) 0 < 2 ^ dextra.getD (largestBase dbase 30 v) 0 := by
  have hlt := largestBase_lt dbase v (show 0 < 30 by omega)
  obtain ⟨hle, hnext⟩ := largestBase_spec (table := dbase) 30 (v := v) h1
  generalize largestBase dbase 30 v = j at *
  have next : ∀ j < 29, dbase.getD (j + 1) 0 ≤ dbase.getD j 0 + 2 ^ dextra.getD j 0 := by decide
  have last : dbase.getD 29 0 = 24577 ∧ dextra.getD 29 0 = 13 := ⟨rfl, rfl⟩
  refine ⟨hlt, hle, ?_⟩
  rcases Nat.lt_or_ge j 29 with hj | hj
  · have := next j hj
    have := hnext (j + 1) (by omega) (by omega)
    omega
  · obtain rfl : j = 29 := by omega
    rw [last.1, last.2]
    omega

/-- What the encoder emits for a valid token are the bits of a symbol that stands for it (46_deflate_encoder.md R348, R350). -/
theorem Token.exists_blockSym {n : Nat} {t : Token} (h : t.Valid n) :
    ∃ y : BlockSym, y.token = t ∧ y.Fits ∧ t.bits = y.bitsBy emitSym emitDist := by
  cases t with
  | lit b => exact ⟨.lit b, rfl, trivial, rfl⟩
  | copy length dist =>
    obtain ⟨h3, h258, h1, hmax, -⟩ := h
    obtain ⟨hj, hjle, hjfit⟩ := length_symbol h3 h258
    obtain ⟨hd, hdle, hdfit⟩ := distance_symbol h1 hmax
    refine ⟨.copy (largestBase lbase 29 length) (length - lbase.getD (largestBase lbase 29 length) 0)
      (largestBase dbase 30 dist) (dist - dbase.getD (largestBase dbase 30 dist) 0), ?_, ⟨hj, hjfit, hd, hdfit⟩, rfl⟩
    rw [BlockSym.token, Nat.add_sub_cancel' hjle, Nat.add_sub_cancel' hdle]

/-- The bits of valid tokens are those of symbols that stand for them. -/
theorem exists_blockSyms {out : List Byte} {ts : List Token} (h : TokensValid out ts) :
    ∃ ys : List BlockSym, ys.map BlockSym.token = ts ∧ (∀ y ∈ ys, y.Fits) ∧
      ts.flatMap Token.bits = ys.flatMap (BlockSym.bitsBy emitSym emitDist) := by
  induction ts generalizing out with
  | nil => exact ⟨[], rfl, by simp, rfl⟩
  | cons t ts ih =>
    obtain ⟨y, hy, hf, hb⟩ := Token.exists_blockSym h.1
    obtain ⟨ys, hys, hfs, hbs⟩ := ih h.2
    refine ⟨y :: ys, by rw [List.map_cons, hy, hys], ?_, by rw [List.flatMap_cons, List.flatMap_cons, hb, hbs]⟩
    simpa using ⟨hf, hfs⟩

end Sys2Proof.Machine
end

section
/-! SUPPORT. The inflate engine on the bits ahead: what it has put out, and what it has still ahead, after each symbol and each
block, where the output has room (42_lz77_decompressor.md R194, R203, R204, R210). -/

namespace Sys2Proof.Machine

/-! ### The state of an inflation -/

/-- `f` is `e` after reads of the BitReader and `n` bytes appended to the output. -/
structure Expands (e f : Eng) (n : Nat) : Prop where
  same : f = { e with
    mem := f.mem, written := f.written, journal := f.journal, br := f.br, bs := { e.bs with pos := f.bs.pos }
    srcEof := f.srcEof, inf := { e.inf with len := e.inf.len + n } }
  outside : ∀ x, x < e.inf.out + e.inf.len ∨ e.inf.out + e.inf.len + n ≤ x → f.mem.get x = e.mem.get x

theorem Expands.inf {e f : Eng} {n : Nat} (h : Expands e f n) : f.inf = { e.inf with len := e.inf.len + n } := by rw [h.same]

theorem Expands.slot {e f : Eng} {n : Nat} (h : Expands e f n) (t : Nat) : f.slot t = e.slot t := by rw [h.same]; rfl

theorem Expands.trans {e f g : Eng} {n m : Nat} (h : Expands e f n) (h' : Expands f g m) : Expands e g (n + m) := by
  have hi := h.inf
  refine ⟨?_, fun x hx => ?_⟩
  · rw [h'.same, hi, h.same, Nat.add_assoc]
  · have ho : f.inf.out = e.inf.out := by rw [hi]
    have hl : f.inf.len = e.inf.len + n := by rw [hi]
    rw [h'.outside x (by omega), h.outside x (by omega)]

theorem ReadsOn.expands {e f : Eng} (h : ReadsOn e f) : Expands e f 0 := by
  refine ⟨?_, fun x _ => by rw [h.same]⟩
  rw [h.same]
  rfl

theorem Appends.expands {e f : Eng} {n : Nat} (h : Appends e f n) : Expands e f n := by
  refine ⟨?_, h.outside⟩
  rw [h.same]

theorem ReadsOn.expands_trans {e f g : Eng} {n : Nat} (h : ReadsOn e f) (h' : Expands f g n) : Expands e g n := by
  have := h.expands.trans h'
  rwa [Nat.zero_add] at this

/-- The engine inflates: the BitReader has the bits `bits` ahead, apart from the output's buffer, and the output holds `out`. -/
structure Inflating (e : Eng) (out : List Byte) (bits : List Bool) : Prop where
  reads : CanRead e
  apart : e.inputMeets e.inf.out e.inf.cap = false
  range : e.inf.out + e.inf.cap ≤ Config.addrSpace
  len : e.inf.len = out.length
  data : e.mem.read e.inf.out out.length = out
  ahead : e.bitsAhead = bits

/-- A part of a range apart from `[a, a+n)` is apart from it. -/
theorem overlap_part {a n b m c k : Nat} (h : overlap a n b m = false) (hb : b ≤ c) (hc : c + k ≤ b + m) :
    overlap a n c k = false := by
  simp only [overlap, decide_eq_false_iff_not] at h ⊢
  omega

theorem Inflating.readsOn {e f : Eng} {out : List Byte} {bits bits' : List Bool} (h : Inflating e out bits) (ro : ReadsOn e f)
    (c : CanRead f) (hb : f.bitsAhead = bits') : Inflating f out bits' := by
  have hinf : f.inf = e.inf := by rw [ro.same]
  have hmem : f.mem = e.mem := by rw [ro.same]
  have hmeets : ∀ a n, f.sourceMeets a n = e.sourceMeets a n := fun a n => by rw [ro.same]; rfl
  refine ⟨c, ?_, by rw [hinf]; exact h.range, by rw [hinf]; exact h.len, by rw [hinf, hmem]; exact h.data, hb⟩
  have hap := h.apart
  rw [hinf]
  rw [Eng.inputMeets] at hap ⊢
  cases hi : e.br.input with
  | source =>
    rw [hi] at hap
    rw [ro.source hi]
    exact (hmeets _ _).trans hap
  | mem a n =>
    rw [hi] at hap
    obtain ⟨b, m, hf, hab, hm⟩ := ro.buffer a n hi
    rw [hf]
    exact overlap_part hap hab (by omega)

/-- Writing where the BitReader does not read leaves the bytes ahead. -/
theorem bytesAhead_congr {e f : Eng} {a n : Nat} (c : CanRead e) (hbr : f.br = e.br) (hbs : f.bs = e.bs)
    (hap : e.inputMeets a n = false) (hm : ∀ x, x < a ∨ a + n ≤ x → f.mem.get x = e.mem.get x) : f.bytesAhead = e.bytesAhead := by
  simp only [Eng.bytesAhead, Eng.inputMeets, hbr, hbs] at hap ⊢
  cases hi : e.br.input with
  | source =>
    have hmode := c.mode hi
    have hs := c.source.slice hmode
    simp only [hi, Eng.sourceMeets, hmode] at hap ⊢
    exact Memory.read_congr fun i hi => hm _ (by have := overlap_false hap; omega)
  | mem b m =>
    simp only [hi] at hap ⊢
    exact Memory.read_congr fun i hi => hm _ (by have := overlap_false hap; omega)

theorem Inflating.appends {e f : Eng} {out out' : List Byte} {bits : List Bool} {n : Nat} (h : Inflating e out bits)
    (ap : Appends e f n) (hl : out'.length = out.length + n) (room : out'.length ≤ e.inf.cap)
    (hd : f.mem.read e.inf.out out'.length = out') : Inflating f out' bits := by
  have hbr : f.br = e.br := by rw [ap.same]
  have hbs : f.bs = e.bs := by rw [ap.same]
  have ho : f.inf.out = e.inf.out := by rw [ap.inf]
  have hcap : f.inf.cap = e.inf.cap := by rw [ap.inf]
  have hlen := h.len
  have hmeets : f.inputMeets f.inf.out f.inf.cap = e.inputMeets e.inf.out e.inf.cap := by
    rw [ho, hcap, Eng.inputMeets, Eng.inputMeets, Eng.sourceMeets, Eng.sourceMeets, hbr, hbs]
  have c := h.reads
  refine ⟨⟨by rw [hbr]; exact c.valid, by rw [hbr]; exact c.reader, by rw [hbs]; exact c.source, by rw [hbr, hbs]; exact c.mode⟩,
    by rw [hmeets]; exact h.apart, by rw [ho, hcap]; exact h.range, by rw [ap.inf, hl, ← hlen], by rw [ho]; exact hd, ?_⟩
  rw [Eng.bitsAhead, bytesAhead_congr c hbr hbs h.apart fun x hx => ap.outside x (by omega), hbr]
  exact h.ahead

/-! ### One token -/

/-- `out_put(b)` appends the byte (42_lz77_decompressor.md R192). -/
theorem Inflating.outPut {e : Eng} {out : List Byte} {bits : List Bool} (h : Inflating e out bits) (b : Byte)
    (room : out.length + 1 ≤ e.inf.cap) :
    ∃ f, outPut b e = .ok () f ∧ Expands e f 1 ∧ Inflating f (out ++ [b]) bits := by
  have hlen := h.len
  obtain ⟨f, hf, ap, hb⟩ := outPut_ok (b := b) (e := e) (by omega) h.range
  refine ⟨f, hf, ap.expands, h.appends ap (by simp) (by simpa using room) ?_⟩
  rw [List.length_append, List.length_singleton, Memory.read_add, ← hlen]
  congr 1
  · rw [hlen]
    exact (Memory.read_congr fun i hi => ap.outside _ (by omega)).trans h.data
  · rw [← hb]
    rfl

/-- `inf_copy(length, dist)` appends the copy (42_lz77_decompressor.md R193). -/
theorem Inflating.infCopy {e : Eng} {out : List Byte} {bits : List Bool} (h : Inflating e out bits) {length dist : Nat}
    (h1 : 1 ≤ dist) (hd : dist ≤ out.length) (room : out.length + length ≤ e.inf.cap) :
    ∃ f, infCopy length dist e = .ok () f ∧ Expands e f length ∧ Inflating f (copyFrom dist length out) bits := by
  have hlen := h.len
  obtain ⟨f, hf, ap, hb⟩ := infCopy_ok (length := length) h1 (by omega) (by omega) h.range
  have hl := copyFrom_length dist length out
  refine ⟨f, hf, ap.expands, h.appends ap hl (by omega) ?_⟩
  have hout : (f.mem.read e.inf.out (out.length + length)).take out.length = out := by
    rw [Memory.read_take _ _ _ _ (Nat.le_add_right _ _)]
    exact (Memory.read_congr fun i hi => ap.outside _ (by omega)).trans h.data
  have := copyFrom_take (d := f.mem.read e.inf.out (out.length + length)) (i := out.length) (loc := out.length - dist)
    (n := length) (by omega) (by simp) fun k hk => by
      have := hb k hk
      rw [Memory.read_getD _ _ _ _ (by omega), Memory.read_getD _ _ _ _ (by omega), ← Nat.add_assoc, ← Nat.add_assoc, ← hlen, this]
      congr 1
      omega
  rw [hout, Nat.sub_sub_self hd, List.take_of_length_le (by simp)] at this
  rw [hl, ← this]

/-! ### Symbols -/

/-- `br_get(n)` reads the number of `n` bits that comes next. -/
theorem brGet_emit {e : Eng} {v n : Nat} {rest : List Bool} (hn : n ≤ 16) (hv : v < 2 ^ n) (c : CanRead e)
    (h : e.bitsAhead = emit v n ++ rest) :
    ∃ f, brGet n e = .ok v f ∧ ReadsOn e f ∧ CanRead f ∧ f.bitsAhead = rest := by
  obtain ⟨f, hf, ro, cf, hb⟩ := brGet_ok hn c (by rw [h, List.length_append, emit_length]; omega)
  rw [h, List.take_left' (emit_length v n), bitsValue_emit, Nat.mod_eq_of_lt hv] at hf
  rw [h, List.drop_left' (emit_length v n)] at hb
  exact ⟨f, hf, ro, cf, hb⟩

/-- The slots `h0` and `h1` read the codes that `lit` and `dist` give the symbol's parts. -/
def BlockSym.ReadBy (h0 h1 : Huff) (lit dist : Nat → List Bool) : BlockSym → Prop
  | .lit b => h0.Reads b.toNat (lit b.toNat)
  | .copy j _ d _ => h0.Reads (257 + j) (lit (257 + j)) ∧ h1.Reads d (dist d)

theorem lextra_le : ∀ j < 29, lextra.getD j 0 ≤ 16 := by decide

theorem dextra_le : ∀ d < 30, dextra.getD d 0 ≤ 16 := by decide

/-- A match's length and distance (42_lz77_decompressor.md R210). -/
theorem readMatch_ok {e : Eng} {dist : Nat → List Bool} {j le d de : Nat} {rest : List Bool} (hj : j < 29)
    (hle : le < 2 ^ lextra.getD j 0) (hd : d < 30) (hde : de < 2 ^ dextra.getD d 0) (hr : (e.slot 1).Reads d (dist d))
    (c : CanRead e) (h : e.bitsAhead = emit le (lextra.getD j 0) ++ dist d ++ emit de (dextra.getD d 0) ++ rest) :
    ∃ f, readMatch (257 + j) e = .ok (lbase.getD j 0 + le, dbase.getD d 0 + de) f ∧ ReadsOn e f ∧ CanRead f ∧
      f.bitsAhead = rest := by
  rw [List.append_assoc, List.append_assoc] at h
  obtain ⟨f, hf, rf, cf, bf⟩ := brGet_emit (lextra_le j hj) hle c h
  obtain ⟨g, hg, rg, cg, bg⟩ := hr 1 f _ (rf.slot 1) cf bf
  obtain ⟨k, hk, rk, ck, bk⟩ := brGet_emit (dextra_le d hd) hde cg bg
  refine ⟨k, ?_, (rf.trans rg).trans rk, ck, bk⟩
  rw [readMatch]
  simp only [Nat.add_sub_cancel_left]
  rw [EngM.bind_ok hf, EngM.bind_ok hg, ensure_bind (by simpa using hd), EngM.bind_ok hk, EngM.pure_run]

/-- One turn of the loop: a symbol's token joins the output (42_lz77_decompressor.md R210). -/
theorem infCodes_symbol {lit dist : Nat → List Bool} {rest : List Bool} {y : BlockSym} {e : Eng} {out : List Byte} (hf : y.Fits)
    (hr : y.ReadBy (e.slot 0) (e.slot 1) lit dist) (hv : y.token.Valid out.length)
    (room : (y.token.apply out).length ≤ e.inf.cap) (h : Inflating e out (y.bitsBy lit dist ++ rest)) :
    ∃ g, (∀ fuel, infCodes (fuel + 1) e = infCodes fuel g) ∧ Expands e g y.token.size ∧
      Inflating g (y.token.apply out) rest := by
  rw [Token.apply_length] at room
  cases y with
  | lit b =>
    obtain ⟨f, hf, ro, cf, bf⟩ := hr 0 e _ rfl h.reads h.ahead
    have hcap : f.inf.cap = e.inf.cap := by rw [ro.same]
    obtain ⟨g, hg, eg, ig⟩ := (h.readsOn ro cf bf).outPut b (by rw [hcap]; exact room)
    refine ⟨g, fun fuel => ?_, ro.expands_trans eg, ig⟩
    rw [infCodes, EngM.bind_ok hf, EngM.ite_run, if_pos b.isLt, show byte b.toNat = b from BitVec.ofNat_toNat _ _,
      EngM.bind_ok hg]
  | copy j le d de =>
    obtain ⟨hj, hle, hd, hde⟩ := hf
    obtain ⟨r0, r1⟩ := hr
    have ha := h.ahead
    rw [BlockSym.bitsBy, List.append_assoc, List.append_assoc, List.append_assoc] at ha
    obtain ⟨f, hf, ro, cf, bf⟩ := r0 0 e _ rfl h.reads ha
    obtain ⟨k, hk, rk, ck, bk⟩ := readMatch_ok (e := f) (dist := dist) (rest := rest) hj hle hd hde
      (by rw [ro.slot]; exact r1) cf (by rw [bf]; simp only [List.append_assoc])
    have hcap : k.inf.cap = e.inf.cap := by rw [rk.same, ro.same]
    obtain ⟨-, -, hd1, -, hdl⟩ := hv
    obtain ⟨g, hg, eg, ig⟩ := (h.readsOn (ro.trans rk) ck bk).infCopy (length := lbase.getD j 0 + le) hd1 hdl
      (by rw [hcap]; exact room)
    refine ⟨g, fun fuel => ?_, (ro.trans rk).expands_trans eg, ig⟩
    rw [infCodes, EngM.bind_ok hf, EngM.ite_run, if_neg (by omega), EngM.ite_run, if_neg (by omega),
      ensure_bind (by simp; omega), EngM.bind_ok hk]
    exact EngM.bind_ok hg

/-- The symbols of a block, up to the end-of-block symbol, expand onto the output (42_lz77_decompressor.md R210). -/
theorem infCodes_ok {lit dist : Nat → List Bool} {rest : List Bool} (ys : List BlockSym) {fuel : Nat} {e : Eng} {out : List Byte}
    (hfits : ∀ y ∈ ys, y.Fits) (hread : ∀ y ∈ ys, y.ReadBy (e.slot 0) (e.slot 1) lit dist)
    (hend : (e.slot 0).Reads 256 (lit 256)) (hv : TokensValid out (ys.map BlockSym.token))
    (room : ((ys.map BlockSym.token).foldl Token.apply out).length ≤ e.inf.cap)
    (h : Inflating e out (ys.flatMap (BlockSym.bitsBy lit dist) ++ lit 256 ++ rest)) (hfuel : ys.length < fuel) :
    ∃ f, infCodes fuel e = .ok () f ∧ Expands e f ((ys.map BlockSym.token).map Token.size).sum ∧
      Inflating f ((ys.map BlockSym.token).foldl Token.apply out) rest := by
  induction ys generalizing fuel e out with
  | nil =>
    obtain ⟨n, rfl⟩ := Nat.exists_eq_add_of_lt hfuel
    obtain ⟨f, hf, ro, cf, bf⟩ := hend 0 e rest rfl h.reads h.ahead
    refine ⟨f, ?_, ro.expands, h.readsOn ro cf bf⟩
    rw [infCodes, EngM.bind_ok hf]
    rfl
  | cons y ys ih =>
    obtain ⟨n, rfl⟩ := Nat.exists_eq_add_of_lt hfuel
    simp only [List.map_cons, List.foldl_cons, List.sum_cons, List.length_cons] at room hfuel ⊢
    have hy : (y.token.apply out).length ≤ e.inf.cap := by rw [length_foldl_apply] at room; omega
    rw [List.flatMap_cons, List.append_assoc, List.append_assoc] at h
    obtain ⟨g, hg, eg, ig⟩ := infCodes_symbol (hfits y (by simp)) (hread y (by simp)) hv.1 hy h
    rw [← List.append_assoc] at ig
    rw [← eg.slot 0] at hend
    obtain ⟨f, hf, ef, jf⟩ := ih (fuel := ys.length + 1 + n) (fun z hz => hfits z (by simp [hz]))
      (fun z hz => by rw [eg.slot 0, eg.slot 1]; exact hread z (by simp [hz])) hend hv.2
      (by rw [eg.inf]; exact room) ig (by omega)
    exact ⟨f, by rw [hg, hf], eg.trans ef, jf⟩

/-- The bound of the loops counts the bits ahead (70_reset_and_hazards.md R457). -/
theorem bitsLeft_eq {e : Eng} (c : CanRead e) : e.bitsLeft = e.bitsAhead.length := by
  rw [bitsAhead_length, Eng.bitsLeft, Eng.bytesAhead]
  cases hi : e.br.input with
  | source => simp only [Eng.sourceLeft, c.mode hi, Memory.read_length]
  | mem a n => simp only [Memory.read_length]

/-! ### Blocks -/

/-- A block's header: its last-block bit and its type (42_lz77_decompressor.md R194). -/
theorem blockHeader_ok {e : Eng} {final : Bool} {type : Nat} {rest : List Bool} (ht : type < 4) (c : CanRead e)
    (h : e.bitsAhead = final :: (emit type 2 ++ rest)) :
    ∃ f g, brGet 1 e = .ok final.toNat f ∧ brGet 2 f = .ok type g ∧ ReadsOn e g ∧ CanRead g ∧ g.bitsAhead = rest := by
  have h1 : emit final.toNat 1 = [final] := by cases final <;> rfl
  obtain ⟨f, hf, rf, cf, bf⟩ := brGet_emit (v := final.toNat) (n := 1) (by omega) (by cases final <;> simp) c
    (by rw [h, h1]; rfl)
  obtain ⟨g, hg, rg, cg, bg⟩ := brGet_emit (n := 2) (by omega) ht cf bf
  exact ⟨f, g, hf, hg, rf.trans rg, cg, bg⟩

theorem emitSym_ne_nil (s : Nat) : 1 ≤ (emitSym s).length := by
  rw [emitSym, emit_length, fixedCode]
  split_ifs <;> simp

/-- Every token takes at least one bit. -/
theorem length_le_tokenBits (ts : List Token) : ts.length ≤ (ts.flatMap Token.bits).length := by
  induction ts with
  | nil => simp
  | cons t ts ih =>
    have : 1 ≤ t.bits.length := by
      cases t with
      | lit b => exact emitSym_ne_nil _
      | copy length dist =>
        have := emitSym_ne_nil (257 + largestBase lbase 29 length)
        simp only [Token.bits, emitMatch, List.length_append]
        omega
    rw [List.flatMap_cons, List.length_append, List.length_cons]
    omega

/-- A symbol that fits has its codes in the fixed tables. -/
theorem BlockSym.Fits.readBy {h0 h1 : Huff} {y : BlockSym} (hf : y.Fits) (r0 : ∀ z, z < 288 → h0.Reads z (emitSym z))
    (r1 : ∀ d, d < 32 → h1.Reads d (emitDist d)) : y.ReadBy h0 h1 emitSym emitDist := by
  cases y with
  | lit b => exact r0 _ (by have := b.isLt; omega)
  | copy j le d de =>
    obtain ⟨hj, -, hd, -⟩ := hf
    exact ⟨r0 _ (by omega), r1 _ (by omega)⟩

/-- A fixed-Huffman block expands its tokens onto the output (42_lz77_decompressor.md R204, R210). -/
theorem infBlock_fixed {e : Eng} {out : List Byte} {final : Bool} {ts : List Token} {rest : List Bool}
    (h : Inflating e out (final :: (emit 1 2 ++ (ts.flatMap Token.bits ++ emitSym 256 ++ rest)))) (hv : TokensValid out ts)
    (room : (ts.foldl Token.apply out).length ≤ e.inf.cap) :
    ∃ h0 h1 f, infBlock e = .ok (final.toNat, 1) f ∧ Expands { e with ht0 := h0, ht1 := h1 } f (ts.map Token.size).sum ∧
      Inflating f (ts.foldl Token.apply out) rest := by
  obtain ⟨f, g, hf, hg, rg, cg, bg⟩ := blockHeader_ok (by omega) h.reads h.ahead
  obtain ⟨h0, h1, hfix, r0, r1⟩ := buildFixed_reads
  obtain ⟨ys, rfl, hfits, hbits⟩ := exists_blockSyms hv
  have hi := h.readsOn rg cg bg
  have hcap : g.inf.cap = e.inf.cap := by rw [rg.same]
  have hi' : Inflating { g with ht0 := h0, ht1 := h1 } out (ys.flatMap (BlockSym.bitsBy emitSym emitDist) ++ emitSym 256 ++ rest) := by
    rw [← hbits]
    exact ⟨⟨cg.valid, cg.reader, cg.source, cg.mode⟩, hi.apart, hi.range, hi.len, hi.data, hi.ahead⟩
  have hfuel : ys.length < g.bitsLeft + 1 := by
    have := length_le_tokenBits (ys.map BlockSym.token)
    rw [bitsLeft_eq cg, bg, List.length_append, List.length_append]
    rw [List.length_map] at this
    omega
  rw [← hcap] at room
  obtain ⟨k, hk, ek, ik⟩ := infCodes_ok (e := { g with ht0 := h0, ht1 := h1 }) ys hfits
    (fun y hy => (hfits y hy).readBy r0 r1) (r0 256 (by omega)) hv room hi' hfuel
  have hsym : infSymbols ((g.setSlot 0 h0).setSlot 1 h1) = .ok () k := hk
  refine ⟨h0, h1, k, ?_, ?_, ik⟩
  · rw [infBlock, EngM.bind_ok hf, EngM.bind_ok hg, if_neg (by omega), if_pos rfl, EngM.bind_ok (hfix g),
      EngM.bind_ok hsym]
    rfl
  · refine ⟨?_, fun x hx => ?_⟩
    · rw [ek.same, rg.same]
    · have := ek.outside x (by rw [rg.same]; exact hx)
      rw [this, rg.same]

/-! ### Bytes at a byte boundary -/

/-- The bits of a byte sequence, each byte from bit 0 upward. -/
def bytesBits (bs : List Byte) : List Bool := bs.flatMap fun b => emit b.toNat 8

theorem bytesBits_cons (b : Byte) (bs : List Byte) : bytesBits (b :: bs) = emit b.toNat 8 ++ bytesBits bs := List.flatMap_cons

theorem bytesBits_append (bs cs : List Byte) : bytesBits (bs ++ cs) = bytesBits bs ++ bytesBits cs := List.flatMap_append

@[simp] theorem bytesBits_length (bs : List Byte) : (bytesBits bs).length = 8 * bs.length := flatMap_emit_length bs

/-- The engine inflates, at a byte boundary: the BitReader has `bytes` ahead. -/
structure InflatingBytes (e : Eng) (out bytes : List Byte) : Prop where
  inflating : Inflating e out (bytesBits bytes)
  boundary : e.br.nbits % 8 = 0

/-- Bits ahead that are whole bytes are at a byte boundary. -/
theorem Inflating.toBytes {e : Eng} {out bytes : List Byte} (h : Inflating e out (bytesBits bytes)) : InflatingBytes e out bytes := by
  refine ⟨h, ?_⟩
  have := bitsAhead_length e
  rw [h.ahead, bytesBits_length] at this
  omega

/-- `br_byte(err)` takes the next byte. -/
theorem InflatingBytes.brByte {e : Eng} {out bytes : List Byte} {b : Byte} (h : InflatingBytes e out (b :: bytes)) (err : Nat) :
    ∃ f, brByte err e = .ok b.toNat f ∧ ReadsOn e f ∧ InflatingBytes f out bytes := by
  have ha := h.inflating.ahead
  rw [bytesBits_cons] at ha
  obtain ⟨f, hf, ro, cf, bf, nf⟩ := brByte_ok (err := err) h.inflating.reads h.boundary
    (by rw [ha, List.length_append, emit_length]; omega)
  rw [ha, List.take_left' (emit_length _ _), bitsValue_emit, Nat.mod_eq_of_lt b.isLt] at hf
  rw [ha, List.drop_left' (emit_length _ _)] at bf
  exact ⟨f, hf, ro, h.inflating.readsOn ro cf bf, nf⟩

/-- `br_align()` drops the padding before whole bytes. -/
theorem Inflating.brAlign {e : Eng} {out bytes : List Byte} {pad : List Bool} (h : Inflating e out (pad ++ bytesBits bytes))
    (hp : pad.length < 8) :
    ∃ k f, brAlign e = .ok k f ∧ ReadsOn e f ∧ InflatingBytes f out bytes := by
  obtain ⟨f, hf, ro, cf, bf, nf⟩ := brAlign_ok h.reads
  have hl := bitsAhead_length e
  rw [h.ahead, List.length_append, bytesBits_length] at hl
  rw [h.ahead, List.drop_left' (by omega)] at bf
  exact ⟨_, f, hf, ro, h.readsOn ro cf bf, nf⟩

/-- Stored bytes join the output (42_lz77_decompressor.md R203). -/
theorem copyStored_ok (data : List Byte) {bytes out : List Byte} {e : Eng} (h : InflatingBytes e out (data ++ bytes))
    (room : out.length + data.length ≤ e.inf.cap) :
    ∃ f, copyStored data.length e = .ok () f ∧ Expands e f data.length ∧ InflatingBytes f (out ++ data) bytes := by
  induction data generalizing e out with
  | nil => exact ⟨e, rfl, (ReadsOn.refl e).expands, by rwa [List.append_nil]⟩
  | cons b data ih =>
    rw [List.length_cons] at room ⊢
    obtain ⟨f, hf, ro, jf⟩ := h.brByte 0x0203
    have hlen := jf.inflating.len
    have hrange := jf.inflating.range
    have hcap : f.inf.cap = e.inf.cap := by rw [ro.same]
    obtain ⟨g, hg, eg, ig⟩ := jf.inflating.outPut b (by omega)
    have hgcap : g.inf.cap = e.inf.cap := by rw [eg.inf, hcap]
    obtain ⟨k, hk, ek, jk⟩ := ih ig.toBytes (by rw [List.length_append, List.length_singleton]; omega)
    refine ⟨k, ?_, ?_, by rwa [List.append_assoc] at jk⟩
    · rw [outPut, EngM.bind_ok (outReserve_room (by omega))] at hg
      rw [copyStored, EngM.bind_ok hf, show byte b.toNat = b from BitVec.ofNat_toNat _ _, EngM.bind_ok hg, hk]
    · have := (ro.expands_trans eg).trans ek
      rwa [Nat.add_comm 1] at this

/-- The four bytes of a stored block's LEN and NLEN (42_lz77_decompressor.md R203). -/
def storedHead (len : Nat) : List Byte := [byte len, byte (len / 256), byte (len ^^^ 0xFFFF), byte ((len ^^^ 0xFFFF) / 256)]

theorem byte_pair {v : Nat} (h : v < 65536) : (byte v).toNat + 256 * (byte (v / 256)).toNat = v := by
  rw [byte_toNat, byte_toNat]
  omega

/-- A stored block appends its data (42_lz77_decompressor.md R194, R203). -/
theorem infBlock_stored {e : Eng} {out data bytes : List Byte} {final : Bool} {pad : List Bool} (hp : pad.length < 8)
    (hd : data.length < 65536)
    (h : Inflating e out (final :: (emit 0 2 ++ (pad ++ bytesBits (storedHead data.length ++ (data ++ bytes))))))
    (room : out.length + data.length ≤ e.inf.cap) :
    ∃ f, infBlock e = .ok (final.toNat, 0) f ∧ Expands e f data.length ∧ InflatingBytes f (out ++ data) bytes := by
  obtain ⟨a, b, ha, hb, rb, cb, bb⟩ := blockHeader_ok (by omega) h.reads h.ahead
  obtain ⟨k, f, hf, rf, jf⟩ := (h.readsOn rb cb bb).brAlign hp
  obtain ⟨f0, hf0, r0, j0⟩ := jf.brByte 0x0205
  obtain ⟨f1, hf1, r1, j1⟩ := j0.brByte 0x0205
  obtain ⟨f2, hf2, r2, j2⟩ := j1.brByte 0x0205
  obtain ⟨f3, hf3, r3, j3⟩ := j2.brByte 0x0205
  have ro := ((((rb.trans rf).trans r0).trans r1).trans r2).trans r3
  have hcap : f3.inf.cap = e.inf.cap := by rw [ro.same]
  have hlen := j3.inflating.len
  obtain ⟨g, hg, eg, jg⟩ := copyStored_ok data j3 (by omega)
  refine ⟨g, ?_, ro.expands_trans eg, jg⟩
  · rw [infBlock, EngM.bind_ok ha, EngM.bind_ok hb, if_pos rfl, EngM.bind_ok (a := ()) (e' := g)]
    · rfl
    · have hx : data.length ^^^ 0xFFFF < 65536 := Nat.xor_lt_two_pow (n := 16) hd (by omega)
      rw [infStored, EngM.bind_ok hf, EngM.bind_ok hf0, EngM.bind_ok hf1, EngM.bind_ok hf2, EngM.bind_ok hf3]
      simp only [byte_pair hd, byte_pair hx, decide_true]
      rw [ensure_bind rfl, EngM.bind_ok (outReserve_room (by omega)), hg]

end Sys2Proof.Machine
end

section
/-! SUPPORT. The inflate engine inverts the encoder: a zlib stream of `compress` expands to the data (46_deflate_encoder.md R353,
R355; 42_lz77_decompressor.md R211, R213). -/

namespace Sys2Proof.Machine

/-! ### Numbers as bytes -/

/-- The four bytes of a 32-bit number, read back (00_scope.md R10). -/
theorem be32_putBe32 {v : Nat} (h : v < 0x100000000) (rest : List Byte) : be32 (putBe32 v ++ rest) 0 = v := by
  simp only [putBe32, be32, be16, byteAt, List.cons_append, List.getD_cons_zero, List.getD_cons_succ, Nat.zero_add, byte_toNat]
  omega

theorem putBe32_length (v : Nat) : (putBe32 v).length = 4 := rfl

/-! ### Stored blocks -/

/-- The first bits of a stored block: its last-block bit, its type, and five bits of padding (46_deflate_encoder.md R351). -/
theorem emit_storedHeader (final : Bool) :
    emit (byte (if final then 1 else 0)).toNat 8 = final :: (emit 0 2 ++ List.replicate 5 false) := by
  cases final <;> rfl

theorem storedBlocks_succ (n : Nat) {d : List Byte} (hd : d ≠ []) :
    storedBlocks (n + 1) d =
      let bl := min d.length Config.storedMax
      byte (if decide (d.length = bl) then 1 else 0) :: (storedHead bl ++ (d.take bl ++ storedBlocks n (d.drop bl))) := by
  rw [storedBlocks, if_neg hd]
  simp only [decide_eq_true_eq]
  rfl

/-- The blocks hold the data and more. -/
theorem length_le_storedBlocks (n : Nat) {d : List Byte} (hn : d.length ≤ n) : d.length ≤ (storedBlocks n d).length := by
  induction n generalizing d with
  | zero => omega
  | succ n ih =>
    by_cases hd : d = []
    · simp [hd]
    · have hpos := List.length_pos_iff.2 hd
      have := ih (d := d.drop (min d.length Config.storedMax)) (by rw [List.length_drop, Config.storedMax]; omega)
      rw [storedBlocks_succ n hd]
      simp only [List.length_cons, List.length_append, List.length_take, List.length_drop] at this ⊢
      omega

/-- Stored blocks put out their data, up to the last one (42_lz77_decompressor.md R211). -/
theorem infBlocks_stored {tail : List Byte} (n : Nat) {fuel : Nat} {e : Eng} {out d : List Byte} (hd : d ≠ []) (hn : d.length ≤ n)
    (hfuel : d.length ≤ fuel) (room : out.length + d.length ≤ e.inf.cap)
    (h : Inflating e out (bytesBits (storedBlocks n d ++ tail))) :
    ∃ f, infBlocks fuel e = .ok () f ∧ Expands e f d.length ∧ Inflating f (out ++ d) (bytesBits tail) := by
  have hpos := List.length_pos_iff.2 hd
  induction n generalizing fuel e out d with
  | zero => omega
  | succ n ih =>
    obtain ⟨m, rfl⟩ := Nat.exists_eq_succ_of_ne_zero (Nat.ne_of_gt (Nat.lt_of_lt_of_le hpos hfuel))
    rw [storedBlocks_succ n hd] at h
    generalize hbl : min d.length Config.storedMax = bl at h
    rw [Config.storedMax] at hbl
    have hlen : (d.take bl).length = bl := by rw [List.length_take]; omega
    dsimp only at h
    rw [List.cons_append, bytesBits_cons, emit_storedHeader, ← hlen, List.cons_append, List.append_assoc, List.append_assoc,
      List.append_assoc, hlen] at h
    obtain ⟨f, hf, ef, jf⟩ := infBlock_stored (data := d.take bl) (pad := List.replicate 5 false) (by simp) (by omega) (by rw [hlen]; exact h)
      (by rw [hlen]; omega)
    rw [hlen] at ef
    by_cases hlast : d.length = bl
    · have hnil : d.drop bl = [] := List.drop_of_length_le (by omega)
      have hall : d.take bl = d := List.take_of_length_le (by omega)
      have hend : storedBlocks n (d.drop bl) = [] := by rw [hnil]; cases n <;> rfl
      rw [hall, hend] at jf
      refine ⟨f, ?_, by rw [hlast]; exact ef, jf.inflating⟩
      rw [infBlocks, EngM.bind_ok hf, decide_eq_true hlast]
      rfl
    · have hcap : f.inf.cap = e.inf.cap := by rw [ef.inf]
      have hdl : (d.drop bl).length = d.length - bl := List.length_drop
      have hne : d.drop bl ≠ [] := List.length_pos_iff.1 (by omega)
      obtain ⟨g, hg, eg, jg⟩ := ih (fuel := m) hne (by omega) (by omega) (by rw [List.length_append, hcap]; omega) jf.inflating
        (List.length_pos_iff.2 hne)
      refine ⟨g, ?_, ?_, by rwa [List.append_assoc, List.take_append_drop] at jg⟩
      · rw [infBlocks, EngM.bind_ok hf, decide_eq_false hlast]
        exact hg
      · have := ef.trans eg
        rwa [hdl, Nat.add_sub_cancel' (by omega)] at this

/-! ### The encoder's blocks -/

/-- The blocks of `compress`: stored ones where the fixed-Huffman block would expand the data (46_deflate_encoder.md R353). -/
def deflated (d : List Byte) (q : Nat) : List Byte :=
  if expands (zlibHead ++ fixedBlock d q).length d.length then storedBlocks d.length d else fixedBlock d q

theorem compress_eq (d : List Byte) (q : Nat) :
    compress d q = zlibHead ++ (deflated d q ++ putBe32 (adler32 1 d).toNat) := by
  simp only [compress, deflated]
  split <;> rw [List.append_assoc]

/-- The encoder's blocks put out the data, and leave at most the padding of the last byte before what follows
(42_lz77_decompressor.md R211). -/
theorem infBlocks_deflated {e : Eng} {d tail : List Byte} {q : Nat} (room : d.length ≤ e.inf.cap)
    (h : Inflating e [] (bytesBits (deflated d q ++ tail))) :
    ∃ h0 h1 f pad, infBlocks (e.bitsLeft + 1) e = .ok () f ∧ Expands { e with ht0 := h0, ht1 := h1 } f d.length ∧
      pad.length < 8 ∧ Inflating f d (pad ++ bytesBits tail) := by
  rw [bitsLeft_eq h.reads, h.ahead, bytesBits_length]
  rw [deflated] at h ⊢
  split at h <;> rename_i hx
  · rw [if_pos hx]
    have hd : d ≠ [] := by
      simp only [expands, decide_eq_true_eq] at hx
      exact List.length_pos_iff.1 hx.1
    have hl := length_le_storedBlocks d.length (Nat.le_refl d.length)
    obtain ⟨f, hf, ef, jf⟩ := infBlocks_stored d.length hd (Nat.le_refl _)
      (fuel := 8 * (storedBlocks d.length d ++ tail).length + 1) (by rw [List.length_append]; omega)
      (by rw [List.length_nil, Nat.zero_add]; exact room) h
    exact ⟨e.ht0, e.ht1, f, [], hf, ef, by simp, jf⟩
  · rw [if_neg hx]
    obtain ⟨hv, hexp, -⟩ := lz77_expandTo d q
    obtain ⟨k, hk, hpack⟩ := packBits_bits (emit 1 1 ++ emit 1 2 ++ (lz77 d q).flatMap Token.bits ++ emitSym 256)
    rw [bytesBits_append, fixedBlock, bytesBits, hpack, show emit 1 1 = [true] by rfl] at h
    obtain ⟨h0, h1, f, hf, ef, jf⟩ := infBlock_fixed (final := true) (ts := lz77 d q) (rest := List.replicate k false ++ bytesBits tail)
      (by simpa only [List.append_assoc, List.cons_append, List.nil_append] using h) hv (by rw [hexp]; exact room)
    have hsize := length_foldl_apply (lz77 d q) []
    rw [hexp, List.length_nil, Nat.zero_add] at hsize
    rw [hexp] at jf
    rw [← hsize] at ef
    refine ⟨h0, h1, f, List.replicate k false, ?_, ef, by simpa using hk, jf⟩
    rw [infBlocks, EngM.bind_ok hf]
    rfl

/-! ### The zlib stream -/

/-- The encoder's zlib header passes the checks (42_lz77_decompressor.md R202). -/
theorem zlibHeader_ok {e : Eng} {out bytes : List Byte} (h : InflatingBytes e out (zlibHead ++ bytes)) :
    ∃ r f, zlibHeader e = .ok r f ∧ ReadsOn e f ∧ InflatingBytes f out bytes := by
  obtain ⟨f, hf, rf, jf⟩ := h.brByte 0x0114
  obtain ⟨g, hg, rg, jg⟩ := jf.brByte 0x0114
  refine ⟨(0x78, 0x5E), g, ?_, rf.trans rg, jg⟩
  rw [zlibHeader, EngM.bind_ok hf, EngM.bind_ok hg, ensure_bind (by decide), ensure_bind (by decide), ensure_bind (by decide)]
  rfl

/-- The Adler-32 trailer of the output is accepted (42_lz77_decompressor.md R213). -/
theorem adlerVerify_ok {e : Eng} {d tail : List Byte} {pad : List Bool} (hp : pad.length < 8) (room : d.length ≤ e.inf.cap)
    (h : Inflating e d (pad ++ bytesBits (putBe32 (adler32 1 d).toNat ++ tail))) :
    ∃ f, adlerVerify e = .ok () f ∧ ReadsOn e f ∧ InflatingBytes f d tail := by
  obtain ⟨k, f, hf, rf, jf⟩ := h.brAlign hp
  obtain ⟨f0, hf0, r0, j0⟩ := jf.brByte 0x0205
  obtain ⟨f1, hf1, r1, j1⟩ := j0.brByte 0x0205
  obtain ⟨f2, hf2, r2, j2⟩ := j1.brByte 0x0205
  obtain ⟨f3, hf3, r3, j3⟩ := j2.brByte 0x0205
  have ro := (((rf.trans r0).trans r1).trans r2).trans r3
  have hcap : f3.inf.cap = e.inf.cap := by rw [ro.same]
  have hlen := j3.inflating.len
  have hrange := j3.inflating.range
  refine ⟨f3, ?_, ro, j3⟩
  rw [adlerVerify, EngM.bind_ok hf, EngM.bind_ok hf0, EngM.bind_ok hf1, EngM.bind_ok hf2, EngM.bind_ok hf3, getE_bind,
    EngM.bind_ok (memRead_ok (by omega)), hlen, j3.inflating.data]
  have back : ∀ b : Byte, byte b.toNat = b := fun b => BitVec.ofNat_toNat _ _
  simp only [back]
  rw [show be32 [_, _, _, _] 0 = (adler32 1 d).toNat from be32_putBe32 (adler32 1 d).isLt [], decide_eq_true rfl, ensure_true]

/-- The stream of `compress`, its two header bytes left out where a raw one is asked for, inflates to the data
(42_lz77_decompressor.md R211; 46_deflate_encoder.md R353). -/
theorem inflate_compress {z va : Bool} {e : Eng} {d tail : List Byte} {q : Nat} (room : d.length ≤ e.inf.cap)
    (h : Inflating e [] (bytesBits ((compress d q).drop (if z then 0 else 2) ++ tail))) :
    ∃ h0 h1 f bits, inflate z va e = .ok () f ∧ Expands { e with ht0 := h0, ht1 := h1 } f d.length ∧ Inflating f d bits := by
  rw [compress_eq] at h
  -- after the zlib header, or at once
  obtain ⟨g, hg, rg, ig⟩ : ∃ g, inflate z va e =
      (infBlocks (g.bitsLeft + 1) >>= fun _ => if z && va then adlerVerify else pure ()) g ∧ ReadsOn e g ∧
      Inflating g [] (bytesBits (deflated d q ++ (putBe32 (adler32 1 d).toNat ++ tail))) := by
    rw [inflate, EngM.ite_run]
    cases z with
    | true =>
      rw [if_pos rfl, List.drop_zero, List.append_assoc, List.append_assoc] at h
      obtain ⟨r, g, hg, rg, jg⟩ := zlibHeader_ok h.toBytes
      exact ⟨g, EngM.bind_ok hg, rg, jg.inflating⟩
    | false =>
      rw [if_neg (by decide), List.drop_left' (i := 2) (l₁ := zlibHead) rfl, List.append_assoc] at h
      exact ⟨e, rfl, .refl e, h⟩
  have hgcap : g.inf.cap = e.inf.cap := by rw [rg.same]
  obtain ⟨h0, h1, f, pad, hf, ef, hp, jf⟩ := infBlocks_deflated (by rw [hgcap]; exact room) ig
  have eef : Expands { e with ht0 := h0, ht1 := h1 } f d.length := by
    refine ⟨?_, fun x hx => ?_⟩
    · rw [ef.same, rg.same]
    · rw [ef.outside x (by rw [rg.same]; exact hx), rg.same]
  rw [hg, EngM.bind_ok hf]
  cases hzva : z && va with
  | false => exact ⟨h0, h1, f, _, rfl, eef, jf⟩
  | true =>
    have hfcap : f.inf.cap = e.inf.cap := by rw [eef.inf]
    obtain ⟨k, hk, rk, jk⟩ := adlerVerify_ok hp (by rw [hfcap]; exact room) jf
    exact ⟨h0, h1, k, _, hk, eef.trans rk.expands, jk.inflating⟩

end Sys2Proof.Machine
end

section
/-! SUPPORT. The chunk parser on a MEM-mode source: what it reads, and where a sound chunk leaves it (43_png_chunk_parser.md R243 to
R256). -/

namespace Sys2Proof.Machine

/-! ### The bytes ahead of a MEM-mode source -/

/-- The ByteSource is in MEM mode and has the bytes `bytes` ahead of it (10_state.md R41). -/
structure SourceAt (e : Eng) (bytes : List Byte) : Prop where
  mode : e.bs.mode = .mem
  ok : SourceOk e.bs
  ahead : e.mem.read (e.bs.base + e.bs.pos) (e.bs.len - e.bs.pos) = bytes

/-- The engine after the ByteSource has given `n` bytes. -/
def Eng.advance (e : Eng) (n : Nat) : Eng := { e with bs := { e.bs with pos := e.bs.pos + n } }

@[simp] theorem Eng.advance_zero (e : Eng) : e.advance 0 = e := rfl

@[simp] theorem Eng.advance_advance (e : Eng) (n m : Nat) : (e.advance n).advance m = e.advance (n + m) := by
  simp [Eng.advance, Nat.add_assoc]

/-- The bytes ahead depend on the source and on the memory of its slice. -/
theorem SourceAt.congr {e f : Eng} {bytes : List Byte} (h : SourceAt e bytes) (hb : f.bs = e.bs)
    (hm : ∀ x, e.bs.base ≤ x → x < e.bs.base + e.bs.len → f.mem.get x = e.mem.get x) : SourceAt f bytes := by
  refine ⟨by rw [hb]; exact h.mode, by rw [hb]; exact h.ok, ?_⟩
  rw [← h.ahead, hb]
  exact Memory.read_congr fun i hi => hm _ (by omega) (by omega)

/-- The next byte of the source (40_bitstream_reader.md R131). -/
theorem bsGet_ok {e : Eng} {b : Byte} {bytes : List Byte} (h : SourceAt e (b :: bytes)) :
    bsGet e = .ok (some b) (e.advance 1) ∧ SourceAt (e.advance 1) bytes := by
  obtain ⟨hm, ok, ha⟩ := h
  obtain ⟨k, hk, hb, hr⟩ := Memory.read_cons ha
  have hs := ok.slice hm
  refine ⟨?_, hm, ⟨fun _ => ⟨hs.1, by simp only [Eng.advance]; omega⟩, ok.buffer, ok.held⟩, ?_⟩
  · rw [bsGet, getE_bind]
    simp only [hm]
    rw [EngM.ite_run, if_pos (by omega), EngM.bind_ok (memByte_ok (by omega)), hb, Eng.advance]
    rfl
  · rw [← hr]
    simp only [Eng.advance]
    congr 1
    omega

/-- `bs_getn(n)` gives the next `n` bytes (40_bitstream_reader.md R131). -/
theorem bsGetN_ok (d : List Byte) {e : Eng} {rest : List Byte} (h : SourceAt e (d ++ rest)) :
    bsGetN d.length e = .ok d (e.advance d.length) ∧ SourceAt (e.advance d.length) rest := by
  induction d generalizing e with
  | nil => exact ⟨rfl, h⟩
  | cons b d ih =>
    obtain ⟨hg, hs⟩ := bsGet_ok h
    obtain ⟨hn, hr⟩ := ih hs
    rw [Eng.advance_advance, Nat.add_comm] at hn hr
    refine ⟨?_, hr⟩
    rw [List.length_cons, bsGetN, EngM.bind_ok hg]
    simp only []
    rw [EngM.bind_ok hn]
    rfl

/-- `need(n, err)` gives the next `n` bytes where there are so many (43_png_chunk_parser.md R243). -/
theorem need_ok {d rest : List Byte} {e : Eng} (err : Nat) (h : SourceAt e (d ++ rest)) :
    need d.length err e = .ok d (e.advance d.length) ∧ SourceAt (e.advance d.length) rest := by
  obtain ⟨hn, hs⟩ := bsGetN_ok d h
  refine ⟨?_, hs⟩
  rw [need, EngM.bind_ok hn, ensure_bind (by simp), EngM.pure_run]

/-! ### The parser state -/

theorem getP_run {e : Eng} {p : Png} (h : e.png = some p) : getP e = .ok p e := by
  rw [getP, getE_bind, h]
  rfl

theorem modP_run (f : Png → Png) {e : Eng} {p : Png} (h : e.png = some p) : modP f e = .ok () { e with png := some (f p) } := by
  rw [modP, modE_run, h]
  rfl

/-! ### Sound chunks -/

/-- The CRC of a sound chunk is accepted (43_png_chunk_parser.md R255). -/
theorem chunkCrc_ok {c : Snapshot} {ch : Chunk} {e : Eng} {rest : List Byte} (hs : ch.Sound c.verifyCrc)
    (h : SourceAt e (ch.crc ++ rest)) :
    chunkCrc c ch.type ch.data e = .ok () (e.advance 4) ∧ SourceAt (e.advance 4) rest := by
  obtain ⟨hn, hr⟩ := need_ok 0x0201 h
  rw [hs.crcLength] at hn hr
  refine ⟨?_, hr⟩
  have hcrc : (!c.verifyCrc || decide (be32 ch.crc 0 = (crc32 0 (putBe32 ch.type ++ ch.data)).toNat)) = true := by
    cases hv : c.verifyCrc with
    | false => rfl
    | true => simpa using hs.crc hv
  rw [chunkCrc, EngM.bind_ok hn, hcrc, ensure_true]

/-- The header of a sound chunk, its length and type, is read and its length accepted (43_png_chunk_parser.md R245). -/
theorem chunks_header {c : Snapshot} {v : Bool} {ch : Chunk} {e : Eng} {rest : List Byte} {p : Png} (fuel : Nat) (hs : ch.Sound v)
    (hp : e.png = some p) (hc : ch.type ≠ typeCgBI) (hfirst : p.first = true → ch.type = typeIHDR)
    (h : SourceAt e (ch.bytes ++ rest)) :
    chunks c (fuel + 1) e =
        (if ch.type = typeIEND then iend c ch.data.length
         else chunk c ch.type ch.data.length >>= fun _ => chunks c fuel) (e.advance 8) ∧
      SourceAt (e.advance 8) (ch.data ++ (ch.crc ++ rest)) := by
  have hlen := hs.data
  have htype := hs.type
  rw [Chunk.bytes, List.append_assoc, List.append_assoc] at h
  obtain ⟨hn, hr⟩ := need_ok (d := putBe32 ch.data.length ++ putBe32 ch.type) 0x0201 h
  rw [show (putBe32 ch.data.length ++ putBe32 ch.type).length = 8 by rfl] at hn hr
  have hl : be32 (putBe32 ch.data.length ++ putBe32 ch.type) 0 = ch.data.length := be32_putBe32 (by omega) _
  have ht : be32 (putBe32 ch.data.length ++ putBe32 ch.type) 4 = ch.type := by
    have := be32_putBe32 htype []
    rwa [List.append_nil] at this
  have hf : (!p.first || decide (ch.type = typeIHDR)) = true := by
    cases hpf : p.first with
    | false => rfl
    | true => simpa using hfirst hpf
  refine ⟨?_, hr⟩
  rw [chunks, EngM.bind_ok hn, hl, ht, ensure_bind (by simpa using hlen), if_neg hc, EngM.bind_ok (getP_run (e := e.advance 8) hp),
    ensure_bind hf]

/-- The parser state after an IHDR with the data `d` (43_png_chunk_parser.md R246). -/
def Png.withHeader (p : Png) (d : List Byte) : Png :=
  { p with
    first := false, w := be32 d 0, h := be32 d 4, depth := byteAt d 8, ctype := byteAt d 9, interlace := byteAt d 12
    imgN := colourChannels (byteAt d 9) }

/-- The checks of a good header pass (43_png_chunk_parser.md R246). -/
theorem ihdrCheck_ok {d : List Byte} {e : Eng} (h : HeaderOk d) : ihdrCheck d e = .ok () e := by
  obtain ⟨-, hw, hh, hdepth, hctype, hmethods, hinter, harea⟩ := h
  have hdim : be32 d 0 ≤ Config.maxDim ∧ be32 d 4 ≤ Config.maxDim := ⟨hw.2, hh.2⟩
  have hnz : be32 d 0 ≠ 0 ∧ be32 d 4 ≠ 0 := by omega
  have hd : depthOk (byteAt d 8) = true := by rcases hdepth with h | h | h | h <;> rw [h] <;> rfl
  have ht : ctypeOk (byteAt d 9) = true := by rcases hctype with h | h | h | h | h <;> rw [h] <;> rfl
  rw [ihdrCheck, ensure_bind (decide_eq_true hdim), ensure_bind hd, ensure_bind ht, ensure_bind (decide_eq_true hmethods.1),
    ensure_bind (decide_eq_true hmethods.2), ensure_bind (decide_eq_true hinter), ensure_bind (decide_eq_true hnz),
    decide_eq_true (show be32 d 0 * be32 d 4 * 4 ≤ Config.sizeCeiling from harea), ensure_true]

/-- A sound IHDR at the beginning (43_png_chunk_parser.md R246). -/
theorem ihdr_ok {c : Snapshot} {ch : Chunk} {e : Eng} {rest : List Byte} {p : Png} (hs : ch.Sound c.verifyCrc)
    (ht : ch.type = typeIHDR) (hd : HeaderOk ch.data) (hp : e.png = some p) (hf : p.first = true)
    (h : SourceAt e (ch.data ++ (ch.crc ++ rest))) :
    ihdr c ch.data.length e =
        .ok () { e.advance (ch.data.length + 4) with png := some (p.withHeader ch.data) } ∧
      SourceAt (e.advance (ch.data.length + 4)) rest := by
  obtain ⟨hn, hr⟩ := need_ok 0x0201 h
  let e' : Eng := { e.advance ch.data.length with
    png := some { p with
      w := be32 ch.data 0, h := be32 ch.data 4, depth := byteAt ch.data 8, ctype := byteAt ch.data 9
      interlace := byteAt ch.data 12, imgN := colourChannels (byteAt ch.data 9) } }
  obtain ⟨hcrc, hr'⟩ := chunkCrc_ok (e := e') hs (hr.congr rfl fun _ _ _ => rfl)
  refine ⟨?_, hr'.congr rfl fun _ _ _ => rfl⟩
  rw [ihdr, EngM.bind_ok (getP_run hp), ensure_bind hf, ensure_bind (decide_eq_true hd.length), ← hd.length, EngM.bind_ok hn,
    EngM.bind_ok (ihdrCheck_ok hd), EngM.bind_ok (modP_run _ (e := e.advance ch.data.length) hp), ← ht, EngM.bind_ok hcrc]
  rfl

end Sys2Proof.Machine
end

section
/-! SUPPORT. The chunks of a written PNG file: IHDR, one IDAT that fills the accumulator, and IEND (43_png_chunk_parser.md R246, R252,
R254), with the allocator's answers that keep the host's duty. -/

namespace Sys2Proof.Machine

/-! ### The frame of a PNG_DECODE -/

/-- `f` is `e` as the steps of a PNG_DECODE change it: slot 2, the stream port, the declared regions and the source but for its
position are as they were. -/
structure PngFrame (e f : Eng) : Prop where
  same : f = { e with
    mem := f.mem, bs := { e.bs with pos := f.bs.pos }, srcEof := f.srcEof, br := f.br, ht0 := f.ht0, ht1 := f.ht1
    inf := f.inf, png := f.png, live := f.live, allocReq := f.allocReq, allocSize := f.allocSize, allocPtr := f.allocPtr
    moves := f.moves, written := f.written, journal := f.journal }

theorem PngFrame.trans {e f g : Eng} (h : PngFrame e f) (h' : PngFrame f g) : PngFrame e g := ⟨by rw [h'.same, h.same]⟩

theorem PngFrame.regions {e f : Eng} (h : PngFrame e f) : f.regions = e.regions := by rw [h.same]

/-- After some steps of a PNG_DECODE from `e`: LIVE and the answers to come, and no request is pending. -/
structure PngStep (e f : Eng) (live : List Buf) (moves : List PortMove) : Prop where
  frame : PngFrame e f
  live : f.live = live
  moves : f.moves = moves
  allocReq : f.allocReq = 0

theorem PngStep.trans {e f g : Eng} {l l' : List Buf} {m m' : List PortMove} (h : PngStep e f l m) (h' : PngStep f g l' m') :
    PngStep e g l' m' := ⟨h.frame.trans h'.frame, h'.live, h'.moves, h'.allocReq⟩

/-! ### Granted buffers -/

/-- A buffer of `n` bytes at `v` that the allocator may give where the command has declared the regions `rs`, whatever is in LIVE
(20_memory.md R77). -/
structure Fresh (rs : List Region) (v : Word) (n : Nat) : Prop where
  nonzero : v ≠ 0
  size : n ≤ Config.sizeCeiling
  range : v.toNat + n ≤ Config.addrSpace
  regions : ∀ r ∈ rs, overlap r.addr r.len v.toNat n = false

/-- The allocator's answer `v` to a request for `n` bytes keeps the host's duty (20_memory.md R77). -/
structure Grants (e : Eng) (v : Word) (n : Nat) : Prop extends Fresh e.regions v n where
  live : ∀ b ∈ e.live, overlap b.addr b.size v.toNat n = false

/-- With one buffer in LIVE the duty is to that buffer. -/
theorem Fresh.grants {e : Eng} {v : Word} {n a m : Nat} (h : Fresh e.regions v n) (hl : e.live = [⟨a, m⟩])
    (hap : overlap a m v.toNat n = false) : Grants e v n := by
  refine ⟨h, fun b hb => ?_⟩
  rw [hl, List.mem_singleton] at hb
  rw [hb]
  exact hap

theorem Grants.allocOk {e : Eng} {v : Word} {n : Nat} (h : Grants e v n) : e.allocOk e.live v.toNat n = true := by
  have hl : e.live.any (fun b => overlap b.addr b.size v.toNat n) = false :=
    List.any_eq_false.2 fun b hb => by rw [h.live b hb]; decide
  have hr : e.regions.any (fun t => t.input && overlap t.addr t.len v.toNat n) = false :=
    List.any_eq_false.2 fun t ht => by rw [h.regions t ht]; simp
  rw [Eng.allocOk, hl, hr, decide_eq_true h.range]
  rfl

/-- The engine after a granted `Alloc(n)`, with the answers `ms` to come (20_memory.md R76). -/
def Eng.granted (e : Eng) (v : Word) (n : Nat) (ms : List PortMove) : Eng :=
  { e.answered with
    allocReq := 0, allocSize := BitVec.ofNat 32 n, allocPtr := 0, moves := ms, live := e.live ++ [⟨v.toNat, n⟩] }

/-- The engine after a `Free(p)`, with the answers `ms` to come (20_memory.md R76). -/
def Eng.freed (e : Eng) (p : Nat) (ms : List PortMove) : Eng :=
  { e.answered with
    allocReq := 0, allocSize := 0, allocPtr := BitVec.ofNat 32 p, moves := ms, live := dropBuf p e.live }

@[simp] theorem Eng.granted_mem (e : Eng) (v : Word) (n : Nat) (ms : List PortMove) : (e.granted v n ms).mem = e.mem := rfl

@[simp] theorem Eng.granted_live (e : Eng) (v : Word) (n : Nat) (ms : List PortMove) :
    (e.granted v n ms).live = e.live ++ [⟨v.toNat, n⟩] := rfl

@[simp] theorem Eng.freed_mem (e : Eng) (p : Nat) (ms : List PortMove) : (e.freed p ms).mem = e.mem := rfl

theorem portAlloc_granted {e : Eng} {v : Word} {n : Nat} {ms : List PortMove} (hm : e.moves = .allocResp v :: ms)
    (h : Grants e v n) : portAlloc n e = .ok v.toNat (e.granted v n ms) :=
  portAlloc_ok h.size hm h.nonzero h.allocOk

theorem portFree_freed {e : Eng} {p : Nat} {v : Word} {ms : List PortMove} (hm : e.moves = .allocResp v :: ms) :
    portFree p e = .ok () (e.freed p ms) := portFree_ok hm

theorem Eng.freed_step (e : Eng) (p : Nat) (ms : List PortMove) : PngStep e (e.freed p ms) (dropBuf p e.live) ms :=
  ⟨⟨rfl⟩, rfl, rfl, rfl⟩

/-! ### IDAT and IEND -/

/-- The parser state after a first IDAT of `n` bytes whose accumulator lies at `a` with room for `cap` bytes
(43_png_chunk_parser.md R252). -/
def Png.withIdat (p : Png) (a n cap : Nat) : Png :=
  { p with idatSeen := true, idat := some a, idatLen := n, idatCap := cap }

/-- A first sound IDAT with data: an accumulator of at least `IDAT_MIN_CAP` bytes is allocated, and holds the data
(43_png_chunk_parser.md R252). -/
theorem idat_first_ok {c : Snapshot} {ch : Chunk} {e : Eng} {rest : List Byte} {p : Png} {v : Word} {ms : List PortMove}
    (hs : ch.Sound c.verifyCrc) (ht : ch.type = typeIDAT) (hne : ch.data ≠ []) (hp : e.png = some p)
    (hct : p.ctype ≠ 3 ∨ p.palLen ≠ 0) (hcap : p.idatCap = 0) (hlen : p.idatLen = 0) (hm : e.moves = .allocResp v :: ms)
    (hg : Grants e v (max 4096 ch.data.length)) (hreg : ⟨e.bs.base, e.bs.len, true⟩ ∈ e.regions)
    (h : SourceAt e (ch.data ++ (ch.crc ++ rest))) :
    ∃ f, idat c ch.data.length e = .ok () f ∧ PngStep e f (e.live ++ [⟨v.toNat, max 4096 ch.data.length⟩]) ms ∧
      f.mem = e.mem.write v.toNat ch.data ∧ f.png = some (p.withIdat v.toNat ch.data.length (max 4096 ch.data.length)) ∧
      SourceAt f rest := by
  generalize hn : max 4096 ch.data.length = n at *
  have hpos := List.length_pos_iff.2 hne
  have hsize : p.idatLen + ch.data.length = ch.data.length := by rw [hlen, Nat.zero_add]
  have hceil : ch.data.length ≤ Config.sizeCeiling := hs.data
  -- the accumulator is reserved
  let e1 : Eng := { e with png := some { p with idatSeen := true } }
  let e2 : Eng := { e1.granted v n ms with png := some { p with idatSeen := true, idat := some v.toNat, idatCap := n } }
  have hres : idatReserve (p.idatLen + ch.data.length) ch.data.length e1 = .ok () e2 := by
    have hc : idatCapacity p.idatCap ch.data.length ch.data.length = n := by
      rw [hcap, idatCapacity, if_pos rfl, growCap, Config.idatMinCap, if_neg (by omega), hn]
    rw [hsize, idatReserve, EngM.bind_ok (getP_run (e := e1) rfl)]
    dsimp only
    rw [EngM.ite_run, if_pos (by omega), ensure_bind (decide_eq_true hceil), hc, if_pos hcap,
      EngM.bind_ok (portAlloc_granted (e := e1) hm ⟨hg.toFresh, hg.live⟩),
      modP_run _ (e := e1.granted v n ms) rfl]
  -- the data is read, and written to it
  obtain ⟨hneed, hsrc⟩ := need_ok (e := e2) 0x0201 (h.congr rfl fun _ _ _ => rfl)
  let e3 : Eng := { e2.advance ch.data.length with
    mem := e.mem.write v.toNat ch.data
    written := noteWrite v.toNat ch.data.length false e.written
    journal := journalBytes v.toNat ch.data [] }
  have hwrite : memWrite false (v.toNat + p.idatLen) ch.data (e2.advance ch.data.length) = .ok () e3 := by
    rw [hlen]
    exact memWrite_ok (by have := hg.range; omega)
  let e4 : Eng := { e3 with png := some (p.withIdat v.toNat (p.idatLen + ch.data.length) n) }
  have hpng : e4.png = some (p.withIdat v.toNat ch.data.length n) := by
    show some (p.withIdat _ (p.idatLen + ch.data.length) _) = _
    rw [hsize]
  have hsrc4 : SourceAt e4 (ch.crc ++ rest) := by
    refine hsrc.congr rfl fun x h1 h2 => Memory.get_write_of_lt _ _ _ _ ?_
    have := overlap_false (hg.regions _ hreg)
    dsimp only at this
    simp only [Eng.advance, e2, e1, Eng.granted, Eng.answered] at h1 h2
    omega
  obtain ⟨hcrc, hrest⟩ := chunkCrc_ok (e := e4) hs hsrc4
  refine ⟨e4.advance 4, ?_, ⟨⟨rfl⟩, rfl, rfl, rfl⟩, rfl, hpng, hrest⟩
  rw [idat, EngM.bind_ok (getP_run hp), ensure_bind (decide_eq_true hct), EngM.bind_ok (modP_run _ hp), EngM.bind_ok hres,
    EngM.bind_ok hneed, EngM.bind_ok (getP_run (e := e2.advance ch.data.length) rfl)]
  dsimp only
  rw [Option.getD_some, EngM.bind_ok hwrite, EngM.bind_ok (modP_run _ (e := e3) rfl), ← ht]
  exact hcrc

/-- A sound IEND after data (43_png_chunk_parser.md R254). -/
theorem iend_ok {c : Snapshot} {ch : Chunk} {e : Eng} {rest : List Byte} {p : Png} (hs : ch.Sound c.verifyCrc)
    (ht : ch.type = typeIEND) (hp : e.png = some p) (hlen : p.idatLen ≠ 0) (h : SourceAt e (ch.data ++ (ch.crc ++ rest))) :
    ∃ n, iend c ch.data.length e = .ok () (e.advance n) ∧ SourceOk (e.advance n).bs := by
  rw [iend, EngM.bind_ok (getP_run hp), ensure_bind (decide_eq_true hlen), EngM.ite_run]
  split
  · obtain ⟨hn, hr⟩ := need_ok 0x0201 h
    obtain ⟨hcrc, hend⟩ := chunkCrc_ok hs hr
    rw [EngM.bind_ok hn, ← ht, hcrc, Eng.advance_advance]
    rw [Eng.advance_advance] at hend
    exact ⟨_, rfl, hend.ok⟩
  · exact ⟨0, rfl, h.ok⟩

/-! ### A file of three chunks -/

/-- The chunks IHDR, IDAT and IEND: the parser has the header, and the accumulator the data (43_png_chunk_parser.md R256). -/
theorem chunks_ok {c : Snapshot} {hd dat fin : Chunk} {e : Eng} {rest : List Byte} {v : Word} {ms : List PortMove} (fuel : Nat)
    (hhd : hd.Sound c.verifyCrc) (thd : hd.type = typeIHDR) (ohd : HeaderOk hd.data) (hct : byteAt hd.data 9 ≠ 3)
    (hdat : dat.Sound c.verifyCrc) (tdat : dat.type = typeIDAT) (hne : dat.data ≠ [])
    (hfin : fin.Sound c.verifyCrc) (tfin : fin.type = typeIEND)
    (hp : e.png = some Png.init) (hl : e.live = []) (hm : e.moves = .allocResp v :: ms)
    (hg : Grants e v (max 4096 dat.data.length)) (hreg : ⟨e.bs.base, e.bs.len, true⟩ ∈ e.regions)
    (h : SourceAt e (hd.bytes ++ (dat.bytes ++ (fin.bytes ++ rest)))) :
    ∃ f, chunks c (fuel + 3) e = .ok () f ∧ PngStep e f [⟨v.toNat, max 4096 dat.data.length⟩] ms ∧
      f.mem = e.mem.write v.toNat dat.data ∧
      f.png = some ((Png.init.withHeader hd.data).withIdat v.toNat dat.data.length (max 4096 dat.data.length)) ∧
      SourceOk f.bs := by
  obtain ⟨c1, s1⟩ := chunks_header (c := c) (fuel + 2) hhd hp (by rw [thd]; decide) (fun _ => thd) h
  obtain ⟨i1, s2⟩ := ihdr_ok (e := e.advance 8) (p := Png.init) hhd thd ohd hp rfl s1
  let e1 : Eng := { (e.advance 8).advance (hd.data.length + 4) with png := some (Png.init.withHeader hd.data) }
  have s2' : SourceAt e1 (dat.bytes ++ (fin.bytes ++ rest)) := s2.congr rfl fun _ _ _ => rfl
  obtain ⟨c2, s3⟩ := chunks_header (c := c) (fuel + 1) hdat (e := e1) rfl (by rw [tdat]; decide) (by simp [Png.withHeader]) s2'
  obtain ⟨f, hf, sf, mf, pf, s4⟩ := idat_first_ok (e := e1.advance 8) hdat tdat hne rfl (.inl hct) rfl rfl hm
    ⟨hg.toFresh, hg.live⟩ hreg s3
  obtain ⟨c3, s5⟩ := chunks_header (c := c) fuel hfin pf (by rw [tfin]; decide) (by simp [Png.withHeader, Png.withIdat]) s4
  obtain ⟨n, hn, ok⟩ := iend_ok (e := f.advance 8) hfin tfin pf
    (by simpa only [Png.withIdat] using Nat.ne_of_gt (List.length_pos_iff.2 hne)) s5
  have live1 : (e1.advance 8).live = [] := hl
  rw [live1, List.nil_append] at sf
  have first : PngFrame e (e1.advance 8) := ⟨rfl⟩
  have last : PngFrame f ((f.advance 8).advance n) := ⟨rfl⟩
  refine ⟨(f.advance 8).advance n, ?_, ⟨(first.trans sf.frame).trans last, sf.live, sf.moves, sf.allocReq⟩, mf, pf, ok⟩
  rw [c1, if_neg (by rw [thd]; decide), EngM.bind_ok (e' := e1) (by rw [chunk, if_pos thd, i1]), c2,
    if_neg (by rw [tdat]; decide), EngM.bind_ok (e' := f) (by rw [tdat]; exact hf), c3, if_pos tfin, hn]

end Sys2Proof.Machine
end

section
/-! SUPPORT. Filtering is undone by reconstruction, pixel by pixel conversion goes row by row, and an image lies in memory as its
rows (44_scanline_filter_unit.md R287, R291, R293; 45_format_converter.md R313, R322). -/

namespace Sys2Proof.Machine

/-! ### Filters -/

/-- Undoing a filter on what it gave is the row (44_scanline_filter_unit.md R293). -/
theorem unfilterBytes_filterBytes (t fb : Nat) (xs ups left upLeft : List Byte) :
    unfilterBytes t fb (filterBytes t fb xs ups left upLeft) ups left upLeft = xs := by
  induction xs generalizing ups left upLeft with
  | nil => rfl
  | cons x xs ih => simp only [filterBytes, unfilterBytes, BitVec.sub_add_cancel, ih]

theorem filterBytes_length (t fb : Nat) (xs ups left upLeft : List Byte) :
    (filterBytes t fb xs ups left upLeft).length = xs.length := by
  induction xs generalizing ups left upLeft with
  | nil => rfl
  | cons x xs ih => rw [filterBytes, List.length_cons, ih, List.length_cons]

theorem filterRow_length (t fb : Nat) (row prior : List Byte) : (filterRow t fb row prior).length = row.length :=
  filterBytes_length t fb row prior [] []

/-- A filter that replaces the best so far is the one tried. -/
theorem betterFilter_le {n t : Nat} {row prior : List Byte} {best : Nat × Nat} (h : best.1 ≤ 4) (ht : t ≤ 4) :
    (betterFilter n row prior best t).1 ≤ 4 := by
  rw [betterFilter]
  split
  · exact ht
  · exact h

/-- The filter chosen is one of the five (47_checksum_png_writer.md R392). -/
theorem selectFilter_le (force n : Nat) (row prior : List Byte) : selectFilter force n row prior ≤ 4 := by
  rw [selectFilter]
  split
  · assumption
  · simp only [List.foldl_cons, List.foldl_nil]
    exact betterFilter_le (betterFilter_le (betterFilter_le (betterFilter_le (by omega) (by omega)) (by omega)) (by omega)) (by omega)

theorem filteredImage_length (force n len : Nat) {rows : List (List Byte)} (hr : ∀ r ∈ rows, r.length = len) (prior : List Byte) :
    (filteredImage force n rows prior).length = rows.length * (1 + len) := by
  induction rows generalizing prior with
  | nil => simp [filteredImage]
  | cons row rows ih =>
    rw [filteredImage, List.length_cons, List.length_append, filterRow_length, ih fun r h => hr r (by simp [h]), hr row (by simp),
      List.length_cons, Nat.succ_mul]
    omega

/-- Reconstruction gives back the rows that were filtered (44_scanline_filter_unit.md R287; 47_checksum_png_writer.md R391). -/
theorem defilter_filteredImage (force n len : Nat) {rows : List (List Byte)} (hr : ∀ r ∈ rows, r.length = len) (prior : List Byte) :
    defilter n len rows.length (filteredImage force n rows prior) prior = .ok rows := by
  induction rows generalizing prior with
  | nil => rfl
  | cons row rows ih =>
    have ht := selectFilter_le force n row prior
    have hl : (filterRow (selectFilter force n row prior) n row prior).length = len := by
      rw [filterRow_length, hr row (by simp)]
    rw [filteredImage, List.length_cons]
    generalize selectFilter force n row prior = t at ht hl
    have htag : byteAt (byte t :: (filterRow t n row prior ++ filteredImage force n rows row)) 0 = t := by
      rw [byteAt, List.getD_cons_zero, byte_toNat]
      omega
    have hrow : unfilterRow t n (filterRow t n row prior) prior = row := unfilterBytes_filterBytes t n row prior [] []
    rw [defilter]
    simp only [htag, List.drop_succ_cons, List.drop_zero, List.take_left' hl, List.drop_left' hl, hrow,
      ih (fun r h => hr r (by simp [h])) row]
    rw [if_neg (by omega)]

/-! ### Conversion of pixels -/

/-- A converted pixel has the requested channels (45_format_converter.md R312). -/
theorem convertPixel_length {s r : Nat} {p : List Byte} (hs : 1 ≤ s ∧ s ≤ 4) (hr : 1 ≤ r ∧ r ≤ 4) (hp : p.length = s) :
    (convertPixel s r p).length = r := by
  obtain ⟨hs1, hs4⟩ := hs
  obtain ⟨hr1, hr4⟩ := hr
  interval_cases s <;> interval_cases r <;> simp [convertPixel, hp]

/-- A pixel that keeps its channels is unchanged (45_format_converter.md R312). -/
theorem convertPixel_self (ch : Nat) (p : List Byte) : convertPixel ch ch p = p := by
  match ch with
  | 0 => rfl
  | 1 => rfl
  | 2 => rfl
  | 3 => rfl
  | 4 => rfl
  | _ + 5 => rfl

/-- The pixels of one buffer after those of another. -/
theorem convertBytes_append (n m s r : Nat) {xs : List Byte} (hx : xs.length = n * s) (ys : List Byte) :
    convertBytes (n + m) s r (xs ++ ys) = convertBytes n s r xs ++ convertBytes m s r ys := by
  induction n generalizing xs with
  | zero =>
    rw [Nat.zero_mul] at hx
    rw [List.eq_nil_of_length_eq_zero hx, Nat.zero_add]
    rfl
  | succ n ih =>
    rw [Nat.succ_mul] at hx
    have := ih (xs := xs.drop s) (by rw [List.length_drop]; omega)
    rw [convertBytes, convertBytes] at this
    rw [show n + 1 + m = n + m + 1 by omega, convertBytes, convertBytes, pixels, pixels, List.flatMap_cons, List.flatMap_cons,
      List.take_append_of_le_length (by omega), List.drop_append_of_le_length (by omega), this, List.append_assoc]

/-- An image is converted row by row (45_format_converter.md R313). -/
theorem convertBytes_flatten (w s r : Nat) {rows : List (List Byte)} (h : ∀ row ∈ rows, row.length = w * s) :
    convertBytes (w * rows.length) s r rows.flatten = rows.flatMap (convertBytes w s r) := by
  induction rows with
  | nil => simp [convertBytes, pixels]
  | cons row rows ih =>
    rw [List.length_cons, Nat.mul_succ, Nat.add_comm, List.flatten_cons, convertBytes_append _ _ _ _ (h row (by simp)),
      ih fun x hx => h x (by simp [hx]), List.flatMap_cons]

theorem convertBytes_length {n s r : Nat} {bs : List Byte} (hs : 1 ≤ s ∧ s ≤ 4) (hr : 1 ≤ r ∧ r ≤ 4) (hb : bs.length = n * s) :
    (convertBytes n s r bs).length = n * r := by
  induction n generalizing bs with
  | zero => rw [Nat.zero_mul]; rfl
  | succ n ih =>
    rw [Nat.succ_mul] at hb
    have := ih (bs := bs.drop s) (by rw [List.length_drop]; omega)
    rw [convertBytes] at this
    rw [convertBytes, pixels, List.flatMap_cons, List.length_append, this,
      convertPixel_length hs hr (by rw [List.length_take]; omega), Nat.succ_mul, Nat.add_comm]

theorem convertBytes_self {n ch : Nat} {bs : List Byte} (hb : bs.length = n * ch) : convertBytes n ch ch bs = bs := by
  induction n generalizing bs with
  | zero =>
    rw [Nat.zero_mul] at hb
    rw [List.eq_nil_of_length_eq_zero hb]
    rfl
  | succ n ih =>
    rw [Nat.succ_mul] at hb
    have := ih (bs := bs.drop ch) (by rw [List.length_drop]; omega)
    rw [convertBytes] at this
    rw [convertBytes, pixels, List.flatMap_cons, this, convertPixel_self, List.take_append_drop]

/-! ### Rows in memory -/

/-- Memory holds an image if it holds each of its rows. -/
theorem Memory.read_flatten_iff (m : Memory) (a len : Nat) {rows : List (List Byte)} (h : ∀ row ∈ rows, row.length = len) :
    m.read a (len * rows.length) = rows.flatten ↔ ∀ r (hr : r < rows.length), m.read (a + r * len) len = rows[r] := by
  induction rows generalizing a with
  | nil => simp [Memory.read]
  | cons row rows ih =>
    have hrow := h row (by simp)
    have hl : len * (row :: rows).length = len + len * rows.length := by rw [List.length_cons, Nat.mul_succ, Nat.add_comm]
    have split : m.read a len ++ m.read (a + len) (len * rows.length) = row ++ rows.flatten ↔
        m.read a len = row ∧ m.read (a + len) (len * rows.length) = rows.flatten :=
      ⟨fun he => List.append_inj he (by rw [Memory.read_length, hrow]), fun ⟨h1, h2⟩ => by rw [h1, h2]⟩
    rw [hl, Memory.read_add, List.flatten_cons, split, ih (a + len) fun x hx => h x (by simp [hx])]
    constructor
    · rintro ⟨h0, hs⟩ r hr
      cases r with
      | zero => simpa using h0
      | succ r =>
        rw [Nat.succ_mul, Nat.add_comm (r * len), ← Nat.add_assoc]
        exact hs r (by simpa using hr)
    · intro hall
      have h0 := hall 0 (Nat.succ_pos _)
      rw [Nat.zero_mul, Nat.add_zero] at h0
      refine ⟨h0, fun r hr => ?_⟩
      have := hall (r + 1) (by simpa using hr)
      rwa [Nat.succ_mul, Nat.add_comm (r * len), ← Nat.add_assoc] at this

theorem flatten_length {len : Nat} {rows : List (List Byte)} (h : ∀ row ∈ rows, row.length = len) :
    rows.flatten.length = len * rows.length := by
  rw [List.length_flatten, List.map_congr_left h, List.map_const', List.sum_replicate, smul_eq_mul, Nat.mul_comm]

/-- `flip` puts the rows in reverse order (45_format_converter.md R322). -/
theorem flip_rows {toHost : Bool} {buf len : Nat} {e : Eng} {rows : List (List Byte)} (hrows : ∀ row ∈ rows, row.length = len)
    (h : buf + len * rows.length ≤ Config.addrSpace) (hd : e.mem.read buf (len * rows.length) = rows.flatten) :
    ∃ f, flip toHost buf len rows.length e = .ok () f ∧ f = { e with mem := f.mem, written := f.written, journal := f.journal } ∧
      f.mem.read buf (len * rows.length) = rows.reverse.flatten ∧
      ∀ x, x < buf ∨ buf + len * rows.length ≤ x → f.mem.get x = e.mem.get x := by
  obtain ⟨f, hf, hs, hrev, hout⟩ := flip_ok (toHost := toHost) (e := e) h
  refine ⟨f, hf, hs, ?_, hout⟩
  rw [Memory.read_flatten_iff _ _ _ hrows] at hd
  rw [← List.length_reverse, Memory.read_flatten_iff _ _ _ fun row hr => hrows row (List.mem_reverse.1 hr)]
  intro r hr
  rw [List.length_reverse] at hr
  rw [List.getElem_reverse, ← hd (rows.length - 1 - r) (by omega)]
  exact Memory.read_congr fun k hk => hrev r k hr hk

/-- The flip of a loaded image, where it is asked for (43_png_chunk_parser.md R265). -/
theorem flipLoad_rows {b : Bool} {buf len : Nat} {e : Eng} {rows : List (List Byte)} (hrows : ∀ row ∈ rows, row.length = len)
    (h : buf + len * rows.length ≤ Config.addrSpace) (hd : e.mem.read buf (len * rows.length) = rows.flatten) :
    ∃ f, (if b then flip false buf len rows.length else pure ()) e = .ok () f ∧
      f = { e with mem := f.mem, written := f.written, journal := f.journal } ∧
      f.mem.read buf (len * rows.length) = (if b then rows.reverse else rows).flatten ∧
      ∀ x, x < buf ∨ buf + len * rows.length ≤ x → f.mem.get x = e.mem.get x := by
  cases b with
  | true => exact flip_rows hrows h hd
  | false => exact ⟨e, rfl, rfl, hd, fun _ _ => rfl⟩

end Sys2Proof.Machine
end

section
/-! SUPPORT. The pipeline of PNG_DECODE after IEND, for an image without interlacing, key and palette: what each of its steps leaves
in memory and in LIVE (43_png_chunk_parser.md R257 to R266). -/

namespace Sys2Proof.Machine

theorem overlap_comm (a n b m : Nat) : overlap a n b m = overlap b m a n := by
  simp only [overlap, decide_eq_decide]
  omega

/-- Two buffers that share no byte and are not empty lie at two addresses, so freeing the first leaves the second. -/
theorem dropBuf_pair {a n b m : Nat} (hn : 0 < n) (hm : 0 < m) (h : overlap a n b m = false) :
    dropBuf a [⟨a, n⟩, ⟨b, m⟩] = [⟨b, m⟩] := by
  have hne : b ≠ a := by
    have := overlap_false h
    omega
  simp [dropBuf, hne]

/-! ### Inflation of the accumulator (43_png_chunk_parser.md R257, R258) -/

/-- The accumulator's stream of `compress` is inflated into a new buffer, and the accumulator is freed. -/
theorem pngInflate_ok {c : Snapshot} {p : Png} {e : Eng} {raw : List Byte} {q a cap : Nat} {v f : Word} {ms : List PortMove}
    (hcg : p.cgbi = false) (ha : p.idat = some a) (hlen : p.idatLen = (compress raw q).length) (hcap : p.idatLen ≤ cap)
    (hpos : 0 < cap) (hrange : a + cap ≤ Config.addrSpace) (hdata : e.mem.read a p.idatLen = compress raw q) (hraw : raw ≠ [])
    (hl : e.live = [⟨a, cap⟩]) (hm : e.moves = .allocResp v :: .allocResp f :: ms) (hg : Grants e v raw.length)
    (ok : SourceOk e.bs) :
    ∃ g, pngInflate c p raw.length e = .ok () g ∧ PngStep e g [⟨v.toNat, raw.length⟩] ms ∧ g.inf.out = v.toNat ∧
      g.mem.read v.toNat raw.length = raw ∧
      ∀ x, x < v.toNat ∨ v.toNat + raw.length ≤ x → g.mem.get x = e.mem.get x := by
  have hap : overlap a cap v.toNat raw.length = false := hg.live ⟨a, cap⟩ (by rw [hl]; simp)
  let e1 : Eng := { e.granted v raw.length (.allocResp f :: ms) with
    inf := { isOpen := true, out := v.toNat, len := 0, cap := raw.length, realloc := true }
    br := { valid := true, code := 0, nbits := 0, input := .mem a p.idatLen } }
  have start : Inflating e1 [] (bytesBits ((compress raw q).drop (if (!p.cgbi) then 0 else 2) ++ [])) := by
    refine ⟨⟨rfl, ⟨Nat.zero_le _, Nat.one_pos, fun _ b m h => ?_⟩, ok, fun h => by cases h⟩, ?_, hg.range, rfl, rfl, ?_⟩
    · cases h
      omega
    · exact overlap_part (by rw [overlap_comm]; exact hap) (Nat.le_refl _) (by omega)
    · rw [hcg, List.append_nil, ← hdata]
      rfl
  obtain ⟨h0, h1, g, bits, hinf, eg, ig⟩ := inflate_compress (va := c.verifyAdler) (Nat.le_refl _) start
  have gmoves : g.moves = .allocResp f :: ms := by rw [eg.same]; rfl
  have glive : g.live = [⟨a, cap⟩, ⟨v.toNat, raw.length⟩] := by
    rw [eg.same]
    show e.live ++ [_] = _
    rw [hl, List.singleton_append]
  have gout : g.inf.out = v.toNat := by rw [eg.inf]
  have glen : g.inf.len = raw.length := ig.len
  have gstep := g.freed_step a ms
  rw [glive, dropBuf_pair hpos (List.length_pos_iff.2 hraw) hap] at gstep
  refine ⟨g.freed a ms, ?_, ⟨PngFrame.trans ⟨?_⟩ gstep.frame, gstep.live, gstep.moves, gstep.allocReq⟩, gout, ?_, fun x hx => ?_⟩
  · rw [pngInflate, ensure_bind (decide_eq_true hg.size), EngM.bind_ok (portAlloc_granted hm hg), modInf, modE_bind, modBr,
      modE_bind, ha, Option.getD_some, EngM.bind_ok (e' := g) hinf, getE_bind, ensure_bind (decide_eq_true glen),
      portFree_freed gmoves]
  · rw [eg.same]
    rfl
  · have := ig.data
    rwa [gout] at this
  · exact eg.outside x (by simpa only [e1, Nat.add_zero, Nat.zero_add] using hx)

/-! ### Reconstruction (43_png_chunk_parser.md R259; 44_scanline_filter_unit.md R290) -/

/-- The rows of an image without interlacing are written one after the other. -/
theorem writeRows_ok {l : Layout} {w : Nat} {rows : List (List Byte)} {e : Eng} {addr : Nat}
    (hrow : ∀ row ∈ rows, (unpack l row w).length = w * l.imgN)
    (h : addr + rows.length * (w * l.imgN) ≤ Config.addrSpace) :
    ∃ f, writeRows l w addr rows e = .ok () f ∧ f = { e with mem := f.mem, written := f.written, journal := f.journal } ∧
      f.mem = e.mem.write addr (rows.flatMap fun row => unpack l row w) := by
  induction rows generalizing e addr with
  | nil => exact ⟨e, rfl, rfl, rfl⟩
  | cons row rows ih =>
    have hl := hrow row (by simp)
    rw [List.length_cons, Nat.succ_mul] at h
    obtain ⟨f, hf, hs, hm⟩ := ih (e := { e with
      mem := e.mem.write addr (unpack l row w)
      written := noteWrite addr (unpack l row w).length false e.written
      journal := journalBytes addr (unpack l row w) e.journal }) (addr := addr + w * l.imgN)
      (fun r hr => hrow r (by simp [hr])) (by omega)
    refine ⟨f, ?_, by rw [hs], ?_⟩
    · rw [writeRows, EngM.bind_ok (memWrite_ok (by omega)), hf]
    · rw [hm, List.flatMap_cons, Memory.write_append, hl]

theorem defilterOrRaise_ok {l : Layout} {pw ph : Nat} {buf : List Byte} {rows : List (List Byte)} {e : Eng}
    (h : defilter l.stride (l.rowbytes pw) ph buf [] = .ok rows) : defilterOrRaise l pw ph buf e = .ok rows e := by
  rw [defilterOrRaise, h]
  rfl

/-- The filtered image is reconstructed into a new raster, and its buffer is freed. -/
theorem pngRecon_ok {p : Png} {e : Eng} {rows : List (List Byte)} {rawLen : Nat} {v f : Word} {ms : List PortMove}
    (hint : (p.interlace == 1) = false)
    (hd : defilter p.layout.stride (p.layout.rowbytes p.w) p.h (e.mem.read e.inf.out rawLen) [] = .ok rows)
    (hrow : ∀ row ∈ rows, (unpack p.layout row p.w).length = p.w * p.layout.imgN) (hrows : rows.length = p.h)
    (hraw : 0 < rawLen) (hpos : 0 < p.w * p.h * p.layout.imgN) (hrange : e.inf.out + rawLen ≤ Config.addrSpace)
    (hl : e.live = [⟨e.inf.out, rawLen⟩]) (hm : e.moves = .allocResp v :: .allocResp f :: ms)
    (hg : Grants e v (p.w * p.h * p.layout.imgN)) :
    ∃ g, pngRecon p rawLen e = .ok v.toNat g ∧ PngStep e g [⟨v.toNat, p.w * p.h * p.layout.imgN⟩] ms ∧
      g.mem = e.mem.write v.toNat (rows.flatMap fun row => unpack p.layout row p.w) := by
  have hap := hg.live ⟨e.inf.out, rawLen⟩ (by rw [hl]; simp)
  let e1 := e.granted v (p.w * p.h * p.layout.imgN) (.allocResp f :: ms)
  obtain ⟨g, hf, hs, hmem⟩ := writeRows_ok (l := p.layout) (w := p.w) (rows := rows) (e := e1) (addr := v.toNat) hrow
    (by have := hg.range; rw [hrows, ← Nat.mul_assoc, Nat.mul_comm p.h]; exact this)
  have gmoves : g.moves = .allocResp f :: ms := by rw [hs]; rfl
  have glive : g.live = [⟨e.inf.out, rawLen⟩, ⟨v.toNat, p.w * p.h * p.layout.imgN⟩] := by
    rw [hs]
    show e.live ++ [_] = _
    rw [hl, List.singleton_append]
  have gstep := g.freed_step e.inf.out ms
  rw [glive, dropBuf_pair hraw hpos hap] at gstep
  refine ⟨g.freed e.inf.out ms, ?_, ⟨PngFrame.trans ⟨?_⟩ gstep.frame, gstep.live, gstep.moves, gstep.allocReq⟩, hmem⟩
  · have hrec : recon p.layout e.inf.out rawLen p.w p.h (p.interlace == 1) e = .ok v.toNat g := by
      rw [recon, EngM.bind_ok (portAlloc_granted hm hg), EngM.bind_ok (memRead_ok hrange), hint, if_neg Bool.false_ne_true,
        Eng.granted_mem, EngM.bind_ok (defilterOrRaise_ok hd), EngM.bind_ok hf]
      rfl
    rw [pngRecon, getE_bind, EngM.bind_ok hrec, EngM.bind_ok (portFree_freed gmoves), EngM.pure_run]
  · rw [hs]
    rfl

/-! ### Conversion (43_png_chunk_parser.md R264; 45_format_converter.md R313) -/

/-- `convert` gives a new buffer with the converted pixels. -/
theorem convert_ok {img n s r : Nat} {e : Eng} {v : Word} {ms : List PortMove} (hs : 1 ≤ s ∧ s ≤ 4) (hr : 1 ≤ r ∧ r ≤ 4)
    (hrange : img + n * s ≤ Config.addrSpace) (hm : e.moves = .allocResp v :: ms) (hg : Grants e v (n * r)) :
    ∃ f, convert img n s r e = .ok v.toNat f ∧ PngStep e f (e.live ++ [⟨v.toNat, n * r⟩]) ms ∧
      f.mem = e.mem.write v.toNat (convertBytes n s r (e.mem.read img (n * s))) := by
  have hlen : (convertBytes n s r (e.mem.read img (n * s))).length = n * r := convertBytes_length hs hr (Memory.read_length _ _ _)
  generalize hbs : convertBytes n s r (e.mem.read img (n * s)) = bs at hlen
  let f : Eng := { e.granted v (n * r) ms with
    mem := e.mem.write v.toNat bs
    written := noteWrite v.toNat bs.length false e.written
    journal := journalBytes v.toNat bs [] }
  have hw : memWrite false v.toNat bs (e.granted v (n * r) ms) = .ok () f := memWrite_ok (by rw [hlen]; exact hg.range)
  refine ⟨f, ?_, ⟨⟨rfl⟩, rfl, rfl, rfl⟩, rfl⟩
  rw [convert, EngM.bind_ok (portAlloc_granted hm hg), EngM.bind_ok (memRead_ok hrange)]
  rw [← hbs] at hw
  exact EngM.bind_ok hw

/-- The channels of the result: those requested, or the image's own (43_png_chunk_parser.md R264). -/
def outChannels (req n : Nat) : Nat := if req = 0 then n else req

/-- A buffer of `rows` rows of `w` pixels is converted, row by row, to a new buffer, and freed; or it has the requested channels
already. -/
theorem pngConvert_rows {req w n : Nat} {rows : List (List Byte)} {e : Eng} {v u f : Word} {ms : List PortMove}
    (hn : 1 ≤ n ∧ n ≤ 4) (hreq : req ≤ 4) (hrows : ∀ row ∈ rows, row.length = w * n) (hpos : 0 < w * rows.length)
    (hrange : v.toNat + w * rows.length * n ≤ Config.addrSpace)
    (hd : e.mem.read v.toNat (w * rows.length * n) = rows.flatten) (h0 : e.allocReq = 0)
    (hl : e.live = [⟨v.toNat, w * rows.length * n⟩])
    (hm : e.moves = (if outChannels req n = n then [] else [.allocResp u, .allocResp f]) ++ ms)
    (hg : outChannels req n ≠ n → Grants e u (w * rows.length * outChannels req n)) :
    ∃ g, pngConvert req (w * rows.length) v.toNat n e =
        .ok ((if outChannels req n = n then v else u).toNat, outChannels req n) g ∧
      PngStep e g [⟨(if outChannels req n = n then v else u).toNat, w * rows.length * outChannels req n⟩] ms ∧
      g.mem.read (if outChannels req n = n then v else u).toNat (w * rows.length * outChannels req n) =
        (rows.map (convertBytes w n (outChannels req n))).flatten ∧
      ∀ x, (outChannels req n ≠ n → x < u.toNat ∨ u.toNat + w * rows.length * outChannels req n ≤ x) →
        g.mem.get x = e.mem.get x := by
  by_cases hc : outChannels req n = n
  · have hno : ¬(req ≠ 0 ∧ req ≠ n) := by
      rw [outChannels] at hc
      split at hc <;> omega
    have hself : rows.map (convertBytes w n n) = rows :=
      (List.map_congr_left fun row hr => convertBytes_self (hrows row hr)).trans (List.map_id rows)
    simp only [hc, if_true] at hm ⊢
    refine ⟨e, ?_, ⟨⟨rfl⟩, hl, hm, h0⟩, by rw [hself, hd], fun _ _ => rfl⟩
    rw [pngConvert, if_neg hno, EngM.pure_run]
  · have hyes : req ≠ 0 ∧ req ≠ n := by
      rw [outChannels] at hc
      split at hc <;> omega
    have hout : outChannels req n = req := if_neg hyes.1
    have hr : 1 ≤ req ∧ req ≤ 4 := by omega
    rw [if_neg hc] at hm
    simp only [hout, hyes.2, if_false, ne_eq, not_false_eq_true, true_implies] at hg ⊢
    obtain ⟨g, hf, hs, hmem⟩ := convert_ok (ms := .allocResp f :: ms) hn hr hrange hm hg
    have hap := hg.live ⟨v.toNat, w * rows.length * n⟩ (by rw [hl]; simp)
    have gstep := g.freed_step v.toNat ms
    rw [hs.live, hl, List.singleton_append, dropBuf_pair (Nat.mul_pos hpos (by omega)) (Nat.mul_pos hpos (by omega)) hap] at gstep
    have hlen : (convertBytes (w * rows.length) n req rows.flatten).length = w * rows.length * req :=
      convertBytes_length hn hr (by rw [← hd, Memory.read_length])
    rw [hd] at hmem
    refine ⟨g.freed v.toNat ms, ?_, ⟨hs.frame.trans gstep.frame, gstep.live, gstep.moves, gstep.allocReq⟩, ?_, fun x hx => ?_⟩
    · rw [pngConvert, if_pos hyes, EngM.bind_ok hf, EngM.bind_ok (portFree_freed hs.moves), EngM.pure_run]
    · rw [Eng.freed_mem, hmem, ← hlen, Memory.read_write_self, convertBytes_flatten w n req hrows, List.flatMap_def]
    · rw [Eng.freed_mem, hmem, Memory.get_write_of_lt _ _ _ _ (by rw [hlen]; exact hx)]

end Sys2Proof.Machine
end

section
/-! SUPPORT. PNG_DECODE of a file of the PNG writer: the parser's state after its chunks, the pipeline from there, and the command
(43_png_chunk_parser.md R240, R257 to R266; 47_checksum_png_writer.md R394, R398). -/

namespace Sys2Proof.Machine

/-! ### The written chunks (47_checksum_png_writer.md R394) -/

/-- A chunk as the writer writes it. -/
def writtenChunk (type : Nat) (d : List Byte) : Chunk := ⟨type, d, putBe32 (crc32 0 (putBe32 type ++ d)).toNat⟩

theorem writtenChunk_bytes (type : Nat) (d : List Byte) : (writtenChunk type d).bytes = pngChunk type d := rfl

theorem writtenChunk_sound {type : Nat} {d : List Byte} (v : Bool) (ht : type < 0x100000000) (hd : d.length ≤ 0x7fffffff) :
    (writtenChunk type d).Sound v := by
  refine ⟨ht, hd, rfl, fun _ => ?_⟩
  have := be32_putBe32 (crc32 0 (putBe32 type ++ d)).isLt []
  rwa [List.append_nil] at this

/-- The data of the writer's IHDR. -/
def imageHeader (w h n : Nat) : List Byte := putBe32 w ++ putBe32 h ++ [8, byte (encodedColourType n), 0, 0, 0]

theorem encodedColourType_le (n : Nat) : encodedColourType n ≤ 6 ∧ encodedColourType n ≠ 3 ∧
    (encodedColourType n = 0 ∨ encodedColourType n = 2 ∨ encodedColourType n = 4 ∨ encodedColourType n = 6) := by
  unfold encodedColourType
  split <;> decide

theorem imageHeader_width {w : Nat} (h n : Nat) (hw : w ≤ 16777216) : be32 (imageHeader w h n) 0 = w := by
  rw [imageHeader, List.append_assoc]
  exact be32_putBe32 (by omega) _

theorem imageHeader_height {h : Nat} (w n : Nat) (hh : h ≤ 16777216) : be32 (imageHeader w h n) 4 = h :=
  be32_putBe32 (by omega) [8, byte (encodedColourType n), 0, 0, 0]

theorem imageHeader_ctype (w h n : Nat) : byteAt (imageHeader w h n) 9 = encodedColourType n := by
  have := (encodedColourType_le n).1
  show (byte (encodedColourType n)).toNat = _
  rw [byte_toNat]
  omega

theorem imageHeader_ok {w h : Nat} (n : Nat) (hw1 : 1 ≤ w) (hw : w ≤ 16777216) (hh1 : 1 ≤ h) (hh : h ≤ 16777216)
    (ha : w * h * 4 ≤ 0x7fffffff) : HeaderOk (imageHeader w h n) where
  length := rfl
  width := by rw [imageHeader_width h n hw]; exact ⟨hw1, hw⟩
  height := by rw [imageHeader_height w n hh]; exact ⟨hh1, hh⟩
  depth := .inr (.inr (.inr rfl))
  ctype := by
    obtain ⟨-, -, h⟩ := encodedColourType_le n
    rw [imageHeader_ctype]
    omega
  methods := ⟨rfl, rfl⟩
  interlace := Nat.zero_le 1
  area := by rw [imageHeader_width h n hw, imageHeader_height w n hh]; exact ha

/-! ### An image of the writer's kind -/

/-- The parser has an image of `w` by `h` pixels of `n` channels of eight bits, with no palette, key or interlacing, and no CgBI
chunk (30_encoding.md R122). -/
structure Png.Plain (p : Png) (w h n : Nat) : Prop where
  w : p.w = w
  h : p.h = h
  layout : p.layout = ⟨n, 8, false⟩
  interlace : (p.interlace == 1) = false
  ctype : p.ctype ≠ 3
  hasKey : p.hasKey = false
  cgbi : p.cgbi = false

theorem Png.Plain.imgN {p : Png} {w h n : Nat} (hp : p.Plain w h n) : p.imgN = n := congrArg Layout.imgN hp.layout

/-- The header of the writer gives such an image. -/
theorem plain_imageHeader {w h n : Nat} (a len cap : Nat) (hn : 1 ≤ n ∧ n ≤ 4) (hw : w ≤ 16777216) (hh : h ≤ 16777216) :
    ((Png.init.withHeader (imageHeader w h n)).withIdat a len cap).Plain w h n := by
  have hc := imageHeader_ctype w h n
  have h3 := (encodedColourType_le n).2.1
  have hch : colourChannels (encodedColourType n) = n := by
    obtain ⟨h1, h4⟩ := hn
    interval_cases n <;> rfl
  refine ⟨imageHeader_width h n hw, imageHeader_height w n hh, ?_, rfl, by rwa [← hc] at h3, rfl, rfl⟩
  show (⟨colourChannels (byteAt (imageHeader w h n) 9), 8, byteAt (imageHeader w h n) 9 == 3⟩ : Layout) = _
  rw [hc, hch, beq_false_of_ne h3]

theorem rowbytes_eight (n w : Nat) (indexed : Bool) : Layout.rowbytes ⟨n, 8, indexed⟩ w = w * n := by
  rw [Layout.rowbytes]
  dsimp only
  omega

/-- The filtered image of such an image, which the writer makes, is reconstructed to its rows. -/
theorem Png.Plain.defilter {p : Png} {w n force : Nat} {rows : List (List Byte)} (hp : p.Plain w rows.length n)
    (hr : ∀ row ∈ rows, row.length = w * n) :
    defilter p.layout.stride (p.layout.rowbytes p.w) p.h (filteredImage force n rows []) [] = .ok rows := by
  rw [hp.layout, hp.w, hp.h, rowbytes_eight]
  exact defilter_filteredImage force n (w * n) hr []

/-- A row of eight-bit samples is its own unpacking (44_scanline_filter_unit.md R288). -/
theorem Png.Plain.unpack {p : Png} {w h n : Nat} {row : List Byte} (hp : p.Plain w h n) (hr : row.length = w * n) :
    unpack p.layout row p.w = row := by
  rw [hp.layout, hp.w, Machine.unpack, if_pos rfl]
  exact List.take_of_length_le (Nat.le_of_eq hr)

theorem Png.Plain.rawLen {p : Png} {w h n : Nat} (hp : p.Plain w h n) (hw : 0 < w) (hh : 0 < h) :
    p.layout.rawLen p.w p.h (p.interlace == 1) = h * (1 + w * n) := by
  rw [hp.interlace, hp.layout, hp.w, hp.h, Layout.rawLen, if_neg Bool.false_ne_true, Layout.filteredSize, if_pos ⟨hw, hh⟩,
    rowbytes_eight, Nat.add_comm 1]

/-! ### The pipeline -/

/-- The allocator's answers to a decode of the writer's file, after that to the IDAT accumulator of `cap` bytes at `a`: none of their
buffers meets what the command reads while it is written (20_memory.md R77; 43_png_chunk_parser.md R266). -/
structure DecodeBuffers (rs : List Region) (a cap raw size out : Nat) (converts : Prop) (p2 p3 p4 : Word) : Prop where
  rawFresh : Fresh rs p2 raw
  rawApart : overlap a cap p2.toNat raw = false
  imageFresh : Fresh rs p3 size
  imageApart : overlap p2.toNat raw p3.toNat size = false
  outFresh : converts → Fresh rs p4 out
  outApart : converts → overlap p3.toNat size p4.toNat out = false

/-- From the accumulator of a written file the pipeline makes the rows, converted and in the order FLIP_LOAD says
(43_png_chunk_parser.md R257 to R266). -/
theorem pipeline_ok {c : Snapshot} {req w n force q a cap : Nat} {p : Png} {e : Eng} {rows : List (List Byte)}
    {p2 f1 p3 f2 p4 f3 : Word} (hn : 1 ≤ n ∧ n ≤ 4) (hreq : req ≤ 4) (hw : 0 < w) (hne : 0 < rows.length)
    (hr : ∀ row ∈ rows, row.length = w * n) (hp : p.Plain w rows.length n) (hidat : p.idat = some a)
    (hlen : p.idatLen = (compress (filteredImage force n rows []) q).length) (hcap : p.idatLen ≤ cap) (hpos : 0 < cap)
    (hrange : a + cap ≤ Config.addrSpace) (hdata : e.mem.read a p.idatLen = compress (filteredImage force n rows []) q)
    (ok : SourceOk e.bs) (hl : e.live = [⟨a, cap⟩])
    (hm : e.moves = [.allocResp p2, .allocResp f1, .allocResp p3, .allocResp f2] ++
      (if outChannels req n = n then [] else [.allocResp p4, .allocResp f3]))
    (hb : DecodeBuffers e.regions a cap (rows.length * (1 + w * n)) (w * rows.length * n)
      (w * rows.length * outChannels req n) (outChannels req n ≠ n) p2 p3 p4) :
    ∃ g, pipeline c req p e = .ok ((if outChannels req n = n then p3 else p4).toNat, n) g ∧
      PngStep e g [⟨(if outChannels req n = n then p3 else p4).toNat, w * rows.length * outChannels req n⟩] [] ∧
      g.mem.read (if outChannels req n = n then p3 else p4).toNat (w * rows.length * outChannels req n) =
        (if c.flipLoad then rows.reverse else rows).flatMap (convertBytes w n (outChannels req n)) ∧
      ∀ x, (x < p2.toNat ∨ p2.toNat + rows.length * (1 + w * n) ≤ x) → (x < p3.toNat ∨ p3.toNat + w * rows.length * n ≤ x) →
        (outChannels req n ≠ n → x < p4.toNat ∨ p4.toNat + w * rows.length * outChannels req n ≤ x) →
        g.mem.get x = e.mem.get x := by
  have hfl := filteredImage_length force n (w * n) hr []
  have hwh : 0 < w * rows.length := Nat.mul_pos hw hne
  have hraw : 0 < rows.length * (1 + w * n) := Nat.mul_pos hne (by omega)
  have hout : 1 ≤ outChannels req n ∧ outChannels req n ≤ 4 := by rw [outChannels]; split <;> omega
  -- inflation
  obtain ⟨g1, h1, s1, o1, d1, m1⟩ := pngInflate_ok (c := c) (raw := filteredImage force n rows []) (v := p2) (f := f1) hp.cgbi
    hidat hlen hcap hpos hrange hdata (List.length_pos_iff.1 (by rw [hfl]; exact hraw)) hl hm
    (by rw [hfl]; exact hb.rawFresh.grants hl hb.rawApart) ok
  rw [hfl] at h1 s1 d1 m1
  -- reconstruction
  have hun : ∀ row ∈ rows, unpack p.layout row p.w = row := fun row hrow => hp.unpack (hr row hrow)
  have hsize : p.w * p.h * p.layout.imgN = w * rows.length * n := by rw [hp.w, hp.h, hp.layout]
  obtain ⟨g2, h2, s2, m2⟩ := pngRecon_ok (p := p) (e := g1) (rows := rows) (rawLen := rows.length * (1 + w * n)) (v := p3) (f := f2)
    hp.interlace (by rw [o1, d1]; exact hp.defilter hr)
    (fun row hrow => by rw [hun row hrow, hr row hrow, hp.w, hp.layout]) hp.h.symm hraw
    (by rw [hsize]; exact Nat.mul_pos hwh (by omega)) (by rw [o1]; exact hb.rawFresh.range) (by rw [o1]; exact s1.live) s1.moves
    (by rw [hsize]; exact Fresh.grants (by rw [s1.frame.regions]; exact hb.imageFresh) s1.live hb.imageApart)
  rw [hsize] at s2
  have hflat : (rows.flatMap fun row => unpack p.layout row p.w) = rows.flatten := by
    rw [List.flatMap_def, List.map_congr_left hun, List.map_id']
  have hflen : rows.flatten.length = w * rows.length * n := by
    rw [flatten_length hr]
    ring
  rw [hflat] at m2
  -- conversion
  obtain ⟨g3, h3, s3, d3, m3⟩ := pngConvert_rows (e := g2) (v := p3) (u := p4) (f := f3) (ms := []) hn hreq hr hwh hb.imageFresh.range
    (by rw [m2, ← hflen, Memory.read_write_self]) s2.allocReq s2.live (by rw [List.append_nil]; exact s2.moves)
    fun hc => Fresh.grants (by rw [s2.frame.regions, s1.frame.regions]; exact hb.outFresh hc) s2.live (hb.outApart hc)
  generalize himg : (if outChannels req n = n then p3 else p4) = img at *
  have hirange : img.toNat + w * rows.length * outChannels req n ≤ Config.addrSpace := by
    rw [← himg]
    split
    · rename_i hc
      rw [hc]
      exact hb.imageFresh.range
    · rename_i hc
      exact (hb.outFresh hc).range
  -- flip
  have hlen3 : ∀ row ∈ rows.map (convertBytes w n (outChannels req n)), row.length = w * outChannels req n := by
    intro row hrow
    obtain ⟨r, hr', rfl⟩ := List.mem_map.1 hrow
    exact convertBytes_length hn hout (hr r hr')
  have hcount : w * outChannels req n * rows.length = w * rows.length * outChannels req n := by ring
  obtain ⟨g4, h4, e4, d4, m4⟩ := flipLoad_rows (b := c.flipLoad) (buf := img.toNat) (e := g3) hlen3
    (by rw [List.length_map, hcount]; exact hirange) (by rw [List.length_map, hcount]; exact d3)
  rw [List.length_map, hcount] at d4 m4
  rw [List.length_map] at h4
  have f4 : PngFrame g3 g4 := ⟨by rw [e4]⟩
  refine ⟨g4, ?_, ⟨((s1.frame.trans s2.frame).trans s3.frame).trans f4, by rw [e4]; exact s3.live, by rw [e4]; exact s3.moves,
    by rw [e4]; exact s3.allocReq⟩, ?_, fun x hx2 hx3 hx4 => ?_⟩
  · rw [pipeline]
    dsimp only
    have hkey : pngKey p (p.w * p.h) p3.toNat p.imgN g2 = .ok (p3.toNat, p.imgN) g2 := by
      rw [pngKey, hp.hasKey]
      rfl
    have hpal : pngPalette p (p.w * p.h) p3.toNat p.imgN g2 = .ok (p3.toNat, p.imgN) g2 := by
      rw [pngPalette, if_neg hp.ctype]
      rfl
    rw [hp.rawLen hw hne, EngM.bind_ok h1, EngM.bind_ok h2, EngM.bind_ok hkey, hp.cgbi, if_neg (by simp)]
    dsimp only
    rw [EngM.bind_ok hpal, hp.w, hp.h, hp.imgN, EngM.bind_ok h3]
    cases hf : c.flipLoad with
    | true =>
      rw [hf] at h4
      exact EngM.bind_ok h4
    | false =>
      rw [hf] at h4
      cases h4
      rfl
  · rw [d4]
    split <;> simp [List.flatMap_def]
  · rw [m4 x ?_, m3 x hx4, m2, Memory.get_write_of_lt _ _ _ _ (by rw [hflen]; exact hx3), m1 x hx2]
    rw [← himg]
    split
    · rename_i hc
      rw [hc]
      exact hx3
    · rename_i hc
      exact hx4 hc

end Sys2Proof.Machine
end

section
/-! SUPPORT. PNG_DECODE of a file of the PNG writer, from its acceptance to its completion, and the obligation it settles. -/

namespace Sys2Proof.Machine

/-! ### The command's first steps (43_png_chunk_parser.md R240, R244) -/

theorem useSource_mem {e : Eng} (hm : e.bs.mode = .mem) (hp : e.placed = []) :
    useSource e = .ok () { e with regions := ⟨e.bs.base, e.bs.len, true⟩ :: e.regions } := by
  rw [useSource, getE_bind]
  simp only [hm]
  exact declare_ok hp

theorem needSource_mem {e : Eng} (hm : e.bs.mode = .mem) : needSource e = .ok () e := by
  rw [needSource, getE_bind, hm]
  rfl

theorem signature_ok {e : Eng} {rest : List Byte} (h : SourceAt e (pngSig ++ rest)) :
    signature e = .ok () (e.advance 8) ∧ SourceAt (e.advance 8) rest := by
  obtain ⟨hg, hs⟩ := bsGetN_ok pngSig h
  have hg8 : bsGetN 8 e = .ok pngSig (e.advance 8) := hg
  exact ⟨by rw [signature, EngM.bind_ok hg8, decide_eq_true rfl, ensure_true], hs⟩

theorem SourceAt.sourceLeft {e : Eng} {bytes : List Byte} (h : SourceAt e bytes) : e.sourceLeft = bytes.length := by
  rw [Eng.sourceLeft, h.mode, ← h.ahead, Memory.read_length]

theorem pngChunk_length (type : Nat) (d : List Byte) : (pngChunk type d).length = d.length + 12 := by
  simp only [pngChunk, List.length_append, putBe32_length]
  omega

/-- The file is the signature and three chunks (47_checksum_png_writer.md R394). -/
theorem pngFile_eq (w h n q : Nat) (f rest : List Byte) :
    pngFile w h n q f ++ rest = pngSig ++ ((writtenChunk typeIHDR (imageHeader w h n)).bytes ++
      ((writtenChunk typeIDAT (compress f q)).bytes ++ ((writtenChunk typeIEND []).bytes ++ rest))) := by
  rw [pngFile, List.append_assoc, List.append_assoc, List.append_assoc]
  rfl

theorem compress_ne_nil (d : List Byte) (q : Nat) : compress d q ≠ [] := by
  rw [compress_eq]
  exact List.cons_ne_nil _ _

/-! ### The command -/

/-- The input region of the command: the source's slice (20_memory.md R79). -/
abbrev Eng.sourceRegion (e : Eng) : Region := ⟨e.bs.base, e.bs.len, true⟩

/-- The steps of PNG_DECODE on a written file: the results, the pixel buffer, and what is as it was (43_png_chunk_parser.md R240). -/
theorem pngDecodeBody_ok {c : Snapshot} {req w n force q : Nat} {e : Eng} {rows : List (List Byte)} {rest : List Byte}
    {p1 p2 f1 p3 f2 p4 f3 : Word} (hn : 1 ≤ n ∧ n ≤ 4) (hreq : req ≤ 4) (hw : 1 ≤ w ∧ w ≤ 16777216)
    (hh : 1 ≤ rows.length ∧ rows.length ≤ 16777216) (harea : w * rows.length * 4 ≤ 0x7fffffff)
    (hr : ∀ row ∈ rows, row.length = w * n) (hz : (compress (filteredImage force n rows []) q).length ≤ 0x7fffffff)
    (hsrc : SourceAt e (pngFile w rows.length n q (filteredImage force n rows []) ++ rest))
    (hpl : e.placed = []) (hrg : e.regions = []) (hl : e.live = [])
    (hm : e.moves = [.allocResp p1, .allocResp p2, .allocResp f1, .allocResp p3, .allocResp f2] ++
      (if outChannels req n = n then [] else [.allocResp p4, .allocResp f3]))
    (h1 : Fresh [e.sourceRegion] p1 (max 4096 (compress (filteredImage force n rows []) q).length))
    (hb : DecodeBuffers [e.sourceRegion] p1.toNat (max 4096 (compress (filteredImage force n rows []) q).length)
      (rows.length * (1 + w * n)) (w * rows.length * n) (w * rows.length * outChannels req n) (outChannels req n ≠ n) p2 p3 p4) :
    ∃ g, pngDecodeBody req c e = .ok ⟨(if outChannels req n = n then p3 else p4).toNat, w, rows.length, n⟩ g ∧
      g.live = [] ∧ g.moves = [] ∧ g.allocReq = 0 ∧ g.srcReq = e.srcReq ∧ g.srcReqLen = e.srcReqLen ∧
      g.bs = { e.bs with pos := g.bs.pos } ∧
      g.mem.read (if outChannels req n = n then p3 else p4).toNat (w * rows.length * outChannels req n) =
        (if c.flipLoad then rows.reverse else rows).flatMap (convertBytes w n (outChannels req n)) ∧
      ∀ x, (x < p1.toNat ∨ p1.toNat + max 4096 (compress (filteredImage force n rows []) q).length ≤ x) →
        (x < p2.toNat ∨ p2.toNat + rows.length * (1 + w * n) ≤ x) → (x < p3.toNat ∨ p3.toNat + w * rows.length * n ≤ x) →
        (outChannels req n ≠ n → x < p4.toNat ∨ p4.toNat + w * rows.length * outChannels req n ≤ x) →
        g.mem.get x = e.mem.get x := by
  generalize hF : compress (filteredImage force n rows []) q = z at *
  -- the signature
  let e1 : Eng := { e with regions := [e.sourceRegion], png := some Png.init }
  rw [pngFile_eq, hF] at hsrc
  obtain ⟨hsig, hs2⟩ := signature_ok (e := e1) (hsrc.congr rfl fun _ _ _ => rfl)
  -- the chunks
  obtain ⟨fuel, hfuel⟩ : ∃ k, (e1.advance 8).sourceLeft + 1 = k + 3 := by
    refine ⟨(e1.advance 8).sourceLeft - 2, ?_⟩
    have := hs2.sourceLeft
    rw [writtenChunk_bytes, List.length_append, pngChunk_length] at this
    omega
  have hlen : (imageHeader w rows.length n).length ≤ 0x7fffffff := show (13 : Nat) ≤ 0x7fffffff by decide
  have hhead := imageHeader_ok (w := w) (h := rows.length) n hw.1 hw.2 hh.1 hh.2 harea
  have hzne : z ≠ [] := hF ▸ compress_ne_nil _ _
  obtain ⟨f, hf, sf, mf, pf, okf⟩ := chunks_ok (c := c) (e := e1.advance 8) (v := p1) fuel
    (writtenChunk_sound _ (by decide) hlen) rfl hhead
    (by show byteAt (imageHeader w rows.length n) 9 ≠ 3; rw [imageHeader_ctype]; exact (encodedColourType_le n).2.1)
    (writtenChunk_sound _ (by decide) hz) rfl hzne (writtenChunk_sound _ (by decide) (Nat.zero_le _)) rfl rfl hl hm
    ⟨h1, fun b hb => by rw [show (e1.advance 8).live = [] from hl] at hb; cases hb⟩ (List.mem_singleton.2 rfl) hs2
  let p : Png := (Png.init.withHeader (imageHeader w rows.length n)).withIdat p1.toNat z.length (max 4096 z.length)
  have hplain : p.Plain w rows.length n :=
    plain_imageHeader p1.toNat z.length (max 4096 z.length) hn hw.2 hh.2
  have pf : f.png = some p := pf
  -- the pipeline
  obtain ⟨g, hg, sg, dg, mg⟩ := pipeline_ok (c := c) (req := req) (force := force) (q := q) (e := f) (a := p1.toNat)
    (cap := max 4096 z.length) (rows := rows) (p2 := p2) (f1 := f1) (p3 := p3) (f2 := f2) (p4 := p4) (f3 := f3)
    hn hreq hw.1 hh.1 hr hplain rfl (by rw [hF]; rfl) (Nat.le_max_right _ _) (by omega) h1.range
    (by rw [mf, hF]; exact Memory.read_write_self _ _ _) okf sf.live sf.moves (by rw [sf.frame.regions]; exact hb)
  have hframe := sf.frame.trans sg.frame
  refine ⟨{ g with
    live := dropBuf (if outChannels req n = n then p3 else p4).toNat g.live
    regions := outputAt (if outChannels req n = n then p3 else p4).toNat g.live ++ g.regions }, ?_, ?_, sg.moves, sg.allocReq, ?_,
    ?_, ?_, dg, fun x hx1 hx2 hx3 hx4 => ?_⟩
  · rw [pngDecodeBody, ensure_bind (decide_eq_true hreq), EngM.bind_ok (needSource_mem hsrc.mode),
      EngM.bind_ok (useSource_mem hsrc.mode hpl), modE_bind, hrg, EngM.bind_ok (e' := e1.advance 8) hsig, getE_bind, hfuel,
      EngM.bind_ok hf, EngM.bind_ok (getP_run pf)]
    exact (EngM.bind_ok hg).trans (by rw [hplain.w, hplain.h]; rfl)
  · simp [sg.live, dropBuf]
  · show g.srcReq = e.srcReq
    rw [hframe.same]
    rfl
  · show g.srcReqLen = e.srcReqLen
    rw [hframe.same]
    rfl
  · show g.bs = { e.bs with pos := g.bs.pos }
    rw [hframe.same]
    rfl
  · show g.mem.get x = e.mem.get x
    rw [mg x hx2 hx3 hx4, mf, Memory.get_write_of_lt]
    · rfl
    · show x < p1.toNat ∨ p1.toNat + z.length ≤ x
      omega

/-! ### Completion -/

/-- A command's completion, from an engine at rest and with results that fit their registers (60_exceptions.md R420). -/
theorem State.complete_completed {s : State} {kind : CmdKind} {r : Results} {e : Eng} (hs : e.srcReq = 0) (ha : e.allocReq = 0)
    (hl : e.live = []) (h0 : r.r0 < 2 ^ 32) (h1 : r.r1 < 2 ^ 32) (h2 : r.r2 < 2 ^ 32) (h3 : r.r3 < 2 ^ 32) :
    Completed s (s.complete kind r e) (BitVec.ofNat 32 r.r0) (BitVec.ofNat 32 r.r1) (BitVec.ofNat 32 r.r2)
      (BitVec.ofNat 32 r.r3) := by
  have heng : ∀ {α : Type} (get : Eng → α) (x : α), get e.idle = x → get e.invalidateUnits.idle = x →
      get (s.complete kind r e).eng = x := by
    intro α get x hx hx'
    rw [State.complete_eng]
    split
    · exact hx'
    · exact hx
  refine ⟨⟨rfl, heng _ _ hs hs, heng _ _ ha ha, heng _ _ hl hl⟩, rfl, ?_, rfl, rfl, rfl,
    ⟨rfl, rfl, rfl, rfl, rfl, rfl, rfl, rfl, rfl, rfl⟩⟩
  simp only [State.complete_res, regWord, h0, h1, h2, h3, if_true]

theorem unitsInvalid_complete_top (s : State) (r : Results) (e : Eng) : UnitsInvalid (s.complete .top r e).eng :=
  ⟨rfl, rfl, rfl, rfl, rfl⟩

/-- Settles O43: the parser finds the written chunks, the inflate engine inverts the compressor, reconstruction inverts the filters,
and conversion and flip act row by row. -/
theorem pngDecodeInvertsPngEncode : Obligations.PngDecodeInvertsPngEncode := by
  unfold Obligations.PngDecodeInvertsPngEncode
  intro s w h n q force rows rest p1 p2 f1 p3 f2 p4 f3 req z cap raw ch img ready hmode hok hreq hahead hn1 hn4 hw1 hh1 hw hh harea
    hraw hz hrows hr n1 r1 a1 n2 r2 a2 a12 n3 r3 a3 a23 hconv
  subst hrows
  have hsize : w * rows.length * n ≤ 0x7fffffff := Nat.le_trans (Nat.mul_le_mul_left _ hn4) harea
  have hch : ch ≤ 4 := by
    show (if req = 0 then n else req) ≤ 4
    split <;> omega
  have hout : w * rows.length * ch ≤ 0x7fffffff := Nat.le_trans (Nat.mul_le_mul_left _ hch) harea
  have fresh : ∀ {v : Word} {m : Nat}, v ≠ 0 → m ≤ 0x7fffffff → v.toNat + m ≤ 0x100000000 →
      overlap s.start.bs.base s.start.bs.len v.toNat m = false → Fresh [s.start.sourceRegion] v m :=
    fun hv hm hrange hap => ⟨hv, hm, hrange, fun r hrm => by rw [List.mem_singleton.1 hrm]; exact hap⟩
  obtain ⟨g, hg, gl, gm, ga, gs, gsl, gb, gd, gmem⟩ := pngDecodeBody_ok (c := s.running.snap)
    (e := { s.running.base with moves := s.running.log }) (rest := rest) (f1 := f1) (f2 := f2) (f3 := f3) (p4 := p4)
    ⟨hn1, hn4⟩ hreq ⟨hw1, hw⟩ ⟨hh1, hh⟩ harea hr hz ⟨hmode, hok, hahead⟩ ready.placed ready.regions ready.live ready.log
    (fresh n1 (by show max 4096 z.length ≤ _; omega) r1 a1)
    ⟨fresh n2 hraw r2 a2, a12, fresh n3 hsize r3 a3, a23, fun hc => fresh (hconv hc).1 hout (hconv hc).2.1 (hconv hc).2.2.1,
      fun hc => (hconv hc).2.2.2⟩
  have hdone := State.complete_completed (s := s) (kind := .top) (e := g) (gs.trans ready.srcReq) ga gl
    (r := ⟨img.toNat, w, rows.length, n⟩) img.isLt (by show w < _; omega) (by show rows.length < _; omega) (by show n < _; omega)
  refine ⟨s.complete .top ⟨img.toNat, w, rows.length, n⟩ g, runCommand_ok hg gl gm, ?_, gd, gmem, unitsInvalid_complete_top _ _ _, gb,
    gsl⟩
  rwa [BitVec.ofNat_toNat, BitVec.setWidth_eq] at hdone

end Sys2Proof.Machine
end

section
/-! SUPPORT. What the engine upholds while a command runs, whatever the command: its ports between two requests, and the invariant
of every unit (10_state.md R40 to R44; 60_exceptions.md R410). A triple's claims are about the BitReader, the inflate output and the
parser state, where the steps of a unit hand facts to each other; of the rest of the engine they need the invariant alone. -/

namespace Sys2Proof.Machine

/-! ### The invariant and its triples -/

/-- A claim about the parts of the engine whose bounds the steps of a command check and use apart: the BitReader, the inflate
output and the parser state. -/
abbrev Claim := BitReader → InflateOut → Option Png → Prop

/-- No claim. -/
abbrev Anything : Claim := fun _ _ _ => True

/-- Between two requests: no request is pending, if `quiet`; every unit is in its invariant, if `ok`. -/
structure Sound (quiet ok : Prop) (e : Eng) : Prop where
  ports : quiet → e.srcReq = 0 ∧ e.allocReq = 0
  units : ok → EngOk e

/-- One request is pending, at one port (10_state.md R40). -/
def OneRequest (e : Eng) : Prop := (e.srcReq ≠ 0 ∧ e.allocReq = 0) ∨ (e.srcReq = 0 ∧ e.allocReq ≠ 0)

/-- Where a run may stop: at an error of the table's range (60_exceptions.md R410), or at one request. Of a host without a move
and of a fault nothing is said. -/
def StopSound (quiet ok : Prop) : Stop → Eng → Prop
  | .raise code _, e => (0x0101 ≤ code ∧ code ≤ 0x0604) ∧ Sound quiet ok e
  | .wait, e => (quiet → OneRequest e) ∧ (ok → EngOk e)
  | .refuse _, _ => True
  | .fault _, _ => True

/-- From a sound engine of which `P` holds the steps `x` end in a sound engine of which `Q` holds, or stop soundly. A
structure, so that the unifier does not run the steps. -/
structure EngM.Safe {α : Type} (quiet ok : Prop) (P : Claim) (x : EngM α) (Q : α → Claim) : Prop where
  ends : ∀ e, Sound quiet ok e → P e.br e.inf e.png → x.Ends e (fun a f => Sound quiet ok f ∧ Q a f.br f.inf f.png)
    (StopSound quiet ok)

section
variable {α β : Type} {quiet ok : Prop} {P P' : Claim}

theorem EngM.Safe.bind {x : EngM α} {k : α → EngM β} {R : α → Claim} {Q : β → Claim} (hx : x.Safe quiet ok P R)
    (hk : ∀ a, (k a).Safe quiet ok (R a) Q) : (x >>= k).Safe quiet ok P Q :=
  ⟨fun e hs hp => EngM.ends_bind ((hx.ends e hs hp).mono (fun a f ⟨hf, hr⟩ => (hk a).ends f hf hr) fun _ _ h => h)⟩

theorem EngM.Safe.mono {x : EngM α} {Q Q' : α → Claim} (h : x.Safe quiet ok P Q) (hp : ∀ r o g, P' r o g → P r o g)
    (hq : ∀ a r o g, Q a r o g → Q' a r o g) : x.Safe quiet ok P' Q' :=
  ⟨fun e hs hp' => (h.ends e hs (hp _ _ _ hp')).mono (fun _ _ ⟨hf, hr⟩ => ⟨hf, hq _ _ _ _ hr⟩) fun _ _ h => h⟩

/-- Steps that keep a claim keep no claim, too. -/
theorem EngM.Safe.forget {x : EngM α} {Q : α → Claim} (h : x.Safe quiet ok P Q) : x.Safe quiet ok P fun _ => Anything :=
  h.mono (fun _ _ _ h => h) fun _ _ _ _ _ => trivial

/-- A claim that holds whatever the engine is a hypothesis of the steps. -/
theorem EngM.Safe.assume {x : EngM α} {Q : α → Claim} {c : Prop} (h : c → x.Safe quiet ok P Q) :
    x.Safe quiet ok (fun r o g => c ∧ P r o g) Q :=
  ⟨fun e hs hp => (h hp.1).ends e hs hp.2⟩

theorem safe_pure {a : α} {Q : α → Claim} (h : ∀ r o g, P r o g → Q a r o g) : (pure a : EngM α).Safe quiet ok P Q :=
  ⟨fun _ hs hp => EngM.ends_pure ⟨hs, h _ _ _ hp⟩⟩

theorem safe_return {a : α} : (pure a : EngM α).Safe quiet ok P fun _ => P := safe_pure fun _ _ _ h => h

theorem safe_ite {c : Prop} [Decidable c] {x y : EngM α} {Q : α → Claim} (hx : c → x.Safe quiet ok P Q)
    (hy : ¬c → y.Safe quiet ok P Q) : (if c then x else y).Safe quiet ok P Q := by
  split
  · exact hx ‹_›
  · exact hy ‹_›

theorem safe_raise {c i : Nat} {Q : α → Claim} (hc : 0x0101 ≤ c ∧ c ≤ 0x0604) : (raise c i : EngM α).Safe quiet ok P Q :=
  ⟨fun _ hs _ => EngM.ends_raise ⟨hc, hs⟩⟩

theorem safe_refuse {r : Refusal} {Q : α → Claim} : (stop (.refuse r) : EngM α).Safe quiet ok P Q :=
  ⟨fun _ _ _ => EngM.ends_stop trivial⟩

theorem safe_fault {x : Fault} {Q : α → Claim} : (stop (.fault x) : EngM α).Safe quiet ok P Q :=
  ⟨fun _ _ _ => EngM.ends_stop trivial⟩

theorem safe_ensure {b : Bool} {c i : Nat} (hc : 0x0101 ≤ c ∧ c ≤ 0x0604) :
    (ensure b c i).Safe quiet ok P fun _ r o g => b = true ∧ P r o g :=
  ⟨fun _ hs hp => EngM.ends_ensure (fun h => ⟨hs, h, hp⟩) fun _ => ⟨hc, hs⟩⟩

/-- A check, and then the rest. -/
theorem safe_ensure_bind {b : Bool} {c i : Nat} {k : Unit → EngM α} {Q : α → Claim} (hc : 0x0101 ≤ c ∧ c ≤ 0x0604)
    (hk : b = true → (k ()).Safe quiet ok P Q) : (ensure b c i >>= k).Safe quiet ok P Q :=
  (safe_ensure hc).bind fun _ => .assume hk

/-- A look at the engine, and then the rest. -/
theorem safe_getE_bind {k : Eng → EngM α} {Q : α → Claim} (hk : ∀ e, (k e).Safe quiet ok P Q) :
    (getE >>= k).Safe quiet ok P Q := ⟨fun e hs hp => (hk e).ends e hs hp⟩

/-- A look at the engine, and then the rest, which knows what was seen. -/
theorem safe_look {k : Eng → EngM α} {Q : α → Claim}
    (hk : ∀ e, (ok → EngOk e) → P e.br e.inf e.png → (k e).Safe quiet ok (fun r o g => r = e.br ∧ o = e.inf ∧ g = e.png) Q) :
    (getE >>= k).Safe quiet ok P Q :=
  ⟨fun e hs hp => (hk e hs.units hp).ends e hs ⟨rfl, rfl, rfl⟩⟩

/-- Steps that are safe from the engine that was seen. -/
theorem EngM.Safe.seen {x : EngM α} {Q : α → Claim} {e : Eng} (h : x.Safe quiet ok P Q) (hp : P e.br e.inf e.png) :
    x.Safe quiet ok (fun r o g => r = e.br ∧ o = e.inf ∧ g = e.png) Q :=
  h.mono (by rintro _ _ _ ⟨rfl, rfl, rfl⟩; exact hp) fun _ _ _ _ h => h

theorem safe_modE {f : Eng → Eng} {Q : Claim}
    (h : ∀ e, Sound quiet ok e → P e.br e.inf e.png → Sound quiet ok (f e) ∧ Q (f e).br (f e).inf (f e).png) :
    (modE f).Safe quiet ok P fun _ => Q := ⟨fun e hs hp => EngM.ends_modE (h e hs hp)⟩

end

/-- The units' invariant looks at no more than these parts of the engine. -/
theorem EngOk.congr {e f : Eng} (h : EngOk e) (mem : f.mem.wf) (bs : f.bs = e.bs := by rfl) (br : f.br = e.br := by rfl)
    (ht0 : f.ht0 = e.ht0 := by rfl) (ht1 : f.ht1 = e.ht1 := by rfl) (ht2 : f.ht2 = e.ht2 := by rfl)
    (inf : f.inf = e.inf := by rfl) (png : f.png = e.png := by rfl) : EngOk f :=
  ⟨mem, bs ▸ h.bs, br ▸ h.br, ht0 ▸ h.ht0, ht1 ▸ h.ht1, ht2 ▸ h.ht2, inf ▸ h.inf, png ▸ h.png⟩

/-- A change of the engine that leaves ports and units alone, and memory in its canonical form. -/
theorem Sound.congr {quiet ok : Prop} {e f : Eng} (h : Sound quiet ok e) (mem : e.mem.wf → f.mem.wf)
    (src : f.srcReq = e.srcReq := by rfl) (alloc : f.allocReq = e.allocReq := by rfl)
    (bs : f.bs = e.bs := by rfl) (br : f.br = e.br := by rfl)
    (ht0 : f.ht0 = e.ht0 := by rfl) (ht1 : f.ht1 = e.ht1 := by rfl) (ht2 : f.ht2 = e.ht2 := by rfl)
    (inf : f.inf = e.inf := by rfl) (png : f.png = e.png := by rfl) : Sound quiet ok f :=
  ⟨fun q => ⟨src.trans (h.ports q).1, alloc.trans (h.ports q).2⟩,
    fun o => (h.units o).congr (mem (h.units o).mem) bs br ht0 ht1 ht2 inf png⟩

/-! ### Regions and memory -/

section
variable {quiet ok : Prop} {P : Claim}

theorem declare_safe {r : Region} : (declare r).Safe quiet ok P fun _ => P :=
  ⟨fun _ hs hp => declare_ends (fun _ => ⟨hs.congr id, hp⟩) trivial⟩

theorem checkIn_safe {a n : Nat} : (checkIn a n).Safe quiet ok P fun _ r o g => a + n ≤ Config.addrSpace ∧ P r o g :=
  ⟨fun _ hs hp => checkIn_ends (fun h => ⟨hs.congr id, h, hp⟩) (fun _ => ⟨by decide, hs⟩) trivial⟩

theorem checkOut_safe {a n : Nat} : (checkOut a n).Safe quiet ok P fun _ r o g => a + n ≤ Config.addrSpace ∧ P r o g :=
  ⟨fun _ hs hp => checkOut_ends (fun h => ⟨hs.congr id, h, hp⟩) (fun _ => ⟨by decide, hs⟩) trivial⟩

theorem memRead_safe {a n : Nat} : (memRead a n).Safe quiet ok P fun _ => P :=
  ⟨fun _ hs hp => memRead_ends (fun _ => ⟨hs, hp⟩) fun _ => trivial⟩

theorem memByte_safe {a : Nat} : (memByte a).Safe quiet ok P fun _ => P :=
  ⟨fun _ hs hp => memByte_ends (fun _ => ⟨hs, hp⟩) fun _ => trivial⟩

theorem memWrite_safe {toHost : Bool} {a : Nat} {bs : List Byte} : (memWrite toHost a bs).Safe quiet ok P fun _ => P :=
  ⟨fun _ hs hp => memWrite_ends (fun _ => ⟨hs.congr fun w => Memory.wf_write w _ _, hp⟩) fun _ => trivial⟩

theorem writePieces_safe {toHost : Bool} (ps : List (Nat × List Byte)) : (writePieces toHost ps).Safe quiet ok P fun _ => P := by
  induction ps with
  | nil => exact safe_return
  | cons p ps ih => exact memWrite_safe.bind fun _ => ih

theorem handOver_safe {p : Nat} : (handOver p).Safe quiet ok P fun _ => P := safe_modE fun _ hs hp => ⟨hs.congr id, hp⟩

/-! ### The ports -/

theorem HostWrote.engOk {e f : Eng} (h : HostWrote e f) (he : EngOk e) : EngOk f := by
  rw [h.same]
  exact he.congr (h.wf he.mem)

theorem HostWrote.srcReq {e f : Eng} (h : HostWrote e f) : f.srcReq = e.srcReq := by rw [h.same]
theorem HostWrote.allocReq {e f : Eng} (h : HostWrote e f) : f.allocReq = e.allocReq := by rw [h.same]
theorem HostWrote.br {e f : Eng} (h : HostWrote e f) : f.br = e.br := by rw [h.same]
theorem HostWrote.inf {e f : Eng} (h : HostWrote e f) : f.inf = e.inf := by rw [h.same]
theorem HostWrote.live {e f : Eng} (h : HostWrote e f) : f.live = e.live := by rw [h.same]
theorem HostWrote.png {e f : Eng} (h : HostWrote e f) : f.png = e.png := by rw [h.same]

/-- A request at the allocator port, its answer, and then the rest: the request is withdrawn, or the engine waits at it alone. -/
theorem safe_allocRequest {f : Eng → Eng} {α : Type} {k : Word → EngM α} {Q : α → Claim}
    (hf : ∀ e, f e = { e with allocReq := (f e).allocReq, allocSize := (f e).allocSize, allocPtr := (f e).allocPtr })
    {req : BitVec 2} (hreq : ∀ e, (f e).allocReq = req) (hne : req ≠ 0) (hk : ∀ v, (k v).Safe quiet ok P Q) :
    (modE f >>= fun _ => answer .alloc >>= k).Safe quiet ok P Q := by
  refine ⟨fun e hs hp => ?_⟩
  have hok : ok → EngOk (f e) := fun o => by
    rw [hf]
    exact (hs.units o).congr (hs.units o).mem
  have hsrc : quiet → (f e).srcReq = 0 := fun q => by
    rw [hf]
    exact (hs.ports q).1
  have hp' : P (f e).br (f e).inf (f e).png := by rwa [hf]
  refine EngM.ends_bind (EngM.ends_modE (EngM.ends_bind ((takeAnswer_ends (p := .alloc) (f e).moves (f e)).mono ?_ ?_)))
  · rintro v _ ⟨g, ns, w, rfl⟩
    refine (hk v).ends _ ⟨fun q => ⟨w.srcReq.trans (hsrc q), rfl⟩, fun o => (w.engOk (hok o)).congr (w.engOk (hok o)).mem⟩ ?_
    show P g.br g.inf g.png
    rwa [w.br, w.inf, w.png]
  · rintro x h (⟨rfl, g, w, rfl⟩ | ⟨⟨r, rfl⟩, -⟩)
    · exact ⟨fun q => .inr ⟨w.srcReq.trans (hsrc q), fun h => hne ((hreq e).symm.trans (w.allocReq.symm.trans h))⟩,
        fun o => (w.engOk (hok o)).congr (w.engOk (hok o)).mem⟩
    · trivial

/-- A request at the stream-source port in the same way. -/
theorem safe_srcRequest {f : Eng → Eng} {α : Type} {k : Word → EngM α} {Q : α → Claim}
    (hf : ∀ e, f e = { e with srcReq := (f e).srcReq, srcReqLen := (f e).srcReqLen })
    {req : BitVec 2} (hreq : ∀ e, (f e).srcReq = req) (hne : req ≠ 0) (hk : ∀ v, (k v).Safe quiet ok P Q) :
    (modE f >>= fun _ => answer .src >>= k).Safe quiet ok P Q := by
  refine ⟨fun e hs hp => ?_⟩
  have hok : ok → EngOk (f e) := fun o => by
    rw [hf]
    exact (hs.units o).congr (hs.units o).mem
  have halloc : quiet → (f e).allocReq = 0 := fun q => by
    rw [hf]
    exact (hs.ports q).2
  have hp' : P (f e).br (f e).inf (f e).png := by rwa [hf]
  refine EngM.ends_bind (EngM.ends_modE (EngM.ends_bind ((takeAnswer_ends (p := .src) (f e).moves (f e)).mono ?_ ?_)))
  · rintro v _ ⟨g, ns, w, rfl⟩
    refine (hk v).ends _ ⟨fun q => ⟨rfl, w.allocReq.trans (halloc q)⟩, fun o => (w.engOk (hok o)).congr (w.engOk (hok o)).mem⟩ ?_
    show P g.br g.inf g.png
    rwa [w.br, w.inf, w.png]
  · rintro x h (⟨rfl, g, w, rfl⟩ | ⟨⟨r, rfl⟩, -⟩)
    · exact ⟨fun q => .inl ⟨fun h => hne ((hreq e).symm.trans (w.srcReq.symm.trans h)), w.allocReq.trans (halloc q)⟩,
        fun o => (w.engOk (hok o)).congr (w.engOk (hok o)).mem⟩
    · trivial

theorem Eng.allocOk_range {e : Eng} {live : List Buf} {r n : Nat} (h : e.allocOk live r n = true) : r + n ≤ Config.addrSpace := by
  simp only [Eng.allocOk, Bool.and_eq_true, decide_eq_true_eq] at h
  exact h.1.1

theorem portAlloc_safe {n : Nat} :
    (portAlloc n).Safe quiet ok P fun a r o g => (a < 2 ^ 32 ∧ a + n ≤ Config.addrSpace) ∧ P r o g :=
  safe_ensure_bind (by decide) fun _ => safe_allocRequest (fun _ => rfl) (fun _ => rfl) (by decide) fun v =>
    safe_ensure_bind (by decide) fun _ => safe_getE_bind fun _ => safe_ite
      (fun h => .bind (safe_modE fun _ hs hp => ⟨hs.congr id, hp⟩) fun _ =>
        safe_pure fun _ _ _ hp => ⟨⟨v.isLt, Eng.allocOk_range h⟩, hp⟩)
      fun _ => safe_refuse

theorem portRealloc_safe {p old n : Nat} :
    (portRealloc p old n).Safe quiet ok P fun a r o g => (a < 2 ^ 32 ∧ a + n ≤ Config.addrSpace) ∧ P r o g :=
  safe_ensure_bind (by decide) fun _ => safe_allocRequest (fun _ => rfl) (fun _ => rfl) (by decide) fun v =>
    safe_ensure_bind (by decide) fun _ => safe_getE_bind fun _ => safe_ite
      (fun h => .bind (safe_modE fun _ hs hp => ⟨hs.congr fun w => Memory.wf_write w _ _, hp⟩) fun _ =>
        safe_pure fun _ _ _ hp => ⟨⟨v.isLt, Eng.allocOk_range h⟩, hp⟩)
      fun _ => safe_refuse

theorem portFree_safe {p : Nat} : (portFree p).Safe quiet ok P fun _ => P :=
  safe_allocRequest (fun _ => rfl) (fun _ => rfl) (by decide) fun _ => safe_modE fun _ hs hp => ⟨hs.congr id, hp⟩

theorem srcRead_safe {n : Nat} : (srcRead n).Safe quiet ok P fun k r o g => k ≤ n ∧ P r o g :=
  safe_srcRequest (fun _ => rfl) (fun _ => rfl) (by decide) fun _ => safe_pure fun _ _ _ hp => ⟨Nat.min_le_right _ _, hp⟩

theorem srcSkip_safe {n : Nat} : (srcSkip n).Safe quiet ok P fun _ => P :=
  safe_srcRequest (fun _ => rfl) (fun _ => rfl) (by decide) fun _ => safe_return

theorem srcEofQuery_safe : srcEofQuery.Safe quiet ok P fun _ => P :=
  safe_srcRequest (fun _ => rfl) (fun _ => rfl) (by decide) fun _ => safe_return

end

end Sys2Proof.Machine
end

section
/-! SUPPORT. The ByteSource, the BitReader and the Huffman decoder uphold the invariant (10_state.md R41 to R43). -/

namespace Sys2Proof.Machine

section
variable {quiet ok : Prop} {P : Claim} {R : InflateOut → Option Png → Prop}

/-! ### The ByteSource (40_bitstream_reader.md R131 to R134) -/

/-- A change of the ByteSource that keeps its invariant. -/
theorem Sound.withBs {e : Eng} (h : Sound quiet ok e) {b : ByteSource} (hb : SourceOk e.bs → SourceOk b) :
    Sound quiet ok { e with bs := b } :=
  ⟨h.ports, fun o => { h.units o with bs := hb (h.units o).bs }⟩

theorem modBs_safe {f : ByteSource → ByteSource} (hf : ∀ b, SourceOk b → SourceOk (f b)) :
    (modBs f).Safe quiet ok P fun _ => P :=
  safe_modE fun _ hs hp => ⟨hs.withBs (hf _), hp⟩

theorem atEof_safe : atEof.Safe quiet ok P fun _ => P :=
  .bind (safe_modE fun _ hs hp => ⟨hs.congr id, hp⟩) fun _ => safe_return

/-- The stream buffer holds no more than a refill brings. -/
theorem streamRefill_safe : streamRefill.Safe quiet ok P fun _ => P := by
  refine .bind srcRead_safe fun k => .assume fun hk => ?_
  refine safe_ite (fun _ => modBs_safe fun b h => ⟨h.slice, h.buffer, h.held⟩) fun _ => safe_getE_bind fun e => ?_
  refine ⟨fun e' hs hp => ?_⟩
  refine EngM.ends_bind (memRead_ends (fun _ => ⟨hs.withBs fun h => ⟨h.slice, h.buffer, ?_⟩, hp⟩) fun _ => trivial)
  rw [Memory.read_length]
  exact hk

theorem streamFill_safe : streamFill.Safe quiet ok P fun _ => P :=
  safe_getE_bind fun _ => safe_ite (fun _ => streamRefill_safe) fun _ => safe_return

/-- A byte of the slice that has not been read moves the cursor within the slice. -/
theorem SourceOk.advance {b : ByteSource} (h : SourceOk b) (hlt : b.pos < b.len) : SourceOk { b with pos := b.pos + 1 } :=
  ⟨fun m => ⟨(h.slice m).1, hlt⟩, h.buffer, h.held⟩

theorem SourceOk.dropHeld {b : ByteSource} (h : SourceOk b) (n : Nat) : SourceOk { b with q := b.q.drop n } :=
  ⟨h.slice, h.buffer, by
    rw [List.length_drop]
    exact Nat.le_trans (Nat.sub_le _ _) h.held⟩

theorem bsGet_safe : bsGet.Safe quiet ok P fun _ => P := by
  refine ⟨fun e hs hp => ?_⟩
  refine EngM.ends_bind (EngM.ends_getE ?_)
  cases hm : e.bs.mode with
  | closed => exact (safe_raise (by decide)).ends e hs hp
  | mem =>
    refine EngM.ends_ite (fun hlt => ?_) fun _ => atEof_safe.ends e hs hp
    exact EngM.ends_bind (memByte_ends (fun _ => ⟨hs.withBs (·.advance hlt), hp⟩) fun _ => trivial)
  | stream =>
    refine EngM.Safe.ends (.bind streamFill_safe fun _ => ⟨fun f hf hp' => ?_⟩) e hs hp
    refine EngM.ends_bind (EngM.ends_getE ?_)
    cases hq : f.bs.q with
    | nil => exact atEof_safe.ends f hf hp'
    | cons b q =>
      refine ⟨hf.withBs fun h => ?_, hp'⟩
      have := h.dropHeld 1
      rwa [hq] at this

theorem bsPeek_safe : bsPeek.Safe quiet ok P fun _ => P := by
  refine safe_getE_bind fun e => ?_
  cases e.bs.mode with
  | closed => exact safe_raise (by decide)
  | mem => exact safe_ite (fun _ => .bind memByte_safe fun _ => safe_return) fun _ => atEof_safe
  | stream =>
    refine .bind streamFill_safe fun _ => safe_getE_bind fun f => ?_
    cases f.bs.q with
    | nil => exact atEof_safe
    | cons b q => exact safe_return

theorem bsGetN_safe (n : Nat) : (bsGetN n).Safe quiet ok P fun _ => P := by
  induction n with
  | zero => exact safe_return
  | succ n ih =>
    refine .bind bsGet_safe fun b => ?_
    cases b with
    | none => exact safe_return
    | some b => exact .bind ih fun _ => safe_return

theorem bsSkip_safe {n : Nat} : (bsSkip n).Safe quiet ok P fun _ => P := by
  refine safe_getE_bind fun e => ?_
  cases e.bs.mode with
  | closed => exact safe_raise (by decide)
  | mem => exact modBs_safe fun b h => ⟨fun m => ⟨(h.slice m).1, Nat.min_le_left _ _⟩, h.buffer, h.held⟩
  | stream => exact .bind (modBs_safe fun b h => h.dropHeld _) fun _ => safe_ite (fun _ => srcSkip_safe) fun _ => safe_return

theorem bsEofTest_safe : bsEofTest.Safe quiet ok P fun _ => P := by
  refine safe_getE_bind fun e => ?_
  cases e.bs.mode with
  | closed => exact safe_raise (by decide)
  | mem => exact safe_return
  | stream => exact safe_ite (fun _ => safe_return) fun _ => safe_ite (fun _ => safe_return) fun _ => srcEofQuery_safe

theorem bsEof_safe : bsEof.Safe quiet ok P fun _ => P :=
  .bind bsEofTest_safe fun _ => safe_ite (fun _ => .bind (safe_modE fun _ hs hp => ⟨hs.congr id, hp⟩) fun _ => safe_return)
    fun _ => safe_return

theorem useSource_safe : useSource.Safe quiet ok P fun _ => P := by
  refine safe_getE_bind fun e => ?_
  cases e.bs.mode with
  | closed => exact safe_return
  | mem => exact declare_safe
  | stream => exact declare_safe

theorem needSource_safe : needSource.Safe quiet ok P fun _ => P :=
  safe_getE_bind fun _ => (safe_ensure (by decide)).mono (fun _ _ _ h => h) fun _ _ _ _ h => h.2

/-! ### The BitReader (40_bitstream_reader.md R142 to R150) -/

/-- A change of the BitReader that keeps its invariant. -/
theorem Sound.withBr {e : Eng} (h : Sound quiet ok e) {r : BitReader} (hr : ok → ReaderOk e.br → ReaderOk r) :
    Sound quiet ok { e with br := r } :=
  ⟨h.ports, fun o => { h.units o with br := hr o (h.units o).br }⟩

/-- A BitReader that has just been started (40_bitstream_reader.md R147, R151). -/
theorem ReaderOk.start {input : BitInput} (h : ∀ a n, input = .mem a n → a + n ≤ Config.addrSpace) :
    ReaderOk { valid := true, code := 0, nbits := 0, input := input } :=
  ⟨Nat.zero_le _, Nat.one_pos, fun _ => h⟩

/-- Another byte joins a BitReader that has room for it (40_bitstream_reader.md R142). -/
theorem ReaderOk.join {r : BitReader} (h : ReaderOk r) (hn : r.nbits ≤ 24) (b : Byte) :
    ReaderOk { r with code := r.code ||| (b.setWidth 32 <<< r.nbits), nbits := r.nbits + 8 } :=
  ⟨Nat.add_le_add_right hn 8, (emit_refill r.code r.nbits b hn h.code).1, h.input⟩

/-- Bits leave a BitReader that holds them (40_bitstream_reader.md R144). -/
theorem ReaderOk.consume {r : BitReader} (h : ReaderOk r) {n : Nat} (hn : n ≤ r.nbits) :
    ReaderOk { r with code := r.code >>> n, nbits := r.nbits - n } := by
  refine ⟨Nat.le_trans (Nat.sub_le _ _) h.nbits, ?_, h.input⟩
  show (r.code >>> n).toNat < _
  rw [BitVec.toNat_ushiftRight, Nat.shiftRight_eq_div_pow, Nat.div_lt_iff_lt_mul (Nat.two_pow_pos n), ← pow_add,
    Nat.sub_add_cancel hn]
  exact h.code

/-- The next input byte leaves the bits held. -/
theorem inGet_safe {K : Nat → Prop} : inGet.Safe quiet ok (fun r o g => K r.nbits ∧ R o g) fun _ r o g => K r.nbits ∧ R o g := by
  refine ⟨fun e hs hp => ?_⟩
  refine EngM.ends_bind (EngM.ends_getE ?_)
  split
  · exact bsGet_safe (P := fun r o g => K r.nbits ∧ R o g) |>.ends e hs hp
  · exact ⟨hs, hp⟩
  · rename_i a n hi
    refine EngM.ends_bind (memByte_ends (fun _ => ⟨hs.withBr fun _ h => ⟨h.nbits, h.code, fun v a' n' he => ?_⟩, hp⟩)
      fun _ => trivial)
    cases he
    have := h.input v a (n + 1) hi
    omega

theorem brRefill_safe (k : Nat) : (brRefill k).Safe quiet ok (fun _ => R) fun _ _ => R := by
  induction k with
  | zero => exact safe_return
  | succ k ih =>
    refine safe_look fun e _ hp => safe_ite (fun h24 => ?_) fun _ => safe_return.seen hp
    refine .bind ((inGet_safe (K := (· ≤ 24))).seen ⟨h24, hp⟩) fun b => ?_
    cases b with
    | none => exact safe_pure fun _ _ _ h => h.2
    | some b => exact .bind (safe_modE fun f hf h => ⟨hf.withBr fun _ hr => hr.join h.1 b, h.2⟩) fun _ => ih

theorem brNeed_safe {n : Nat} : (brNeed n).Safe quiet ok (fun _ => R) fun _ _ => R :=
  safe_getE_bind fun _ => safe_ite (fun _ => brRefill_safe 4) fun _ => safe_return

theorem brConsume_safe {n : Nat} : (brConsume n).Safe quiet ok (fun _ => R) fun _ _ => R := by
  refine ⟨fun e hs hp => ?_⟩
  refine EngM.ends_bind (EngM.ends_getE (EngM.ends_bind (EngM.ends_ensure (fun hn => ?_) fun _ => ⟨by decide, hs⟩)))
  exact ⟨hs.withBr fun _ h => h.consume (by simpa using hn), hp⟩

theorem brGet_safe {n : Nat} : (brGet n).Safe quiet ok (fun _ => R) fun v _ o g => v < 2 ^ n ∧ R o g :=
  .bind brNeed_safe fun _ => safe_getE_bind fun _ => .bind brConsume_safe fun _ =>
    safe_pure fun _ _ _ h => ⟨Nat.mod_lt _ (Nat.two_pow_pos n), h⟩

theorem brPeek16_safe : brPeek16.Safe quiet ok (fun _ => R) fun _ _ => R :=
  .bind brNeed_safe fun _ => safe_getE_bind fun _ => safe_return

theorem brAlign_safe : brAlign.Safe quiet ok (fun _ => R) fun _ _ => R :=
  ⟨fun _ hs hp => EngM.ends_bind (EngM.ends_getE ⟨hs.withBr fun _ h => h.consume (Nat.mod_le _ _), hp⟩)⟩

theorem brByte_safe {err : Nat} (herr : 0x0101 ≤ err ∧ err ≤ 0x0604) :
    (brByte err).Safe quiet ok (fun _ => R) fun _ _ => R := by
  refine safe_getE_bind fun _ => safe_ite (fun _ => brGet_safe.mono (fun _ _ _ h => h) fun _ _ _ _ h => h.2) fun _ => ?_
  refine .bind ((inGet_safe (K := fun _ => True)).mono (fun _ _ _ h => ⟨trivial, h⟩) fun _ _ _ _ h => h.2) fun b => ?_
  cases b with
  | none => exact safe_raise herr
  | some b => exact safe_return

theorem needBits_safe : needBits.Safe quiet ok P fun _ => P :=
  safe_getE_bind fun _ => (safe_ensure (by decide)).mono (fun _ _ _ h => h) fun _ _ _ _ h => h.2

/-! ### The Huffman decoder (41_huffman_decoder.md R160 to R165) -/

/-- The codes of a build stand for the symbols of the lengths given, and no code is empty. -/
theorem symbolCodes_bounds (cs : List LengthClass) (lens : List Nat) (i : Nat) (next : List Nat) :
    ∀ c ∈ symbolCodes cs lens i next, 1 ≤ c.length ∧ c.symbol < i + lens.length := by
  induction lens generalizing i next with
  | nil => simp [symbolCodes]
  | cons l lens ih =>
    have later : ∀ next', ∀ c ∈ symbolCodes cs lens (i + 1) next', 1 ≤ c.length ∧ c.symbol < i + (l :: lens).length := by
      intro next' c hc
      have := ih (i + 1) next' c hc
      rw [List.length_cons]
      omega
    rw [symbolCodes]
    split
    · exact later _
    · intro c hc
      rcases List.mem_cons.1 hc with rfl | hc
      · rw [List.length_cons]
        dsimp only
        omega
      · exact later _ c hc

/-- A fast entry is 0, or the length, at most 9, and the symbol of one of the codes (41_huffman_decoder.md R164). -/
theorem fastEntry_cases (codes : List SymbolCode) (j : Nat) :
    fastEntry codes j = 0 ∨ ∃ c ∈ codes, c.length ≤ 9 ∧ fastEntry codes j = c.length * 512 + c.symbol := by
  refine List.foldlRecOn codes _ (motive := fun x => x = 0 ∨ ∃ c ∈ codes, c.length ≤ 9 ∧ x = c.length * 512 + c.symbol)
    (.inl rfl) fun x hx c hc => ?_
  split
  · exact .inr ⟨c, hc, by tauto, rfl⟩
  · exact hx

/-- A slot that has been built is in its invariant (10_state.md R43). -/
theorem buildSlot_slotOk {lens : List Nat} {h : Huff} (hlen : lens.length ≤ 512) (hb : buildSlot lens = .ok h) : SlotOk h := by
  rw [buildSlot] at hb
  split at hb
  · cases hb
  · split at hb
    · cases hb
    · rename_i cs _
      cases hb
      intro _ j hj
      simp only [slotOf, Vector.getElem_ofFn]
      rcases fastEntry_cases (symbolCodes cs lens 0 (cs.map (·.firstcode))) j with h0 | ⟨c, hc, h9, he⟩
      · exact .inl (by rw [h0]; rfl)
      · obtain ⟨h1, hsym⟩ := symbolCodes_bounds _ _ _ _ c hc
        refine .inr ?_
        rw [he, BitVec.toNat_ofNat, Nat.mod_eq_of_lt (by omega)]
        omega

/-- A class that does not fit is the error of the canonical assignment (41_huffman_decoder.md R163). -/
theorem lengthClasses_error {lens ls : List Nat} {code k : Nat} {x : Nat × Nat} (h : lengthClasses lens ls code k = .error x) :
    x.1 = 0x0304 := by
  induction ls generalizing code k with
  | nil => cases h
  | cons l ls ih =>
    simp only [lengthClasses] at h
    split at h
    · cases h
      rfl
    · split at h
      · cases h
        exact ih ‹_›
      · cases h

theorem buildSlot_error {lens : List Nat} {x : Nat × Nat} (h : buildSlot lens = .error x) : x.1 = 0x0304 ∨ x.1 = 0x0305 := by
  rw [buildSlot] at h
  split at h
  · cases h
    exact .inr rfl
  · split at h
    · cases h
      exact .inl (lengthClasses_error ‹_›)
    · cases h

/-- A change of one slot that keeps its invariant. -/
theorem Sound.setSlot {e : Eng} (hs : Sound quiet ok e) (t : Nat) {h : Huff} (hh : SlotOk h) :
    Sound quiet ok (e.setSlot t h) := by
  match t with
  | 0 => exact ⟨hs.ports, fun o => { hs.units o with ht0 := hh }⟩
  | 1 => exact ⟨hs.ports, fun o => { hs.units o with ht1 := hh }⟩
  | _ + 2 => exact ⟨hs.ports, fun o => { hs.units o with ht2 := hh }⟩

theorem slotOk_freeHuff (draw k : Nat) : SlotOk (freeHuff draw k) := fun h => by cases h

theorem Eng.setSlot_claim {e : Eng} {t : Nat} {h : Huff} (hp : P e.br e.inf e.png) :
    P (e.setSlot t h).br (e.setSlot t h).inf (e.setSlot t h).png := by
  rwa [Eng.setSlot_same]

theorem hbBuild_safe {t : Nat} {lens : List Nat} (hlen : lens.length ≤ 512) : (hbBuild t lens).Safe quiet ok P fun _ => P := by
  rw [hbBuild]
  split
  · exact safe_modE fun _ hs hp => ⟨hs.setSlot t (buildSlot_slotOk hlen ‹_›), Eng.setSlot_claim hp⟩
  · rename_i code info hb
    refine .bind (safe_modE fun e hs hp => ⟨(hs.setSlot t (slotOk_freeHuff e.free 0)).congr id, Eng.setSlot_claim hp⟩)
      fun _ => safe_raise ?_
    have : code = 0x0304 ∨ code = 0x0305 := buildSlot_error hb
    omega

theorem hbDecode_safe {t : Nat} : (hbDecode t).Safe quiet ok (fun _ => R) fun _ _ => R :=
  safe_getE_bind fun _ => safe_ensure_bind (by decide) fun _ => .bind brPeek16_safe fun _ =>
    safe_ite (fun _ => .bind brConsume_safe fun _ => safe_return) fun _ =>
      safe_ensure_bind (by decide) fun _ => safe_ensure_bind (by decide) fun _ => .bind brConsume_safe fun _ => safe_return

theorem buildFixed_safe : buildFixed.Safe quiet ok P fun _ => P := by
  refine .bind (hbBuild_safe ?_) fun _ => hbBuild_safe ?_
  · rw [fixedLitLen_length]
    decide
  · decide

end

end Sys2Proof.Machine
end

section
/-! SUPPORT. The inflate engine upholds the invariant: it writes within the capacity it has reserved, and builds its slots from
lengths of at most a slot's symbols (10_state.md R43, R44). -/

namespace Sys2Proof.Machine

section
variable {quiet ok : Prop} {P : Claim} {R : InflateOut → Option Png → Prop}

/-! ### The output (42_lz77_decompressor.md R191 to R193) -/

/-- The output has room for `n` bytes, where the units are in their invariant. -/
def Room (ok : Prop) (n : Nat) : Claim := fun _ o _ => ok → o.len + n ≤ o.cap

theorem modInf_safe {f : InflateOut → InflateOut} {Q : Claim}
    (hf : ∀ r o g, P r o g → (ok → OutputOk o → OutputOk (f o)) ∧ Q r (f o) g) : (modInf f).Safe quiet ok P fun _ => Q :=
  safe_modE fun _ hs hp =>
    ⟨⟨hs.ports, fun o => { hs.units o with inf := (hf _ _ _ hp).1 o (hs.units o).inf }⟩, (hf _ _ _ hp).2⟩

/-- An output that has just been opened (42_lz77_decompressor.md R201). -/
theorem OutputOk.opened {out cap : Nat} {realloc : Bool} (ho : out < 2 ^ 32) (hc : cap < 2 ^ 32)
    (hr : out + cap ≤ Config.addrSpace) : OutputOk { isOpen := true, out := out, len := 0, cap := cap, realloc := realloc } :=
  ⟨fun _ => Nat.zero_le _, fun _ => hr, fun _ => ho, fun _ => hc⟩

/-- The steps that open an output. -/
theorem openOutput_safe {out cap : Nat} {realloc : Bool} (ho : out < 2 ^ 32) (hc : cap < 2 ^ 32)
    (hr : out + cap ≤ Config.addrSpace) :
    (modInf fun _ => { isOpen := true, out := out, len := 0, cap := cap, realloc := realloc }).Safe quiet ok P
      fun _ => Anything :=
  modInf_safe fun _ _ _ _ => ⟨fun _ _ => .opened ho hc hr, trivial⟩

/-- What is reserved is there (42_lz77_decompressor.md R191). -/
theorem outReserve_safe {n : Nat} : (outReserve n).Safe quiet ok P fun _ => Room ok n := by
  refine safe_look fun e hok _ => safe_ite (fun h => safe_pure ?_) fun hfull => ?_
  · rintro _ _ _ ⟨rfl, rfl, rfl⟩ _
    exact h
  · refine safe_ensure_bind (by decide) fun _ => safe_ensure_bind (by decide) fun hceil => ?_
    have hneed : e.inf.len + n ≤ Config.sizeCeiling := by simpa using hceil
    have hge := growCap_ge 32 (c := e.inf.cap) hneed
    have hle := growCap_le 32 (c := e.inf.cap) (need := e.inf.len + n) (by omega)
    refine .bind portRealloc_safe fun a => .assume fun ⟨ha, hrange⟩ => modInf_safe ?_
    rintro _ _ _ ⟨rfl, rfl, rfl⟩
    exact ⟨fun _ _ => ⟨fun _ => Nat.le_trans (Nat.le_add_right _ _) hge, fun _ => hrange, fun _ => ha,
      fun _ => Nat.lt_of_le_of_lt hle (by decide)⟩, fun _ => hge⟩

theorem outStore_safe {n : Nat} {b : Byte} : (outStore b).Safe quiet ok (Room ok (n + 1)) fun _ => Room ok n :=
  safe_getE_bind fun _ => .bind memWrite_safe fun _ => modInf_safe fun _ o _ hroom =>
    have room : ok → o.len + 1 + n ≤ o.cap := fun k => by
      have := hroom k
      omega
    ⟨fun k h => ⟨fun _ => Nat.le_trans (Nat.le_add_right _ _) (room k), h.range, h.out, h.cap⟩, room⟩

theorem outPut_safe {b : Byte} : (outPut b).Safe quiet ok P fun _ => Anything :=
  .bind outReserve_safe fun _ => outStore_safe.forget

theorem copyBack_safe (dist n : Nat) : (copyBack dist n).Safe quiet ok (Room ok n) fun _ => Anything := by
  induction n with
  | zero => exact safe_return.forget
  | succ n ih => exact safe_getE_bind fun _ => .bind memByte_safe fun _ => .bind outStore_safe fun _ => ih

theorem infCopy_safe {length dist : Nat} : (infCopy length dist).Safe quiet ok P fun _ => Anything :=
  safe_getE_bind fun _ => safe_ensure_bind (by decide) fun _ => .bind outReserve_safe fun _ => copyBack_safe dist length

/-! ### Stored blocks and headers (42_lz77_decompressor.md R203, R208) -/

theorem copyStored_safe (n : Nat) : (copyStored n).Safe quiet ok (Room ok n) fun _ => Anything := by
  induction n with
  | zero => exact safe_return.forget
  | succ n ih => exact .bind (brByte_safe (by decide)) fun _ => .bind outStore_safe fun _ => ih

theorem infStored_safe : infStored.Safe quiet ok Anything fun _ => Anything :=
  .bind brAlign_safe fun _ => .bind (brByte_safe (by decide)) fun _ => .bind (brByte_safe (by decide)) fun _ =>
    .bind (brByte_safe (by decide)) fun _ => .bind (brByte_safe (by decide)) fun _ => safe_ensure_bind (by decide) fun _ =>
      .bind outReserve_safe fun _ => copyStored_safe _

/-- The code-length code has as many lengths as it had. -/
theorem readCodeLengths_safe (order cl : List Nat) :
    (readCodeLengths order cl).Safe quiet ok (fun _ => R) fun l _ o g => l.length = cl.length ∧ R o g := by
  induction order generalizing cl with
  | nil => exact safe_pure fun _ _ _ h => ⟨rfl, h⟩
  | cons i order ih =>
    refine .bind brGet_safe fun v => .assume fun _ => ?_
    have := ih (cl.set i v)
    rwa [List.length_set] at this

theorem readRepeat_safe (c : Nat) (acc : List Nat) : (readRepeat c acc).Safe quiet ok (fun _ => R) fun _ _ => R := by
  refine safe_ite (fun _ => ?_) fun _ => safe_ite (fun _ => ?_) fun _ => ?_
  · refine .bind brGet_safe fun r => .assume fun _ => ?_
    cases acc with
    | nil => exact safe_raise (by decide)
    | cons v _ => exact safe_return
  · exact .bind brGet_safe fun r => .assume fun _ => safe_return
  · exact .bind brGet_safe fun r => .assume fun _ => safe_return

/-- A dynamic header gives no more lengths than it announces. -/
theorem readLengths_safe (ntot fuel : Nat) (acc : List Nat) (h : acc.length ≤ ntot) :
    (readLengths ntot fuel acc).Safe quiet ok (fun _ => R) fun l _ o g => l.length ≤ ntot ∧ R o g := by
  induction fuel generalizing acc with
  | zero => exact safe_pure fun _ _ _ hp => ⟨h, hp⟩
  | succ fuel ih =>
    refine safe_ite (fun hlt => ?_) fun _ => safe_pure fun _ _ _ hp => ⟨h, hp⟩
    refine .bind hbDecode_safe fun c => safe_ite (fun _ => ih (c :: acc) hlt) fun _ => ?_
    refine .bind (readRepeat_safe c acc) fun ⟨r, v⟩ => safe_ensure_bind (by decide) fun hr => ih _ ?_
    have : r ≤ ntot - acc.length := by simpa using hr
    rw [List.length_append, List.length_replicate]
    omega

theorem infDynamic_safe : infDynamic.Safe quiet ok Anything fun _ => Anything := by
  refine .bind brGet_safe fun hlit => .assume fun hl => .bind brGet_safe fun hdist => .assume fun hd =>
    .bind brGet_safe fun hclen => .assume fun _ => .bind (readCodeLengths_safe _ _) fun cl => .assume fun hcl => ?_
  refine .bind (hbBuild_safe ?_) fun _ => .bind (readLengths_safe _ _ [] (Nat.zero_le _)) fun acc => .assume fun hacc =>
    .bind (hbBuild_safe ?_) fun _ => hbBuild_safe ?_
  · rw [hcl]
    decide
  · rw [List.length_take]
    omega
  · rw [List.length_drop, List.length_reverse]
    omega

/-! ### Blocks and streams (42_lz77_decompressor.md R194, R202, R210, R211, R213) -/

theorem readMatch_safe (z : Nat) : (readMatch z).Safe quiet ok (fun _ => R) fun _ _ => R :=
  .bind brGet_safe fun _ => .assume fun _ => .bind hbDecode_safe fun _ => safe_ensure_bind (by decide) fun _ =>
    .bind brGet_safe fun _ => .assume fun _ => safe_return

theorem infCodes_safe (fuel : Nat) : (infCodes fuel).Safe quiet ok Anything fun _ => Anything := by
  induction fuel with
  | zero => exact safe_fault
  | succ fuel ih =>
    refine .bind hbDecode_safe fun z => safe_ite (fun _ => .bind outPut_safe fun _ => ih) fun _ =>
      safe_ite (fun _ => safe_return) fun _ => safe_ensure_bind (by decide) fun _ => ?_
    exact .bind (readMatch_safe z) fun _ => .bind infCopy_safe fun _ => ih

theorem infSymbols_safe : infSymbols.Safe quiet ok Anything fun _ => Anything := safe_getE_bind fun _ => infCodes_safe _

theorem infBlock_safe : infBlock.Safe quiet ok Anything fun _ => Anything := by
  refine .bind brGet_safe fun final => .assume fun _ => .bind brGet_safe fun type => .assume fun _ => ?_
  refine safe_ite (fun _ => .bind infStored_safe fun _ => safe_return) fun _ => safe_ite (fun _ => ?_) fun _ =>
    safe_ite (fun _ => ?_) fun _ => .bind (safe_raise (by decide)) fun _ => safe_return
  · exact .bind buildFixed_safe fun _ => .bind infSymbols_safe fun _ => safe_return
  · exact .bind infDynamic_safe fun _ => .bind infSymbols_safe fun _ => safe_return

theorem infBlocks_safe (fuel : Nat) : (infBlocks fuel).Safe quiet ok Anything fun _ => Anything := by
  induction fuel with
  | zero => exact safe_fault
  | succ fuel ih => exact .bind infBlock_safe fun _ => safe_ite (fun _ => safe_return) fun _ => ih

theorem zlibHeader_safe : zlibHeader.Safe quiet ok (fun _ => R) fun _ _ => R :=
  .bind (brByte_safe (by decide)) fun _ => .bind (brByte_safe (by decide)) fun _ => safe_ensure_bind (by decide) fun _ =>
    safe_ensure_bind (by decide) fun _ => safe_ensure_bind (by decide) fun _ => safe_return

theorem adlerVerify_safe : adlerVerify.Safe quiet ok Anything fun _ => Anything :=
  .bind brAlign_safe fun _ => .bind (brByte_safe (by decide)) fun _ => .bind (brByte_safe (by decide)) fun _ =>
    .bind (brByte_safe (by decide)) fun _ => .bind (brByte_safe (by decide)) fun _ => safe_getE_bind fun _ =>
      .bind memRead_safe fun _ => (safe_ensure (by decide)).forget

theorem inflate_safe {z va : Bool} : (inflate z va).Safe quiet ok Anything fun _ => Anything := by
  refine safe_ite (fun _ => .bind zlibHeader_safe fun _ => ?_) fun _ => ?_
  all_goals
    exact safe_getE_bind fun _ => .bind (infBlocks_safe _) fun _ => safe_ite (fun _ => adlerVerify_safe) fun _ => safe_return

theorem needOutput_safe : needOutput.Safe quiet ok P fun _ => P :=
  safe_getE_bind fun _ => (safe_ensure (by decide)).mono (fun _ _ _ h => h) fun _ _ _ _ h => h.2

theorem useOutput_safe : useOutput.Safe quiet ok P fun _ => P := safe_getE_bind fun _ => declare_safe

theorem needOutputApart_safe : needOutputApart.Safe quiet ok P fun _ => P :=
  safe_getE_bind fun _ => (safe_ensure (by decide)).mono (fun _ _ _ h => h) fun _ _ _ _ h => h.2

end

end Sys2Proof.Machine
end

section
/-! SUPPORT. The scanline unit, the format converter and the PNG parser uphold the invariant (10_state.md R45). -/

namespace Sys2Proof.Machine

section
variable {quiet ok : Prop} {P : Claim}

/-! ### Reconstruction (44_scanline_filter_unit.md R290) -/

theorem writeRows_safe (l : Layout) (w addr : Nat) (rows : List (List Byte)) :
    (writeRows l w addr rows).Safe quiet ok P fun _ => P := by
  induction rows generalizing addr with
  | nil => exact safe_return
  | cons row rows ih => exact .bind memWrite_safe fun _ => ih _

theorem scatterRow_safe (l : Layout) (p : Adam7Pass) (out w y n i : Nat) (px : List Byte) :
    (scatterRow l p out w y n i px).Safe quiet ok P fun _ => P := by
  induction n generalizing i px with
  | zero => exact safe_return
  | succ n ih => exact .bind memWrite_safe fun _ => ih _ _

theorem scatterRows_safe (l : Layout) (p : Adam7Pass) (out w j : Nat) (rows : List (List Byte)) :
    (scatterRows l p out w j rows).Safe quiet ok P fun _ => P := by
  induction rows generalizing j with
  | nil => exact safe_return
  | cons row rows ih => exact .bind (scatterRow_safe l p out w _ _ _ _) fun _ => ih _

theorem defilterOrRaise_safe (l : Layout) (pw ph : Nat) (buf : List Byte) :
    (defilterOrRaise l pw ph buf).Safe quiet ok P fun _ => P := by
  rw [defilterOrRaise]
  split
  · exact safe_raise (by decide)
  · exact safe_return

theorem reconPasses_safe (l : Layout) (out w h : Nat) (ps : List Adam7Pass) (buf : List Byte) :
    (reconPasses l out w h ps buf).Safe quiet ok P fun _ => P := by
  induction ps generalizing buf with
  | nil => exact safe_return
  | cons p ps ih =>
    exact safe_ite (fun _ => .bind (defilterOrRaise_safe _ _ _ _) fun _ => .bind (scatterRows_safe _ _ _ _ _ _) fun _ => ih _)
      fun _ => ih _

theorem recon_safe (l : Layout) (buf len w h : Nat) (interlaced : Bool) :
    (recon l buf len w h interlaced).Safe quiet ok P fun _ => P :=
  .bind portAlloc_safe fun _ => .assume fun _ => .bind memRead_safe fun _ => safe_ite
    (fun _ => .bind (reconPasses_safe _ _ _ _ _ _) fun _ => safe_return)
    fun _ => .bind (defilterOrRaise_safe _ _ _ _) fun _ => .bind (writeRows_safe _ _ _ _) fun _ => safe_return

/-! ### Buffers of pixels (45_format_converter.md R313 to R322) -/

theorem convert_safe (img n s r : Nat) : (convert img n s r).Safe quiet ok P fun _ => P :=
  .bind portAlloc_safe fun _ => .assume fun _ => .bind memRead_safe fun _ => .bind memWrite_safe fun _ => safe_return

theorem paletteExpand_safe (idx n : Nat) (pal : Vector Rgba 256) (palLen out : Nat) :
    (paletteExpand idx n pal palLen out).Safe quiet ok P fun _ => P :=
  .bind portAlloc_safe fun _ => .assume fun _ => .bind memRead_safe fun _ => .bind memWrite_safe fun _ => safe_return

theorem keyApply_safe (toHost : Bool) (buf n c : Nat) (key : List Byte) :
    (keyApply toHost buf n c key).Safe quiet ok P fun _ => P :=
  .bind memRead_safe fun _ => writePieces_safe _

theorem cgbiFix_safe (toHost : Bool) (buf n ch : Nat) (unpremul : Bool) :
    (cgbiFix toHost buf n ch unpremul).Safe quiet ok P fun _ => P :=
  .bind memRead_safe fun _ => writePieces_safe _

theorem flip_safe (toHost : Bool) (buf rowlen rows : Nat) : (flip toHost buf rowlen rows).Safe quiet ok P fun _ => P :=
  .bind memRead_safe fun _ => writePieces_safe _

/-! ### The parser state and its input (43_png_chunk_parser.md R241, R243, R255) -/

theorem AccumulatorOk.init : AccumulatorOk Png.init := ⟨Nat.le_refl _, by decide⟩

/-- The parser state that the steps see is in its invariant. -/
theorem EngOk.parser {e : Eng} (h : EngOk e) : AccumulatorOk (e.png.getD Png.init) := by
  cases hp : e.png with
  | none => exact .init
  | some p => exact h.png p hp

/-- A look at the parser state, and then the rest. -/
theorem safe_getP_bind {α : Type} {k : Png → EngM α} {Q : α → Claim}
    (hk : ∀ p, (ok → AccumulatorOk p) → (k p).Safe quiet ok (fun r o g => g.getD Png.init = p ∧ P r o g) Q) :
    (getP >>= k).Safe quiet ok P Q :=
  ⟨fun e hs hp => EngM.ends_bind (EngM.ends_bind (EngM.ends_getE ((hk _ fun o => (hs.units o).parser).ends e hs ⟨rfl, hp⟩)))⟩

/-- A change of the parser state that keeps its invariant. -/
theorem modP_safe {f : Png → Png} {Q : Claim}
    (hf : ∀ r o g, P r o g → (ok → AccumulatorOk (g.getD Png.init) → AccumulatorOk (f (g.getD Png.init))) ∧
      Q r o (some (f (g.getD Png.init)))) : (modP f).Safe quiet ok P fun _ => Q :=
  safe_modE fun _ hs hp =>
    ⟨⟨hs.ports, fun o => { hs.units o with png := fun _ h => Option.some.inj h ▸ (hf _ _ _ hp).1 o (hs.units o).parser }⟩,
      (hf _ _ _ hp).2⟩

/-- A change of the parser state that leaves the accumulator alone. -/
theorem modP_safe_of_same {f : Png → Png} (hi : ∀ p, (f p).idat = p.idat := by intro; rfl)
    (hl : ∀ p, (f p).idatLen = p.idatLen := by intro; rfl) (hc : ∀ p, (f p).idatCap = p.idatCap := by intro; rfl) :
    (modP f).Safe quiet ok P fun _ => Anything :=
  modP_safe fun _ _ _ _ => ⟨fun _ h => ⟨by rw [hl, hc]; exact h.len, by rw [hi, hc]; exact h.range⟩, trivial⟩

theorem need_safe {n err : Nat} (herr : 0x0101 ≤ err ∧ err ≤ 0x0604) :
    (need n err).Safe quiet ok P fun s r o g => n ≤ s.length ∧ P r o g :=
  .bind (bsGetN_safe n) fun _ => safe_ensure_bind herr fun h => safe_pure fun _ _ _ hp => ⟨by simpa using h, hp⟩

theorem chunkCrc_safe (c : Snapshot) (type : Nat) (d : List Byte) : (chunkCrc c type d).Safe quiet ok P fun _ => Anything :=
  .bind (need_safe (by decide)) fun _ => (safe_ensure (by decide)).forget

theorem skipData_safe (c : Snapshot) (len : Nat) : (skipData c len).Safe quiet ok P fun _ => Anything :=
  safe_ite (fun _ => (need_safe (by decide)).forget) fun _ => .bind bsSkip_safe fun _ => safe_return.forget

theorem chunkSkip_safe (c : Snapshot) (type len : Nat) : (chunkSkip c type len).Safe quiet ok P fun _ => Anything :=
  .bind (skipData_safe c len) fun _ => chunkCrc_safe c type _

/-! ### The chunks (43_png_chunk_parser.md R244 to R256) -/

theorem signature_safe : signature.Safe quiet ok P fun _ => Anything :=
  .bind (bsGetN_safe 8) fun _ => (safe_ensure (by decide)).forget

theorem ihdrCheck_safe (d : List Byte) : (ihdrCheck d).Safe quiet ok P fun _ => Anything :=
  safe_ensure_bind (by decide) fun _ => safe_ensure_bind (by decide) fun _ => safe_ensure_bind (by decide) fun _ =>
    safe_ensure_bind (by decide) fun _ => safe_ensure_bind (by decide) fun _ => safe_ensure_bind (by decide) fun _ =>
      safe_ensure_bind (by decide) fun _ => (safe_ensure (by decide)).forget

theorem ihdr_safe (c : Snapshot) (len : Nat) : (ihdr c len).Safe quiet ok P fun _ => Anything :=
  safe_getP_bind fun _ _ => safe_ensure_bind (by decide) fun _ => safe_ensure_bind (by decide) fun _ =>
    .bind (need_safe (by decide)) fun d => .bind (ihdrCheck_safe d) fun _ =>
      .bind modP_safe_of_same fun _ => .bind (chunkCrc_safe c _ _) fun _ =>
        modP_safe_of_same

theorem plte_safe (c : Snapshot) (len : Nat) : (plte c len).Safe quiet ok P fun _ => Anything :=
  safe_getP_bind fun _ _ => safe_ensure_bind (by decide) fun _ => safe_ensure_bind (by decide) fun _ =>
    .bind (need_safe (by decide)) fun _ => safe_ite
      (fun _ => .bind modP_safe_of_same fun _ => chunkCrc_safe c _ _)
      fun _ => chunkCrc_safe c _ _

theorem trns_safe (c : Snapshot) (len : Nat) : (trns c len).Safe quiet ok P fun _ => Anything :=
  safe_getP_bind fun _ _ => safe_ensure_bind (by decide) fun _ => safe_ite
    (fun _ => safe_ensure_bind (by decide) fun _ => safe_ensure_bind (by decide) fun _ => .bind (need_safe (by decide)) fun _ =>
      .bind modP_safe_of_same fun _ => chunkCrc_safe c _ _)
    fun _ => safe_ensure_bind (by decide) fun _ => safe_ensure_bind (by decide) fun _ => .bind (need_safe (by decide)) fun _ =>
      .bind modP_safe_of_same fun _ => chunkCrc_safe c _ _

/-- A capacity that has grown for `size` bytes holds them. -/
theorem idatCapacity_ge (cap len : Nat) {size : Nat} (h : size ≤ Config.sizeCeiling) : size ≤ idatCapacity cap size len :=
  growCap_ge 32 h

/-- The accumulator has room for `size` bytes, where the units are in their invariant (43_png_chunk_parser.md R252). -/
def IdatRoom (ok : Prop) (size : Nat) : Claim := fun _ _ g => ok → size ≤ (g.getD Png.init).idatCap

/-- The steps that put a buffer with room for `size` bytes in the accumulator's place. -/
theorem placeIdat_safe {size len a c : Nat} (hlen : len ≤ size) (hsize : size ≤ c) (ha : a + c ≤ Config.addrSpace) :
    (modP fun p => { p with idat := some a, idatCap := c }).Safe quiet ok (fun _ _ g => (g.getD Png.init).idatLen = len)
      fun _ => IdatRoom ok size :=
  modP_safe fun _ _ g hg => ⟨fun _ _ => ⟨by
    show (g.getD Png.init).idatLen ≤ c
    omega, ha⟩, fun _ => hsize⟩

theorem idatReserve_safe {old size len : Nat} (h : old ≤ size) :
    (idatReserve size len).Safe quiet ok (fun _ _ g => (g.getD Png.init).idatLen = old) fun _ => IdatRoom ok size := by
  refine safe_getP_bind fun p _ => safe_ite (fun _ => ?_) fun hroom => safe_pure ?_
  · refine safe_ensure_bind (by decide) fun hceil => ?_
    have hc := idatCapacity_ge p.idatCap len (show size ≤ Config.sizeCeiling by simpa using hceil)
    exact safe_ite
      (fun _ => .bind portAlloc_safe fun _ => .assume fun ha => (placeIdat_safe h hc ha.2).mono (fun _ _ _ h => h.2)
        fun _ _ _ _ h => h)
      fun _ => .bind portRealloc_safe fun _ => .assume fun ha =>
        (placeIdat_safe h hc ha.2).mono (fun _ _ _ h => h.2) fun _ _ _ _ h => h
  · rintro _ _ g ⟨rfl, _⟩ _
    omega

theorem idat_safe (c : Snapshot) (len : Nat) : (idat c len).Safe quiet ok P fun _ => Anything := by
  refine safe_getP_bind fun p _ => safe_ensure_bind (by decide) fun _ => ?_
  have seen : (modP fun p => { p with idatSeen := true }).Safe quiet ok (fun r o g => g.getD Png.init = p ∧ P r o g)
      fun _ _ _ g => (g.getD Png.init).idatLen = p.idatLen :=
    modP_safe fun _ _ g hp => ⟨fun _ h => ⟨h.len, h.range⟩, show (g.getD Png.init).idatLen = _ by rw [hp.1]⟩
  refine .bind seen fun _ => .bind (idatReserve_safe (Nat.le_add_right _ len)) fun _ => .bind (need_safe (by decide)) fun d =>
    .assume fun _ => safe_getP_bind fun q _ => .bind memWrite_safe fun _ => .bind (modP_safe fun _ _ g h => ?_) fun _ =>
      chunkCrc_safe (P := Anything) c _ _
  exact ⟨fun k hk => ⟨h.2 k, hk.range⟩, trivial⟩

theorem iend_safe (c : Snapshot) (len : Nat) : (iend c len).Safe quiet ok P fun _ => Anything :=
  safe_getP_bind fun _ _ => safe_ensure_bind (by decide) fun _ => safe_ite
    (fun _ => .bind (need_safe (by decide)) fun _ => chunkCrc_safe c _ _) fun _ => safe_return.forget

theorem chunk_safe (c : Snapshot) (type len : Nat) : (chunk c type len).Safe quiet ok P fun _ => Anything :=
  safe_ite (fun _ => ihdr_safe c len) fun _ => safe_ite (fun _ => plte_safe c len) fun _ =>
    safe_ite (fun _ => trns_safe c len) fun _ => safe_ite (fun _ => idat_safe c len) fun _ =>
      safe_ite (fun _ => safe_raise (by decide)) fun _ => chunkSkip_safe c type len

theorem chunks_safe (c : Snapshot) (fuel : Nat) : (chunks c fuel).Safe quiet ok Anything fun _ => Anything := by
  induction fuel with
  | zero => exact safe_fault
  | succ fuel ih =>
    refine .bind (need_safe (by decide)).forget fun hd => safe_ensure_bind (by decide) fun _ => safe_ite (fun _ => ?_) fun _ => ?_
    · exact .bind modP_safe_of_same fun _ => .bind (chunkSkip_safe c _ _) fun _ => ih
    · exact safe_getP_bind fun _ _ => safe_ensure_bind (by decide) fun _ => safe_ite (fun _ => iend_safe c _) fun _ =>
        .bind (chunk_safe c _ _) fun _ => ih

/-! ### The pipeline (43_png_chunk_parser.md R257 to R266) -/

theorem pngInflate_safe (c : Snapshot) {p : Png} (rawLen : Nat) (hp : ok → AccumulatorOk p) :
    (pngInflate c p rawLen).Safe quiet ok P fun _ => Anything := by
  refine safe_ensure_bind (by decide) fun hraw => .bind portAlloc_safe fun a => .assume fun ha => ?_
  have hcap : rawLen < 2 ^ 32 := Nat.lt_of_le_of_lt (of_decide_eq_true hraw) (by decide)
  refine .bind (openOutput_safe ha.1 hcap ha.2) fun _ => .bind (safe_modE fun e hs _ => ⟨hs.withBr fun o _ => .start ?_, trivial⟩)
    fun _ => .bind (Q := fun _ => Anything) inflate_safe fun _ => safe_getE_bind fun _ => safe_ensure_bind (by decide) fun _ =>
      portFree_safe
  rintro a n ⟨⟩
  have := (hp o).len
  have := (hp o).range
  omega

theorem pngRecon_safe (p : Png) (rawLen : Nat) : (pngRecon p rawLen).Safe quiet ok P fun _ => P :=
  safe_getE_bind fun _ => .bind (recon_safe _ _ _ _ _ _) fun _ => .bind portFree_safe fun _ => safe_return

theorem pngKey_safe (p : Png) (n img ch : Nat) : (pngKey p n img ch).Safe quiet ok P fun _ => P :=
  safe_ite (fun _ => .bind (convert_safe _ _ _ _) fun _ => .bind (keyApply_safe _ _ _ _ _) fun _ =>
    .bind portFree_safe fun _ => safe_return)
    fun _ => safe_return

theorem pngPalette_safe (p : Png) (n img ch : Nat) : (pngPalette p n img ch).Safe quiet ok P fun _ => P :=
  safe_ite (fun _ => .bind (paletteExpand_safe _ _ _ _ _) fun _ => .bind portFree_safe fun _ => safe_return) fun _ => safe_return

theorem pngConvert_safe (req n img s : Nat) : (pngConvert req n img s).Safe quiet ok P fun _ => P :=
  safe_ite (fun _ => .bind (convert_safe _ _ _ _) fun _ => .bind portFree_safe fun _ => safe_return) fun _ => safe_return

theorem pipeline_safe (c : Snapshot) (req : Nat) {p : Png} (hp : ok → AccumulatorOk p) :
    (pipeline c req p).Safe quiet ok P fun _ => Anything := by
  refine .bind (pngInflate_safe c _ hp) fun _ => .bind (pngRecon_safe p _) fun img =>
    .bind (pngKey_safe p _ _ _) fun ⟨img, ch⟩ => ?_
  refine safe_ite (fun _ => .bind (cgbiFix_safe _ _ _ _ _) fun _ => ?_) fun _ => ?_
  all_goals
    exact .bind (pngPalette_safe p _ _ _) fun _ => .bind (pngConvert_safe req _ _ _) fun _ =>
      safe_ite (fun _ => .bind (flip_safe _ _ _ _) fun _ => safe_return) fun _ => safe_return

end

end Sys2Proof.Machine
end

section
/-! SUPPORT. Every command upholds the invariant, from its acceptance to the end of its turn (10_state.md R40; 60_exceptions.md
R410, R414, R420). -/

namespace Sys2Proof.Machine

/-! ### The commands' steps -/

theorem Snapshot.arg_lt (c : Snapshot) (k : Fin 8) : c.arg k < 2 ^ 32 := c.args[k].isLt

section
variable {quiet ok : Prop} {P : Claim}

theorem openSource_safe {f : ByteSource → ByteSource} (hf : ∀ b, SourceOk { f b with q := [], eof := false }) :
    (openSource f).Safe quiet ok P fun _ => Anything :=
  safe_modE fun _ hs _ => ⟨⟨hs.ports, fun o => { hs.units o with
    bs := hf _
    br := ⟨(hs.units o).br.nbits, (hs.units o).br.code, nofun⟩ }⟩, trivial⟩

theorem bsOpenMemBody_safe (c : Snapshot) : (bsOpenMemBody c).Safe quiet ok P fun _ => Anything :=
  .bind checkIn_safe fun _ => .assume fun h =>
    .bind (openSource_safe fun _ => ⟨fun _ => ⟨h, Nat.zero_le _⟩, nofun, Nat.zero_le _⟩) fun _ => safe_return

theorem bsOpenStreamBody_safe (c : Snapshot) : (bsOpenStreamBody c).Safe quiet ok P fun _ => Anything :=
  .bind checkIn_safe fun _ => .assume fun h => .bind (openSource_safe fun _ => ⟨nofun, fun _ => h, Nat.zero_le _⟩) fun _ =>
    safe_return

theorem bsReadBody_safe (c : Snapshot) : (bsReadBody c).Safe quiet ok P fun _ => P :=
  .bind checkOut_safe fun _ => .assume fun _ => .bind needSource_safe fun _ => safe_getE_bind fun _ =>
    safe_ensure_bind (by decide) fun _ => .bind useSource_safe fun _ => .bind (bsGetN_safe _) fun _ =>
      .bind memWrite_safe fun _ => safe_return

theorem bsPeekBody_safe (c : Snapshot) : (bsPeekBody c).Safe quiet ok P fun _ => P := by
  refine .bind useSource_safe fun _ => .bind bsPeek_safe fun b => ?_
  cases b with
  | none => exact safe_return
  | some b => exact safe_return

/-- A new BitReader over the ByteSource (40_bitstream_reader.md R147). -/
theorem startReader_safe :
    (modBr fun _ => { valid := true, code := 0, nbits := 0, input := .source }).Safe quiet ok P fun _ => Anything :=
  safe_modE fun _ hs _ => ⟨hs.withBr fun _ _ => .start nofun, trivial⟩

theorem brGetBody_safe (n : Nat) (c : Snapshot) : (brGetBody n c).Safe quiet ok Anything fun _ => Anything :=
  .bind needBits_safe fun _ => safe_ensure_bind (by decide) fun _ => .bind useSource_safe fun _ => .bind brGet_safe fun _ =>
    .assume fun _ => safe_return

theorem htBuildBody_safe (slot : Nat) (c : Snapshot) : (htBuildBody slot c).Safe quiet ok P fun _ => P := by
  refine safe_ensure_bind (by decide) fun _ => safe_ensure_bind (by decide) fun hn => .bind checkIn_safe fun _ =>
    .assume fun _ => ?_
  have hn : c.arg 1 ≤ 288 := of_decide_eq_true hn
  refine ⟨fun e hs hp => EngM.ends_bind (memRead_ends (fun _ => ?_) fun _ => trivial)⟩
  dsimp only
  split
  · exact (safe_raise (by decide)).ends e hs hp
  · refine EngM.Safe.ends (.bind (hbBuild_safe ?_) fun _ => safe_return) e hs hp
    rw [List.length_map, Memory.read_length]
    omega

theorem htDecodeBody_safe (slot : Nat) (c : Snapshot) : (htDecodeBody slot c).Safe quiet ok Anything fun _ => Anything :=
  safe_ensure_bind (by decide) fun _ => .bind needBits_safe fun _ => .bind useSource_safe fun _ => .bind hbDecode_safe fun _ =>
    safe_return

/-- The capacity of a reallocatable output is a 32-bit number (42_lz77_decompressor.md R201). -/
theorem capacity_lt {cap : Nat} (h : decide (cap ≤ Config.sizeCeiling) = true) : cap < 2 ^ 32 :=
  Nat.lt_of_le_of_lt (of_decide_eq_true h) (by decide)

theorem infOpenBody_safe (realloc : Bool) (c : Snapshot) : (infOpenBody realloc c).Safe quiet ok P fun _ => Anything :=
  safe_ite
    (fun _ => safe_ensure_bind (by decide) fun hc => .bind portAlloc_safe fun _ => .assume fun ha => .bind handOver_safe fun _ =>
      .bind (openOutput_safe ha.1 (capacity_lt hc) ha.2) fun _ => safe_return)
    fun _ => .bind checkOut_safe fun _ => .assume fun h => .bind (openOutput_safe (c.arg_lt 0) (c.arg_lt 1) h) fun _ =>
      safe_return

theorem infZhdrBody_safe (c : Snapshot) : (infZhdrBody c).Safe quiet ok Anything fun _ => Anything :=
  .bind needBits_safe fun _ => .bind useSource_safe fun _ => .bind brAlign_safe fun _ => .bind zlibHeader_safe fun _ =>
    safe_return

theorem infBlockBody_safe (c : Snapshot) : (infBlockBody c).Safe quiet ok Anything fun _ => Anything :=
  .bind needBits_safe fun _ => .bind needOutput_safe fun _ => .bind needOutputApart_safe fun _ => .bind useSource_safe fun _ =>
    .bind useOutput_safe fun _ => .bind infBlock_safe fun _ => safe_getE_bind fun _ => safe_return

theorem infCopyBody_safe (c : Snapshot) : (infCopyBody c).Safe quiet ok P fun _ => Anything :=
  .bind needOutput_safe fun _ => safe_ensure_bind (by decide) fun _ => safe_ensure_bind (by decide) fun _ => .bind useOutput_safe
    fun _ => .bind infCopy_safe fun _ => safe_getE_bind fun _ => safe_return

theorem openStreamOutput_safe (realloc : Bool) (c : Snapshot) : (openStreamOutput realloc c).Safe quiet ok P fun _ => Anything :=
  safe_ite
    (fun _ => safe_ensure_bind (by decide) fun hc => .bind portAlloc_safe fun _ => .assume fun ha =>
      openOutput_safe ha.1 (capacity_lt hc) ha.2)
    fun _ => .bind checkOut_safe fun _ => .assume fun h => safe_getE_bind fun _ => safe_ensure_bind (by decide) fun _ =>
      openOutput_safe (c.arg_lt 0) (c.arg_lt 1) h

theorem infStreamBody_safe (zlib realloc : Bool) (c : Snapshot) :
    (infStreamBody zlib realloc c).Safe quiet ok P fun _ => Anything :=
  .bind needSource_safe fun _ => .bind useSource_safe fun _ => .bind (openStreamOutput_safe realloc c) fun _ =>
    .bind startReader_safe fun _ => .bind inflate_safe fun _ => safe_getE_bind fun _ => .bind handOver_safe fun _ => safe_return

theorem pngDecodeBody_safe (req : Nat) (c : Snapshot) : (pngDecodeBody req c).Safe quiet ok P fun _ => Anything :=
  safe_ensure_bind (by decide) fun _ => .bind needSource_safe fun _ => .bind useSource_safe fun _ =>
    .bind (safe_modE (Q := Anything) fun _ hs _ =>
      ⟨⟨hs.ports, fun o => { hs.units o with png := fun _ h => Option.some.inj h ▸ .init }⟩, trivial⟩) fun _ =>
    .bind signature_safe fun _ => safe_getE_bind fun _ => .bind (chunks_safe c _) fun _ => safe_getP_bind fun _ hp =>
      .bind (pipeline_safe c req hp) fun _ => .bind handOver_safe fun _ => safe_return

theorem sfReconBody_safe (imgN depth : Nat) (indexed interlaced : Bool) (c : Snapshot) :
    (sfReconBody imgN depth indexed interlaced c).Safe quiet ok P fun _ => P :=
  safe_ensure_bind (by decide) fun _ => safe_ensure_bind (by decide) fun _ => safe_ensure_bind (by decide) fun _ =>
    safe_ensure_bind (by decide) fun _ => safe_ensure_bind (by decide) fun _ => .bind checkIn_safe fun _ => .assume fun _ =>
      safe_ensure_bind (by decide) fun _ => .bind (recon_safe _ _ _ _ _ _) fun _ => .bind handOver_safe fun _ => safe_return

theorem sfFilterRowBody_safe (t fb : Nat) (first : Bool) (c : Snapshot) :
    (sfFilterRowBody t fb first c).Safe quiet ok P fun _ => P := by
  refine safe_ensure_bind (by decide) fun _ => safe_ensure_bind (by decide) fun _ => .bind checkIn_safe fun _ =>
    .assume fun _ => ?_
  cases first with
  | true =>
    exact .bind checkOut_safe fun _ => .assume fun _ => safe_ensure_bind (by decide) fun _ => .bind memRead_safe fun _ =>
      .bind safe_return fun _ => .bind memWrite_safe fun _ => safe_return
  | false =>
    exact .bind checkIn_safe fun _ => .assume fun _ => .bind checkOut_safe fun _ => .assume fun _ => safe_ensure_bind (by decide)
      fun _ => .bind memRead_safe fun _ => .bind memRead_safe fun _ => .bind memWrite_safe fun _ => safe_return

theorem fcConvertBody_safe (s r : Nat) (c : Snapshot) : (fcConvertBody s r c).Safe quiet ok P fun _ => P :=
  safe_ensure_bind (by decide) fun _ => safe_ensure_bind (by decide) fun _ => safe_ensure_bind (by decide) fun _ =>
    safe_ensure_bind (by decide) fun _ => .bind checkIn_safe fun _ => .assume fun _ => .bind (convert_safe _ _ _ _) fun _ =>
      .bind handOver_safe fun _ => safe_return

theorem fcPaletteBody_safe (out : Nat) (c : Snapshot) : (fcPaletteBody out c).Safe quiet ok P fun _ => P :=
  safe_ensure_bind (by decide) fun _ => safe_ensure_bind (by decide) fun _ => safe_ensure_bind (by decide) fun _ =>
    safe_ensure_bind (by decide) fun _ => .bind checkIn_safe fun _ => .assume fun _ => .bind checkIn_safe fun _ =>
      .assume fun _ => .bind memRead_safe fun _ => .bind (paletteExpand_safe _ _ _ _ _) fun _ =>
        .bind handOver_safe fun _ => safe_return

theorem deliver_safe (out : List Byte) : (deliver out).Safe quiet ok P fun _ => P :=
  .bind portAlloc_safe fun _ => .assume fun _ => .bind memWrite_safe fun _ => .bind handOver_safe fun _ => safe_return

theorem readRows_safe (len stride px h : Nat) : (readRows len stride px h).Safe quiet ok P fun _ => P := by
  induction h generalizing px with
  | zero => exact safe_return
  | succ h ih => exact .bind memRead_safe fun _ => .bind (ih _) fun _ => safe_return

theorem pngEncodeBody_safe (n : Nat) (c : Snapshot) : (pngEncodeBody n c).Safe quiet ok P fun _ => P :=
  safe_ensure_bind (by decide) fun _ => safe_ensure_bind (by decide) fun _ => safe_ensure_bind (by decide) fun _ =>
    safe_ensure_bind (by decide) fun _ => safe_ensure_bind (by decide) fun _ => .bind checkIn_safe fun _ => .assume fun _ =>
      .bind (readRows_safe _ _ _ _) fun _ => deliver_safe _

/-- A read of one input region. -/
theorem readInput_safe {α : Type} (a n : Nat) (f : List Byte → α) :
    EngM.Safe quiet ok P (checkIn a n >>= fun _ => memRead a n >>= fun d => pure (f d)) fun _ => P :=
  .bind checkIn_safe fun _ => .assume fun _ => .bind memRead_safe fun _ => safe_return

theorem lzMatchlenBody_safe (c : Snapshot) : (lzMatchlenBody c).Safe quiet ok P fun _ => P :=
  .bind checkIn_safe fun _ => .assume fun _ => .bind checkIn_safe fun _ => .assume fun _ => .bind memRead_safe fun _ =>
    .bind memRead_safe fun _ => safe_return

end

/-- Every command's steps are safe. -/
theorem bodyOf_safe (quiet ok : Prop) (i : Instr) (c : Snapshot) : (bodyOf i c).Safe quiet ok Anything fun _ => Anything := by
  cases i with
  | nop => exact safe_return
  | bsOpenMem => exact bsOpenMemBody_safe c
  | bsOpenStream => exact bsOpenStreamBody_safe c
  | bsRead => exact bsReadBody_safe c
  | bsPeek => exact bsPeekBody_safe c
  | bsSkip => exact .bind needSource_safe fun _ => .bind bsSkip_safe fun _ => safe_return
  | bsEof => exact .bind needSource_safe fun _ => .bind bsEof_safe fun _ => safe_return
  | brInit => exact .bind needSource_safe fun _ => .bind startReader_safe fun _ => safe_return
  | brGet n => exact brGetBody_safe n c
  | brAlign => exact .bind needBits_safe fun _ => .bind brAlign_safe fun _ => safe_return
  | htBuild slot => exact htBuildBody_safe slot c
  | htDecode slot => exact htDecodeBody_safe slot c
  | htFixed => exact .bind buildFixed_safe fun _ => safe_return
  | infOpen realloc => exact infOpenBody_safe realloc c
  | infZhdr => exact infZhdrBody_safe c
  | infBlock => exact infBlockBody_safe c
  | infCopy => exact infCopyBody_safe c
  | infStream zlib realloc => exact infStreamBody_safe zlib realloc c
  | pngDecode req => exact pngDecodeBody_safe req c
  | sfRecon imgN depth indexed interlaced => exact sfReconBody_safe imgN depth indexed interlaced c
  | sfFilterRow filter fb first => exact sfFilterRowBody_safe filter fb first c
  | fcConvert src req => exact fcConvertBody_safe src req c
  | fcPalette out => exact fcPaletteBody_safe out c
  | fcTrnsKey ch =>
    exact safe_ensure_bind (by decide) fun _ => .bind checkOut_safe fun _ => .assume fun _ =>
      .bind (keyApply_safe _ _ _ _ _) fun _ => safe_return
  | fcCgbi ch unpremul =>
    exact safe_ensure_bind (by decide) fun _ => .bind checkOut_safe fun _ => .assume fun _ =>
      .bind (cgbiFix_safe _ _ _ _ _) fun _ => safe_return
  | fcFlip => exact .bind checkOut_safe fun _ => .assume fun _ => .bind (flip_safe _ _ _ _) fun _ => safe_return
  | defCompress quality =>
    exact .bind checkIn_safe fun _ => .assume fun _ => safe_ensure_bind (by decide) fun _ => .bind memRead_safe fun _ =>
      deliver_safe _
  | lzHash => exact readInput_safe _ _ _
  | lzMatchlen => exact lzMatchlenBody_safe c
  | hufEncSym alphabet sym => exact safe_ensure_bind (by decide) fun _ => safe_return
  | pngEncode n => exact pngEncodeBody_safe n c
  | adler32 => exact readInput_safe _ _ _
  | crc32 => exact readInput_safe _ _ _

/-- So are those of an illegal word. -/
theorem illegalBody_safe (quiet ok : Prop) (cmd : Word) (c : Snapshot) :
    (illegalBody cmd c).Safe quiet ok Anything fun _ => Anything :=
  safe_raise (by decide)

end Sys2Proof.Machine
end

section
/-! SUPPORT. How a turn of the engine ends, whatever the command, and the obligation on it (10_state.md R40; 60_exceptions.md
R410, R414, R420). -/

namespace Sys2Proof.Machine

section
variable {quiet ok : Prop}

/-! ### The Frees at a command's end (60_exceptions.md R414 step 1, R420 step 2) -/

/-- A sound engine with no buffer in LIVE. -/
structure Emptied (quiet ok : Prop) (e : Eng) : Prop where
  sound : Sound quiet ok e
  live : e.live = []

/-- The Frees stop only where the engine waits at one of them, or where the host has no move. -/
def FreesStop (quiet ok : Prop) (x : Stop) (e : Eng) : Prop :=
  (x = .wait ∧ (quiet → OneRequest e) ∧ (ok → EngOk e)) ∨ ∃ r, x = .refuse r

theorem FreesStop.stopSound {x : Stop} {e : Eng} (h : FreesStop quiet ok x e) : StopSound quiet ok x e := by
  obtain ⟨rfl, hw⟩ | ⟨r, rfl⟩ := h
  · exact hw
  · trivial

theorem Freed.engOk {e f : Eng} (h : Freed e f) (he : EngOk e) : EngOk f := by
  rw [h.same]
  exact he.congr (h.wf he.mem)

theorem Freed.srcReq {e f : Eng} (h : Freed e f) : f.srcReq = e.srcReq := by rw [h.same]

/-- What is left in LIVE is freed, and then the host's last memory writes take place. -/
theorem unwinding_ends {e : Eng} (hs : Sound quiet ok e) :
    unwinding.Ends e (fun _ f => Emptied quiet ok f) (FreesStop quiet ok) := by
  refine EngM.ends_bind ((freeLive_ends e).mono ?_ ?_)
  · rintro _ f ⟨freed, halloc, hlive⟩
    refine EngM.Ends.mono (settle_ends f.moves f) ?_ fun x g h => .inr h.1
    rintro _ _ ⟨g, w, rfl⟩
    exact ⟨⟨fun q => ⟨w.srcReq.trans (freed.srcReq.trans (hs.ports q).1), w.allocReq.trans (halloc (hs.ports q).2)⟩,
      fun o => (w.engOk (freed.engOk (hs.units o))).congr (w.wf (freed.engOk (hs.units o)).mem)⟩, w.live.trans hlive⟩
  · rintro x f (⟨rfl, freed, hreq⟩ | hr)
    · refine .inl ⟨rfl, fun q => .inr ⟨freed.srcReq.trans (hs.ports q).1, ?_⟩, fun o => freed.engOk (hs.units o)⟩
      rw [hreq]
      decide
    · exact .inr hr

/-! ### The run of a command -/

theorem finishing_eq (body : EngM Results) : finishing body = body >>= fun r => unwinding >>= fun _ => pure r := by
  simp only [finishing, unwinding, bind_assoc]

theorem finishing_ends {body : EngM Results} {e : Eng} (hb : body.Safe quiet ok Anything fun _ => Anything)
    (hs : Sound quiet ok e) :
    (finishing body).Ends e (fun _ f => Emptied quiet ok f) (StopSound quiet ok) := by
  rw [finishing_eq]
  refine EngM.ends_bind ((hb.ends e hs trivial).mono ?_ fun _ _ h => h)
  rintro r f ⟨hf, -⟩
  exact EngM.ends_bind ((unwinding_ends hf).mono (fun _ _ h => h) fun _ _ h => h.stopSound)

section
variable {body : Snapshot → EngM Results} {r : Running} {e : Eng} (hb : (body r.snap).Safe quiet ok Anything fun _ => Anything)
  (hs : Sound quiet ok r.base)
include hb hs

theorem finishing_from_base :
    (finishing (body r.snap)).Ends { r.base with moves := r.log } (fun _ f => Emptied quiet ok f) (StopSound quiet ok) :=
  finishing_ends hb (hs.congr id)

/-- A run that completes leaves the engine sound, with no buffer. -/
theorem course_completes {res : Results} (h : course body r = .ok res e) : Emptied quiet ok e :=
  (finishing_from_base hb hs).ok (course_ok h)

/-- A run that fails does so with a code of the table, and in the same way. -/
theorem course_fails {code info : Nat} (h : course body r = .error (.raise code info) e) :
    (0x0101 ≤ code ∧ code ≤ 0x0604) ∧ Emptied quiet ok e := by
  obtain ⟨-, hne⟩ | ⟨c, i, f, hf, hu⟩ := course_error h
  · exact absurd rfl (hne code info)
  · obtain ⟨hc, hsf⟩ : StopSound quiet ok (.raise c i) f := (finishing_from_base hb hs).error hf
    obtain ⟨hu, he⟩ | hu := hu
    · cases he
      exact ⟨hc, (unwinding_ends hsf).ok hu⟩
    · obtain ⟨hw, -⟩ | ⟨q, hq⟩ := (unwinding_ends hsf).error hu
      · cases hw
      · cases hq

/-- A run that waits does so at one request. -/
theorem course_waits (h : course body r = .error .wait e) : (quiet → OneRequest e) ∧ (ok → EngOk e) := by
  obtain ⟨hf, -⟩ | ⟨c, i, f, hf, hu⟩ := course_error h
  · exact (finishing_from_base hb hs).error hf
  · obtain ⟨-, hsf⟩ : StopSound quiet ok (.raise c i) f := (finishing_from_base hb hs).error hf
    obtain ⟨-, he⟩ | hu := hu
    · cases he
    · exact ((unwinding_ends hsf).error hu).stopSound

end

end

/-! ### The three ends of a turn -/

theorem AtRest.sound {e : Eng} (h : AtRest e) : Sound True False e := ⟨fun _ => ⟨h.srcReq, h.allocReq⟩, nofun⟩

theorem EngOk.sound {e : Eng} (h : EngOk e) : Sound False True e := ⟨nofun, fun _ => h⟩

/-- A run that has ended leaves the engine at rest. -/
theorem Emptied.atRest {e : Eng} (h : Emptied True False e) : AtRest e :=
  ⟨h.live, (h.sound.ports trivial).1, (h.sound.ports trivial).2⟩

theorem SameRegs.complete (s : State) (kind : CmdKind) (r : Results) (e : Eng) : SameRegs s (s.complete kind r e) :=
  ⟨rfl, rfl, rfl, rfl, rfl, rfl, rfl, rfl, rfl, rfl⟩

theorem SameRegs.fail (s : State) (kind : CmdKind) (code info : Nat) (e : Eng) : SameRegs s (s.fail kind code info e) :=
  ⟨rfl, rfl, rfl, rfl, rfl, rfl, rfl, rfl, rfl, rfl⟩

theorem SameRegs.suspend (s : State) (r : Running) (e : Eng) : SameRegs s (s.suspend r e) :=
  ⟨rfl, rfl, rfl, rfl, rfl, rfl, rfl, rfl, rfl, rfl⟩

theorem AtRest.complete (s : State) (kind : CmdKind) (r : Results) {e : Eng} (h : AtRest e) :
    AtRest (s.complete kind r e).eng := by
  rw [State.complete_eng]
  split
  · exact ⟨h.live, h.srcReq, h.allocReq⟩
  · exact ⟨h.live, h.srcReq, h.allocReq⟩

theorem AtRest.fail (s : State) (kind : CmdKind) (code info : Nat) {e : Eng} (h : AtRest e) :
    AtRest (s.fail kind code info e).eng := by
  rw [State.fail_eng]
  split
  · exact ⟨h.live, h.srcReq, h.allocReq⟩
  · exact ⟨h.live, h.srcReq, h.allocReq⟩

/-- IDLE: no command, and an engine at rest. -/
theorem AtRest.idle {t : State} (h : AtRest t.eng) (hr : t.run = none) : Idle t := ⟨hr, h.srcReq, h.allocReq, h.live⟩

/-- A turn that starts from rest, with safe steps, completes the command, fails it with a code of the table, or leaves it at one
port request. -/
theorem runCommand_three_ways {kind : CmdKind} {body : Snapshot → EngM Results} {s t : State}
    (hb : (body s.running.snap).Safe True False Anything fun _ => Anything) (hrest : AtRest s.start)
    (h : runCommand kind body s = .next t) :
    (∃ r0 r1 r2 r3, Completed s t r0 r1 r2 r3) ∨
    (∃ code info, Failed s t code info ∧ 0x0101 ≤ code.toNat ∧ code.toNat ≤ 0x0604) ∨ Waiting s t := by
  obtain ⟨res, e, hc, rfl⟩ | ⟨c, i, e, hc, rfl⟩ | ⟨e, hc, rfl⟩ := runCommand_cases h
  · have hend := (course_completes hb hrest.sound hc).atRest
    exact .inl ⟨_, _, _, _, AtRest.idle (.complete s kind res hend) rfl, rfl, rfl, rfl, rfl, rfl, .complete s kind res e⟩
  · obtain ⟨hcode, hend⟩ := course_fails hb hrest.sound hc
    have hword : (BitVec.ofNat 32 c).toNat = c := by
      rw [BitVec.toNat_ofNat]
      omega
    refine .inr (.inl ⟨_, _, ⟨AtRest.idle (.fail s kind c i hend.atRest) rfl, rfl, rfl, rfl, rfl, rfl, .fail s kind c i e⟩, ?_⟩)
    rwa [State.fail_errcode, hword]
  · exact .inr (.inr ⟨rfl, (course_waits hb hrest.sound hc).1 trivial, rfl, rfl, rfl, rfl, rfl, .suspend s s.running e⟩)

/-- Settles O17: every command's steps keep the ports free between two requests and raise only codes of the table, and its end
frees what is left in LIVE. -/
theorem turnEndsInOneOfThreeWays : Obligations.TurnEndsInOneOfThreeWays := by
  unfold Obligations.TurnEndsInOneOfThreeWays
  intro i s t hrest h
  rw [exec_eq_runCommand] at h
  exact runCommand_three_ways (bodyOf_safe True False i _) hrest h

end Sys2Proof.Machine
end

section
/-! SUPPORT. What every access of the host keeps, and the obligations on what every step keeps (10_state.md R20 to R49;
20_memory.md R71 to R79; 70_reset_and_hazards.md R450 to R453). -/

namespace Sys2Proof.Machine

/-! ### What an access of the host can do -/

/-- A register write changes a field of its own, or nothing (10_state.md R20 to R35). -/
theorem State.writeReg_cases {motive : State → Prop} (s : State) (k : Nat) (v : Word) (same : motive s)
    (ctrl : motive (s.writeCtrl v)) (status : motive (s.clearStatus v)) (cmd : motive (s.writeCmd v))
    (quality : motive { s with quality := v &&& qualityMask })
    (arg : ∀ args, motive { s with args := args }) (src : motive (s.writeSrcResp v)) (alloc : motive (s.writeAllocResp v)) :
    motive (s.writeReg k v) := by
  unfold State.writeReg
  split
  exacts [ctrl, status, cmd, quality, arg _, arg _, arg _, arg _, arg _, arg _, arg _, arg _, src, alloc, same]

/-- An access that the host may make is a read, a register write, a write to memory, or a level of the reset input. -/
theorem State.hostAct_cases {motive : State → Prop} {s t : State} {a : HostAct} (h : s.hostAct a = .ok t)
    (same : motive s) (reg : ∀ k v, motive (s.writeReg k v))
    (read : ∀ w bs n, motive { s with rdata := w, mdata := bs, reads := n })
    (rst : ∀ level, motive (s.driveRst level))
    (idleMem : ∀ a bs, s.run = none → motive { s with eng := { s.eng with mem := s.eng.mem.write a bs } })
    (busyMem : ∀ a bs e, s.run.isSome = true → hostPlace a bs s.eng = .ok e →
      motive { s with eng := e, run := s.run.map fun r => r.placed s.started a bs }) : motive t := by
  cases a with
  | regRead offset width =>
    simp only [State.hostAct] at h
    split at h
    · cases h
      exact read _ _ _
    · cases h
  | regWrite offset width v =>
    simp only [State.hostAct] at h
    split at h
    · cases h
      split
      · exact same
      · exact reg _ _
    · cases h
  | memRead addr len =>
    simp only [State.hostAct, State.readMem] at h
    split at h
    · cases h
    · cases h
      exact read _ _ _
  | memWrite addr bytes =>
    simp only [State.hostAct, State.writeMem] at h
    split at h
    · rename_i hbusy
      cases hp : hostPlace addr.toNat bytes s.eng with
      | error r =>
        rw [hp] at h
        cases h
      | ok e =>
        rw [hp] at h
        cases h
        exact busyMem _ _ e hbusy hp
    · rename_i hidle
      split at h
      · cases h
        exact idleMem _ _ (by simpa using hidle)
      · cases h
  | setRst level =>
    cases h
    exact rst level

/-! ### Registers and phases -/

theorem Eng.allocAnswered_cases {motive : Eng → Prop} (e : Eng) (v : Word) (keep : motive { e with allocReq := 0 })
    (live : ∀ live, motive { e with allocReq := 0, live := live })
    (move : ∀ p old r, motive (Eng.moveBuffer { e with allocReq := 0 } p old r)) : motive (e.allocAnswered v) := by
  simp only [Eng.allocAnswered]
  split
  · exact live _
  · split
    · exact keep
    · split
      · split
        · exact live _
        · exact keep
      · split
        · exact move _ _ _
        · exact keep

@[simp] theorem Eng.allocAnswered_allocReq (e : Eng) (v : Word) : (e.allocAnswered v).allocReq = 0 :=
  Eng.allocAnswered_cases (motive := fun f => f.allocReq = 0) e v rfl (fun _ => rfl) fun _ _ _ => rfl

theorem RegsOk.reset : RegsOk State.reset := ⟨by decide, by decide, by decide⟩

/-- The phases look at no more than these parts of the state. -/
theorem PhaseOk.congr {s t : State} (h : PhaseOk s) (done : t.done = s.done := by rfl) (err : t.err = s.err := by rfl)
    (run : t.run = s.run := by rfl) (eng : t.eng = s.eng := by rfl) : PhaseOk t :=
  ⟨done ▸ err ▸ h.ends, done ▸ err ▸ run ▸ h.busy, run ▸ eng ▸ h.idle, eng ▸ h.port, run ▸ h.base⟩

theorem RegsOk.congr {s t : State} (h : RegsOk s) (ctrl : t.ctrl = s.ctrl := by rfl) (quality : t.quality = s.quality := by rfl)
    (errcode : t.errcode = s.errcode := by rfl) : RegsOk t :=
  ⟨ctrl ▸ h.ctrl, quality ▸ h.quality, errcode ▸ h.errcode⟩

/-- A state in which no command runs, with an engine at rest. -/
theorem PhaseOk.of_idle {t : State} (ends : ¬(t.done = true ∧ t.err = true)) (run : t.run = none) (rest : AtRest t.eng) :
    PhaseOk t :=
  ⟨ends, by simp [run], fun _ => rest, .inl rest.srcReq, by simp [run]⟩

/-- The reset state, whatever memory holds (70_reset_and_hazards.md R451). -/
theorem PhaseOk.restart (s : State) (mem : Memory) : PhaseOk (s.restart mem) :=
  .of_idle (by simp [State.reset]) rfl ⟨rfl, rfl, rfl⟩

theorem RegsOk.restart (s : State) (mem : Memory) : RegsOk (s.restart mem) := RegsOk.reset.congr

theorem PhaseOk.clearStatus {s : State} (h : PhaseOk s) (v : Word) : PhaseOk (s.clearStatus v) := by
  refine ⟨fun hd => h.ends ?_, fun hr => ?_, h.idle, h.port, h.base⟩
  · simp only [State.clearStatus_done, State.clearStatus_err, Bool.and_eq_true] at hd
    exact ⟨hd.1.1, hd.2.1⟩
  · simp [h.busy hr]

theorem PhaseOk.accept {s : State} (h : PhaseOk s) (hr : s.run = none) (v : Word) : PhaseOk (s.accept v) :=
  have rest := h.idle hr
  ⟨by simp, fun _ => ⟨rfl, rfl⟩, nofun, h.port, fun r he => Option.some.inj he ▸ ⟨rest.live, rest.srcReq, rest.allocReq⟩⟩

/-- A change of a running command that leaves its acceptance at rest, with a change of the engine that leaves at most one
request. -/
theorem PhaseOk.withRunning {s : State} (h : PhaseOk s) (hr : s.run.isSome = true) {g : Running → Running} {e : Eng}
    (hport : e.srcReq = 0 ∨ e.allocReq = 0) (hg : ∀ r, AtRest r.base → AtRest (g r).base) :
    PhaseOk { s with run := s.run.map g, eng := e } := by
  obtain ⟨r, hr⟩ := Option.isSome_iff_exists.1 hr
  refine ⟨h.ends, fun _ => h.busy (by simp [hr]), by simp [hr], hport, fun q hq => ?_⟩
  simp only [hr, Option.map_some, Option.some.injEq] at hq
  exact hq ▸ hg r (h.base r hr)

/-- A request is pending only while a command runs. -/
theorem PhaseOk.busy_of_request {s : State} (h : PhaseOk s) (hreq : s.eng.srcReq ≠ 0 ∨ s.eng.allocReq ≠ 0) :
    s.run.isSome = true := by
  rw [Option.isSome_iff_ne_none]
  intro hr
  have rest := h.idle hr
  rcases hreq with hreq | hreq
  · exact hreq rest.srcReq
  · exact hreq rest.allocReq

theorem PhaseOk.writeReg {s : State} (h : PhaseOk s) (k : Nat) (v : Word) : PhaseOk (s.writeReg k v) := by
  refine State.writeReg_cases s k v h ?_ (h.clearStatus v) ?_ h.congr (fun _ => h.congr) ?_ ?_
  · rw [State.writeCtrl]
    split
    · exact .restart s _
    · exact h.congr
  · rw [State.writeCmd]
    split
    · exact h.congr
    · rename_i hidle
      exact h.accept (by simp_all) v
  · rw [State.writeSrcResp]
    split
    · rename_i hreq
      exact h.withRunning (h.busy_of_request (.inl (of_decide_eq_true hreq))) (.inl rfl) fun _ hb => hb
    · exact h
  · rw [State.writeAllocResp]
    split
    · rename_i hreq
      exact h.withRunning (h.busy_of_request (.inr (of_decide_eq_true hreq))) (.inr (Eng.allocAnswered_allocReq _ _))
        fun _ hb => hb
    · exact h

theorem RegsOk.writeReg {s : State} (h : RegsOk s) (k : Nat) (v : Word) : RegsOk (s.writeReg k v) := by
  refine State.writeReg_cases s k v h ?_ h.congr ?_ ⟨h.ctrl, ?_, h.errcode⟩ (fun _ => h.congr) ?_ ?_
  · rw [State.writeCtrl]
    split
    · exact .restart s _
    · exact ⟨by simp [BitVec.and_assoc], h.quality, h.errcode⟩
  · rw [State.writeCmd]
    split <;> exact h.congr
  · simp [BitVec.and_assoc]
  · rw [State.writeSrcResp]
    split
    · exact h.congr
    · exact h
  · rw [State.writeAllocResp]
    split
    · exact h.congr
    · exact h

/-- A move of the host in memory leaves the running command's acceptance at rest. -/
theorem AtRest.placed {r : Running} (h : AtRest r.base) (started : Bool) (a : Nat) (bs : List Byte) :
    AtRest (r.placed started a bs).base := by
  cases started <;> exact ⟨h.live, h.srcReq, h.allocReq⟩

theorem PhaseOk.hostAct {s t : State} {a : HostAct} (h : PhaseOk s) (ha : s.hostAct a = .ok t) : PhaseOk t := by
  refine State.hostAct_cases ha h h.writeReg (fun _ _ _ => h.congr) (fun level => ?_) (fun a bs hr => ?_) fun a bs e hr hp => ?_
  · cases level
    · exact h.congr
    · exact (PhaseOk.restart s _).congr
  · exact .of_idle h.ends hr ⟨(h.idle hr).live, (h.idle hr).srcReq, (h.idle hr).allocReq⟩
  · have w := hostPlace_wrote hp
    refine h.withRunning hr ?_ fun _ hb => hb.placed _ a bs
    rw [w.srcReq, w.allocReq]
    exact h.port

theorem RegsOk.hostAct {s t : State} {a : HostAct} (h : RegsOk s) (ha : s.hostAct a = .ok t) : RegsOk t := by
  refine State.hostAct_cases ha h h.writeReg (fun _ _ _ => h.congr) (fun level => ?_) (fun _ _ _ => h.congr) fun _ _ _ _ _ =>
    h.congr
  cases level
  · exact h.congr
  · exact RegsOk.reset.congr

/-- The acceptance of the command that an engine's turn runs. -/
theorem State.start_of_running {s : State} (h : s.engineRuns = true) : ∃ r, s.run = some r ∧ s.running = r := by
  obtain ⟨r, hr⟩ := Option.isSome_iff_exists.1 ((State.engineRuns_iff s).1 h).2.1
  exact ⟨r, hr, State.running_some hr⟩

/-- A turn of the engine runs safe steps, or does nothing. -/
theorem engineTurn_runs {s t : State} (h : engineTurn s = .next t) :
    t = s ∨ ∃ r kind body, s.run = some r ∧ s.running = r ∧ runCommand kind body s = .next t ∧
      ∀ quiet ok c, (body c).Safe quiet ok Anything fun _ => Anything := by
  obtain ⟨i, hr, -, hx⟩ | ⟨x, hr, -, hx⟩ | ⟨-, rfl⟩ := engineTurn_cases h
  · obtain ⟨r, hr, hs⟩ := State.start_of_running hr
    rw [exec_eq_runCommand] at hx
    exact .inr ⟨r, _, _, hr, hs, hx, fun quiet ok c => bodyOf_safe quiet ok i c⟩
  · obtain ⟨r, hr, hs⟩ := State.start_of_running hr
    exact .inr ⟨r, _, _, hr, hs, hx, fun quiet ok c => illegalBody_safe quiet ok s.cmd c⟩
  · exact .inl rfl

theorem Idle.atRest {t : State} (h : Idle t) : AtRest t.eng := ⟨h.live, h.srcReq, h.allocReq⟩

/-- The three ends of a turn keep the phases. -/
theorem PhaseOk.engineTurn {s t : State} (h : PhaseOk s) (ht : engineTurn s = .next t) : PhaseOk t := by
  obtain rfl | ⟨r, kind, body, hr, hs, hx, hb⟩ := engineTurn_runs ht
  · exact h
  obtain ⟨hdone, herr⟩ := h.busy (by simp [hr])
  have hbase : AtRest s.start := by
    rw [State.start, hs]
    exact h.base r hr
  obtain ⟨_, _, _, _, c⟩ | ⟨_, _, f, -⟩ | w := runCommand_three_ways (hb _ _ _) hbase hx
  · exact .of_idle (by simp [c.err, herr]) c.idle.run c.idle.atRest
  · exact .of_idle (by simp [f.done, hdone]) f.idle.run f.idle.atRest
  · refine ⟨by simp [w.done, hdone], fun _ => ⟨w.done.trans hdone, w.err.trans herr⟩, by simp [w.run], ?_, ?_⟩
    · exact w.one.symm.imp (·.1) (·.2)
    · intro q hq
      rw [w.run, hs] at hq
      exact h.base q (by rw [hr, hq])

theorem RegsOk.engineTurn {s t : State} (h : RegsOk s) (hp : PhaseOk s) (ht : engineTurn s = .next t) : RegsOk t := by
  obtain rfl | ⟨r, kind, body, hr, hs, hx, hb⟩ := engineTurn_runs ht
  · exact h
  have hbase : AtRest s.start := by
    rw [State.start, hs]
    exact hp.base r hr
  obtain ⟨_, _, _, _, c⟩ | ⟨_, _, f, -, hle⟩ | w := runCommand_three_ways (hb _ _ _) hbase hx
  · exact h.congr c.regs.ctrl c.regs.quality c.errcode
  · refine ⟨f.regs.ctrl ▸ h.ctrl, f.regs.quality ▸ h.quality, ?_⟩
    rw [f.errcode]
    omega
  · exact h.congr w.regs.ctrl w.regs.quality w.errcode

/-- Settles O19: an access of the host keeps both, and so do the three ends of a turn. -/
theorem stepKeepsRegistersAndPhases : Obligations.StepKeepsRegistersAndPhases := by
  unfold Obligations.StepKeepsRegistersAndPhases
  intro s t hr hp h
  obtain ⟨-, ht⟩ | ⟨a, hs, -, ha⟩ | ⟨a, hs, u, -, ha, ht⟩ := step_cases h
  · exact ⟨hr.engineTurn hp ht, hp.engineTurn ht⟩
  · exact ⟨RegsOk.hostAct (s := { s with host := hs }) hr.congr ha, PhaseOk.hostAct (s := { s with host := hs }) hp.congr ha⟩
  · have hr' := RegsOk.hostAct (s := { s with host := hs }) hr.congr ha
    have hp' := PhaseOk.hostAct (s := { s with host := hs }) hp.congr ha
    exact ⟨hr'.engineTurn hp' ht, hp'.engineTurn ht⟩

/-! ### The engine -/

theorem SourceOk.reset : SourceOk ByteSource.reset := ⟨nofun, nofun, Nat.zero_le _⟩

theorem ReaderOk.reset : ReaderOk BitReader.reset := ⟨by decide, by decide, nofun⟩

theorem OutputOk.of_closed {o : InflateOut} (h : o.isOpen = false) : OutputOk o := by
  constructor <;> simp [h]

/-- A BitReader whose contents are free is in its invariant, since the draw keeps it (10_state.md R42). -/
theorem ReaderOk.free (draw k : Nat) : ReaderOk (freeBitReader draw k) := by
  refine ⟨Nat.le_of_lt_succ (Nat.mod_lt _ (by decide)), ?_, nofun⟩
  simp only [freeBitReader, BitVec.toNat_ofNat]
  exact Nat.lt_of_le_of_lt (Nat.mod_le _ _) (Nat.mod_lt _ (Nat.two_pow_pos _))

theorem EngOk.restart {e : Eng} {mem : Memory} (h : mem.wf) : EngOk (e.restart mem) :=
  ⟨h, .reset, .reset, slotOk_freeHuff _ _, slotOk_freeHuff _ _, slotOk_freeHuff _ _, .of_closed rfl, nofun⟩

theorem EngOk.invalidateUnits {e : Eng} (h : EngOk e) : EngOk e.invalidateUnits :=
  ⟨h.mem, h.bs, .free _ _, slotOk_freeHuff _ _, slotOk_freeHuff _ _, slotOk_freeHuff _ _, .of_closed rfl, h.png⟩

theorem EngOk.spoilHostRegions {e : Eng} (h : EngOk e) : EngOk e.spoilHostRegions := h.congr (Memory.wf_scrambleAll h.mem _ _ _)

theorem EngOk.idle {e : Eng} (h : EngOk e) : EngOk e.idle := { h with png := nofun }

theorem EngOk.allocAnswered {e : Eng} (h : EngOk e) (v : Word) : EngOk (e.allocAnswered v) :=
  Eng.allocAnswered_cases e v (h.congr h.mem) (fun _ => h.congr h.mem) fun _ _ _ => h.congr (Memory.wf_write h.mem _ _)

theorem EnginesOk.of_idle {t : State} (h : EngOk t.eng) (hr : t.run = none) : EnginesOk t := ⟨h, by simp [hr]⟩

theorem EnginesOk.congr {s t : State} (h : EnginesOk s) (eng : t.eng = s.eng := by rfl) (run : t.run = s.run := by rfl) :
    EnginesOk t :=
  ⟨eng ▸ h.eng, run ▸ h.base⟩

/-- A change of a running command that keeps the engine at its acceptance in the invariant. -/
theorem EnginesOk.withRunning {s : State} (h : EnginesOk s) {g : Running → Running} {e : Eng} (he : EngOk e)
    (hg : ∀ r, EngOk r.base → EngOk (g r).base) : EnginesOk { s with run := s.run.map g, eng := e } := by
  refine ⟨he, fun q hq => ?_⟩
  obtain ⟨r, hr, rfl⟩ := Option.map_eq_some_iff.1 hq
  exact hg r (h.base r hr)

theorem EnginesOk.writeReg {s : State} (h : EnginesOk s) (k : Nat) (v : Word) : EnginesOk (s.writeReg k v) := by
  refine State.writeReg_cases s k v h ?_ h.congr ?_ h.congr (fun _ => h.congr) ?_ ?_
  · rw [State.writeCtrl]
    split
    · exact .of_idle (.restart (Memory.wf_scrambleAll h.eng.mem _ _ _)) rfl
    · exact h.congr
  · rw [State.writeCmd]
    split
    · exact h.congr
    · exact ⟨h.eng, fun r he => Option.some.inj he ▸ h.eng.congr h.eng.mem⟩
  · rw [State.writeSrcResp]
    split
    · exact h.withRunning (h.eng.congr h.eng.mem) fun _ hb => hb
    · exact h
  · rw [State.writeAllocResp]
    split
    · exact h.withRunning (h.eng.allocAnswered v) fun _ hb => hb
    · exact h

/-- A move of the host in memory keeps the engine at the acceptance in its invariant. -/
theorem EngOk.placed {r : Running} (h : EngOk r.base) (started : Bool) (a : Nat) (bs : List Byte) :
    EngOk (r.placed started a bs).base := by
  cases started
  · exact h.congr (Memory.wf_write h.mem _ _)
  · exact h

theorem EnginesOk.hostAct {s t : State} {a : HostAct} (h : EnginesOk s) (ha : s.hostAct a = .ok t) : EnginesOk t := by
  refine State.hostAct_cases ha h h.writeReg (fun _ _ _ => h.congr) (fun level => ?_)
    (fun a bs hr => .of_idle (h.eng.congr (Memory.wf_write h.eng.mem _ _)) hr)
    fun a bs e _ hp => h.withRunning ((hostPlace_wrote hp).engOk h.eng) fun _ hb => hb.placed _ a bs
  cases level
  · exact h.congr
  · exact .of_idle (.restart (Memory.wf_partly h.eng.mem _ _ _)) rfl

/-- The three ends of a turn keep the engine's invariant. -/
theorem EnginesOk.engineTurn {s t : State} (h : EnginesOk s) (ht : engineTurn s = .next t) : EnginesOk t := by
  obtain rfl | ⟨r, kind, body, hr, hs, hx, hb⟩ := engineTurn_runs ht
  · exact h
  have hbase : Sound False True s.running.base := by
    rw [hs]
    exact (h.base r hr).sound
  obtain ⟨res, e, hc, rfl⟩ | ⟨c, i, e, hc, rfl⟩ | ⟨e, hc, rfl⟩ := runCommand_cases hx
  · have he := (course_completes (hb _ _ _) hbase hc).sound.units trivial
    refine .of_idle ?_ rfl
    rw [State.complete_eng]
    split
    · exact he.invalidateUnits.idle
    · exact he.idle
  · have he := (course_fails (hb _ _ _) hbase hc).2.sound.units trivial
    refine .of_idle ?_ rfl
    rw [State.fail_eng]
    split
    · exact he.spoilHostRegions.invalidateUnits.idle
    · exact he.spoilHostRegions.idle
  · refine ⟨(course_waits (hb _ _ _) hbase hc).2 trivial, fun q hq => ?_⟩
    cases hq
    exact hbase.units trivial

/-- Settles O20: an access of the host keeps the invariant, and so does every step of every command. -/
theorem stepKeepsEngines : Obligations.StepKeepsEngines := by
  unfold Obligations.StepKeepsEngines
  intro s t he h
  obtain ⟨-, ht⟩ | ⟨a, hs, -, ha⟩ | ⟨a, hs, u, -, ha, ht⟩ := step_cases h
  · exact he.engineTurn ht
  · exact EnginesOk.hostAct (s := { s with host := hs }) he.congr ha
  · exact (EnginesOk.hostAct (s := { s with host := hs }) he.congr ha).engineTurn ht

end Sys2Proof.Machine
end

section
/-! SUPPORT. The register block, one access at a time, and the obligations on it (10_state.md R20 to R35; 20_memory.md R71, R76,
R77). -/

namespace Sys2Proof.Machine

/-! ### A step that is one register access -/

/-- A host access, alone or with the engine's turn after it. -/
theorem step_access {s u : State} {a : HostAct} {b : Bool} {hs : List HostStep} (h : s.host = ⟨a, b⟩ :: hs)
    (ha : State.hostAct { s with host := hs } a = .ok u) : step s = if b then .next u else engineTurn u := by
  simp only [step, h, ha]

theorem step_refuses {s : State} {a : HostAct} {b : Bool} {hs : List HostStep} {r : Refusal} (h : s.host = ⟨a, b⟩ :: hs)
    (ha : State.hostAct { s with host := hs } a = .error r) : step s = .refused r := by
  simp only [step, h, ha]

/-- A write of word index `k` while `rst` is released. -/
theorem hostAct_write {s : State} {o : BitVec 8} {k : Nat} (v : Word) (ho : o.toNat = 4 * k) (hr : s.rst = false) :
    s.hostAct (.regWrite o .w32 v) = .ok (s.writeReg k v) := by
  have hok : accessOk o .w32 = true := (accessOk_iff _ _).2 ⟨rfl, by omega⟩
  simp only [State.hostAct, hok, if_true, hr, Bool.false_eq_true, if_false, show o.toNat / 4 = k by omega]

/-- Such a write, with the engine's turn still to come. -/
theorem step_write {s : State} {o : BitVec 8} {k : Nat} {v : Word} {hs : List HostStep}
    (h : s.host = ⟨.regWrite o .w32 v, true⟩ :: hs) (ho : o.toNat = 4 * k) (hr : s.rst = false) :
    step s = .next (State.writeReg { s with host := hs } k v) :=
  step_access h (hostAct_write (s := { s with host := hs }) v ho hr)

/-! ### Bits of a word -/

theorem testBit_bitsValue (l : List Bool) (i : Nat) : (bitsValue l).testBit i = l.getD i false := by
  induction l generalizing i with
  | nil => simp [bitsValue]
  | cons b l ih =>
    cases i with
    | zero => cases b <;> simp [bitsValue, Nat.testBit_zero]
    | succ i =>
      rw [bitsValue, Nat.testBit_succ, show (b.toNat + 2 * bitsValue l) / 2 = bitsValue l by have := b.toNat_lt; omega, ih]
      rfl

theorem bit_toNat {n : Nat} (v : BitVec n) (i : Nat) : bit v.toNat i = v.getLsbD i := bit_eq_testBit v.toNat i

/-- The sources of STATUS, from bit 0 upward (10_state.md R25). -/
def State.statusBits (s : State) : List Bool :=
  [s.busy, s.done, s.err, s.srcWait, s.allocWait, s.cmdOvr, s.irq, s.eng.srcEof]

theorem State.statusWord_eq (s : State) : s.statusWord = BitVec.ofNat 32 (bitsValue s.statusBits) := by
  rw [State.statusWord]
  congr 1
  simp only [State.statusBits, bitsValue]
  omega

theorem State.statusWord_getLsbD (s : State) (i : Nat) :
    s.statusWord.getLsbD i = (decide (i < 32) && s.statusBits.getD i false) := by
  rw [State.statusWord_eq, BitVec.getLsbD_ofNat, testBit_bitsValue]

/-- The bits of CTRL that hold a field (10_state.md R23). -/
theorem ctrlMask_getLsbD (i : Nat) : ctrlMask.getLsbD i =
    (i == 0 || (decide (2 ≤ i) && decide (i ≤ 6)) || (decide (8 ≤ i) && decide (i ≤ 10))) := by
  by_cases h : i < 32
  · have : ∀ j < 32, ctrlMask.getLsbD j =
        (j == 0 || (decide (2 ≤ j) && decide (j ≤ 6)) || (decide (8 ≤ j) && decide (j ≤ 10))) := by
      decide
    exact this i h
  · rw [BitVec.getLsbD_of_ge _ _ (by omega)]
    simp
    omega

/-- The bits of QUALITY that hold the compression level (10_state.md R28). -/
theorem qualityMask_getLsbD (i : Nat) : qualityMask.getLsbD i = decide (i < 16) := by
  by_cases h : i < 32
  · have : ∀ j < 32, qualityMask.getLsbD j = decide (j < 16) := by decide
    exact this i h
  · rw [BitVec.getLsbD_of_ge _ _ (by omega)]
    simp
    omega

/-! ### The command word (30_encoding.md R90, R93) -/

theorem bits_of_lt {v hi : Nat} (h : v < 2 ^ (hi + 1)) : bits v hi 0 = v := by
  rw [bits, pow_zero, Nat.div_one, Nat.sub_zero, Nat.mod_eq_of_lt h]

/-- The decoder takes apart what `cmdWord` puts together. -/
theorem decode_cmdWord {opc sel imm : Nat} (ho : opc < 256) (hs : sel < 16) (hi : imm < 65536) :
    decode (cmdWord opc sel imm) = decodeFields opc sel imm := by
  have hv : (cmdWord opc sel imm).toNat = opc + sel * 256 + imm * 65536 := by
    rw [cmdWord, BitVec.toNat_ofNat]
    omega
  have hrsv : bits (cmdWord opc sel imm).toNat 15 12 = 0 := by simp only [bits, hv]; omega
  have hopc : bits (cmdWord opc sel imm).toNat 7 0 = opc := by simp only [bits, hv]; omega
  have hsel : bits (cmdWord opc sel imm).toNat 11 8 = sel := by simp only [bits, hv]; omega
  have himm : bits (cmdWord opc sel imm).toNat 31 16 = imm := by simp only [bits, hv]; omega
  rw [decode, hrsv, hopc, hsel, himm, if_neg (by simp)]

theorem usingBits_ok {selMask immMask sel imm : Nat} {i : Instr} (hs : sel &&& selMask = sel) (hi : imm &&& immMask = imm) :
    usingBits selMask immMask sel imm i = .ok i := by
  rw [usingBits, if_neg (not_not.2 hs), if_neg (not_not.2 hi)]

/-- A SEL or IMM field with a mask of its low bits keeps a value that fits them. -/
theorem and_mask_of_lt {v k : Nat} (h : v < 2 ^ k) : v &&& (2 ^ k - 1) = v := Nat.and_two_pow_sub_one_of_lt_two_pow h

/-- The immediate of SF_RECON: a depth and two options apart (30_encoding.md R93). -/
theorem reconImm_fields : ∀ d < 16, ∀ a b : Bool, let v := d + 256 * a.toNat + 512 * b.toNat
    v < 65536 ∧ v &&& 0x30F = v ∧ bits v 3 0 = d ∧ bit v 8 = a ∧ bit v 9 = b := by decide

/-- The immediate of SF_FILTER_ROW: a count and an option (30_encoding.md R93). -/
theorem filterImm_fields : ∀ fb < 16, ∀ a : Bool, let v := fb + 256 * a.toNat
    v < 65536 ∧ v &&& 0x10F = v ∧ bits v 3 0 = fb ∧ bit v 8 = a := by decide

/-- The selector of INF_STREAM: two options (30_encoding.md R93). -/
theorem streamSel_fields : ∀ a b : Bool, let v := a.toNat + 2 * b.toNat
    v < 16 ∧ v &&& 3 = v ∧ bit v 0 = a ∧ bit v 1 = b := by decide

theorem bit_zero_toNat (b : Bool) : bit b.toNat 0 = b := by cases b <;> rfl

/-- One option fills a field of one bit. -/
theorem option_and_one (b : Bool) : b.toNat &&& 1 = b.toNat := by cases b <;> rfl

/-- The fields of a word whose opcode takes no operands. -/
theorem decode_plain {opc : Nat} {i : Instr} (ho : opc < 256) (h : decodeFields opc 0 0 = .ok i) :
    decode (cmdWord opc 0 0) = .ok i :=
  (decode_cmdWord ho (by decide) (by decide)).trans h

/-- The decoder inverts the encoder on every well-formed command (30_encoding.md R90, R93). -/
theorem decode_encode {i : Instr} (h : WellFormed i = true) : decode (encode i) = .ok i := by
  cases i with
  | brGet n =>
    have hn : n < 2 ^ 5 := of_decide_eq_true h
    rw [encode, decode_cmdWord (by decide) (by decide) (by omega)]
    exact (usingBits_ok rfl (and_mask_of_lt hn)).trans (by rw [bits_of_lt hn])
  | htBuild slot =>
    have hn : slot < 2 ^ 2 := of_decide_eq_true h
    rw [encode, decode_cmdWord (by decide) (by omega) (by decide)]
    exact (usingBits_ok (and_mask_of_lt hn) rfl).trans (by rw [bits_of_lt hn])
  | htDecode slot =>
    have hn : slot < 2 ^ 2 := of_decide_eq_true h
    rw [encode, decode_cmdWord (by decide) (by omega) (by decide)]
    exact (usingBits_ok (and_mask_of_lt hn) rfl).trans (by rw [bits_of_lt hn])
  | infOpen realloc =>
    rw [encode, decode_cmdWord (by decide) (by have := realloc.toNat_lt; omega) (by decide)]
    exact (usingBits_ok (option_and_one realloc) rfl).trans (by rw [bit_zero_toNat])
  | infStream zlib realloc =>
    obtain ⟨hlt, hmask, ha, hb⟩ := streamSel_fields zlib realloc
    rw [encode, decode_cmdWord (by decide) hlt (by decide)]
    exact (usingBits_ok hmask rfl).trans (by rw [ha, hb])
  | pngDecode req =>
    have hn : req < 2 ^ 3 := of_decide_eq_true h
    rw [encode, decode_cmdWord (by decide) (by omega) (by decide)]
    exact (usingBits_ok (and_mask_of_lt hn) rfl).trans (by rw [bits_of_lt hn])
  | sfRecon imgN depth indexed interlaced =>
    obtain ⟨hn, hd⟩ : imgN < 2 ^ 3 ∧ depth < 16 := by simpa [WellFormed] using h
    obtain ⟨hlt, hmask, h1, h2, h3⟩ := reconImm_fields depth hd indexed interlaced
    rw [encode, decode_cmdWord (by decide) (by omega) hlt]
    exact (usingBits_ok (and_mask_of_lt hn) hmask).trans (by rw [bits_of_lt hn, h1, h2, h3])
  | sfFilterRow filter fb first =>
    obtain ⟨hn, hd⟩ : filter < 2 ^ 3 ∧ fb < 16 := by simpa [WellFormed] using h
    obtain ⟨hlt, hmask, h1, h2⟩ := filterImm_fields fb hd first
    rw [encode, decode_cmdWord (by decide) (by omega) hlt]
    exact (usingBits_ok (and_mask_of_lt hn) hmask).trans (by rw [bits_of_lt hn, h1, h2])
  | fcConvert src req =>
    obtain ⟨hs, hr⟩ : src < 2 ^ 3 ∧ req < 2 ^ 3 := by simpa [WellFormed] using h
    rw [encode, decode_cmdWord (by decide) (by omega) (by omega)]
    exact (usingBits_ok (and_mask_of_lt hs) (and_mask_of_lt hr)).trans (by rw [bits_of_lt hs, bits_of_lt hr])
  | fcPalette out =>
    have hn : out < 2 ^ 3 := of_decide_eq_true h
    rw [encode, decode_cmdWord (by decide) (by omega) (by decide)]
    exact (usingBits_ok (and_mask_of_lt hn) rfl).trans (by rw [bits_of_lt hn])
  | fcTrnsKey ch =>
    have hn : ch < 2 ^ 3 := of_decide_eq_true h
    rw [encode, decode_cmdWord (by decide) (by omega) (by decide)]
    exact (usingBits_ok (and_mask_of_lt hn) rfl).trans (by rw [bits_of_lt hn])
  | fcCgbi ch unpremul =>
    have hn : ch < 2 ^ 3 := of_decide_eq_true h
    rw [encode, decode_cmdWord (by decide) (by omega) (by have := unpremul.toNat_lt; omega)]
    exact (usingBits_ok (and_mask_of_lt hn) (option_and_one unpremul)).trans (by rw [bits_of_lt hn, bit_zero_toNat])
  | defCompress quality =>
    have hn : quality < 2 ^ 16 := of_decide_eq_true h
    rw [encode, decode_cmdWord (by decide) (by decide) hn]
    exact (usingBits_ok rfl (and_mask_of_lt hn)).trans (by rw [bits_of_lt hn])
  | hufEncSym alphabet sym =>
    have hn : sym < 2 ^ 9 := of_decide_eq_true h
    rw [encode, decode_cmdWord (by decide) (by have := alphabet.toNat_lt; omega) (by omega)]
    exact (usingBits_ok (option_and_one alphabet) (and_mask_of_lt hn)).trans (by rw [bits_of_lt hn, bit_zero_toNat])
  | pngEncode n =>
    have hn : n < 2 ^ 3 := of_decide_eq_true h
    rw [encode, decode_cmdWord (by decide) (by omega) (by decide)]
    exact (usingBits_ok (and_mask_of_lt hn) rfl).trans (by rw [bits_of_lt hn])
  | nop | bsOpenMem | bsOpenStream | bsRead | bsPeek | bsSkip | bsEof | brInit | brAlign | htFixed | infZhdr | infBlock | infCopy
  | fcFlip | lzHash | lzMatchlen | adler32 | crc32 => exact decode_plain (by decide) rfl

/-! ### Commands and their acceptance (10_state.md R24, R29, R30) -/

/-- Settles O8: the outcome is the run from the acceptance, and none of its three ends looks at CTRL, QUALITY or the ARGs. -/
theorem runningCommandKeepsItsSnapshot : Obligations.RunningCommandKeepsItsSnapshot := by
  unfold Obligations.RunningCommandKeepsItsSnapshot
  intro i s r c q a hr
  have hs : State.running { s with ctrl := c, quality := q, args := a } = s.running :=
    Eq.trans (State.running_some hr) (State.running_some hr).symm
  rw [exec_eq_runCommand, exec_eq_runCommand, runCommand, runCommand, hs]
  cases course (bodyOf i) s.running with
  | ok res e => rfl
  | error x e => cases x <;> rfl

/-- The engine's turn on a command whose word decodes. -/
theorem engineTurn_eq_exec {s : State} {i : Instr} (hr : s.engineRuns = true) (hd : decode s.cmd = .ok i) :
    engineTurn s = exec i s := by
  simp only [engineTurn, hr, if_true, State.currentCommand, hd]

theorem State.writeCmd_idle {s : State} (v : Word) (hb : s.busy = false) (hs : s.srcWait = false) (ha : s.allocWait = false) :
    s.writeCmd v = s.accept v := by
  simp only [State.writeCmd, hb, hs, ha, Bool.or_self, Bool.false_eq_true, if_false]

theorem State.writeCmd_busy {s : State} (v : Word) (h : s.busy = true ∨ s.srcWait = true ∨ s.allocWait = true) :
    s.writeCmd v = { s with cmdOvr := true } := by
  rw [State.writeCmd, if_pos (by simpa only [Bool.or_eq_true, or_assoc] using h)]

theorem State.busy_of_phase_idle {s : State} (h : s.phase = .idle) : s.busy = false := by
  simp only [State.phase] at h
  split at h
  · rename_i hidle
    simpa using hidle
  · split at h
    · cases h
    · split at h <;> cases h

/-- Settles O6: a step without an access is the engine's turn, and an accepted word decodes to its command. -/
theorem stepRunsTheCommand : Obligations.StepRunsTheCommand := by
  unfold Obligations.StepRunsTheCommand
  refine ⟨fun s i hh hr hd => ?_, fun s i hs hh hrst hph hsw haw hw => ?_⟩
  · simp only [step, hh]
    exact engineTurn_eq_exec hr hd
  · have hacc := State.writeCmd_idle (s := { s with host := hs }) (encode i) (State.busy_of_phase_idle hph) hsw haw
    have hruns : (State.accept { s with host := hs } (encode i)).engineRuns = true :=
      (State.engineRuns_iff _).2 ⟨hrst, rfl, by simpa using hsw, by simpa using haw⟩
    rw [step_access hh (hostAct_write (k := 5) (s := { s with host := hs }) _ rfl hrst), State.writeReg_cmd, hacc]
    exact engineTurn_eq_exec hruns (decode_encode hw)

/-- Settles O7: a write to CMD is one case or the other of `State.writeCmd`. -/
theorem commandWrite : Obligations.CommandWrite := by
  unfold Obligations.CommandWrite
  intro s v hs hh hrst
  have hstep := step_write (k := 5) hh rfl hrst
  rw [State.writeReg_cmd] at hstep
  refine ⟨fun hbusy => ?_, fun hb hsw haw => ?_, rfl⟩
  · rw [hstep, State.writeCmd_busy (s := { s with host := hs }) v hbusy]
  · rw [State.writeCmd_idle (s := { s with host := hs }) v hb hsw haw] at hstep
    exact ⟨_, hstep, rfl, rfl, rfl, rfl, rfl, rfl, rfl, rfl, rfl, rfl, rfl, rfl, rfl, rfl, rfl, rfl⟩

/-! ### Registers (10_state.md R20 to R32) -/

/-- Settles O9: STATUS is the word of its sources, and a write to it is `State.clearStatus`. -/
theorem statusRegister : Obligations.StatusRegister := by
  unfold Obligations.StatusRegister
  refine ⟨fun s => ?_, fun s v hs hh hrst => ?_⟩
  · have hbit : ∀ i, (s.readReg 2).getLsbD i = (decide (i < 32) && s.statusBits.getD i false) := s.statusWord_getLsbD
    have hirq : s.irq = (s.ctrl.getLsbD 0 && (s.done || s.err)) := by rw [State.irq, ctrlIrqEn, bit_toNat]
    refine ⟨hbit 0, hbit 1, hbit 2, hbit 3, hbit 4, hbit 5, (hbit 6).trans hirq, hbit 7, fun i hi => ?_⟩
    rw [hbit, List.getD_eq_default _ _ (by simpa [State.statusBits] using hi), Bool.and_false]
  · rw [step_write (k := 2) hh rfl hrst, State.writeReg_status]
    simp only [State.clearStatus, bit_toNat]

/-- Settles O10: word index 0 reads a constant, and no write reaches it. -/
theorem identityRegister : Obligations.IdentityRegister := by
  unfold Obligations.IdentityRegister
  intro s v hs hh
  have hupper : Config.idValue.extractLsb' 16 16 = 0x5A43#16 := by decide
  have hlower : Config.idValue.extractLsb' 0 16 = 7#16 := by decide
  refine ⟨rfl, hupper, hlower, ?_⟩
  have ha : State.hostAct { s with host := hs } (.regWrite 0x00#8 .w32 v) = .ok { s with host := hs } := by
    rcases Bool.eq_false_or_eq_true s.rst with hr | hr
    · simp [State.hostAct, accessOk, hr]
    · exact hostAct_write (o := 0x00#8) (k := 0) (s := { s with host := hs }) v rfl hr
  exact step_access hh ha

/-- Reserved and write-only registers read 0. -/
theorem State.readReg_reserved (s : State) {k : Nat} (h : k = 7 ∨ k = 23 ∨ 27 ≤ k) : s.readReg k = 0 := by
  apply State.readReg.eq_26 <;> omega

/-- Reserved and read-only registers ignore a write. -/
theorem State.writeReg_ignored (s : State) {k : Nat} (v : Word)
    (h : k = 0 ∨ k = 3 ∨ k = 4 ∨ k = 7 ∨ (16 ≤ k ∧ k ≤ 22) ∨ (24 ≤ k ∧ k ≤ 26) ∨ 28 ≤ k) : s.writeReg k v = s := by
  apply State.writeReg.eq_15 <;> omega

theorem State.readReg_arg (s : State) (k : Fin 8) : s.readReg (8 + k.val) = s.args[k] := by
  fin_cases k <;> rfl

theorem State.readReg_res (s : State) (k : Fin 4) : s.readReg (16 + k.val) = s.res[k] := by
  fin_cases k <;> rfl

theorem State.writeReg_arg (s : State) (k : Fin 8) (v : Word) : s.writeReg (8 + k.val) v = { s with args := s.args.set k v } := by
  fin_cases k <;> rfl

theorem accessOk_false {o : BitVec 8} {w : AccessWidth} (h : w ≠ .w32 ∨ o.toNat % 4 ≠ 0) : accessOk o w = false := by
  rw [Bool.eq_false_iff, Ne, accessOk_iff]
  tauto

/-- Settles O11: the equations of `State.readReg` and `State.writeReg`, and the check of `accessOk`. -/
theorem registerAccesses : Obligations.RegisterAccesses := by
  unfold Obligations.RegisterAccesses
  refine ⟨fun s => ⟨fun _ => s.readReg_reserved, ⟨rfl, rfl, rfl, rfl, rfl⟩, s.readReg_arg, s.readReg_res,
    ⟨rfl, rfl, rfl, rfl, rfl, rfl⟩, fun _ v => s.writeReg_ignored v⟩, fun s k v hs hh hrst => ?_, fun s o hs hh ho => ?_,
    fun s o w b hs hh hbad => ?_, fun s o w v b hs hh hbad => ?_⟩
  · have ho : (BitVec.ofNat 8 (0x20 + 4 * k.val)).toNat = 4 * (8 + k.val) := by
      rw [BitVec.toNat_ofNat]
      omega
    rw [step_write hh ho hrst, State.writeReg_arg]
  · exact step_access hh (by simp only [State.hostAct, (accessOk_iff o .w32).2 ⟨rfl, ho⟩, if_true]; rfl)
  · exact step_refuses hh (by simp only [State.hostAct, accessOk_false hbad, Bool.false_eq_true, if_false])
  · exact step_refuses hh (by simp only [State.hostAct, accessOk_false hbad, Bool.false_eq_true, if_false])

/-- Settles O12: a write is masked with the bits that hold a field. -/
theorem controlWrites : Obligations.ControlWrites := by
  unfold Obligations.ControlWrites
  refine fun s v hs hrst => ⟨fun hh hsoft => ?_, fun hh => ?_⟩
  · have hsoft : ctrlSoftReset v = false := (bit_toNat v 1).trans hsoft
    refine ⟨_, step_write (k := 1) hh rfl hrst, ?_⟩
    rw [State.writeReg_ctrl, State.writeCtrl, hsoft, if_neg Bool.false_ne_true]
    exact ⟨rfl, fun i => by rw [BitVec.getLsbD_and, ctrlMask_getLsbD]⟩
  · exact ⟨_, step_write (k := 6) hh rfl hrst, rfl, fun i => (BitVec.getLsbD_and ..).trans (by rw [qualityMask_getLsbD])⟩

/-! ### Answers at the ports (10_state.md R33, R35; 20_memory.md R76, R77) -/

theorem State.writeSrcResp_idle {s : State} (v : Word) (h : s.eng.srcReq = 0) : s.writeSrcResp v = s :=
  if_neg (by simp [h])

theorem State.writeAllocResp_idle {s : State} (v : Word) (h : s.eng.allocReq = 0) : s.writeAllocResp v = s :=
  if_neg (by simp [h])

/-- The answer of the stream source joins the moves of the running command. -/
theorem State.writeSrcResp_pending {s : State} {r : Running} (v : Word) (h : s.eng.srcReq ≠ 0) (hr : s.run = some r) :
    s.writeSrcResp v = { s with eng := { s.eng with srcReq := 0 }, run := some { r with log := r.log ++ [.srcResp v] } } := by
  rw [State.writeSrcResp, if_pos (by simpa using h), State.logMove, hr]
  rfl

/-- So does the allocator's, which takes effect on LIVE at once. -/
theorem State.writeAllocResp_pending {s : State} {r : Running} (v : Word) (h : s.eng.allocReq ≠ 0) (hr : s.run = some r) :
    s.writeAllocResp v = { s with eng := s.eng.allocAnswered v, run := some { r with log := r.log ++ [.allocResp v] } } := by
  rw [State.writeAllocResp, if_pos (by simpa using h), State.logMove, hr]
  rfl

theorem Eng.allocAnswered_free {e : Eng} (v : Word) (h : e.allocReq = 3) :
    e.allocAnswered v = { e with allocReq := 0, live := dropBuf e.allocPtr.toNat e.live } :=
  if_pos h

theorem Eng.allocAnswered_refused {e : Eng} {v : Word} (h : e.allocReq ≠ 3) (hv : v = 0) :
    e.allocAnswered v = { e with allocReq := 0 } := by
  simp only [Eng.allocAnswered, if_neg h, if_pos hv]

theorem Eng.allocAnswered_alloc {e : Eng} {v : Word} (h : e.allocReq = 1) (hv : v ≠ 0)
    (hok : e.allocOk e.live v.toNat e.allocSize.toNat = true) :
    e.allocAnswered v = { e with allocReq := 0, live := e.live ++ [⟨v.toNat, e.allocSize.toNat⟩] } := by
  simp only [Eng.allocAnswered, if_neg (show ¬e.allocReq = 3 by rw [h]; decide), if_neg hv, if_pos h, if_pos hok]

theorem Eng.allocAnswered_realloc {e : Eng} {v : Word} (h : e.allocReq = 2) (hv : v ≠ 0)
    (hok : e.allocOk (dropBuf e.allocPtr.toNat e.live) v.toNat e.allocSize.toNat = true) :
    e.allocAnswered v =
      Eng.moveBuffer { e with allocReq := 0 } e.allocPtr.toNat (e.sizeAt e.allocPtr.toNat) ⟨v.toNat, e.allocSize.toNat⟩ := by
  simp only [Eng.allocAnswered, if_neg (show ¬e.allocReq = 3 by rw [h]; decide), if_neg hv,
    if_neg (show ¬e.allocReq = 1 by rw [h]; decide), if_pos hok]

/-- By the answer to a Realloc the new buffer begins with the bytes of the old one, and nothing else changes in memory or in the
units. -/
theorem Eng.moveBuffer_frame (e : Eng) (p old : Nat) (r : Buf) :
    let f := Eng.moveBuffer { e with allocReq := 0 } p old r
    f.mem.read r.addr (min old r.size) = e.mem.read p (min old r.size) ∧ SameMemOutside e f r.addr (min old r.size) ∧
      SameUnits e f ∧ SamePorts e f := by
  refine ⟨?_, fun x hx => ?_, ⟨⟨rfl, rfl⟩, rfl, ⟨rfl, rfl, rfl⟩, rfl⟩, ⟨rfl, ⟨rfl, rfl⟩⟩⟩
  · have := Memory.read_write_self e.mem r.addr (e.mem.read p (min old r.size))
    rwa [Memory.read_length] at this
  · exact Memory.get_write_of_lt _ _ _ _ (by rwa [Memory.read_length])

theorem Eng.sizeAt_of_find {e : Eng} {p old : Nat} (h : (e.live.find? fun b => decide (b.addr = p)) = some ⟨p, old⟩) :
    e.sizeAt p = old := by
  simp only [Eng.sizeAt, h]

/-- Settles O13: a response with no request is no move, and one with a request is logged; what it does to LIVE is
`Eng.allocAnswered`, one case for each kind of request. -/
theorem portResponses : Obligations.PortResponses := by
  unfold Obligations.PortResponses
  refine fun s v hs hrst => ⟨fun hh => ⟨fun h0 => ?_, fun h1 r hr => ?_⟩, fun hh => ⟨fun h0 => ?_, fun h1 r hr => ?_⟩⟩
  · rw [step_write (k := 23) hh rfl hrst, State.writeReg_srcResp, State.writeSrcResp_idle (s := { s with host := hs }) v h0]
  · rw [step_write (k := 23) hh rfl hrst, State.writeReg_srcResp, State.writeSrcResp_pending (s := { s with host := hs }) v h1 hr]
  · rw [step_write (k := 27) hh rfl hrst, State.writeReg_allocResp, State.writeAllocResp_idle (s := { s with host := hs }) v h0]
  · refine ⟨s.eng.allocAnswered v, ?_, Eng.allocAnswered_allocReq _ _, Eng.allocAnswered_refused, Eng.allocAnswered_alloc,
      fun old h2 hv hok hfind => ?_, Eng.allocAnswered_free v⟩
    · rw [step_write (k := 27) hh rfl hrst, State.writeReg_allocResp,
        State.writeAllocResp_pending (s := { s with host := hs }) v h1 hr]
    · rw [Eng.allocAnswered_realloc h2 hv hok, Eng.sizeAt_of_find hfind]
      exact ⟨rfl, Eng.moveBuffer_frame _ _ _ ⟨v.toNat, s.eng.allocSize.toNat⟩⟩

end Sys2Proof.Machine
end

section
/-! SUPPORT. The host's accesses to memory, and the obligation on them (20_memory.md R70, R75, R79, R81). -/

namespace Sys2Proof.Machine

/-! ### Where the host may write (20_memory.md R79 item 1) -/

theorem Eng.inSrcBuf_iff (e : Eng) (a n : Nat) :
    e.inSrcBuf a n = true ↔ e.srcReq = 1 ∧ e.bs.bufaddr ≤ a ∧ a + n ≤ e.bs.bufaddr + 128 :=
  decide_eq_true_iff

theorem Eng.clearOf_iff (e : Eng) (a n : Nat) :
    e.clearOf a n = true ↔
      ¬((∃ r ∈ e.regions, overlap r.addr r.len a n = true) ∨ ∃ b ∈ e.live, overlap b.addr b.size a n = true) := by
  simp [Eng.clearOf]

/-- A host write beyond host memory is refused. -/
theorem hostPlace_outside {a : Nat} {bs : List Byte} {e : Eng} (h : Config.addrSpace < a + bs.length) :
    hostPlace a bs e = .error .hostAddress :=
  if_pos h

/-- A write that the host may make lands, and otherwise touches only the model's record of what the host has written. -/
theorem hostPlace_lands {a : Nat} {bs : List Byte} {e : Eng} (h : a + bs.length ≤ Config.addrSpace)
    (hok : e.inSrcBuf a bs.length = true ∨ e.clearOf a bs.length = true) :
    ∃ p, hostPlace a bs e = .ok { e.hostWrite a bs with placed := p } := by
  cases hs : e.inSrcBuf a bs.length with
  | true => exact ⟨e.placed, hostPlace_srcBuf h hs⟩
  | false => exact ⟨_, hostPlace_clear h hs (hok.resolve_left (by simp [hs]))⟩

/-! ### A write to memory (20_memory.md R70, R75, R79) -/

theorem State.writeMem_outside {s : State} {a : Nat} {bs : List Byte} (h : Config.addrSpace < a + bs.length) :
    s.writeMem a bs = .error .hostAddress := by
  unfold State.writeMem
  split
  · rw [hostPlace_outside h]
  · exact if_neg (Nat.not_le.2 h)

theorem State.writeMem_idle {s : State} {a : Nat} {bs : List Byte} (hr : s.run = none) (h : a + bs.length ≤ Config.addrSpace) :
    s.writeMem a bs = .ok { s with eng := { s.eng with mem := s.eng.mem.write a bs } } := by
  rw [State.writeMem, if_neg (by simp [hr]), if_pos h]

theorem State.writeMem_refused {s : State} {r : Running} {a : Nat} {bs : List Byte} {q : Refusal} (hr : s.run = some r)
    (h : hostPlace a bs s.eng = .error q) : s.writeMem a bs = .error q := by
  rw [State.writeMem, if_pos (by simp [hr]), h]

theorem State.writeMem_lands {s : State} {r : Running} {a : Nat} {bs : List Byte} {e : Eng} (hr : s.run = some r)
    (h : hostPlace a bs s.eng = .ok e) :
    s.writeMem a bs = .ok { s with eng := e, run := some (r.placed s.started a bs) } := by
  rw [State.writeMem, if_pos (by simp [hr]), h, hr]
  rfl

/-- Once the engine has come to a request, a write of the host is a move. -/
theorem Running.placed_started (r : Running) (a : Nat) (bs : List Byte) :
    r.placed true a bs = { r with log := r.log ++ [.place a bs] } :=
  rfl

/-- Before that, it is in the memory the command starts from. -/
theorem Running.placed_notStarted (r : Running) (a : Nat) (bs : List Byte) :
    r.placed false a bs =
      { r with base := { r.base with mem := r.base.mem.write a bs, placed := ⟨a, bs.length, false⟩ :: r.base.placed } } :=
  rfl

/-- The engine has come to a request where one is pending or the host has made a move since. -/
theorem State.started_iff {s : State} {r : Running} (hr : s.run = some r) :
    s.started = true ↔ s.srcWait = true ∨ s.allocWait = true ∨ r.log ≠ [] := by
  simp only [State.started, hr, Bool.or_eq_true, decide_eq_true_eq, or_assoc]

theorem State.not_started {s : State} {r : Running} (hr : s.run = some r) (hsw : s.srcWait = false) (haw : s.allocWait = false)
    (hlog : r.log = []) : s.started = false := by
  simp only [State.started, hr, hsw, haw, hlog, ne_eq, not_true, decide_false, Bool.or_self]

/-- Memory after a write from `a` upward has the bytes written, and outside them what it had. -/
theorem sameMemOutside_write {e f : Eng} {a : Nat} {bs : List Byte} (h : f.mem = e.mem.write a bs) :
    f.mem.read a bs.length = bs ∧ SameMemOutside e f a bs.length := by
  refine ⟨?_, fun x hx => ?_⟩
  · rw [h, Memory.read_write_self]
  · rw [h, Memory.get_write_of_lt _ _ _ _ hx]

/-- A host write that lands leaves the units and the ports alone, and memory outside its bytes. -/
theorem Eng.hostWrite_frame (e : Eng) (a : Nat) (bs : List Byte) (p : List Region) :
    let f := { e.hostWrite a bs with placed := p }
    (f.mem.read a bs.length = bs ∧ SameMemOutside e f a bs.length) ∧ SameUnits e f ∧ SamePorts e f :=
  ⟨sameMemOutside_write rfl, ⟨⟨rfl, rfl⟩, rfl, ⟨rfl, rfl, rfl⟩, rfl⟩, rfl, rfl, rfl⟩

/-! ### A read of memory (20_memory.md R70, R79 item 3, R81) -/

theorem State.readMem_outside {s : State} {a n : Nat} (h : Config.addrSpace < a + n) : s.readMem a n = .error .hostAddress :=
  if_pos h

theorem State.readMem_within {s : State} {a n : Nat} (h : a + n ≤ Config.addrSpace) :
    s.readMem a n = .ok { s with mdata := s.eng.mem.look s.mayHaveWritten s.reads a 0 n, reads := s.reads + 1 } :=
  if_neg (Nat.not_lt.2 h)

theorem State.mayHaveWritten_idle {s : State} (h : s.run = none) : s.mayHaveWritten = [] :=
  if_neg (by simp [h])

/-- At a port request a command stands where it stops, so it may have written just what it has written. -/
theorem State.mayHaveWritten_waiting {s : State} (hr : s.run ≠ none) (hp : s.phase ≠ .run) : s.mayHaveWritten = s.eng.written := by
  rw [State.mayHaveWritten, if_pos (show s.busy = true from Option.isSome_iff_ne_none.2 hr), State.nextStop, if_neg hp]

/-! ### The two accesses -/

/-- A write while a command runs that meets a region of it or a buffer in LIVE, and is none to SRC_BUF at its request. -/
theorem step_memWrite_refused {s : State} {r : Running} {a : Word} {bs : List Byte} {hs : List HostStep}
    (hh : s.host = ⟨.memWrite a bs, true⟩ :: hs) (hrun : s.run = some r) (hin : a.toNat + bs.length ≤ Config.addrSpace)
    (hsrc : ¬s.eng.inSrcBuf a.toNat bs.length = true) (hclear : ¬s.eng.clearOf a.toNat bs.length = true) :
    step s = .refused .hostWroteRegion :=
  step_refuses hh (State.writeMem_refused (s := { s with host := hs }) hrun
    (hostPlace_refused hin (Bool.eq_false_of_not_eq_true hsrc) (Bool.eq_false_of_not_eq_true hclear)))

/-- Any other write while a command runs. -/
theorem step_memWrite_lands {s : State} {r : Running} {a : Word} {bs : List Byte} {hs : List HostStep}
    (hh : s.host = ⟨.memWrite a bs, true⟩ :: hs) (hrun : s.run = some r) (hin : a.toNat + bs.length ≤ Config.addrSpace)
    (hok : s.eng.inSrcBuf a.toNat bs.length = true ∨ s.eng.clearOf a.toNat bs.length = true) :
    ∃ p, step s = .next { s with
      host := hs, eng := { s.eng.hostWrite a.toNat bs with placed := p }, run := some (r.placed s.started a.toNat bs) } := by
  obtain ⟨p, hp⟩ := hostPlace_lands hin hok
  exact ⟨p, step_access hh (State.writeMem_lands (s := { s with host := hs }) hrun hp)⟩

/-- Settles O3: an access is `State.writeMem` or `State.readMem`, one case for each of their branches; a write reaches the command
by `Running.placed`, and a read is `Memory.look` past what the command may have written. -/
theorem hostMemory : Obligations.HostMemory := by
  unfold Obligations.HostMemory
  refine ⟨fun s a bs hs hh => ?_, fun s a n hs hh => ⟨fun hout => ?_, fun hin => ?_⟩⟩
  · intro inRange inSrcBuf meets
    have hsrc : s.eng.inSrcBuf a.toNat bs.length = true ↔ inSrcBuf := s.eng.inSrcBuf_iff _ _
    have hclear : s.eng.clearOf a.toNat bs.length = true ↔ ¬meets := s.eng.clearOf_iff _ _
    refine ⟨fun hout => ?_, fun hin hrun => ?_, fun r hin hrun => ⟨fun hmeets hnot => ?_, fun hok => ?_⟩⟩
    · exact step_refuses hh (State.writeMem_outside (Nat.lt_of_not_le hout))
    · exact ⟨_, step_access hh (State.writeMem_idle (s := { s with host := hs }) hrun hin), rfl, sameMemOutside_write rfl⟩
    · exact step_memWrite_refused hh hrun hin (hsrc.not.2 hnot) (hclear.not.2 (not_not.2 hmeets))
    · obtain ⟨p, hstep⟩ := step_memWrite_lands hh hrun hin (hok.imp hsrc.2 hclear.2)
      obtain ⟨⟨hread, hrest⟩, hunits, hports⟩ := s.eng.hostWrite_frame a.toNat bs p
      refine ⟨_, _, hstep, rfl, hread, hrest, hunits, hports, rfl, rfl, rfl, fun hstarted => ?_, fun hsw haw hlog => ?_⟩
      · rw [(State.started_iff hrun).2 hstarted, Running.placed_started]
      · rw [State.not_started hrun hsw haw hlog, Running.placed_notStarted]
        exact ⟨rfl, sameMemOutside_write rfl⟩
  · exact step_refuses hh (State.readMem_outside hout)
  · refine ⟨_, step_access hh (State.readMem_within (s := { s with host := hs }) hin), rfl, Memory.look_length .., fun hrun => ?_,
      fun k hk hapart => Memory.look_of_apart _ _ _ _ _ _ _ hk hapart, State.mayHaveWritten_waiting⟩
    rw [State.mayHaveWritten_idle (s := { s with host := hs }) hrun, Memory.look_nil]

end Sys2Proof.Machine
end

section
/-! SUPPORT. Which command words are legal and what each of them means, and the obligations on the encoding (30_encoding.md R90 to
R93; 60_exceptions.md R414). -/

namespace Sys2Proof.Machine

/-! ### A word and its four fields (30_encoding.md R90) -/

theorem field_toNat (w : Word) (lo n : Nat) : (w.extractLsb' lo n).toNat = w.toNat / 2 ^ lo % 2 ^ n := by
  rw [BitVec.extractLsb'_toNat, Nat.shiftRight_eq_div_pow]

theorem word_eq_iff_fields (w v : Word) : w = v ↔ w.extractLsb' 16 16 = v.extractLsb' 16 16 ∧
    w.extractLsb' 12 4 = v.extractLsb' 12 4 ∧ w.extractLsb' 8 4 = v.extractLsb' 8 4 ∧ w.extractLsb' 0 8 = v.extractLsb' 0 8 := by
  simp only [← BitVec.toNat_inj, field_toNat]
  omega

/-- The decoder on a word as its fields. -/
theorem decode_eq_ok_iff (w : Word) (i : Instr) : decode w = .ok i ↔ w.extractLsb' 12 4 = 0#4 ∧
    decodeFields (w.extractLsb' 0 8).toNat (w.extractLsb' 8 4).toNat (w.extractLsb' 16 16).toNat = .ok i := by
  have hrsv : bits w.toNat 15 12 = 0 ↔ w.extractLsb' 12 4 = 0#4 := by rw [← BitVec.toNat_inj, field_toNat]; rfl
  rw [field_toNat, field_toNat, field_toNat, decode, ← hrsv]
  by_cases h : bits w.toNat 15 12 = 0
  · rw [if_neg (not_not.2 h), and_iff_right h]
    rfl
  · rw [if_pos h]
    exact ⟨nofun, fun hok => absurd hok.1 h⟩

/-- A word with RSV = 0 is its other three fields. -/
theorem cmdWord_fields {w : Word} (h : w.extractLsb' 12 4 = 0#4) :
    cmdWord (w.extractLsb' 0 8).toNat (w.extractLsb' 8 4).toNat (w.extractLsb' 16 16).toNat = w := by
  simp only [← BitVec.toNat_inj, field_toNat, cmdWord, BitVec.toNat_ofNat] at h ⊢
  omega

theorem and_not_eq_zero_iff {n : Nat} (v m : BitVec n) : v &&& ~~~m = 0#n ↔ v &&& m = v := by
  simp only [BitVec.eq_of_getLsbD_eq_iff]
  refine forall₂_congr fun k hk => ?_
  simp only [BitVec.getLsbD_and, BitVec.getLsbD_not, hk, decide_true, Bool.true_and, BitVec.getLsbD_zero]
  cases v.getLsbD k <;> simp

/-! ### The rows of the opcode table by fields (30_encoding.md R92, R93) -/

/-- The opcode of a row. -/
def rowOpc (r : Word × Word) : BitVec 8 := r.2.extractLsb' 0 8

/-- The SEL bits that the opcode of a row uses: those that the row's mask leaves out. -/
def rowSel (r : Word × Word) : BitVec 4 := ~~~r.1.extractLsb' 8 4

/-- The IMM bits that the opcode of a row uses. -/
def rowImm (r : Word × Word) : BitVec 16 := ~~~r.1.extractLsb' 16 16

/-- The word has the row's opcode, RSV = 0, and no SEL or IMM bit that the opcode does not use. -/
structure RowAllows (r : Word × Word) (w : Word) : Prop where
  rsv : w.extractLsb' 12 4 = 0#4
  opc : w.extractLsb' 0 8 = rowOpc r
  sel : w.extractLsb' 8 4 &&& rowSel r = w.extractLsb' 8 4
  imm : w.extractLsb' 16 16 &&& rowImm r = w.extractLsb' 16 16

/-- Every row fixes OPC and RSV, and its value is 0 outside OPC. -/
theorem opcodeRows_fixed : ∀ r ∈ opcodeRows, r.1.extractLsb' 12 4 = BitVec.allOnes 4 ∧ r.1.extractLsb' 0 8 = BitVec.allOnes 8 ∧
    r.2.extractLsb' 16 16 = 0#16 ∧ r.2.extractLsb' 12 4 = 0#4 ∧ r.2.extractLsb' 8 4 = 0#4 := by
  simp [opcodeRows]

theorem matches_row_iff {r : Word × Word} (hr : r ∈ opcodeRows) (w : Word) : w &&& r.1 = r.2 ↔ RowAllows r w := by
  obtain ⟨hrsv, hopc, himm0, hrsv0, hsel0⟩ := opcodeRows_fixed r hr
  rw [word_eq_iff_fields]
  simp only [BitVec.extractLsb'_and, hrsv, hopc, himm0, hrsv0, hsel0, BitVec.and_allOnes]
  rw [← BitVec.not_not (b := r.1.extractLsb' 16 16), ← BitVec.not_not (b := r.1.extractLsb' 8 4), and_not_eq_zero_iff,
    and_not_eq_zero_iff]
  exact ⟨fun ⟨imm, rsv, sel, opc⟩ => ⟨rsv, opc, sel, imm⟩, fun ⟨rsv, opc, sel, imm⟩ => ⟨imm, rsv, sel, opc⟩⟩

/-- The decoder knows no opcode that has no row. -/
theorem opcode_of_decodeFields {opc sel imm : Nat} {i : Instr} (h : decodeFields opc sel imm = .ok i) :
    ∃ r ∈ opcodeRows, (rowOpc r).toNat = opc := by
  unfold decodeFields at h
  split at h
  -- the last case is that of every other opcode
  case h_34 => cases h
  all_goals decide

/-! ### What a row's words mean (30_encoding.md R93) -/

/-- An opcode with the masks of its SEL and IMM bits has one command for each word: the decoder tells the unused bits, and without
them the command is well formed and the word is its encoding. -/
def Reads (opc selMask immMask : Nat) : Prop := ∀ sel imm, ∃ i,
  decodeFields opc sel imm = usingBits selMask immMask sel imm i ∧
    (sel &&& selMask = sel → imm &&& immMask = imm → WellFormed i = true ∧ encode i = cmdWord opc sel imm)

theorem bits_lt (v k : Nat) : bits v k 0 < 2 ^ (k + 1) := by
  rw [bits, pow_zero, Nat.div_one]
  exact Nat.mod_lt _ (Nat.two_pow_pos _)

theorem toNat_bit (v i : Nat) : (bit v i).toNat = v / 2 ^ i % 2 := by
  rw [bit]
  rcases Nat.mod_two_eq_zero_or_one (v / 2 ^ i) with h | h <;> simp [h]

/-- A masked value's field lies under the mask's field. -/
theorem field_of_mask {v m : Nat} (h : v &&& m = v) (lo n : Nat) :
    v / 2 ^ lo % 2 ^ n &&& m / 2 ^ lo % 2 ^ n = v / 2 ^ lo % 2 ^ n := by
  rw [← Nat.and_mod_two_pow, ← Nat.and_div_two_pow, h]

theorem le_of_mask {v m : Nat} (h : v &&& m = v) : v ≤ m := h ▸ Nat.and_le_right

/-- A field read under its mask is the field. -/
theorem bits_of_mask {v k : Nat} (h : v &&& (2 ^ (k + 1) - 1) = v) : bits v k 0 = v :=
  bits_of_lt (Nat.lt_of_le_pred (Nat.two_pow_pos _) (le_of_mask h))

theorem option_of_mask {v : Nat} (h : v &&& 1 = v) : (bit v 0).toNat = v := by
  have := le_of_mask h
  rw [toNat_bit]
  omega

/-- The options of INF_STREAM make up its selector again (30_encoding.md R93). -/
theorem streamSel_of_mask {v : Nat} (h : v &&& 3 = v) : (bit v 0).toNat + 2 * (bit v 1).toNat = v := by
  have := le_of_mask h
  rw [toNat_bit, toNat_bit]
  omega

/-- The depth and the options of SF_RECON make up its immediate again: the four bits between them are unused (30_encoding.md
R93). -/
theorem reconImm_of_mask {v : Nat} (h : v &&& 0x30F = v) :
    bits v 3 0 + 256 * (bit v 8).toNat + 512 * (bit v 9).toNat = v := by
  have hle := le_of_mask h
  have hgap : v / 2 ^ 4 % 2 ^ 4 = 0 := (field_of_mask h 4 4).symm.trans (Nat.and_zero _)
  rw [toNat_bit, toNat_bit, bits]
  omega

/-- The same of SF_FILTER_ROW. -/
theorem filterImm_of_mask {v : Nat} (h : v &&& 0x10F = v) : bits v 3 0 + 256 * (bit v 8).toNat = v := by
  have hle := le_of_mask h
  have hgap : v / 2 ^ 4 % 2 ^ 4 = 0 := (field_of_mask h 4 4).symm.trans (Nat.and_zero _)
  rw [toNat_bit, bits]
  omega

/-- An opcode without operands. -/
theorem reads_plain {opc : Nat} (i : Instr) (hd : ∀ sel imm, decodeFields opc sel imm = usingBits 0 0 sel imm i := by intros; rfl)
    (hw : WellFormed i = true := by rfl) (he : encode i = cmdWord opc 0 0 := by rfl) : Reads opc 0 0 := by
  intro sel imm
  refine ⟨i, hd sel imm, fun hs hi => ⟨hw, ?_⟩⟩
  rw [he, ← hs, ← hi, Nat.and_zero, Nat.and_zero]

/-- An opcode with one operand, in the low bits of SEL. -/
theorem reads_sel {opc : Nat} (k : Nat) (f : Nat → Instr)
    (hd : ∀ sel imm, decodeFields opc sel imm = usingBits (2 ^ (k + 1) - 1) 0 sel imm (f (bits sel k 0)) := by intros; rfl)
    (hw : ∀ n, WellFormed (f n) = decide (n < 2 ^ (k + 1)) := by intros; rfl)
    (he : ∀ n, encode (f n) = cmdWord opc n 0 := by intros; rfl) : Reads opc (2 ^ (k + 1) - 1) 0 := by
  intro sel imm
  refine ⟨_, hd sel imm, fun hs hi => ⟨(hw _).trans (decide_eq_true (bits_lt sel k)), ?_⟩⟩
  rw [he, bits_of_mask hs, ← hi, Nat.and_zero]

/-- An opcode with one operand, in the low bits of IMM. -/
theorem reads_imm {opc : Nat} (k : Nat) (f : Nat → Instr)
    (hd : ∀ sel imm, decodeFields opc sel imm = usingBits 0 (2 ^ (k + 1) - 1) sel imm (f (bits imm k 0)) := by intros; rfl)
    (hw : ∀ n, WellFormed (f n) = decide (n < 2 ^ (k + 1)) := by intros; rfl)
    (he : ∀ n, encode (f n) = cmdWord opc 0 n := by intros; rfl) : Reads opc 0 (2 ^ (k + 1) - 1) := by
  intro sel imm
  refine ⟨_, hd sel imm, fun hs hi => ⟨(hw _).trans (decide_eq_true (bits_lt imm k)), ?_⟩⟩
  rw [he, bits_of_mask hi, ← hs, Nat.and_zero]

theorem reads_infOpen : Reads 0x30 1 0 := by
  refine fun sel imm => ⟨.infOpen (bit sel 0), rfl, fun hs hi => ⟨rfl, ?_⟩⟩
  rw [encode, option_of_mask hs, ← hi, Nat.and_zero]

theorem reads_infStream : Reads 0x34 3 0 := by
  refine fun sel imm => ⟨.infStream (bit sel 0) (bit sel 1), rfl, fun hs hi => ⟨rfl, ?_⟩⟩
  rw [encode, streamSel_of_mask hs, ← hi, Nat.and_zero]

theorem reads_sfRecon : Reads 0x50 7 0x30F := by
  refine fun sel imm => ⟨.sfRecon (bits sel 2 0) (bits imm 3 0) (bit imm 8) (bit imm 9), rfl, fun hs hi => ⟨?_, ?_⟩⟩
  · exact Bool.and_eq_true_iff.2 ⟨decide_eq_true (bits_lt sel 2), decide_eq_true (bits_lt imm 3)⟩
  · rw [encode, bits_of_mask hs, reconImm_of_mask hi]

theorem reads_sfFilterRow : Reads 0x51 7 0x10F := by
  refine fun sel imm => ⟨.sfFilterRow (bits sel 2 0) (bits imm 3 0) (bit imm 8), rfl, fun hs hi => ⟨?_, ?_⟩⟩
  · exact Bool.and_eq_true_iff.2 ⟨decide_eq_true (bits_lt sel 2), decide_eq_true (bits_lt imm 3)⟩
  · rw [encode, bits_of_mask hs, filterImm_of_mask hi]

theorem reads_fcConvert : Reads 0x58 7 7 := by
  refine fun sel imm => ⟨.fcConvert (bits sel 2 0) (bits imm 2 0), rfl, fun hs hi => ⟨?_, ?_⟩⟩
  · exact Bool.and_eq_true_iff.2 ⟨decide_eq_true (bits_lt sel 2), decide_eq_true (bits_lt imm 2)⟩
  · rw [encode, bits_of_mask hs, bits_of_mask hi]

theorem reads_fcCgbi : Reads 0x5B 7 1 := by
  refine fun sel imm => ⟨.fcCgbi (bits sel 2 0) (bit imm 0), rfl, fun hs hi => ⟨decide_eq_true (bits_lt sel 2), ?_⟩⟩
  rw [encode, bits_of_mask hs, option_of_mask hi]

theorem reads_hufEncSym : Reads 0x63 1 0x1FF := by
  refine fun sel imm => ⟨.hufEncSym (bit sel 0) (bits imm 8 0), rfl, fun hs hi => ⟨decide_eq_true (bits_lt imm 8), ?_⟩⟩
  rw [encode, option_of_mask hs, bits_of_mask hi]

/-- The opcode of every row is read under the masks of the row, in the order of the table. -/
theorem opcodeRows_read : ∀ r ∈ opcodeRows, Reads (rowOpc r).toNat (rowSel r).toNat (rowImm r).toNat := by
  simp only [opcodeRows, List.cons_append, List.nil_append, List.forall_mem_cons]
  exact ⟨reads_plain .nop, reads_plain .bsOpenMem, reads_plain .bsOpenStream, reads_plain .bsRead, reads_plain .bsPeek,
    reads_plain .bsSkip, reads_plain .bsEof, reads_plain .brInit, reads_imm 4 .brGet, reads_plain .brAlign,
    reads_sel 1 .htBuild, reads_sel 1 .htDecode, reads_plain .htFixed, reads_infOpen, reads_plain .infZhdr,
    reads_plain .infBlock, reads_plain .infCopy, reads_infStream, reads_sel 2 .pngDecode, reads_sfRecon, reads_sfFilterRow,
    reads_fcConvert, reads_sel 2 .fcPalette, reads_sel 2 .fcTrnsKey, reads_fcCgbi, reads_plain .fcFlip,
    reads_imm 15 .defCompress, reads_plain .lzHash, reads_plain .lzMatchlen, reads_hufEncSym, reads_sel 2 .pngEncode,
    reads_plain .adler32, reads_plain .crc32, nofun⟩

/-! ### The obligations -/

theorem usingBits_eq_ok {selMask immMask sel imm : Nat} {i j : Instr} (h : usingBits selMask immMask sel imm i = .ok j) :
    sel &&& selMask = sel ∧ imm &&& immMask = imm := by
  rw [usingBits] at h
  split at h
  · cases h
  · split at h
    · cases h
    · exact ⟨not_not.1 ‹_›, not_not.1 ‹_›⟩

theorem and_toNat_iff {n : Nat} (v m : BitVec n) : v.toNat &&& m.toNat = v.toNat ↔ v &&& m = v := by
  rw [← BitVec.toNat_and, BitVec.toNat_inj]

/-- A word that a row allows is the encoding of a well-formed command, to which it decodes. -/
theorem decode_of_allows {r : Word × Word} {w : Word} (hr : r ∈ opcodeRows) (h : RowAllows r w) :
    ∃ i, decode w = .ok i ∧ WellFormed i = true ∧ encode i = w := by
  obtain ⟨hrsv, hopc, hsel, himm⟩ := h
  obtain ⟨i, hd, hi⟩ := opcodeRows_read r hr (w.extractLsb' 8 4).toNat (w.extractLsb' 16 16).toNat
  have hs := (and_toNat_iff _ _).2 hsel
  have hm := (and_toNat_iff _ _).2 himm
  obtain ⟨hw, he⟩ := hi hs hm
  refine ⟨i, (decode_eq_ok_iff w i).2 ⟨hrsv, ?_⟩, hw, ?_⟩
  · rw [hopc, hd, usingBits_ok hs hm]
  · rw [he, ← hopc, cmdWord_fields hrsv]

/-- A word that decodes is allowed by a row. -/
theorem allows_of_decode {w : Word} {i : Instr} (h : decode w = .ok i) : ∃ r ∈ opcodeRows, RowAllows r w := by
  obtain ⟨hrsv, hf⟩ := (decode_eq_ok_iff w i).1 h
  obtain ⟨r, hr, hopc⟩ := opcode_of_decodeFields hf
  obtain ⟨j, hd, -⟩ := opcodeRows_read r hr (w.extractLsb' 8 4).toNat (w.extractLsb' 16 16).toNat
  rw [← hopc, hd] at hf
  obtain ⟨hs, hm⟩ := usingBits_eq_ok hf
  exact ⟨r, hr, hrsv, BitVec.eq_of_toNat_eq hopc.symm, (and_toNat_iff _ _).1 hs, (and_toNat_iff _ _).1 hm⟩

/-- Settles O2: the words that a row matches are those that it allows, and each of them decodes to what it encodes. -/
theorem legalWordsHaveOneMeaning : Obligations.LegalWordsHaveOneMeaning := by
  unfold Obligations.LegalWordsHaveOneMeaning
  refine ⟨fun w i h => ?_, fun w => ⟨fun ⟨i, h⟩ => ?_, fun ⟨r, hr, hmatch⟩ => ?_⟩⟩
  · obtain ⟨r, hr, hallows⟩ := allows_of_decode h
    obtain ⟨j, hj, hmeans⟩ := decode_of_allows hr hallows
    obtain rfl : i = j := Except.ok.inj (h.symm.trans hj)
    exact hmeans
  · obtain ⟨r, hr, hallows⟩ := allows_of_decode h
    exact ⟨r, hr, (matches_row_iff hr w).2 hallows⟩
  · obtain ⟨i, hi, -⟩ := decode_of_allows hr ((matches_row_iff hr w).1 hmatch)
    exact ⟨i, hi⟩

/-- Settles O1: the decoder's law. -/
theorem decodeOfEncode : Obligations.DecodeOfEncode := by
  unfold Obligations.DecodeOfEncode
  exact fun _ h => decode_encode h

/-- Settles O4: the decoder evaluated on the words. -/
theorem sampleWords : Obligations.SampleWords := by
  unfold Obligations.SampleWords
  decide

/-! ### A word that does not decode (30_encoding.md R92) -/

theorem engineTurn_illegal {s : State} {x : Illegal} (hr : s.engineRuns = true) (hd : decode s.cmd = .error x) :
    engineTurn s = execIllegal s := by
  simp only [engineTurn, hr, if_true, State.currentCommand, hd]

/-- A command that ends from rest with an error has failed with it. -/
theorem Failed.fail (s : State) (kind : CmdKind) (code : Nat) (info : Word) {e : Eng} (h : AtRest e) :
    Failed s (s.fail kind code info.toNat e) (BitVec.ofNat 32 code) info where
  idle := AtRest.idle (.fail s kind code info.toNat h) rfl
  err := rfl
  res := rfl
  errcode := rfl
  errinfo := by rw [State.fail_errinfo, regWord, if_pos info.isLt, BitVec.ofNat_toNat, BitVec.setWidth_eq]
  done := rfl
  regs := .fail s kind code info.toNat e

/-- A failure that clears no unit, of a command that has done no more to the engine than to take the host's moves in, changes
nothing in it (60_exceptions.md R414). -/
theorem Untouched.fail (s : State) {kind : CmdKind} {code : Nat} (info : Nat) {e : Eng} (ms : List PortMove)
    (hk : failClearsUnits kind code = false) (hw : e.written = []) :
    Untouched e (s.fail kind code info { e with moves := ms }).eng := by
  rw [State.fail_eng, hk, if_neg Bool.false_ne_true]
  refine ⟨⟨⟨rfl, rfl⟩, rfl, ⟨rfl, rfl, rfl⟩, rfl⟩, ⟨rfl, rfl, rfl⟩, fun y => ?_⟩
  rw [Eng.idle_mem, Eng.spoilHostRegions_mem, hw]
  rfl

/-- Settles O5: the command's one step raises the error where nothing has been written yet, and a failure of its kind clears no
unit. -/
theorem illegalWordFails : Obligations.IllegalWordFails := by
  unfold Obligations.IllegalWordFails
  intro s x hready hr hd
  refine ⟨_, (engineTurn_illegal hr hd).trans (runCommand_raises (raise_run _ _ _) hready.live hready.log), ?_, ?_⟩
  · exact .fail s .other 0x0601 s.cmd ⟨hready.live, hready.srcReq, hready.allocReq⟩
  · exact .fail s s.cmd.toNat s.running.log rfl hready.written

end Sys2Proof.Machine
end

section
/-! SUPPORT. How a unit command ends, told from the engine that its steps leave (60_exceptions.md R414, R420; 10_state.md R40). -/

namespace Sys2Proof.Machine

/-- The engine on which a command's steps run: as at its acceptance, with the host's moves since then ahead. -/
abbrev State.entry (s : State) (answers : List PortMove) : Eng := { s.start with moves := answers }

theorem State.Ready.body_eq {s : State} {answers : List PortMove} (ready : s.Ready answers) (body : Snapshot → EngM Results) :
    body s.running.snap { s.running.base with moves := s.running.log } = body s.running.snap (s.entry answers) := by
  rw [ready.log]
  rfl

section
variable {s : State} {answers : List PortMove} {i : Instr} {f : Eng}

/-- A unit command whose steps give two results completes with them. -/
theorem State.Ready.completes {r0 r1 : Nat} (ready : s.Ready answers) (hk : kindOf i = .unit)
    (h : bodyOf i s.running.snap (s.entry answers) = .ok ⟨r0, r1, 0, 0⟩ f) (rest : AtRest f) (hm : f.moves = [])
    (h0 : r0 < 2 ^ 32) (h1 : r1 < 2 ^ 32) :
    exec i s = .next (s.complete .unit ⟨r0, r1, 0, 0⟩ f) ∧
      Completed s (s.complete .unit ⟨r0, r1, 0, 0⟩ f) (BitVec.ofNat 32 r0) (BitVec.ofNat 32 r1) 0 0 := by
  refine ⟨?_, State.complete_completed rest.srcReq rest.allocReq rest.live h0 h1 (Nat.two_pow_pos 32) (Nat.two_pow_pos 32)⟩
  rw [exec_eq_runCommand, hk]
  exact runCommand_ok ((ready.body_eq (bodyOf i)).trans h) rest.live hm

/-- A unit command whose steps raise an error fails with it. -/
theorem State.Ready.fails {code info : Nat} (ready : s.Ready answers) (hk : kindOf i = .unit)
    (h : bodyOf i s.running.snap (s.entry answers) = .error (.raise code info) f) (rest : AtRest f) (hm : f.moves = [])
    (hinfo : info < 2 ^ 32) :
    exec i s = .next (s.fail .unit code info f) ∧
      Failed s (s.fail .unit code info f) (BitVec.ofNat 32 code) (BitVec.ofNat 32 info) := by
  constructor
  · rw [exec_eq_runCommand, hk]
    exact runCommand_raises ((ready.body_eq (bodyOf i)).trans h) rest.live hm
  · have hf := Failed.fail s .unit code (BitVec.ofNat 32 info) rest
    rwa [BitVec.toNat_ofNat, Nat.mod_eq_of_lt hinfo] at hf

/-- A unit command whose steps come to a request of the stream source without an answer waits there. -/
theorem State.Ready.waits {k : BitVec 2} (ready : s.Ready answers) (hk : kindOf i = .unit)
    (h : bodyOf i s.running.snap (s.entry answers) = .error .wait f) (hsrc : f.srcReq = k)
    (hk0 : k ≠ 0) (halloc : f.allocReq = 0) :
    exec i s = .next (s.suspend s.running f) ∧ Waiting s (s.suspend s.running f) := by
  refine ⟨?_, rfl, .inl ⟨hsrc ▸ hk0, halloc⟩, rfl, rfl, rfl, rfl, rfl, .suspend s s.running f⟩
  rw [exec_eq_runCommand, hk]
  exact runCommand_waits ((ready.body_eq (bodyOf i)).trans h)

/-- A failure leaves memory alone where the command has written none. -/
theorem sameMem_fail (s : State) {code info : Nat} (hw : f.written = []) : SameMem f (s.fail .unit code info f).eng := by
  intro x
  rw [State.fail_eng]
  split <;> simp only [Eng.idle_mem, Eng.invalidateUnits_mem, Eng.spoilHostRegions_mem, hw] <;> rfl

/-- A failure that is not of class 6 leaves the unit state of a unit command invalid. -/
theorem unitsInvalid_fail_unit (s : State) {code : Nat} (info : Nat) (hc : code / 256 ≠ 6) (f : Eng) :
    UnitsInvalid (s.fail .unit code info f).eng := by
  rw [State.fail_eng, if_pos (show failClearsUnits .unit code = true from decide_eq_true hc)]
  exact ⟨rfl, rfl, rfl, rfl, rfl⟩

end

end Sys2Proof.Machine
end

section
/-! SUPPORT. The ByteSource's operations: at a MEM-mode source, at the bytes a STREAM-mode source holds, and at the stream-source
port; and the obligations on its commands (40_bitstream_reader.md R131 to R140). -/

namespace Sys2Proof.Machine

/-! ### Before the first byte (20_memory.md R79) -/

theorem needSource_ok {e : Eng} (h : e.bs.mode ≠ .closed) : needSource e = .ok () e := by
  rw [needSource, getE_bind, decide_eq_true h, ensure_true]

theorem useSource_stream {e : Eng} (hm : e.bs.mode = .stream) (hp : e.placed = []) :
    useSource e = .ok () { e with regions := ⟨e.bs.bufaddr, 128, true⟩ :: e.regions } := by
  rw [useSource, getE_bind]
  simp only [hm]
  exact declare_ok hp

/-- Declaring the source's memory touches only the regions, whatever the mode. -/
theorem useSource_ok {e : Eng} (hp : e.placed = []) : ∃ rs, useSource e = .ok () { e with regions := rs } := by
  cases hm : e.bs.mode with
  | mem => exact ⟨_, useSource_mem hm hp⟩
  | stream => exact ⟨_, useSource_stream hm hp⟩
  | closed =>
    refine ⟨e.regions, ?_⟩
    rw [useSource, getE_bind]
    simp only [hm]
    rfl

/-! ### A MEM-mode source (40_bitstream_reader.md R131, R132) -/

theorem atEof_run (e : Eng) : atEof e = .ok none { e with srcEof := true } := rfl

theorem bsGet_atEnd {e : Eng} (h : SourceAt e []) : bsGet e = .ok none { e with srcEof := true } := by
  have hend := Memory.read_eq_nil h.ahead
  rw [bsGet, getE_bind]
  simp only [h.mode]
  rw [EngM.ite_run, if_neg (by omega), atEof_run]

theorem bsGetN_sourceAt {n : Nat} {e : Eng} {bytes : List Byte} (h : SourceAt e bytes) :
    bsGetN n e = .ok (bytes.take n)
      { e.advance (min n bytes.length) with srcEof := e.srcEof || decide (bytes.length < n) } := by
  induction n generalizing e bytes with
  | zero => simp [bsGetN]
  | succ n ih =>
    rw [bsGetN]
    cases bytes with
    | nil =>
      rw [EngM.bind_ok (bsGet_atEnd h)]
      simp
    | cons b bytes =>
      obtain ⟨hget, hrest⟩ := bsGet_ok h
      rw [EngM.bind_ok hget]
      simp only []
      rw [EngM.bind_ok (ih hrest), Eng.advance_advance, EngM.pure_run, List.take_succ_cons, List.length_cons,
        Nat.add_min_add_right, Nat.add_comm 1]
      simp [Eng.advance]

theorem Memory.take_read (m : Memory) (a n k : Nat) : (m.read a n).take k = m.read a (min k n) := by
  rcases Nat.le_total k n with h | h
  · rw [Nat.min_eq_left h, Memory.read_take _ _ _ _ h]
  · rw [Nat.min_eq_right h, List.take_of_length_le (by rwa [Memory.read_length])]

/-- The bytes that a MEM-mode source gives for `bs_getn(n)`. -/
def ByteSource.count (b : ByteSource) (n : Nat) : Nat := min n (b.len - b.pos)

/-- `bs_getn(n)` gives the bytes left, at most `n` of them, and sets SRC_EOF where they are fewer. -/
theorem bsGetN_mem (n : Nat) {e : Eng} (hm : e.bs.mode = .mem) (hok : SourceOk e.bs) :
    bsGetN n e = .ok (e.mem.read (e.bs.base + e.bs.pos) (e.bs.count n))
      { e.advance (e.bs.count n) with srcEof := e.srcEof || decide (e.bs.count n < n) } := by
  have hlt : e.bs.len - e.bs.pos < n ↔ e.bs.count n < n := by rw [ByteSource.count]; omega
  rw [bsGetN_sourceAt ⟨hm, hok, rfl⟩, Memory.take_read, Memory.read_length]
  simp only [hlt]
  rfl

theorem bsPeek_mem {e : Eng} (hm : e.bs.mode = .mem) (hok : SourceOk e.bs) (h : e.bs.pos < e.bs.len) :
    bsPeek e = .ok (some (e.mem.get (e.bs.base + e.bs.pos))) e := by
  have hslice := hok.slice hm
  rw [bsPeek, getE_bind]
  simp only [hm]
  rw [EngM.ite_run, if_pos h, EngM.bind_ok (memByte_ok (by omega)), EngM.pure_run]

theorem bsPeek_atEnd {e : Eng} (hm : e.bs.mode = .mem) (h : e.bs.pos = e.bs.len) :
    bsPeek e = .ok none { e with srcEof := true } := by
  rw [bsPeek, getE_bind]
  simp only [hm]
  rw [EngM.ite_run, if_neg (by omega), atEof_run]

theorem bsSkip_mem {e : Eng} (n : Nat) (hm : e.bs.mode = .mem) :
    bsSkip n e = .ok () { e with bs := { e.bs with pos := min e.bs.len (e.bs.pos + n) } } := by
  rw [bsSkip, getE_bind]
  simp only [hm]
  rw [← hm]
  rfl

/-- `bs_eof()` records the answer of its test in SRC_EOF. -/
theorem bsEof_ok {e f : Eng} {t : Bool} (h : bsEofTest e = .ok t f) : bsEof e = .ok t { f with srcEof := f.srcEof || t } := by
  rw [bsEof, EngM.bind_ok h]
  cases t with
  | true => rw [Bool.or_true]; rfl
  | false => rw [Bool.or_false]; rfl

theorem bsEofTest_mem {e : Eng} (hm : e.bs.mode = .mem) (hok : SourceOk e.bs) :
    bsEofTest e = .ok (decide (e.bs.pos = e.bs.len)) e := by
  have hend : e.bs.len ≤ e.bs.pos ↔ e.bs.pos = e.bs.len := by
    have := (hok.slice hm).2
    omega
  rw [bsEofTest, getE_bind]
  simp only [hm, hend]
  rfl

/-! ### The stream-source port (40_bitstream_reader.md R133) -/

/-- The engine that makes a request of kind `k` for `n` bytes. -/
def Eng.request (e : Eng) (k : BitVec 2) (n : Nat) : Eng := { e with srcReq := k, srcReqLen := BitVec.ofNat 32 n }

/-- The engine that waits at such a request. -/
def Eng.asking (e : Eng) (k : BitVec 2) (n : Nat) : Eng := { e.request k n with moves := [] }

/-- The engine after an answer to such a request, with the moves `ms` ahead. -/
def Eng.toldBySource (e : Eng) (n : Nat) (ms : List PortMove) : Eng :=
  { e with srcReq := 0, srcReqLen := BitVec.ofNat 32 n, journal := [], moves := ms }

/-- The engine after a refill of the stream buffer with `c`, which the host has placed at SRC_BUF (40_bitstream_reader.md R134). -/
def Eng.refilled (e : Eng) (c : List Byte) (ms : List PortMove) : Eng :=
  { (e.hostWrite e.bs.bufaddr c).toldBySource 128 ms with bs := { e.bs with q := c } }

/-- The engine after a refill that has found the end of input (40_bitstream_reader.md R134). -/
def Eng.ended (e : Eng) (ms : List PortMove) : Eng := { e.toldBySource 128 ms with bs := { e.bs with eof := true } }

section
variable {e f : Eng} {n : Nat} {v : Word} {ms : List PortMove}

theorem answer_request_none (k : BitVec 2) (n : Nat) (hm : e.moves = []) :
    answer .src (e.request k n) = .error .wait (e.asking k n) :=
  answer_none .src hm

theorem answer_request (k : BitVec 2) (n : Nat) (hm : e.moves = .srcResp v :: ms) :
    answer .src (e.request k n) = .ok v (e.toldBySource n ms) :=
  answer_src hm

/-- Bytes placed in the stream buffer at a read request, and then their count as the answer. -/
theorem answer_request_placed {c : List Byte} (hr : e.bs.bufaddr + 128 ≤ 0x100000000) (hc : c.length ≤ 128)
    (hm : e.moves = .place e.bs.bufaddr c :: .srcResp v :: ms) :
    answer .src (e.request 1 128) = .ok v ((e.hostWrite e.bs.bufaddr c).toldBySource 128 ms) := by
  have hplace : hostPlace e.bs.bufaddr c (e.request 1 128) = .ok ((e.request 1 128).hostWrite e.bs.bufaddr c) :=
    hostPlace_srcBuf (by show _ ≤ 0x100000000; omega)
      ((Eng.inSrcBuf_iff _ _ _).2 ⟨rfl, Nat.le_refl _, Nat.add_le_add_left hc _⟩)
  show takeAnswer .src e.moves (e.request 1 128) = _
  rw [hm, takeAnswer, hplace]
  rfl

theorem srcRead_eq (n : Nat) (e : Eng) : srcRead n e = (answer .src >>= fun r => pure (min r.toNat n)) (e.request 1 n) := rfl

theorem srcSkip_eq (n : Nat) (e : Eng) : srcSkip n e = (answer .src >>= fun _ => pure ()) (e.request 2 n) := rfl

theorem srcEofQuery_eq (e : Eng) : srcEofQuery e = (answer .src >>= fun r => pure (bit r.toNat 0)) (e.request 3 0) := rfl

theorem srcRead_waits (hm : e.moves = []) : srcRead n e = .error .wait (e.asking 1 n) := by
  rw [srcRead_eq, EngM.bind_error (answer_request_none 1 n hm)]

theorem srcRead_answered (hm : e.moves = .srcResp v :: ms) : srcRead n e = .ok (min v.toNat n) (e.toldBySource n ms) := by
  rw [srcRead_eq, EngM.bind_ok (answer_request 1 n hm), EngM.pure_run]

theorem srcRead_placed {c : List Byte} (hr : e.bs.bufaddr + 128 ≤ 0x100000000) (hc : c.length ≤ 128)
    (hm : e.moves = .place e.bs.bufaddr c :: .srcResp (BitVec.ofNat 32 c.length) :: ms) :
    srcRead 128 e = .ok c.length ((e.hostWrite e.bs.bufaddr c).toldBySource 128 ms) := by
  rw [srcRead_eq, EngM.bind_ok (answer_request_placed hr hc hm), EngM.pure_run, BitVec.toNat_ofNat, Nat.mod_eq_of_lt (by omega),
    Nat.min_eq_left hc]

theorem srcSkip_waits (hm : e.moves = []) : srcSkip n e = .error .wait (e.asking 2 n) := by
  rw [srcSkip_eq, EngM.bind_error (answer_request_none 2 n hm)]

theorem srcSkip_answered (hm : e.moves = .srcResp v :: ms) : srcSkip n e = .ok () (e.toldBySource n ms) := by
  rw [srcSkip_eq, EngM.bind_ok (answer_request 2 n hm), EngM.pure_run]

theorem srcEofQuery_waits (hm : e.moves = []) : srcEofQuery e = .error .wait (e.asking 3 0) := by
  rw [srcEofQuery_eq, EngM.bind_error (answer_request_none 3 0 hm)]

theorem srcEofQuery_answered (hm : e.moves = .srcResp v :: ms) : srcEofQuery e = .ok (v.getLsbD 0) (e.toldBySource 0 ms) := by
  rw [srcEofQuery_eq, EngM.bind_ok (answer_request 3 0 hm), EngM.pure_run, bit_toNat]

/-! ### Refills of the stream buffer (40_bitstream_reader.md R131, R134) -/

/-- A source that holds bytes, or that has seen the end, asks for nothing. -/
theorem streamFill_idle (h : e.bs.q ≠ [] ∨ e.bs.eof = true) : streamFill e = .ok () e := by
  rw [streamFill, getE_bind, EngM.ite_run, if_neg (by rintro ⟨hq, he⟩; simp [hq, he] at h), EngM.pure_run]

theorem streamFill_empty (hq : e.bs.q = []) (he : e.bs.eof = false) : streamFill e = streamRefill e := by
  rw [streamFill, getE_bind, EngM.ite_run, if_pos ⟨hq, he⟩]

theorem streamFill_waits (hq : e.bs.q = []) (he : e.bs.eof = false) (hm : e.moves = []) :
    streamFill e = .error .wait (e.asking 1 128) := by
  rw [streamFill_empty hq he, streamRefill, Config.srcBufSize, EngM.bind_error (srcRead_waits hm)]

theorem streamFill_ended (hq : e.bs.q = []) (he : e.bs.eof = false) (hm : e.moves = .srcResp 0 :: ms) :
    streamFill e = .ok () (e.ended ms) := by
  rw [streamFill_empty hq he, streamRefill, Config.srcBufSize, EngM.bind_ok (srcRead_answered hm)]
  rfl

theorem streamFill_refilled {c : List Byte} (hq : e.bs.q = []) (he : e.bs.eof = false) (hr : e.bs.bufaddr + 128 ≤ 0x100000000)
    (hne : c ≠ []) (hc : c.length ≤ 128) (hm : e.moves = .place e.bs.bufaddr c :: .srcResp (BitVec.ofNat 32 c.length) :: ms) :
    streamFill e = .ok () (e.refilled c ms) := by
  have hread : memRead e.bs.bufaddr c.length ((e.hostWrite e.bs.bufaddr c).toldBySource 128 ms) =
      .ok c ((e.hostWrite e.bs.bufaddr c).toldBySource 128 ms) := by
    rw [memRead_ok (by show _ ≤ 0x100000000; omega)]
    exact congrArg (EStateM.Result.ok · _) (Memory.read_write_self e.mem _ c)
  rw [streamFill_empty hq he, streamRefill, Config.srcBufSize, EngM.bind_ok (srcRead_placed hr hc hm), EngM.ite_run,
    if_neg (by simpa using hne), getE_bind]
  exact (EngM.bind_ok hread).trans rfl

/-! ### The bytes of a STREAM-mode source (40_bitstream_reader.md R131, R132) -/

theorem bsGet_stream {b : Byte} {q : List Byte} (hm : e.bs.mode = .stream) (hf : streamFill e = .ok () f) (hq : f.bs.q = b :: q) :
    bsGet e = .ok (some b) { f with bs := { f.bs with q := q } } := by
  rw [bsGet, getE_bind]
  simp only [hm]
  rw [EngM.bind_ok hf, getE_bind, hq]
  rfl

theorem bsGet_stream_atEnd (hm : e.bs.mode = .stream) (hf : streamFill e = .ok () f) (hq : f.bs.q = []) :
    bsGet e = .ok none { f with srcEof := true } := by
  rw [bsGet, getE_bind]
  simp only [hm]
  rw [EngM.bind_ok hf, getE_bind, hq]
  exact atEof_run f

theorem bsGet_stream_waits (hm : e.bs.mode = .stream) (hf : streamFill e = .error .wait f) : bsGet e = .error .wait f := by
  rw [bsGet, getE_bind]
  simp only [hm]
  rw [EngM.bind_error hf]

theorem bsPeek_stream {b : Byte} {q : List Byte} (hm : e.bs.mode = .stream) (hf : streamFill e = .ok () f) (hq : f.bs.q = b :: q) :
    bsPeek e = .ok (some b) f := by
  rw [bsPeek, getE_bind]
  simp only [hm]
  rw [EngM.bind_ok hf, getE_bind, hq]
  rfl

theorem bsPeek_stream_atEnd (hm : e.bs.mode = .stream) (hf : streamFill e = .ok () f) (hq : f.bs.q = []) :
    bsPeek e = .ok none { f with srcEof := true } := by
  rw [bsPeek, getE_bind]
  simp only [hm]
  rw [EngM.bind_ok hf, getE_bind, hq]
  exact atEof_run f

theorem bsPeek_stream_waits (hm : e.bs.mode = .stream) (hf : streamFill e = .error .wait f) : bsPeek e = .error .wait f := by
  rw [bsPeek, getE_bind]
  simp only [hm]
  rw [EngM.bind_error hf]

end

/-- `bs_getn(n)` gives the first `n` bytes held where there are so many. -/
theorem bsGetN_held {n : Nat} {e : Eng} (hm : e.bs.mode = .stream) (hn : n ≤ e.bs.q.length) :
    bsGetN n e = .ok (e.bs.q.take n) { e with bs := { e.bs with q := e.bs.q.drop n } } := by
  induction n generalizing e with
  | zero => rfl
  | succ n ih =>
    cases hq : e.bs.q with
    | nil => simp [hq] at hn
    | cons b q =>
      have hget := bsGet_stream hm (streamFill_idle (.inl (by simp [hq]))) hq
      rw [hq] at hn
      rw [bsGetN, EngM.bind_ok hget]
      simp only []
      rw [EngM.bind_ok (ih (e := { e with bs := { e.bs with q := q } }) hm (Nat.le_of_succ_le_succ hn))]
      rfl

section
variable {e : Eng} {n : Nat}

/-- A skip first drops what it can of the bytes held. -/
theorem bsSkip_stream (hm : e.bs.mode = .stream) :
    bsSkip n e = (if e.bs.q.length < n ∧ e.bs.eof = false then srcSkip (n - e.bs.q.length) else pure ())
      { e with bs := { e.bs with q := e.bs.q.drop n } } := by
  have hdrop : e.bs.q.drop (min n e.bs.q.length) = e.bs.q.drop n := by
    rcases Nat.le_total n e.bs.q.length with h | h
    · rw [Nat.min_eq_left h]
    · rw [Nat.min_eq_right h, List.drop_length, List.drop_of_length_le h]
  have hlt : min n e.bs.q.length < n ↔ e.bs.q.length < n := by omega
  have hsub : n - min n e.bs.q.length = n - e.bs.q.length := by omega
  rw [bsSkip, getE_bind]
  simp only [hm]
  rw [modBs, modE_bind, hdrop, hsub]
  simp only [hlt, hm]

theorem bsSkip_held (hm : e.bs.mode = .stream) (h : n ≤ e.bs.q.length ∨ e.bs.eof = true) :
    bsSkip n e = .ok () { e with bs := { e.bs with q := e.bs.q.drop n } } := by
  rw [bsSkip_stream hm, if_neg (by rintro ⟨hlt, he⟩; simp [he] at h; omega), EngM.pure_run]

theorem bsSkip_beyond (hm : e.bs.mode = .stream) (hlt : e.bs.q.length < n) (he : e.bs.eof = false) :
    bsSkip n e = srcSkip (n - e.bs.q.length) { e with bs := { e.bs with q := [] } } := by
  rw [bsSkip_stream hm, if_pos ⟨hlt, he⟩, List.drop_of_length_le hlt.le]

theorem bsEofTest_held (hm : e.bs.mode = .stream) (hq : e.bs.q ≠ []) : bsEofTest e = .ok false e := by
  rw [bsEofTest, getE_bind]
  simp only [hm]
  rw [if_pos hq, EngM.pure_run]

theorem bsEofTest_seen (hm : e.bs.mode = .stream) (hq : e.bs.q = []) (he : e.bs.eof = true) : bsEofTest e = .ok true e := by
  rw [bsEofTest, getE_bind]
  simp only [hm]
  rw [if_neg (not_not.2 hq), if_pos he, EngM.pure_run]

theorem bsEofTest_asks (hm : e.bs.mode = .stream) (hq : e.bs.q = []) (he : e.bs.eof = false) : bsEofTest e = srcEofQuery e := by
  rw [bsEofTest, getE_bind]
  simp only [hm]
  rw [if_neg (not_not.2 hq), if_neg (by simp [he])]

end

end Sys2Proof.Machine
end

section
/-! SUPPORT. The ByteSource's commands and the obligations on them (40_bitstream_reader.md R135 to R140). -/

namespace Sys2Proof.Machine

/-! ### The commands' steps (40_bitstream_reader.md R135 to R140) -/

section
variable {c : Snapshot} {e f g : Eng}

theorem bsOpenMemBody_ok (hp : e.placed = []) (h : c.arg 0 + c.arg 1 ≤ 0x100000000) :
    bsOpenMemBody c e = .ok ⟨0, 0, 0, 0⟩ { e with
      bs := ⟨.mem, c.arg 0, c.arg 1, 0, [], false, e.bs.bufaddr⟩, srcEof := false, br := { e.br with valid := false }
      regions := ⟨c.arg 0, c.arg 1, true⟩ :: e.regions } := by
  rw [bsOpenMemBody, EngM.bind_ok (checkIn_ok hp h)]
  rfl

theorem bsOpenStreamBody_ok (hp : e.placed = []) (h : c.arg 0 + 128 ≤ 0x100000000) :
    bsOpenStreamBody c e = .ok ⟨0, 0, 0, 0⟩ { e with
      bs := { e.bs with mode := .stream, bufaddr := c.arg 0, q := [], eof := false }, srcEof := false
      br := { e.br with valid := false }, regions := ⟨c.arg 0, 128, true⟩ :: e.regions } := by
  rw [bsOpenStreamBody, Config.srcBufSize, EngM.bind_ok (checkIn_ok hp h)]
  rfl

/-- BS_READ with a destination apart from the source's memory: what `bs_getn` gives is written there. -/
theorem bsReadBody_ok {f' : Eng} {d : List Byte} {k : Nat} (hr : c.arg 0 + c.arg 1 ≤ 0x100000000)
    (hout : checkOut (c.arg 0) (c.arg 1) e = .ok () f) (hm : f.bs.mode ≠ .closed)
    (hapart : f.sourceMeets (c.arg 0) (c.arg 1) = false) (huse : useSource f = .ok () f')
    (hget : bsGetN (c.arg 1) f' = .ok d g) (hd : d.length = k) (hk : k ≤ c.arg 1) :
    bsReadBody c e = .ok ⟨k, 0, 0, 0⟩ { g with
      mem := g.mem.write (c.arg 0) d, written := noteWrite (c.arg 0) k true g.written
      journal := journalBytes (c.arg 0) d g.journal } := by
  rw [bsReadBody, EngM.bind_ok hout, EngM.bind_ok (needSource_ok hm), getE_bind, ensure_bind (by rw [hapart]; rfl),
    EngM.bind_ok huse, EngM.bind_ok hget, EngM.bind_ok (memWrite_ok (Nat.le_trans (Nat.add_le_add_left (hd.le.trans hk) _) hr)),
    EngM.pure_run, hd]

theorem bsReadBody_meets (hout : checkOut (c.arg 0) (c.arg 1) e = .ok () f) (hm : f.bs.mode ≠ .closed)
    (hmeets : f.sourceMeets (c.arg 0) (c.arg 1) = true) :
    bsReadBody c e = .error (.raise 0x0604 (c.arg 0)) f := by
  rw [bsReadBody, EngM.bind_ok hout, EngM.bind_ok (needSource_ok hm), getE_bind, ensure_bind_fails (by rw [hmeets]; rfl)]

theorem bsPeekBody_some {b : Byte} (huse : useSource e = .ok () f) (h : bsPeek f = .ok (some b) g) :
    bsPeekBody c e = .ok ⟨b.toNat, 1, 0, 0⟩ g := by
  rw [bsPeekBody, EngM.bind_ok huse, EngM.bind_ok h]
  rfl

theorem bsPeekBody_none (huse : useSource e = .ok () f) (h : bsPeek f = .ok none g) : bsPeekBody c e = .ok ⟨0, 0, 0, 0⟩ g := by
  rw [bsPeekBody, EngM.bind_ok huse, EngM.bind_ok h]
  rfl

theorem bsPeekBody_waits (huse : useSource e = .ok () f) (h : bsPeek f = .error .wait g) : bsPeekBody c e = .error .wait g := by
  rw [bsPeekBody, EngM.bind_ok huse, EngM.bind_error h]

theorem bsSkipBody_ok (hm : e.bs.mode ≠ .closed) (h : bsSkip (c.arg 1) e = .ok () f) :
    bsSkipBody c e = .ok ⟨0, 0, 0, 0⟩ f := by
  rw [bsSkipBody, EngM.bind_ok (needSource_ok hm), EngM.bind_ok h, EngM.pure_run]

theorem bsSkipBody_waits (hm : e.bs.mode ≠ .closed) (h : bsSkip (c.arg 1) e = .error .wait f) :
    bsSkipBody c e = .error .wait f := by
  rw [bsSkipBody, EngM.bind_ok (needSource_ok hm), EngM.bind_error h]

theorem bsEofBody_ok {t : Bool} (hm : e.bs.mode ≠ .closed) (h : bsEofTest e = .ok t f) :
    bsEofBody c e = .ok ⟨t.toNat, 0, 0, 0⟩ { f with srcEof := f.srcEof || t } := by
  rw [bsEofBody, EngM.bind_ok (needSource_ok hm), EngM.bind_ok (bsEof_ok h), EngM.pure_run]

theorem bsEofBody_waits (hm : e.bs.mode ≠ .closed) (h : bsEofTest e = .error .wait f) : bsEofBody c e = .error .wait f := by
  rw [bsEofBody, EngM.bind_ok (needSource_ok hm), bsEof, bind_assoc, EngM.bind_error h]

end

/-! ### What a write leaves, and bits in registers -/

theorem Memory.read_write {a n : Nat} {bs : List Byte} (m : Memory) (h : bs.length = n) : (m.write a bs).read a n = bs := by
  subst h
  exact Memory.read_write_self m a bs

/-- A byte of a copy is the byte it was copied from. -/
theorem Memory.get_copy {a b n i : Nat} (m : Memory) (hi : i < n) : (m.write a (m.read b n)).get (a + i) = m.get (b + i) := by
  rw [Memory.get_write, if_pos (by rw [Memory.read_length]; omega), Nat.add_sub_cancel_left, Memory.read_getD _ _ _ _ hi]

theorem sameMemOutside_of_write {e f : Eng} {a n : Nat} {bs : List Byte} (hm : f.mem = e.mem.write a bs) (h : bs.length = n) :
    SameMemOutside e f a n :=
  h ▸ (sameMemOutside_write hm).2

theorem toNat_lt_two_pow (b : Bool) : b.toNat < 2 ^ 32 := Nat.lt_of_le_of_lt (Bool.toNat_le b) (by decide)

/-- A bit as the value of a register. -/
theorem ofNat_toNat_bool (b : Bool) : BitVec.ofNat 32 b.toNat = if b = true then 1 else 0 := by cases b <;> rfl

/-! ### The obligations -/

/-- Settles O25: the range check passes, and the source is replaced by the one the arguments name. -/
theorem bsOpenCompletes : Obligations.BsOpenCompletes := by
  unfold Obligations.BsOpenCompletes
  refine ⟨fun s ready hr => ?_, fun s ready hr => ?_⟩
  · obtain ⟨hx, hc⟩ := ready.completes (i := .bsOpenMem) rfl (bsOpenMemBody_ok ready.placed hr)
      ⟨ready.live, ready.srcReq, ready.allocReq⟩ rfl (by decide) (by decide)
    exact ⟨_, hx, hc, rfl, rfl, rfl, ⟨rfl, rfl, rfl⟩, rfl, ⟨rfl, rfl, rfl⟩, fun _ => rfl⟩
  · obtain ⟨hx, hc⟩ := ready.completes (i := .bsOpenStream) rfl (bsOpenStreamBody_ok ready.placed hr)
      ⟨ready.live, ready.srcReq, ready.allocReq⟩ rfl (by decide) (by decide)
    exact ⟨_, hx, hc, rfl, rfl, rfl, rfl, ⟨rfl, rfl, rfl⟩, rfl, ⟨rfl, rfl, rfl⟩, fun _ => rfl⟩

/-- Settles O26: `bs_getn` gives the bytes and moves the source on, and one write puts them at the destination. -/
theorem bsReadCompletes : Obligations.BsReadCompletes := by
  unfold Obligations.BsReadCompletes
  refine ⟨?_, ?_, ?_⟩
  · intro s ready hm hok hr hapart k
    have hlt : s.arg 1 < 2 ^ 32 := Snapshot.arg_lt _ 1
    have hk : k ≤ s.arg 1 := Nat.min_le_left _ _
    have hopen : s.start.bs.mode ≠ .closed := by rw [hm]; decide
    have hlen := Memory.read_length s.start.mem (s.start.bs.base + s.start.bs.pos) k
    obtain ⟨rs, huse⟩ := useSource_ok (e := { s.entry [] with regions := ⟨s.arg 0, s.arg 1, false⟩ :: s.start.regions })
      ready.placed
    have hbody := bsReadBody_ok (c := s.running.snap) hr (checkOut_ok (e := s.entry []) ready.placed hr) hopen
      (by simp only [Eng.sourceMeets, hm]; exact hapart) huse
      (bsGetN_mem (s.arg 1) (e := { s.entry [] with regions := rs }) hm hok) hlen hk
    obtain ⟨hx, hc⟩ := ready.completes (i := .bsRead) rfl hbody ⟨ready.live, ready.srcReq, ready.allocReq⟩ rfl
      (hk.trans_lt hlt) (by decide)
    exact ⟨_, hx, hc, fun i hi => Memory.get_copy _ hi, sameMemOutside_of_write rfl hlen, rfl, rfl, rfl, ⟨rfl, rfl, rfl⟩, rfl,
      ⟨rfl, rfl, rfl⟩⟩
  · intro s ready hm hq hr hapart
    have hlt : s.arg 1 < 2 ^ 32 := Snapshot.arg_lt _ 1
    have hopen : s.start.bs.mode ≠ .closed := by rw [hm]; decide
    have hlen : (s.start.bs.q.take (s.arg 1)).length = s.arg 1 := by rw [List.length_take, Nat.min_eq_left hq]
    obtain ⟨rs, huse⟩ := useSource_ok (e := { s.entry [] with regions := ⟨s.arg 0, s.arg 1, false⟩ :: s.start.regions })
      ready.placed
    have hbody := bsReadBody_ok (c := s.running.snap) hr (checkOut_ok (e := s.entry []) ready.placed hr) hopen
      (by simp only [Eng.sourceMeets, hm]; exact hapart) huse
      (bsGetN_held (n := s.arg 1) (e := { s.entry [] with regions := rs }) hm hq) hlen (Nat.le_refl _)
    obtain ⟨hx, hc⟩ := ready.completes (i := .bsRead) rfl hbody ⟨ready.live, ready.srcReq, ready.allocReq⟩ rfl hlt
      (by decide)
    exact ⟨_, hx, hc, Memory.read_write _ hlen, sameMemOutside_of_write rfl hlen, rfl, rfl, rfl, ⟨rfl, rfl, rfl⟩, rfl,
      ⟨rfl, rfl, rfl⟩⟩
  · intro s ready hr hmeets
    have hbody := bsReadBody_meets (c := s.running.snap) (checkOut_ok (e := s.entry []) ready.placed hr)
      (by rcases hmeets with ⟨hm, -⟩ | ⟨hm, -⟩ <;> simp [hm])
      (by rcases hmeets with ⟨hm, ho⟩ | ⟨hm, ho⟩ <;> simp only [Eng.sourceMeets, hm] <;> exact ho)
    obtain ⟨hx, hf⟩ := ready.fails (i := .bsRead) rfl hbody ⟨ready.live, ready.srcReq, ready.allocReq⟩ rfl
      (Snapshot.arg_lt _ 0)
    exact ⟨_, hx, hf, ⟨⟨rfl, rfl⟩, rfl, ⟨rfl, rfl, rfl⟩, rfl⟩, ⟨rfl, rfl, rfl⟩, sameMem_fail s ready.written⟩

/-- Settles O27: one byte is looked at, the position moves, or the position is tested; nothing is written. -/
theorem bsPeekSkipEofComplete : Obligations.BsPeekSkipEofComplete := by
  unfold Obligations.BsPeekSkipEofComplete
  refine ⟨fun s ready hm hok => ⟨fun hlt => ?_, fun hend => ?_⟩, fun s ready hm hok => ?_⟩
  · obtain ⟨hx, hc⟩ := ready.completes (i := .bsPeek) rfl
      (bsPeekBody_some (c := s.running.snap) (useSource_mem (e := s.entry []) hm ready.placed) (bsPeek_mem hm hok hlt))
      ⟨ready.live, ready.srcReq, ready.allocReq⟩ rfl (by omega) (by decide)
    refine ⟨_, hx, ⟨⟨⟨rfl, rfl⟩, rfl, ⟨rfl, rfl, rfl⟩, rfl⟩, ⟨rfl, rfl, rfl⟩, fun _ => rfl⟩, ?_⟩
    rwa [BitVec.ofNat_toNat] at hc
  · obtain ⟨hx, hc⟩ := ready.completes (i := .bsPeek) rfl
      (bsPeekBody_none (c := s.running.snap) (useSource_mem (e := s.entry []) hm ready.placed) (bsPeek_atEnd hm hend))
      ⟨ready.live, ready.srcReq, ready.allocReq⟩ rfl (by decide) (by decide)
    exact ⟨_, hx, hc, rfl, rfl, rfl, ⟨rfl, rfl, rfl⟩, rfl, ⟨rfl, rfl, rfl⟩, fun _ => rfl⟩
  · have hopen : s.start.bs.mode ≠ .closed := by rw [hm]; decide
    constructor
    · obtain ⟨hx, hc⟩ := ready.completes (i := .bsSkip) rfl (bsSkipBody_ok (e := s.entry []) hopen (bsSkip_mem _ hm))
        ⟨ready.live, ready.srcReq, ready.allocReq⟩ rfl (by decide) (by decide)
      exact ⟨_, hx, hc, rfl, rfl, rfl, ⟨rfl, rfl, rfl⟩, rfl, ⟨rfl, rfl, rfl⟩, fun _ => rfl⟩
    · obtain ⟨hx, hc⟩ := ready.completes (i := .bsEof) rfl
        (bsEofBody_ok (c := s.running.snap) (e := s.entry []) hopen (bsEofTest_mem hm hok))
        ⟨ready.live, ready.srcReq, ready.allocReq⟩ rfl (toNat_lt_two_pow _) (by decide)
      rw [ofNat_toNat_bool] at hc
      simp only [decide_eq_true_eq] at hc
      exact ⟨_, hx, hc, rfl, rfl, rfl, ⟨rfl, rfl, rfl⟩, rfl, ⟨rfl, rfl, rfl⟩, fun _ => rfl⟩

/-- Settles O29: BS_PEEK refills the empty buffer; the refill waits, brings the bytes placed, or finds the end. -/
theorem streamRefillCompletes : Obligations.StreamRefill := by
  unfold Obligations.StreamRefill
  intro s hm hq he hr
  refine ⟨fun ready => ?_, fun b bs hlen ready => ?_, fun ready => ?_⟩
  · obtain ⟨hx, hw⟩ := ready.waits (k := 1) (i := .bsPeek) rfl
      (bsPeekBody_waits (c := s.running.snap) (useSource_stream (e := s.entry []) hm ready.placed)
        (bsPeek_stream_waits hm (streamFill_waits hq he rfl)))
      rfl (by decide) ready.allocReq
    exact ⟨_, hx, hw, rfl, rfl, rfl, ⟨⟨rfl, rfl⟩, rfl, ⟨rfl, rfl, rfl⟩, rfl⟩, fun _ => rfl⟩
  · obtain ⟨hx, hc⟩ := ready.completes (i := .bsPeek) rfl
      (bsPeekBody_some (c := s.running.snap) (useSource_stream (e := s.entry _) hm ready.placed)
        (bsPeek_stream hm (streamFill_refilled (c := b :: bs) hq he hr (by simp) hlen rfl) rfl))
      ⟨ready.live, rfl, ready.allocReq⟩ rfl (by omega) (by decide)
    rw [BitVec.ofNat_toNat] at hc
    exact ⟨_, hx, hc, rfl, rfl, sameMemOutside_of_write (bs := b :: bs) rfl rfl, rfl, ⟨rfl, rfl, rfl⟩, rfl, rfl, rfl⟩
  · obtain ⟨hx, hc⟩ := ready.completes (i := .bsPeek) rfl
      (bsPeekBody_none (c := s.running.snap) (useSource_stream (e := s.entry _) hm ready.placed)
        (bsPeek_stream_atEnd hm (streamFill_ended hq he rfl) hq))
      ⟨ready.live, rfl, ready.allocReq⟩ rfl (by decide) (by decide)
    exact ⟨_, hx, hc, rfl, rfl, fun _ => rfl, rfl, ⟨rfl, rfl, rfl⟩, rfl, rfl, rfl⟩

/-- Settles O30: a skip drops what is held and an eof query looks at it; each asks the host only beyond that, and takes any answer. -/
theorem streamSkipAndEof : Obligations.StreamSkipAndEof := by
  unfold Obligations.StreamSkipAndEof
  intro s hm
  have hopen : s.start.bs.mode ≠ .closed := by rw [hm]; decide
  refine ⟨fun ready hheld => ?_, fun hlt he => ⟨fun ready => ?_, fun v ready => ?_⟩, fun ready hq => ?_, fun ready hq he => ?_,
    fun hq he => ⟨fun ready => ?_, fun v ready => ?_⟩⟩
  · obtain ⟨hx, hc⟩ := ready.completes (i := .bsSkip) rfl (bsSkipBody_ok (e := s.entry []) hopen (bsSkip_held hm hheld))
      ⟨ready.live, ready.srcReq, ready.allocReq⟩ rfl (by decide) (by decide)
    exact ⟨_, hx, hc, rfl, rfl, rfl, ⟨rfl, rfl, rfl⟩, rfl, ⟨rfl, rfl, rfl⟩, fun _ => rfl⟩
  · have hskip := (bsSkip_beyond (e := s.entry []) hm hlt he).trans (srcSkip_waits rfl)
    obtain ⟨hx, hw⟩ := ready.waits (k := 2) (i := .bsSkip) rfl (bsSkipBody_waits (e := s.entry []) hopen hskip) rfl (by decide)
      ready.allocReq
    exact ⟨_, hx, hw, rfl, rfl, fun _ => rfl⟩
  · have hskip := (bsSkip_beyond (e := s.entry [.srcResp v]) hm hlt he).trans (srcSkip_answered rfl)
    obtain ⟨hx, hc⟩ := ready.completes (i := .bsSkip) rfl (bsSkipBody_ok (e := s.entry [.srcResp v]) hopen hskip)
      ⟨ready.live, rfl, ready.allocReq⟩ rfl (by decide) (by decide)
    exact ⟨_, hx, hc, rfl, rfl, rfl, ⟨rfl, rfl, rfl⟩, rfl, ⟨rfl, rfl⟩, fun _ => rfl⟩
  · have hbody := bsEofBody_ok (c := s.running.snap) (e := s.entry []) hopen (bsEofTest_held hm hq)
    obtain ⟨hx, hc⟩ := ready.completes (i := .bsEof) rfl hbody ⟨ready.live, ready.srcReq, ready.allocReq⟩ rfl (by decide)
      (by decide)
    exact ⟨_, hx, hc, ⟨⟨rfl, Bool.or_false _⟩, rfl, ⟨rfl, rfl, rfl⟩, rfl⟩, ⟨rfl, rfl, rfl⟩, fun _ => rfl⟩
  · have hbody := bsEofBody_ok (c := s.running.snap) (e := s.entry []) hopen (bsEofTest_seen hm hq he)
    obtain ⟨hx, hc⟩ := ready.completes (i := .bsEof) rfl hbody ⟨ready.live, ready.srcReq, ready.allocReq⟩ rfl (by decide)
      (by decide)
    exact ⟨_, hx, hc, Bool.or_true _, rfl, rfl, ⟨rfl, rfl, rfl⟩, rfl, ⟨rfl, rfl, rfl⟩, fun _ => rfl⟩
  · have htest := (bsEofTest_asks (e := s.entry []) hm hq he).trans (srcEofQuery_waits rfl)
    obtain ⟨hx, hw⟩ := ready.waits (k := 3) (i := .bsEof) rfl (bsEofBody_waits (c := s.running.snap) hopen htest) rfl (by decide)
      ready.allocReq
    exact ⟨_, hx, hw, rfl, rfl, ⟨⟨rfl, rfl⟩, rfl, ⟨rfl, rfl, rfl⟩, rfl⟩, fun _ => rfl⟩
  · have htest := (bsEofTest_asks (e := s.entry [.srcResp v]) hm hq he).trans (srcEofQuery_answered rfl)
    obtain ⟨hx, hc⟩ := ready.completes (i := .bsEof) rfl (bsEofBody_ok (c := s.running.snap) hopen htest)
      ⟨ready.live, rfl, ready.allocReq⟩ rfl (toNat_lt_two_pow _) (by decide)
    rw [ofNat_toNat_bool] at hc
    exact ⟨_, hx, hc, rfl, rfl, rfl, ⟨rfl, rfl, rfl⟩, rfl, ⟨rfl, rfl⟩, fun _ => rfl⟩

end Sys2Proof.Machine
end

section
/-! SUPPORT. The BitReader's commands, and BR_GET over a STREAM-mode source: the bytes it joins from the stream buffer, and where it
asks the host for more (40_bitstream_reader.md R141 to R149). -/

namespace Sys2Proof.Machine

/-! ### The bits ahead (40_bitstream_reader.md R141, R142) -/

/-- A BitReader with one more byte above the bits it holds (40_bitstream_reader.md R142). -/
def BitReader.joined (r : BitReader) (b : Byte) : BitReader :=
  { r with code := r.code ||| (b.setWidth 32 <<< r.nbits), nbits := r.nbits + 8 }

/-- A BitReader with the bytes of `bs` joined, one after the other. -/
def BitReader.fed (r : BitReader) (bs : List Byte) : BitReader := bs.foldl BitReader.joined r

/-- A BitReader without its next `n` bits (40_bitstream_reader.md R144). -/
def BitReader.consumed (r : BitReader) (n : Nat) : BitReader := { r with code := r.code >>> n, nbits := r.nbits - n }

/-- Consumed bits are gone from the bits ahead, whatever bytes come after them. -/
theorem BitReader.consumed_bitsWith {r : BitReader} {n : Nat} (h : n ≤ r.nbits) (bytes : List Byte) :
    (r.consumed n).bitsWith bytes = (r.bitsWith bytes).drop n := by
  rw [BitReader.bitsWith, BitReader.bitsWith, List.drop_append_of_le_length (by rwa [emit_length]), emit_drop _ _ _ h]
  rw [BitReader.consumed, BitVec.toNat_ushiftRight, Nat.shiftRight_eq_div_pow]

/-- The next bits as a number. -/
theorem BitReader.value_bitsWith {r : BitReader} {n : Nat} (h : n ≤ r.nbits) (bytes : List Byte) :
    r.code.toNat % 2 ^ n = bitsValue ((r.bitsWith bytes).take n) := by
  rw [BitReader.bitsWith, List.take_append_of_le_length (by rwa [emit_length]), emit_take _ _ _ h, bitsValue_emit]

theorem BitReader.bitsWith_length (r : BitReader) (bytes : List Byte) : (r.bitsWith bytes).length = r.nbits + 8 * bytes.length := by
  rw [BitReader.bitsWith, List.length_append, emit_length, flatMap_emit_length]

theorem BitReader.fed_append (r : BitReader) (bs cs : List Byte) : r.fed (bs ++ cs) = (r.fed bs).fed cs := List.foldl_append

/-- Joining bytes changes only the bits held, by eight for each byte. -/
theorem BitReader.fed_frame (bs : List Byte) (r : BitReader) :
    (r.fed bs).nbits = r.nbits + 8 * bs.length ∧ (r.fed bs).valid = r.valid ∧ (r.fed bs).input = r.input := by
  induction bs generalizing r with
  | nil => exact ⟨rfl, rfl, rfl⟩
  | cons b bs ih =>
    obtain ⟨hn, hv, hi⟩ := ih (r.joined b)
    refine ⟨hn.trans ?_, hv, hi⟩
    show r.nbits + 8 + 8 * bs.length = _
    rw [List.length_cons]
    omega

/-- A byte that joins the bits held moves from the bytes ahead to them. -/
theorem BitReader.fed_bitsWith (bs : List Byte) {r : BitReader} (h : ReaderOk r) (room : r.nbits + 8 * bs.length ≤ 32)
    (rest : List Byte) : (r.fed bs).bitsWith rest = r.bitsWith (bs ++ rest) := by
  induction bs generalizing r with
  | nil => rfl
  | cons b bs ih =>
    rw [List.length_cons] at room
    have hn : r.nbits ≤ 24 := by omega
    have hj : (r.joined b).bitsWith (bs ++ rest) = r.bitsWith (b :: bs ++ rest) := by
      show emit (r.code ||| (b.setWidth 32 <<< r.nbits)).toNat (r.nbits + 8) ++ _ = _
      rw [BitReader.bitsWith, (emit_refill r.code r.nbits b hn h.code).2, List.cons_append, List.flatMap_cons, List.append_assoc]
    rw [← hj]
    exact ih (h.join hn b) (by show r.nbits + 8 + _ ≤ 32; omega)

/-! ### `br_get` by what its refill leaves (40_bitstream_reader.md R143) -/

section
variable {e f : Eng} {n : Nat}

theorem brGet_held (h : brNeed n e = .ok () f) (hn : n ≤ f.br.nbits) (bytes : List Byte) :
    brGet n e = .ok (bitsValue ((f.br.bitsWith bytes).take n)) { f with br := f.br.consumed n } := by
  have hc : brConsume n f = .ok () { f with br := f.br.consumed n } := by
    rw [brConsume, getE_bind, ensure_bind (by simpa using hn)]
    rfl
  rw [brGet, EngM.bind_ok h, getE_bind, EngM.bind_ok hc, BitReader.value_bitsWith hn bytes, EngM.pure_run]

theorem brGet_short (h : brNeed n e = .ok () f) (hn : f.br.nbits < n) : brGet n e = .error (.raise 0x0205 n) f := by
  rw [brGet, EngM.bind_ok h, getE_bind, EngM.bind_error (s := .raise 0x0205 n) (e' := f)]
  rw [brConsume, getE_bind, ensure_bind_fails (by simpa using hn)]

theorem brGet_waits (h : brNeed n e = .error .wait f) : brGet n e = .error .wait f := by
  rw [brGet, EngM.bind_error h]

end

/-! ### Refills over a STREAM-mode source (40_bitstream_reader.md R131, R134, R142) -/

/-- The BitReader reads a ByteSource in STREAM mode. -/
structure OverStream (e : Eng) : Prop where
  mode : e.bs.mode = .stream
  input : e.br.input = .source

/-- The engine after the BitReader has joined the next `k` bytes held by the source. -/
def Eng.fed (e : Eng) (k : Nat) : Eng :=
  { e with br := e.br.fed (e.bs.q.take k), bs := { e.bs with q := e.bs.q.drop k } }

theorem OverStream.fed {e : Eng} (h : OverStream e) (k : Nat) : OverStream (e.fed k) :=
  ⟨h.mode, (BitReader.fed_frame _ _).2.2.trans h.input⟩

theorem Eng.fed_nbits {e : Eng} {k : Nat} (hk : k ≤ e.bs.q.length) : (e.fed k).br.nbits = e.br.nbits + 8 * k := by
  rw [Eng.fed, (BitReader.fed_frame _ _).1, List.length_take, Nat.min_eq_left hk]

section
variable {e f g : Eng} {n : Nat}

theorem OverStream.inGet (h : OverStream e) : inGet e = bsGet e := by
  rw [Machine.inGet, getE_bind, h.input]

/-! One turn of the refill loop, where there is room for a byte. -/

theorem brRefill_some {b : Byte} (j : Nat) (h : OverStream e) (hn : e.br.nbits ≤ 24) (hget : bsGet e = .ok (some b) f) :
    brRefill (j + 1) e = brRefill j { f with br := f.br.joined b } := by
  rw [brRefill, getE_bind, EngM.ite_run, if_pos hn, EngM.bind_ok (h.inGet.trans hget)]
  rfl

theorem brRefill_none (j : Nat) (h : OverStream e) (hn : e.br.nbits ≤ 24) (hget : bsGet e = .ok none f) :
    brRefill (j + 1) e = .ok () f := by
  rw [brRefill, getE_bind, EngM.ite_run, if_pos hn, EngM.bind_ok (h.inGet.trans hget)]
  rfl

theorem brRefill_waits (j : Nat) (h : OverStream e) (hn : e.br.nbits ≤ 24) (hget : bsGet e = .error .wait f) :
    brRefill (j + 1) e = .error .wait f := by
  rw [brRefill, getE_bind, EngM.ite_run, if_pos hn, EngM.bind_error (h.inGet.trans hget)]

/-- A BitReader that holds 25 bits or more takes no byte. -/
theorem brRefill_full (j : Nat) (hn : 25 ≤ e.br.nbits) : brRefill j e = .ok () e := by
  cases j with
  | zero => rfl
  | succ j => rw [brRefill, getE_bind, EngM.ite_run, if_neg (by omega), EngM.pure_run]

/-- A refill joins the bytes held, as long as there is room for them. -/
theorem brRefill_fed (k j : Nat) (h : OverStream e) (hk : k ≤ e.bs.q.length) (room : e.br.nbits + 8 * k ≤ 32) :
    brRefill (k + j) e = brRefill j (e.fed k) := by
  induction k generalizing e with
  | zero => rw [Nat.zero_add]; rfl
  | succ k ih =>
    cases hq : e.bs.q with
    | nil => simp [hq] at hk
    | cons b q =>
      have hget := bsGet_stream h.mode (streamFill_idle (.inl (by simp [hq]))) hq
      have hk' : k ≤ q.length := by simpa [hq] using hk
      rw [Nat.add_right_comm, brRefill_some _ h (by omega) hget]
      refine (ih (e := { e with br := e.br.joined b, bs := { e.bs with q := q } }) ⟨h.mode, h.input⟩ hk' ?_).trans ?_
      · show e.br.nbits + 8 + 8 * k ≤ 32
        omega
      · simp only [Eng.fed, hq]
        rfl

/-- A refill that has filled the stream buffer goes on with its bytes. -/
theorem brRefill_filled (j : Nat) (h : OverStream e) (hn : e.br.nbits ≤ 24) (hf : streamFill e = .ok () f) (h' : OverStream f)
    (hn' : f.br.nbits ≤ 24) (hq : f.bs.q ≠ []) : brRefill (j + 1) e = brRefill (j + 1) f := by
  cases hc : f.bs.q with
  | nil => exact absurd hc hq
  | cons b q =>
    rw [brRefill_some j h hn (bsGet_stream h.mode hf hc),
      brRefill_some j h' hn' (bsGet_stream h'.mode (streamFill_idle (.inl hq)) hc)]

end

/-! ### How many bytes a refill takes (40_bitstream_reader.md R142, R143) -/

/-- Where fewer than `n` bits are held, the bytes that a refill takes bring them to between 25 and 32. -/
theorem BitReader.refillCount_spec {r : BitReader} {n : Nat} (hn : n ≤ 16) (hlt : r.nbits < n) :
    25 ≤ r.nbits + 8 * r.refillCount n ∧ r.nbits + 8 * r.refillCount n ≤ 32 ∧ r.refillCount n ≤ 4 := by
  rw [BitReader.refillCount, if_pos hlt]
  omega

theorem BitReader.refillCount_of_le {r : BitReader} {n : Nat} (h : n ≤ r.nbits) : r.refillCount n = 0 := by
  rw [BitReader.refillCount, if_neg (by omega)]

/-- A refill that needs a byte starts where fewer than `n` bits are held. -/
theorem BitReader.lt_of_refillCount_pos {r : BitReader} {n : Nat} (h : 0 < r.refillCount n) : r.nbits < n := by
  by_contra hn
  rw [BitReader.refillCount_of_le (by omega)] at h
  omega

section
variable {e f : Eng} {n : Nat} (h : OverStream e) (hn : n ≤ 16)
include h hn

/-- Where the source holds as many bytes as the refill takes, it takes them and asks for nothing. -/
theorem brNeed_held (hk : e.br.refillCount n ≤ e.bs.q.length) : brNeed n e = .ok () (e.fed (e.br.refillCount n)) := by
  rw [brNeed, getE_bind, EngM.ite_run]
  by_cases hlt : e.br.nbits < n
  · obtain ⟨hge, hle, h4⟩ := BitReader.refillCount_spec hn hlt
    rw [if_pos hlt, ← Nat.add_sub_cancel' h4, brRefill_fed _ _ h hk hle, brRefill_full _ (by rwa [Eng.fed_nbits hk])]
  · rw [if_neg hlt, BitReader.refillCount_of_le (by omega)]
    rfl

section
variable (hk : e.bs.q.length < e.br.refillCount n)
include hk

/-- Where it holds fewer, the refill goes on with an empty buffer and room for a byte. -/
theorem brNeed_drained : ∃ j, j + 1 + e.bs.q.length = 4 ∧
    brNeed n e = brRefill (j + 1) (e.fed e.bs.q.length) ∧ (e.fed e.bs.q.length).br.nbits ≤ 24 := by
  have hlt := BitReader.lt_of_refillCount_pos (Nat.zero_lt_of_lt hk)
  obtain ⟨-, hle, h4⟩ := BitReader.refillCount_spec hn hlt
  obtain ⟨j, hj⟩ : ∃ j, e.bs.q.length + (j + 1) = 4 := ⟨3 - e.bs.q.length, by omega⟩
  refine ⟨j, by omega, ?_, by rw [Eng.fed_nbits (Nat.le_refl _)]; omega⟩
  rw [brNeed, getE_bind, EngM.ite_run, if_pos hlt, ← hj, brRefill_fed _ _ h (Nat.le_refl _) (by omega)]

theorem brNeed_waits (hf : streamFill (e.fed e.bs.q.length) = .error .wait f) : brNeed n e = .error .wait f := by
  obtain ⟨j, -, hneed, hroom⟩ := brNeed_drained h hn hk
  rw [hneed, brRefill_waits j (h.fed _) hroom (bsGet_stream_waits h.mode hf)]

/-- At the end of input the refill stops with what was held. -/
theorem brNeed_atEnd (hf : streamFill (e.fed e.bs.q.length) = .ok () f) (hq : f.bs.q = []) :
    brNeed n e = .ok () { f with srcEof := true } := by
  obtain ⟨j, -, hneed, hroom⟩ := brNeed_drained h hn hk
  rw [hneed, brRefill_none j (h.fed _) hroom (bsGet_stream_atEnd h.mode hf hq)]

/-- Where the host has placed enough bytes, the refill goes on with those. -/
theorem brNeed_refilled {c : List Byte} {ms : List PortMove}
    (hf : streamFill (e.fed e.bs.q.length) = .ok () ((e.fed e.bs.q.length).refilled c ms))
    (hc : e.br.refillCount n ≤ e.bs.q.length + c.length) :
    brNeed n e = .ok () (((e.fed e.bs.q.length).refilled c ms).fed (e.br.refillCount n - e.bs.q.length)) := by
  obtain ⟨hge, hle, h4⟩ := BitReader.refillCount_spec hn (BitReader.lt_of_refillCount_pos (Nat.zero_lt_of_lt hk))
  obtain ⟨j, hj, hneed, hroom⟩ := brNeed_drained h hn hk
  have hd := h.fed e.bs.q.length
  have hg : OverStream ((e.fed e.bs.q.length).refilled c ms) := ⟨hd.mode, hd.input⟩
  have hnb : ((e.fed e.bs.q.length).refilled c ms).br.nbits = e.br.nbits + 8 * e.bs.q.length := Eng.fed_nbits (Nat.le_refl _)
  have hlen : e.br.refillCount n - e.bs.q.length ≤ ((e.fed e.bs.q.length).refilled c ms).bs.q.length := by
    show _ ≤ c.length
    omega
  have hne : c ≠ [] := by
    rintro rfl
    simp at hc
    omega
  obtain ⟨i, hi⟩ : ∃ i, e.br.refillCount n - e.bs.q.length + i = j + 1 := ⟨4 - e.br.refillCount n, by omega⟩
  rw [hneed, brRefill_filled j hd hroom hf hg hroom hne, ← hi, brRefill_fed _ _ hg hlen (by rw [hnb]; omega),
    brRefill_full _ (by rw [Eng.fed_nbits hlen, hnb]; omega)]

end

end

end Sys2Proof.Machine
end

section
/-! SUPPORT. The obligations on the BitReader's commands (40_bitstream_reader.md R143 to R149). -/

namespace Sys2Proof.Machine

/-! ### The commands' steps -/

section
variable {c : Snapshot} {e f g : Eng} {n : Nat}

theorem needBits_ok (hv : e.br.valid = true) : needBits e = .ok () e := by
  rw [needBits, getE_bind, hv, ensure_true]

theorem brInitBody_ok (c : Snapshot) (hm : e.bs.mode ≠ .closed) :
    brInitBody c e = .ok ⟨0, 0, 0, 0⟩ { e with br := ⟨true, 0, 0, .source⟩ } := by
  rw [brInitBody, EngM.bind_ok (needSource_ok hm)]
  rfl

theorem brAlignBody_ok (c : Snapshot) (hv : e.br.valid = true) :
    brAlignBody c e = .ok ⟨e.br.nbits % 8, 0, 0, 0⟩ { e with br := e.br.consumed (e.br.nbits % 8) } := by
  rw [brAlignBody, EngM.bind_ok (needBits_ok hv)]
  rfl

/-- BR_GET is `br_get(n)` after its checks. -/
theorem brGetBody_eq (c : Snapshot) (hv : e.br.valid = true) (hn : n ≤ 16) (huse : useSource e = .ok () f) :
    brGetBody n c e = (brGet n >>= fun v => pure ⟨v, 0, 0, 0⟩) f := by
  rw [brGetBody, EngM.bind_ok (needBits_ok hv), ensure_bind (decide_eq_true hn), EngM.bind_ok huse]

end

/-- The value of at most 16 bits fits a register. -/
theorem bitsValue_take_lt {n : Nat} (hn : n ≤ 16) (l : List Bool) : bitsValue (l.take n) < 2 ^ 32 :=
  (bitsValue_lt _).trans_le (Nat.pow_le_pow_right (by omega) ((List.length_take_le n l).trans (by omega)))

/-- Settles O31: the two commands change the BitReader only. -/
theorem brInitAndBrAlignComplete : Obligations.BrInitAndBrAlignComplete := by
  unfold Obligations.BrInitAndBrAlignComplete
  refine ⟨fun s ready hm => ?_, fun s ready hv _ => ?_⟩
  · obtain ⟨hx, hc⟩ := ready.completes (i := .brInit) rfl (brInitBody_ok (e := s.entry []) s.running.snap hm)
      ⟨ready.live, ready.srcReq, ready.allocReq⟩ rfl (by decide) (by decide)
    exact ⟨_, hx, hc, rfl, ⟨rfl, rfl⟩, ⟨rfl, rfl, rfl⟩, rfl, ⟨rfl, rfl, rfl⟩, fun _ => rfl⟩
  · obtain ⟨hx, hc⟩ := ready.completes (i := .brAlign) rfl (brAlignBody_ok (e := s.entry []) s.running.snap hv)
      ⟨ready.live, ready.srcReq, ready.allocReq⟩ rfl ((Nat.mod_lt _ (by decide)).trans (by decide)) (by decide)
    exact ⟨_, hx, hc, rfl, BitReader.consumed_bitsWith (Nat.mod_le _ _) s.start.bytesAhead, ⟨rfl, rfl⟩,
      ⟨rfl, rfl, rfl⟩, rfl, ⟨rfl, rfl, rfl⟩, fun _ => rfl⟩

/-! ### BR_GET over memory (40_bitstream_reader.md R143, R151) -/

/-- After reads the engine differs in three fields. -/
theorem ReadsOn.fields {e f : Eng} (h : ReadsOn e f) :
    ∃ br pos eof, f = { e with br := br, bs := { e.bs with pos := pos }, srcEof := eof } :=
  ⟨_, _, _, h.same⟩

section
variable {s : State} {n : Nat} (ready : s.Ready []) (hn : n ≤ 16) (reads : CanRead s.start)
include ready hn reads

theorem brGet_completes_mem (h : n ≤ s.start.bitsAhead.length) :
    ∃ t, exec (.brGet n) s = .next t ∧ Completed s t (BitVec.ofNat 32 (bitsValue (s.start.bitsAhead.take n))) 0 0 0 ∧
      t.eng.bitsAhead = s.start.bitsAhead.drop n ∧ t.eng.br.valid = true ∧
      t.eng.bs = { s.start.bs with pos := t.eng.bs.pos } ∧ SameSlots s.start t.eng ∧ t.eng.inf = s.start.inf ∧
      SamePorts s.start t.eng ∧ SameMem s.start t.eng := by
  obtain ⟨rs, huse⟩ := useSource_ok (e := s.entry []) ready.placed
  obtain ⟨f, hf, ro, cf, hb⟩ := brGet_ok (e := { s.entry [] with regions := rs }) hn
    ⟨reads.valid, reads.reader, reads.source, reads.mode⟩ h
  obtain ⟨br, pos, eof, rfl⟩ := ro.fields
  obtain ⟨hx, hc⟩ := ready.completes (i := .brGet n) rfl
    ((brGetBody_eq (e := s.entry []) s.running.snap reads.valid hn huse).trans (EngM.bind_ok hf))
    ⟨ready.live, ready.srcReq, ready.allocReq⟩ rfl (bitsValue_take_lt hn _) (by decide)
  exact ⟨_, hx, hc, hb, cf.valid, rfl, ⟨rfl, rfl, rfl⟩, rfl, ⟨rfl, rfl, rfl⟩, fun _ => rfl⟩

theorem brGet_fails_mem (h : s.start.bitsAhead.length < n) :
    ∃ t, exec (.brGet n) s = .next t ∧ Failed s t 0x0205 (BitVec.ofNat 32 n) ∧ UnitsInvalid t.eng ∧
      SameMem s.start t.eng := by
  obtain ⟨rs, huse⟩ := useSource_ok (e := s.entry []) ready.placed
  obtain ⟨f, hf, ro, -⟩ := brGet_fails (e := { s.entry [] with regions := rs }) hn
    ⟨reads.valid, reads.reader, reads.source, reads.mode⟩ h
  obtain ⟨br, pos, eof, rfl⟩ := ro.fields
  obtain ⟨hx, hc⟩ := ready.fails (i := .brGet n) rfl
    ((brGetBody_eq (e := s.entry []) s.running.snap reads.valid hn huse).trans (EngM.bind_error hf))
    ⟨ready.live, ready.srcReq, ready.allocReq⟩ rfl (by omega)
  exact ⟨_, hx, hc, unitsInvalid_fail_unit s n (by decide) _, sameMem_fail s ready.written⟩

end

/-! ### BR_GET over a STREAM-mode source (40_bitstream_reader.md R131, R133, R134, R143) -/

/-- The engine as BR_GET over a STREAM-mode source runs `br_get` on it, with the stream buffer declared (20_memory.md R79). -/
def State.streamEntry (s : State) (answers : List PortMove) : Eng :=
  { s.entry answers with regions := ⟨s.start.bs.bufaddr, 128, true⟩ :: s.start.regions }

/-- From `s` BR_GET has completed in `t` with the first `n` of the bits held and of those of `bytes`, and the rest are ahead of it. -/
def TakesBits (n : Nat) (bytes : List Byte) (s t : State) : Prop :=
  exec (.brGet n) s = .next t ∧
  Completed s t (BitVec.ofNat 32 (bitsValue ((s.start.br.bitsWith bytes).take n))) 0 0 0 ∧
  t.eng.br.bitsWith t.eng.bs.q = (s.start.br.bitsWith bytes).drop n ∧ t.eng.br.valid = true ∧ t.eng.br.input = .source ∧
  SameSlots s.start t.eng ∧ t.eng.inf = s.start.inf ∧ SameAllocPort s.start t.eng

section
variable {s : State} {n : Nat} {answers : List PortMove} {f : Eng} (ready : s.Ready answers) (hn : n ≤ 16)
  (hv : s.start.br.valid = true) (hm : s.start.bs.mode = .stream)
include ready hn hv hm

theorem brGetBody_stream :
    brGetBody n s.running.snap (s.entry answers) = (brGet n >>= fun v => pure ⟨v, 0, 0, 0⟩) (s.streamEntry answers) :=
  brGetBody_eq s.running.snap hv hn (useSource_stream hm ready.placed)

/-- Where the refill leaves the BitReader fed with `d`, and `d` and the bytes then held are `bytes`, BR_GET takes the first `n` bits
of what was held and of `bytes`. -/
theorem brGet_takes {d bytes : List Byte} (hr : ReaderOk s.start.br) (hi : s.start.br.input = .source)
    (hneed : brNeed n (s.streamEntry answers) = .ok () f) (hbr : f.br = s.start.br.fed d) (hbytes : d ++ f.bs.q = bytes)
    (room : s.start.br.nbits + 8 * d.length ≤ 32) (held : n ≤ s.start.br.nbits + 8 * d.length) (rest : AtRest f)
    (hmoves : f.moves = []) (slots : SameSlots s.start f) (inf : f.inf = s.start.inf) (alloc : SameAllocPort s.start f) :
    ∃ t, TakesBits n bytes s t ∧ t.eng.bs = f.bs ∧ t.eng.srcEof = f.srcEof ∧ SameSrcPort f t.eng ∧ SameMem f t.eng := by
  obtain ⟨hnb, hvalid, hinput⟩ := BitReader.fed_frame d s.start.br
  have hbits : f.br.bitsWith f.bs.q = s.start.br.bitsWith bytes := by rw [hbr, BitReader.fed_bitsWith d hr room, hbytes]
  have hheld : n ≤ f.br.nbits := by rwa [hbr, hnb]
  have hget := brGet_held hneed hheld f.bs.q
  rw [hbits] at hget
  obtain ⟨hx, hc⟩ := ready.completes (i := .brGet n) rfl ((brGetBody_stream ready hn hv hm).trans (EngM.bind_ok hget))
    ⟨rest.live, rest.srcReq, rest.allocReq⟩ hmoves (bitsValue_take_lt hn _) (by decide)
  refine ⟨_, ⟨hx, hc, ?_, ?_, ?_, ⟨slots.ht0, slots.ht1, slots.ht2⟩, inf, alloc⟩, rfl, rfl, rfl, fun _ => rfl⟩
  · rw [← hbits]
    exact BitReader.consumed_bitsWith hheld f.bs.q
  · show f.br.valid = true
    rw [hbr, hvalid, hv]
  · show f.br.input = .source
    rw [hbr, hinput, hi]

end

/-- A refill with an empty buffer at the end of input, seen before or told now, asks for no more and leaves the end seen. -/
theorem streamFill_atEnd {e : Eng} (hq : e.bs.q = []) (hs : e.srcReq = 0)
    (h : (e.bs.eof = true ∧ e.moves = []) ∨ (e.bs.eof = false ∧ e.moves = [.srcResp 0])) :
    ∃ w j, streamFill e =
      .ok () { e with bs := { e.bs with q := [], eof := true }, srcReq := 0, srcReqLen := w, journal := j, moves := [] } := by
  obtain ⟨he, hm⟩ | ⟨he, hm⟩ := h
  · refine ⟨e.srcReqLen, e.journal, ?_⟩
    rw [streamFill_idle (.inr he), ← hq, ← he, ← hs, ← hm]
  · refine ⟨128, [], ?_⟩
    rw [streamFill_ended hq he hm, ← hq]
    rfl

theorem BitReader.refillCount_room {r : BitReader} {n : Nat} (hn : n ≤ 16) (h : r.nbits ≤ 32) :
    r.nbits + 8 * r.refillCount n ≤ 32 ∧ n ≤ r.nbits + 8 * r.refillCount n := by
  by_cases hlt : r.nbits < n
  · obtain ⟨hge, hle, -⟩ := BitReader.refillCount_spec hn hlt
    omega
  · rw [BitReader.refillCount_of_le (by omega)]
    omega

theorem State.streamEntry_overStream (s : State) (hi : s.start.br.input = .source) (hm : s.start.bs.mode = .stream)
    (answers : List PortMove) : OverStream (s.streamEntry answers) := ⟨hm, hi⟩

section
variable {s : State} {n : Nat} (hn : n ≤ 16) (hv : s.start.br.valid = true) (hr : ReaderOk s.start.br)
  (hi : s.start.br.input = .source) (hm : s.start.bs.mode = .stream)
include hn hv hi hm

include hr in
/-- Where the refill can do with the bytes held, BR_GET completes with them and asks for nothing. -/
theorem brGet_stream_held (hk : s.start.br.refillCount n ≤ s.start.bs.q.length) (ready : s.Ready []) :
    ∃ t, TakesBits n s.start.bs.q s t ∧ t.eng.bs = { s.start.bs with q := s.start.bs.q.drop (s.start.br.refillCount n) } ∧
      t.eng.srcEof = s.start.srcEof ∧ SameSrcPort s.start t.eng ∧ SameMem s.start t.eng := by
  obtain ⟨room, held⟩ := BitReader.refillCount_room hn hr.nbits
  have hd : (s.start.bs.q.take (s.start.br.refillCount n)).length = s.start.br.refillCount n := by
    rw [List.length_take, Nat.min_eq_left hk]
  rw [← hd] at room held
  exact brGet_takes ready hn hv hm hr hi (brNeed_held (s.streamEntry_overStream hi hm []) hn hk) rfl
    (List.take_append_drop _ s.start.bs.q) room held ⟨ready.live, ready.srcReq, ready.allocReq⟩ rfl ⟨rfl, rfl, rfl⟩ rfl ⟨rfl, rfl⟩

section
variable (hk : s.start.bs.q.length < s.start.br.refillCount n)
include hk

theorem brGet_stream_asks (he : s.start.bs.eof = false) (ready : s.Ready []) :
    ∃ t, exec (.brGet n) s = .next t ∧ Waiting s t ∧ t.eng.srcReq = 1 ∧ t.eng.srcReqLen = 128 ∧
      t.readReg 22 = BitVec.ofNat 32 s.start.bs.bufaddr ∧ SameMem s.start t.eng := by
  have hneed := brNeed_waits (s.streamEntry_overStream hi hm []) hn hk (streamFill_waits List.drop_length he rfl)
  obtain ⟨hx, hw⟩ := ready.waits (k := 1) (i := .brGet n) rfl
    ((brGetBody_stream ready hn hv hm).trans (EngM.bind_error (brGet_waits hneed))) rfl (by decide) ready.allocReq
  exact ⟨_, hx, hw, rfl, rfl, rfl, fun _ => rfl⟩

include hr

/-- Where the host has placed enough bytes at SRC_BUF, BR_GET goes on with those. -/
theorem brGet_stream_placed (hs : SourceOk s.start.bs) {c : List Byte} (he : s.start.bs.eof = false) (hc : c.length ≤ 128)
    (hne : c ≠ []) (hkc : s.start.br.refillCount n ≤ s.start.bs.q.length + c.length)
    (ready : s.Ready [.place s.start.bs.bufaddr c, .srcResp (BitVec.ofNat 32 c.length)]) :
    ∃ t, TakesBits n (s.start.bs.q ++ c) s t ∧
      t.eng.bs = { s.start.bs with q := (s.start.bs.q ++ c).drop (s.start.br.refillCount n) } ∧
      t.eng.srcEof = s.start.srcEof ∧ SameMemOutside s.start t.eng s.start.bs.bufaddr c.length := by
  obtain ⟨room, held⟩ := BitReader.refillCount_room hn hr.nbits
  have hneed := brNeed_refilled
    (s.streamEntry_overStream hi hm [.place s.start.bs.bufaddr c, .srcResp (BitVec.ofNat 32 c.length)]) hn hk
    (streamFill_refilled (ms := []) List.drop_length he (hs.buffer hm) hne hc rfl) hkc
  have hd : (s.start.bs.q ++ c.take (s.start.br.refillCount n - s.start.bs.q.length)).length = s.start.br.refillCount n := by
    rw [List.length_append, List.length_take]
    omega
  have hbr : (s.start.br.fed (s.start.bs.q.take s.start.bs.q.length)).fed (c.take (s.start.br.refillCount n - s.start.bs.q.length)) =
      s.start.br.fed (s.start.bs.q ++ c.take (s.start.br.refillCount n - s.start.bs.q.length)) := by
    rw [List.take_length, BitReader.fed_append]
  have hbytes : s.start.bs.q ++ c.take (s.start.br.refillCount n - s.start.bs.q.length) ++
      c.drop (s.start.br.refillCount n - s.start.bs.q.length) = s.start.bs.q ++ c := by
    rw [List.append_assoc, List.take_append_drop]
  rw [← hd] at room held
  obtain ⟨t, htake, hbs, heof, -, hmem⟩ := brGet_takes ready hn hv hm hr hi hneed hbr hbytes room held
    ⟨ready.live, rfl, ready.allocReq⟩ rfl ⟨rfl, rfl, rfl⟩ rfl ⟨rfl, rfl⟩
  refine ⟨t, htake, hbs.trans ?_, heof, fun x hx => (hmem x).trans (Memory.get_write_of_lt _ _ _ _ hx)⟩
  rw [List.drop_append, List.drop_of_length_le hk.le]
  rfl

/-- At the end of input BR_GET has only the bits held and those of the bytes held: it takes them or fails. -/
theorem brGet_stream_atEnd {answers : List PortMove} (ready : s.Ready answers)
    (hend : (s.start.bs.eof = true ∧ answers = []) ∨ (s.start.bs.eof = false ∧ answers = [.srcResp 0])) :
    (n ≤ (s.start.br.bitsWith s.start.bs.q).length → ∃ t, TakesBits n s.start.bs.q s t ∧
      t.eng.bs = { s.start.bs with q := [], eof := true } ∧ t.eng.srcEof = true ∧ SameMem s.start t.eng) ∧
    ((s.start.br.bitsWith s.start.bs.q).length < n → ∃ t, exec (.brGet n) s = .next t ∧
      Failed s t 0x0205 (BitVec.ofNat 32 n) ∧ UnitsInvalid t.eng ∧ SameMem s.start t.eng) := by
  obtain ⟨room, -⟩ := BitReader.refillCount_room hn hr.nbits
  obtain ⟨w, j, hfill⟩ := streamFill_atEnd (e := (s.streamEntry answers).fed s.start.bs.q.length) List.drop_length ready.srcReq hend
  have hneed := brNeed_atEnd (s.streamEntry_overStream hi hm answers) hn hk hfill rfl
  have hbr : s.start.br.fed (s.start.bs.q.take s.start.bs.q.length) = s.start.br.fed s.start.bs.q := congrArg _ List.take_length
  rw [BitReader.bitsWith_length]
  constructor
  · intro hlen
    obtain ⟨t, htake, hbs, heof, -, hmem⟩ := brGet_takes ready hn hv hm hr hi hneed hbr (List.append_nil _)
      (by omega) hlen ⟨ready.live, rfl, ready.allocReq⟩ rfl ⟨rfl, rfl, rfl⟩ rfl ⟨rfl, rfl⟩
    exact ⟨t, htake, hbs, heof, hmem⟩
  · intro hlen
    have hfew : (s.start.br.fed (s.start.bs.q.take s.start.bs.q.length)).nbits < n := by rwa [hbr, (BitReader.fed_frame _ _).1]
    obtain ⟨hx, hf⟩ := ready.fails (i := .brGet n) rfl
      ((brGetBody_stream ready hn hv hm).trans (EngM.bind_error (brGet_short hneed hfew))) ⟨ready.live, rfl, ready.allocReq⟩ rfl
      (by omega)
    exact ⟨_, hx, hf, unitsInvalid_fail_unit s n (by decide) _, sameMem_fail s ready.written⟩

end

end

/-- Settles O32: over memory by the laws of `br_get`; over a stream by what its refill joins, from the bytes held and from those the
host places. -/
theorem brGetReadsTheStream : Obligations.BrGetReadsTheStream := by
  unfold Obligations.BrGetReadsTheStream
  constructor
  · intro s n ready hn hv hr hs hm
    exact ⟨brGet_completes_mem ready hn ⟨hv, hr, hs, hm⟩, brGet_fails_mem ready hn ⟨hv, hr, hs, hm⟩⟩
  · intro s n hn hv hr hs hi hm
    exact ⟨brGet_stream_held hn hv hr hi hm, fun hk => ⟨brGet_stream_asks hn hv hi hm hk,
      fun _ he hc hne hkc ready => brGet_stream_placed hn hv hr hi hm hk hs he hc hne hkc ready,
      fun _ hend ready => brGet_stream_atEnd hn hv hr hi hm hk ready hend⟩⟩

end Sys2Proof.Machine
end

section
/-! SUPPORT. Which code lengths a build accepts, and the whole slot it gives for them (41_huffman_decoder.md R161, R163, R164, R167). -/

namespace Sys2Proof.Machine

/-! ### The canonical assignment of every class -/

/-- The rank of the first code of length `l`: the symbols of all shorter lengths come before it (41_huffman_decoder.md R163). -/
def firstRank (lens : List Nat) (l : Nat) : Nat := lens.countP fun x => decide (0 < x ∧ x < l)

theorem firstRank_one (lens : List Nat) : firstRank lens 1 = 0 := by
  rw [firstRank, List.countP_eq_zero]
  intro x _
  simp only [decide_eq_true_eq]
  omega

theorem firstRank_succ (lens : List Nat) {l : Nat} (h : 1 ≤ l) : firstRank lens (l + 1) = firstRank lens l + lens.count l := by
  unfold firstRank
  induction lens with
  | nil => rfl
  | cons x lens ih =>
    simp only [List.countP_cons, List.count_cons, ih, decide_eq_true_eq, beq_iff_eq]
    split_ifs <;> omega

theorem firstRank_mono (lens : List Nat) {l m : Nat} (h : l ≤ m) : firstRank lens l ≤ firstRank lens m := by
  refine List.countP_mono_left fun x _ hx => ?_
  simp only [decide_eq_true_eq] at hx ⊢
  omega

theorem firstRank_le_length (lens : List Nat) (l : Nat) : firstRank lens l ≤ lens.length := List.countP_le_length

/-- What the canonical assignment gives the class of length `l`. -/
def canonicalClass (lens : List Nat) (l : Nat) : LengthClass :=
  ⟨canonicalFirst lens l, firstRank lens l, (canonicalFirst lens l + lens.count l) * 2 ^ (16 - l)⟩

/-- The class of length `l` has a code that does not fit in `l` bits (41_huffman_decoder.md R163). -/
def tooWide (lens : List Nat) (l : Nat) : Bool := decide (lens.count l ≠ 0 ∧ 2 ^ l < canonicalFirst lens l + lens.count l)

/-- The assignment stops at the first class that is too wide, and gives every class its canonical values where there is none. -/
theorem lengthClasses_range' (lens : List Nat) {a : Nat} (n : Nat) (ha : 1 ≤ a) :
    lengthClasses lens (List.range' a n) (canonicalFirst lens a) (firstRank lens a) =
      ((List.range' a n).find? (tooWide lens)).elim (.ok ((List.range' a n).map (canonicalClass lens))) fun l => .error (0x0304, l) := by
  induction n generalizing a with
  | zero => rfl
  | succ n ih =>
    have hwide : (lens.count a ≠ 0 ∧ 2 ^ a ≤ canonicalFirst lens a + lens.count a - 1) ↔ tooWide lens a = true := by
      rw [tooWide, decide_eq_true_eq]
      omega
    rw [List.range'_succ, lengthClasses]
    simp only [hwide]
    rw [← canonicalFirst_succ lens ha, ← firstRank_succ lens ha, ih (by omega)]
    by_cases h : tooWide lens a = true
    · rw [if_pos h, List.find?_cons_of_pos h, Option.elim_some]
    · rw [if_neg h, List.find?_cons_of_neg h]
      cases (List.range' (a + 1) n).find? (tooWide lens) <;> rfl

theorem codeLengths_eq_range' : codeLengths = List.range' 1 15 := rfl

theorem lengthClasses_eq (lens : List Nat) :
    lengthClasses lens codeLengths 0 0 =
      (codeLengths.find? (tooWide lens)).elim (.ok (codeLengths.map (canonicalClass lens))) fun l => .error (0x0304, l) := by
  have h := lengthClasses_range' lens 15 (Nat.le_refl 1)
  rwa [firstRank_one] at h

/-! ### The outcome of a build -/

/-- The codes of the used symbols, in increasing symbol order (41_huffman_decoder.md R164). -/
def canonicalCodes (lens : List Nat) : List SymbolCode :=
  symbolCodes (codeLengths.map (canonicalClass lens)) lens 0 ((codeLengths.map (canonicalClass lens)).map (·.firstcode))

/-- The slot of the canonical codes (41_huffman_decoder.md R163, R164). -/
def canonicalSlot (lens : List Nat) : Huff := slotOf (codeLengths.map (canonicalClass lens)) (canonicalCodes lens)

/-- The class of length `l` holds more codes than there are numbers of `l` bits (41_huffman_decoder.md R161). -/
def tooMany (lens : List Nat) (l : Nat) : Bool := decide (2 ^ l < lens.count l)

section
variable {lens : List Nat} {l : Nat}

theorem buildSlot_tooMany (h : codeLengths.find? (tooMany lens) = some l) : buildSlot lens = .error (0x0305, l) := by
  rw [buildSlot, show codeLengths.find? (fun l => decide (2 ^ l < lens.count l)) = some l from h]

/-- Where no class is too large, the build is the canonical assignment. -/
theorem buildSlot_eq (h : codeLengths.find? (tooMany lens) = none) :
    buildSlot lens = (codeLengths.find? (tooWide lens)).elim (.ok (canonicalSlot lens)) fun l => .error (0x0304, l) := by
  rw [buildSlot, show codeLengths.find? (fun l => decide (2 ^ l < lens.count l)) = none from h, lengthClasses_eq]
  cases codeLengths.find? (tooWide lens) <;> rfl

/-- The first length class with a property. -/
theorem find?_codeLengths_eq_some {p : Nat → Bool} (h1 : 1 ≤ l) (h15 : l ≤ 15) (hp : p l = true)
    (hfirst : ∀ m, 1 ≤ m → m < l → p m = false) : codeLengths.find? p = some l := by
  rw [codeLengths_eq_range']
  exact List.find?_range'_eq_some.2 ⟨hp, List.mem_range'_1.2 ⟨h1, by omega⟩, fun m h h' => by rw [hfirst m h h']; rfl⟩

/-- No length class has a property. -/
theorem find?_codeLengths_eq_none {p : Nat → Bool} : codeLengths.find? p = none ↔ ∀ m, 1 ≤ m → m ≤ 15 → p m = false := by
  rw [codeLengths_eq_range', List.find?_range'_eq_none]
  simp only [Bool.not_eq_true', show ∀ m, m < 1 + 15 ↔ m ≤ 15 by omega]

/-- The error of a build names one of the 15 classes. -/
theorem buildSlot_error_info_le {x : Nat × Nat} (h : buildSlot lens = .error x) : x.2 ≤ 15 := by
  have le_of_find : ∀ {p : Nat → Bool} {l}, codeLengths.find? p = some l → l ≤ 15 := fun hf =>
    (show ∀ l ∈ codeLengths, l ≤ 15 by decide) _ (List.mem_of_find?_eq_some hf)
  cases hm : codeLengths.find? (tooMany lens) with
  | some l =>
    rw [buildSlot_tooMany hm] at h
    cases h
    exact le_of_find hm
  | none =>
    rw [buildSlot_eq hm] at h
    cases hw : codeLengths.find? (tooWide lens) with
    | none => rw [hw] at h; cases h
    | some l =>
      rw [hw] at h
      cases h
      exact le_of_find hw

/-- A build that is accepted gives the canonical slot. -/
theorem buildSlot_ok_eq {h : Huff} (hb : buildSlot lens = .ok h) : h = canonicalSlot lens := by
  cases hm : codeLengths.find? (tooMany lens) with
  | some l => rw [buildSlot_tooMany hm] at hb; cases hb
  | none =>
    rw [buildSlot_eq hm] at hb
    cases hw : codeLengths.find? (tooWide lens) with
    | some l => rw [hw] at hb; cases hb
    | none =>
      rw [hw] at hb
      cases hb
      rfl

end

/-- Settles O34: the two checks are searches through the classes in increasing order, for one with too many codes and for one whose
canonical codes do not fit. -/
theorem codeLengthsAcceptedOrRejected : Obligations.CodeLengthsAcceptedOrRejected := by
  unfold Obligations.CodeLengthsAcceptedOrRejected
  intro lens _ _ bad wide
  have hmany : (∀ m, 1 ≤ m → m ≤ 15 → ¬ bad m) → codeLengths.find? (tooMany lens) = none := fun h =>
    find?_codeLengths_eq_none.2 fun m h1 h15 => decide_eq_false (h m h1 h15)
  refine ⟨fun l h1 h15 hl hfirst => ?_, fun l h1 h15 hsizes hl hfirst => ?_, fun h => ⟨canonicalSlot lens, ?_⟩⟩
  · exact buildSlot_tooMany
      (find?_codeLengths_eq_some h1 h15 (decide_eq_true hl) fun m hm hlt => decide_eq_false (hfirst m hm hlt))
  · rw [buildSlot_eq (hmany hsizes),
      find?_codeLengths_eq_some h1 h15 (p := tooWide lens) (decide_eq_true hl) fun m hm hlt => decide_eq_false (hfirst m hm hlt),
      Option.elim_some]
  · rw [buildSlot_eq (hmany fun m h1 h15 => (h m h1 h15).1),
      (find?_codeLengths_eq_none (p := tooWide lens)).2 fun m h1 h15 => decide_eq_false (h m h1 h15).2, Option.elim_none]

end Sys2Proof.Machine
end

section
/-! SUPPORT. The slow path of the decoder: codes of more than 9 bits, and bits that begin no code (41_huffman_decoder.md R164, R165,
R167). -/

namespace Sys2Proof.Machine

/-! ### Reversed bits -/

theorem bitrev_mod (v n : Nat) : bitrev (v % 2 ^ n) n = bitrev v n := by
  have h := congrArg bitsValue (congrArg List.reverse (emit_mod v n n le_rfl))
  rwa [← emit_bitrev, ← emit_bitrev, bitsValue_emit, bitsValue_emit, Nat.mod_eq_of_lt (bitrev_lt _ _),
    Nat.mod_eq_of_lt (bitrev_lt _ _)] at h

theorem bitrev_bitrev (v n : Nat) : bitrev (bitrev v n) n = v % 2 ^ n := by
  have h := congrArg bitsValue (emit_bitrev (bitrev v n) n)
  rwa [emit_bitrev v n, List.reverse_reverse, bitsValue_emit, bitsValue_emit, Nat.mod_eq_of_lt (bitrev_lt _ _)] at h

/-- The first `l` of `n` reversed bits are the low `l` bits reversed. -/
theorem bitrev_div {l n : Nat} (v : Nat) (h : l ≤ n) : bitrev v n / 2 ^ (n - l) = bitrev v l := by
  induction l generalizing v n with
  | zero => exact Nat.div_eq_of_lt (bitrev_lt v n)
  | succ l ih =>
    obtain ⟨n, rfl⟩ := Nat.exists_eq_add_of_le' (Nat.le_trans (Nat.le_add_left 1 l) h)
    have hpow : 2 ^ n = 2 ^ l * 2 ^ (n - l) := by rw [← pow_add, Nat.add_sub_cancel' (by omega)]
    rw [bitrev, bitrev, Nat.add_sub_add_right, hpow, ← Nat.mul_assoc, Nat.mul_comm, Nat.mul_add_div (Nat.two_pow_pos _),
      ih (v / 2) (by omega)]

theorem bitrev_eq_iff {v c n : Nat} (hc : c < 2 ^ n) : bitrev v n = c ↔ v % 2 ^ n = bitrev c n := by
  constructor
  · rintro rfl
    rw [bitrev_bitrev]
  · intro h
    rw [← bitrev_mod, h, bitrev_bitrev, Nat.mod_eq_of_lt hc]

theorem emit_eq_iff {v w n : Nat} : emit v n = emit w n ↔ v % 2 ^ n = w % 2 ^ n := by
  constructor
  · intro h
    rw [← bitsValue_emit, h, bitsValue_emit]
  · intro h
    rw [← emit_mod v n n le_rfl, h, emit_mod w n n le_rfl]

/-- The first bits of a sequence are the low bits of the 16 peeked (40_bitstream_reader.md R144). -/
theorem emit_peeked {l : Nat} {bits : List Bool} (h16 : l ≤ 16) (hl : l ≤ bits.length) :
    emit (bitsValue (bits.take 16)) l = bits.take l := by
  have hmin : (bits.take 16).length = min 16 bits.length := List.length_take
  rw [← emit_take _ (bits.take 16).length l (by omega), emit_bitsValue, List.take_take, Nat.min_eq_left h16]

/-! ### Ranks -/

theorem lt_length_of_getD_ne {lens : List Nat} {i : Nat} (h : lens.getD i 0 ≠ 0) : i < lens.length := by
  by_contra hi
  exact h (List.getD_eq_default _ _ (by omega))

/-- The rank of symbol `i` among the used symbols, by length and then by number (41_huffman_decoder.md R164). -/
def canonicalRank (lens : List Nat) (i : Nat) : Nat :=
  firstRank lens (lens.getD i 0) + (lens.take i).count (lens.getD i 0)

/-- In its class a symbol is as far from the first rank as its code is from the first code. -/
theorem canonicalRank_add (lens : List Nat) (i : Nat) :
    canonicalRank lens i + canonicalFirst lens (lens.getD i 0) = canonicalCode lens i + firstRank lens (lens.getD i 0) := by
  rw [canonicalRank, canonicalCode]
  omega

section
variable {lens : List Nat} {i j : Nat}

theorem canonicalRank_lt (h0 : lens.getD i 0 ≠ 0) : canonicalRank lens i < firstRank lens (lens.getD i 0 + 1) := by
  rw [firstRank_succ lens (by omega)]
  exact Nat.add_lt_add_left (count_take_lt (lt_length_of_getD_ne h0)) _

theorem canonicalRank_lt_length (h0 : lens.getD i 0 ≠ 0) : canonicalRank lens i < lens.length :=
  Nat.lt_of_lt_of_le (canonicalRank_lt h0) (firstRank_le_length lens _)

/-- A shorter code has a lower rank. -/
theorem canonicalRank_lt_of_shorter (h0 : lens.getD i 0 ≠ 0) (h : lens.getD i 0 < lens.getD j 0) :
    canonicalRank lens i < canonicalRank lens j :=
  calc canonicalRank lens i < firstRank lens (lens.getD i 0 + 1) := canonicalRank_lt h0
    _ ≤ firstRank lens (lens.getD j 0) := firstRank_mono lens h
    _ ≤ canonicalRank lens j := Nat.le_add_right _ _

/-- Two used symbols have two ranks. -/
theorem canonicalRank_inj (hi : lens.getD i 0 ≠ 0) (hj : lens.getD j 0 ≠ 0) (h : canonicalRank lens i = canonicalRank lens j) :
    i = j := by
  rcases Nat.lt_trichotomy (lens.getD i 0) (lens.getD j 0) with hl | hl | hl
  · have := canonicalRank_lt_of_shorter hi hl
    omega
  · have ai := canonicalRank_add lens i
    have aj := canonicalRank_add lens j
    rw [hl] at ai
    rcases Nat.lt_trichotomy i j with hij | hij | hij
    · have := canonicalCode_ne hij (lt_length_of_getD_ne hj) hl
      omega
    · exact hij
    · have := canonicalCode_ne hij (lt_length_of_getD_ne hi) hl.symm
      omega
  · have := canonicalRank_lt_of_shorter hj hl
    omega

end

/-! ### The list of codes -/

/-- The entry of symbol `i` in the list of codes. -/
def symbolCode (lens : List Nat) (i : Nat) : SymbolCode :=
  ⟨i, lens.getD i 0, canonicalRank lens i, bitrev (canonicalCode lens i) (lens.getD i 0)⟩

theorem getD_codeLengths_map {α : Type} (f : Nat → α) (d : α) {l : Nat} (h1 : 1 ≤ l) (h15 : l ≤ 15) :
    (codeLengths.map f).getD (l - 1) d = f l := by
  rw [codeLengths_eq_range', List.getD_eq_getElem _ _ (by simp; omega), List.getElem_map, List.getElem_range',
    show 1 + 1 * (l - 1) = l by omega]

/-- A fold that keeps the last hit: what it starts from where there is none, else what some hit gives. -/
theorem foldl_ite_cases {α β : Type} (p : α → Prop) [DecidablePred p] (g : α → β) (l : List α) (d : β) :
    ((∀ c ∈ l, ¬ p c) ∧ l.foldl (fun x c => if p c then g c else x) d = d) ∨
      ∃ c ∈ l, p c ∧ l.foldl (fun x c => if p c then g c else x) d = g c := by
  induction l using List.reverseRecOn with
  | nil => exact .inl ⟨by simp, rfl⟩
  | append_singleton l c ih =>
    rw [List.foldl_concat]
    by_cases hc : p c
    · rw [if_pos hc]
      exact .inr ⟨c, by simp, hc, rfl⟩
    · rw [if_neg hc]
      obtain ⟨hno, hd⟩ | ⟨b, hb, hp, hg⟩ := ih
      · exact .inl ⟨fun b hb => (by simpa using hb : b ∈ l ∨ b = c).elim (hno b) fun h => h ▸ hc, hd⟩
      · exact .inr ⟨b, by simp [hb], hp, hg⟩

section
variable {lens : List Nat} (hlen : ∀ l ∈ lens, l ≤ 15)
include hlen

theorem getD_le_of_forall_mem_le (i : Nat) : lens.getD i 0 ≤ 15 := by
  by_cases hi : i < lens.length
  · rw [List.getD_eq_getElem _ _ hi]
    exact hlen _ (List.getElem_mem hi)
  · rw [List.getD_eq_default _ _ (by omega)]
    omega

/-- The list holds the code of each used symbol. -/
theorem mem_canonicalCodes {c : SymbolCode} : c ∈ canonicalCodes lens ↔ ∃ j, lens.getD j 0 ≠ 0 ∧ c = symbolCode lens j := by
  rw [canonicalCodes, List.map_map, mem_symbolCodes lens 0 (by simpa [codeLengths] using hlen)]
  have hentry : ∀ j, lens.getD j 0 ≠ 0 →
      (let l := lens.getD j 0
       let code := (codeLengths.map ((·.firstcode) ∘ canonicalClass lens)).getD (l - 1) 0 + (lens.take j).count l
       let d := (codeLengths.map (canonicalClass lens)).getD (l - 1) ⟨0, 0, 0⟩
       (⟨0 + j, l, code - d.firstcode + d.firstsymbol, bitrev code l⟩ : SymbolCode)) = symbolCode lens j := by
    intro j h0
    have h15 := getD_le_of_forall_mem_le hlen j
    dsimp only
    rw [getD_codeLengths_map _ _ (by omega) h15, getD_codeLengths_map _ _ (by omega) h15, symbolCode, Nat.zero_add, canonicalRank,
      Nat.add_comm (firstRank _ _)]
    dsimp only [Function.comp, canonicalClass]
    rw [Nat.add_sub_cancel_left, canonicalCode]
  constructor
  · rintro ⟨j, -, h0, rfl⟩
    exact ⟨j, h0, hentry j h0⟩
  · rintro ⟨j, h0, rfl⟩
    exact ⟨j, lt_length_of_getD_ne h0, h0, (hentry j h0).symm⟩

/-- What the arrays indexed by rank hold at the rank of a used symbol. -/
theorem foldl_canonicalRank (g : SymbolCode → Nat) {i : Nat} (h0 : lens.getD i 0 ≠ 0) :
    (canonicalCodes lens).foldl (fun x c => if c.rank = canonicalRank lens i then g c else x) 0 = g (symbolCode lens i) := by
  obtain ⟨hno, -⟩ | ⟨c, hc, hrank, heq⟩ := foldl_ite_cases (fun c => c.rank = canonicalRank lens i) g (canonicalCodes lens) 0
  · exact absurd rfl (hno (symbolCode lens i) ((mem_canonicalCodes hlen).2 ⟨i, h0, rfl⟩))
  · obtain ⟨j, hj, rfl⟩ := (mem_canonicalCodes hlen).1 hc
    obtain rfl := canonicalRank_inj hj h0 hrank
    exact heq

theorem valueEntry_canonicalRank {i : Nat} (h0 : lens.getD i 0 ≠ 0) :
    valueEntry (canonicalCodes lens) (canonicalRank lens i) = i :=
  foldl_canonicalRank hlen (·.symbol) h0

theorem sizeEntry_canonicalRank {i : Nat} (h0 : lens.getD i 0 ≠ 0) :
    sizeEntry (canonicalCodes lens) (canonicalRank lens i) = lens.getD i 0 :=
  foldl_canonicalRank hlen (·.length) h0

/-- A size that is not 0 is the code length of the used symbol of that rank. -/
theorem sizeEntry_cases (r : Nat) : sizeEntry (canonicalCodes lens) r = 0 ∨
    ∃ j, lens.getD j 0 ≠ 0 ∧ canonicalRank lens j = r ∧ sizeEntry (canonicalCodes lens) r = lens.getD j 0 := by
  obtain ⟨-, h⟩ | ⟨c, hc, hrank, heq⟩ := foldl_ite_cases (fun c : SymbolCode => c.rank = r) (·.length) (canonicalCodes lens) 0
  · exact .inl h
  · obtain ⟨j, hj, rfl⟩ := (mem_canonicalCodes hlen).1 hc
    exact .inr ⟨j, hj, hrank, heq⟩

end

/-! ### The arrays of the slot -/

theorem getD_toList_ofFn {n : Nat} {α : Type} (f : Fin n → α) (d : α) {i : Nat} (h : i < n) :
    (Vector.ofFn f).toList.getD i d = f ⟨i, h⟩ := by
  rw [List.getD_eq_getElem _ _ (by simpa using h), Vector.getElem_toList, Vector.getElem_ofFn]

/-- Code lengths whose classes all fit (41_huffman_decoder.md R160, R163). -/
structure Fitting (lens : List Nat) : Prop where
  few : lens.length ≤ 288
  short : ∀ l ∈ lens, l ≤ 15
  fits : ∀ l, 1 ≤ l → l ≤ 15 → canonicalFirst lens l + lens.count l ≤ 2 ^ l

/-- An empty class fits where the class before it does. -/
theorem fitting_of_buildSlot {lens : List Nat} {h : Huff} (hn : lens.length ≤ 288) (hlen : ∀ l ∈ lens, l ≤ 15)
    (hb : buildSlot lens = .ok h) : Fitting lens := by
  obtain ⟨hfit, -⟩ := buildSlot_ok hlen hb
  refine ⟨hn, hlen, fun l h1 => ?_⟩
  induction l, h1 using Nat.le_induction with
  | base =>
    intro h15
    by_cases hc : lens.count 1 = 0
    · rw [hc]
      exact Nat.zero_le _
    · exact hfit 1 le_rfl h15 hc
  | succ l h1 ih =>
    intro h15
    by_cases hc : lens.count (l + 1) = 0
    · rw [canonicalFirst_succ lens h1, hc, pow_succ, Nat.add_zero, Nat.mul_comm]
      exact Nat.mul_le_mul_right 2 (ih (by omega))
    · exact hfit (l + 1) (by omega) h15 hc

section
variable {lens : List Nat} (fit : Fitting lens) {l r i : Nat}
include fit

theorem Fitting.canonicalCode_lt_two_pow (h0 : lens.getD i 0 ≠ 0) : canonicalCode lens i < 2 ^ lens.getD i 0 :=
  Nat.lt_of_lt_of_le (canonicalCode_lt (lt_length_of_getD_ne h0))
    (fit.fits _ (by omega) (getD_le_of_forall_mem_le fit.short i))

theorem Fitting.firstcode (h1 : 1 ≤ l) (h15 : l ≤ 15) :
    ((canonicalSlot lens).firstcode.toList.getD (l - 1) 0).toNat = canonicalFirst lens l := by
  have hfit := fit.fits l h1 h15
  have hpow : 2 ^ l ≤ 2 ^ 15 := Nat.pow_le_pow_right (by omega) h15
  rw [canonicalSlot, slotOf, getD_toList_ofFn _ _ (by omega), getD_codeLengths_map _ _ h1 h15, BitVec.toNat_ofNat]
  exact Nat.mod_eq_of_lt (show canonicalFirst lens l < 2 ^ 16 by omega)

theorem Fitting.firstsymbol (h1 : 1 ≤ l) (h15 : l ≤ 15) :
    ((canonicalSlot lens).firstsymbol.toList.getD (l - 1) 0).toNat = firstRank lens l := by
  have hle := (firstRank_le_length lens l).trans fit.few
  rw [canonicalSlot, slotOf, getD_toList_ofFn _ _ (by omega), getD_codeLengths_map _ _ h1 h15, BitVec.toNat_ofNat]
  exact Nat.mod_eq_of_lt (show firstRank lens l < 2 ^ 16 by omega)

theorem Fitting.maxcode (h1 : 1 ≤ l) (h15 : l ≤ 15) : ((canonicalSlot lens).maxcode.toList.getD (l - 1) 0).toNat =
    (canonicalFirst lens l + lens.count l) * 2 ^ (16 - l) := by
  have hle : (canonicalFirst lens l + lens.count l) * 2 ^ (16 - l) ≤ 65536 :=
    calc (canonicalFirst lens l + lens.count l) * 2 ^ (16 - l) ≤ 2 ^ l * 2 ^ (16 - l) := Nat.mul_le_mul_right _ (fit.fits l h1 h15)
      _ = 2 ^ 16 := by rw [← pow_add, Nat.add_sub_cancel' (by omega)]
  rw [canonicalSlot, slotOf, getD_toList_ofFn _ _ (by omega), if_neg (by dsimp only; omega), getD_codeLengths_map _ _ h1 h15,
    BitVec.toNat_ofNat]
  exact Nat.mod_eq_of_lt (show (canonicalFirst lens l + lens.count l) * 2 ^ (16 - l) < 2 ^ 17 by omega)

theorem Fitting.size (hr : r < 288) : ((canonicalSlot lens).size.toList.getD r 0).toNat = sizeEntry (canonicalCodes lens) r := by
  have hle : sizeEntry (canonicalCodes lens) r ≤ 15 := by
    obtain h | ⟨j, -, -, h⟩ := sizeEntry_cases fit.short r
    · omega
    · exact h ▸ getD_le_of_forall_mem_le fit.short j
  rw [canonicalSlot, slotOf, getD_toList_ofFn _ _ hr, BitVec.toNat_ofNat]
  exact Nat.mod_eq_of_lt (show sizeEntry (canonicalCodes lens) r < 2 ^ 8 by omega)

theorem Fitting.value (h0 : lens.getD i 0 ≠ 0) :
    ((canonicalSlot lens).value.toList.getD (canonicalRank lens i) 0).toNat = i := by
  have hr := (canonicalRank_lt_length h0).trans_le fit.few
  have hi := (lt_length_of_getD_ne h0).trans_le fit.few
  rw [canonicalSlot, slotOf, getD_toList_ofFn _ _ hr, BitVec.toNat_ofNat, valueEntry_canonicalRank fit.short h0,
    Nat.mod_eq_of_lt (by omega)]

end

end Sys2Proof.Machine
end

section
/-! SUPPORT. `hb_decode` on every accepted set of code lengths: a code of any length is read, and bits that begin no code are rejected
(41_huffman_decoder.md R165 to R167). -/

namespace Sys2Proof.Machine

/-! ### Which symbol the peeked bits begin with -/

/-- The peeked bits `p`, read from bit 0 upward, begin with the code of symbol `i`. -/
def BeginsCode (lens : List Nat) (p i : Nat) : Prop := bitrev p (lens.getD i 0) = canonicalCode lens i

/-- The bits begin with at most one code. -/
theorem beginsCode_unique {lens : List Nat} {p i j : Nat} (hi : lens.getD i 0 ≠ 0) (hj : lens.getD j 0 ≠ 0)
    (bi : BeginsCode lens p i) (bj : BeginsCode lens p j) : i = j := by
  have shorter : ∀ {a b}, lens.getD a 0 ≠ 0 → lens.getD b 0 ≠ 0 → BeginsCode lens p a → BeginsCode lens p b →
      lens.getD a 0 ≤ lens.getD b 0 → a = b := fun {a b} ha hb ba bb hle =>
    canonicalCode_prefixFree (lt_length_of_getD_ne ha) (lt_length_of_getD_ne hb) (by omega) hle
      (by rw [← bb, bitrev_div p hle, ba])
  rcases Nat.le_total (lens.getD i 0) (lens.getD j 0) with hle | hle
  · exact shorter hi hj bi bj hle
  · exact (shorter hj hi bj bi hle).symm

section
variable {lens : List Nat} (fit : Fitting lens) {p i : Nat}
include fit

theorem Fitting.beginsCode_iff (h0 : lens.getD i 0 ≠ 0) :
    BeginsCode lens p i ↔ p % 2 ^ lens.getD i 0 = bitrev (canonicalCode lens i) (lens.getD i 0) :=
  bitrev_eq_iff (fit.canonicalCode_lt_two_pow h0)

/-- Where at least so many bits are ahead, they begin with a code just where the 16 peeked do. -/
theorem Fitting.take_eq_codeBits_iff {bits : List Bool} (h0 : lens.getD i 0 ≠ 0) (hl : lens.getD i 0 ≤ bits.length) :
    bits.take (lens.getD i 0) = codeBits lens i ↔ BeginsCode lens (bitsValue (bits.take 16)) i := by
  have h15 := getD_le_of_forall_mem_le fit.short i
  rw [fit.beginsCode_iff h0, ← emit_peeked (by omega) hl, codeBits, emit_eq_iff, Nat.mod_eq_of_lt (bitrev_lt _ _)]

/-- The fast table has no entry for bits that begin no code of at most 9 bits. -/
theorem Fitting.fast_eq_zero (h : ∀ j, lens.getD j 0 ≠ 0 → lens.getD j 0 ≤ 9 → ¬ BeginsCode lens p j) :
    ((canonicalSlot lens).fast.toList.getD (p % 512) 0).toNat = 0 := by
  have hentry : fastEntry (canonicalCodes lens) (p % 512) = 0 := by
    obtain ⟨-, h0⟩ | ⟨c, hc, ⟨h9, hlow⟩, -⟩ := foldl_ite_cases
      (fun c : SymbolCode => c.length ≤ 9 ∧ p % 512 % 2 ^ c.length = c.reversed) (fun c => c.length * 512 + c.symbol)
      (canonicalCodes lens) 0
    · exact h0
    · obtain ⟨j, hj, rfl⟩ := (mem_canonicalCodes fit.short).1 hc
      refine absurd ((fit.beginsCode_iff hj).2 ?_) (h j hj h9)
      rwa [show 512 = 2 ^ 9 by rfl, Nat.mod_mod_of_dvd _ (pow_dvd_pow 2 h9)] at hlow
  rw [canonicalSlot, slotOf, getD_toList_ofFn _ _ (Nat.mod_lt p (by decide)), hentry]
  rfl

end

/-! ### The slow path -/

theorem slowClass_eq_of {h : Huff} {k l : Nat} (h10 : 10 ≤ l) (h15 : l ≤ 15)
    (hlt : k < (h.maxcode.toList.getD (l - 1) 0).toNat)
    (hge : ∀ m, 10 ≤ m → m < l → (h.maxcode.toList.getD (m - 1) 0).toNat ≤ k) : slowClass h k = l := by
  have hfind : (List.range' 10 7).find? (fun s => decide (k < (h.maxcode.toList.getD (s - 1) 0).toNat)) = some l :=
    List.find?_range'_eq_some.2 ⟨decide_eq_true hlt, List.mem_range'_1.2 ⟨h10, by omega⟩, fun m hm hml => by
      rw [decide_eq_false (Nat.not_lt.2 (hge m hm hml))]; rfl⟩
  rw [slowClass, show [10, 11, 12, 13, 14, 15, 16] = List.range' 10 7 from rfl, hfind]

theorem slowClass_mem (h : Huff) (k : Nat) : 10 ≤ slowClass h k ∧ slowClass h k ≤ 16 := by
  rw [slowClass]
  split
  · rename_i s hs
    exact (show ∀ s ∈ [10, 11, 12, 13, 14, 15, 16], 10 ≤ s ∧ s ≤ 16 by decide) s (List.mem_of_find?_eq_some hs)
  · decide

section
variable {lens : List Nat} (fit : Fitting lens) {p i s : Nat}
include fit

/-- The scan of the classes stops at the length of the code. -/
theorem Fitting.slowClass_eq (h9 : 9 < lens.getD i 0) (hb : BeginsCode lens p i) :
    slowClass (canonicalSlot lens) (bitrev p 16) = lens.getD i 0 := by
  have h15 := getD_le_of_forall_mem_le fit.short i
  have hcode : bitrev p 16 / 2 ^ (16 - lens.getD i 0) = canonicalCode lens i := by rw [bitrev_div p (by omega), hb]
  refine slowClass_eq_of h9 h15 ?_ fun m h10 hm => ?_
  · rw [fit.maxcode (by omega) h15, ← Nat.div_lt_iff_lt_mul (Nat.two_pow_pos _), hcode]
    exact canonicalCode_lt (lt_length_of_getD_ne (by omega))
  · obtain ⟨k, hk⟩ := Nat.exists_eq_add_of_lt hm
    have hfirst : (canonicalFirst lens m + lens.count m) * 2 ^ (k + 1) ≤ canonicalCode lens i :=
      (canonicalFirst_ge lens (by omega) k).trans (by rw [← Nat.add_assoc, ← hk]; exact Nat.le_add_right _ _)
    rw [fit.maxcode (by omega) (by omega), show 16 - m = k + 1 + (16 - lens.getD i 0) by omega, pow_add, ← Nat.mul_assoc]
    exact (Nat.mul_le_mul_right _ hfirst).trans ((Nat.le_div_iff_mul_le (Nat.two_pow_pos _)).1 hcode.ge)

/-- The rank that the slow path computes in class `s`. -/
theorem Fitting.slowRank_eq (h1 : 1 ≤ s) (h15 : s ≤ 15) : slowRank (canonicalSlot lens) (bitrev p 16) s =
    (bitrev p s : Int) - canonicalFirst lens s + firstRank lens s := by
  rw [slowRank, fit.firstcode h1 h15, fit.firstsymbol h1 h15, ← bitrev_div p (show s ≤ 16 by omega)]
  push_cast
  rfl

/-- It is the rank of a symbol of that length just where the bits begin with its code. -/
theorem Fitting.slowRank_eq_iff (h0 : lens.getD i 0 ≠ 0) :
    slowRank (canonicalSlot lens) (bitrev p 16) (lens.getD i 0) = canonicalRank lens i ↔ BeginsCode lens p i := by
  have hrank := canonicalRank_add lens i
  rw [fit.slowRank_eq (by omega) (getD_le_of_forall_mem_le fit.short i), BeginsCode]
  omega

end

section
variable {h : Huff} {t p s r : Nat} {e f : Eng} (hslot : e.slot t = h) (hv : h.valid = true) (hp : brPeek16 e = .ok p f)
  (hfast : (h.fast.toList.getD (p % 512) 0).toNat = 0)
include hslot hv hp hfast

/-- The slow path finds a code. -/
theorem hbDecode_slow (hs : slowClass h (bitrev p 16) = s) (h16 : s ≠ 16) (hr : slowRank h (bitrev p 16) s = r) (hlt : r < 288)
    (hsize : (h.size.toList.getD r 0).toNat = s) :
    hbDecode t e = (brConsume s >>= fun _ => pure (h.value.toList.getD r 0).toNat) f := by
  subst hslot
  rw [hbDecode, getE_bind, ensure_bind hv, EngM.bind_ok hp]
  dsimp only
  rw [EngM.ite_run, if_neg (not_not.2 hfast), hs, ensure_bind (decide_eq_true h16), hr, Int.toNat_natCast,
    ensure_bind (decide_eq_true ⟨Int.natCast_nonneg r, by omega, hsize⟩)]

/-- The slow path finds no code: no class is reached, or the recorded length disagrees. -/
theorem hbDecode_rejects
    (hno : ∀ s r : Nat, slowClass h (bitrev p 16) = s → s ≠ 16 → slowRank h (bitrev p 16) s = r → r < 288 →
      (h.size.toList.getD r 0).toNat ≠ s) : hbDecode t e = .error (.raise 0x0301 0) f := by
  subst hslot
  rw [hbDecode, getE_bind, ensure_bind hv, EngM.bind_ok hp]
  dsimp only
  rw [EngM.ite_run, if_neg (not_not.2 hfast)]
  by_cases h16 : slowClass (e.slot t) (bitrev p 16) = 16
  · rw [ensure_bind_fails (decide_eq_false (not_not.2 h16))]
  · rw [ensure_bind (decide_eq_true h16), ensure_bind_fails (decide_eq_false ?_)]
    rintro ⟨hnn, hlt, hsize⟩
    obtain ⟨r, hr⟩ := Int.eq_ofNat_of_zero_le hnn
    rw [hr] at hlt hsize
    exact hno _ r rfl h16 hr (by omega) hsize

end

/-! ### Reading and rejecting -/

section
variable {lens : List Nat} (fit : Fitting lens)
include fit

/-- A canonical code of more than 9 bits decodes to its symbol. -/
theorem Fitting.reads_slow {i : Nat} (h9 : 9 < lens.getD i 0) : (canonicalSlot lens).Reads i (codeBits lens i) := by
  intro t e rest hslot c hbits
  have h15 := getD_le_of_forall_mem_le fit.short i
  have h0 : lens.getD i 0 ≠ 0 := by omega
  have hcl : (codeBits lens i).length = lens.getD i 0 := emit_length _ _
  have hahead : lens.getD i 0 ≤ e.bitsAhead.length := by rw [hbits, List.length_append, hcl]; exact Nat.le_add_right _ _
  have hbegin : BeginsCode lens (bitsValue (e.bitsAhead.take 16)) i :=
    (fit.take_eq_codeBits_iff h0 hahead).1 (by rw [hbits, List.take_left' hcl])
  have hrank := (canonicalRank_lt_length h0).trans_le fit.few
  obtain ⟨f, hf, ro, cf, hfb, hnb⟩ := brPeek16_ok c
  obtain ⟨g, hg, rg, cg, hgb, -, -⟩ := brConsume_ok (n := lens.getD i 0) (by omega) cf
  refine ⟨g, ?_, ro.trans rg, cg, by rw [hgb, hfb, hbits, List.drop_left' hcl]⟩
  have hfast := fit.fast_eq_zero (p := bitsValue (e.bitsAhead.take 16)) fun j hj h9' hbj => by
    obtain rfl := beginsCode_unique hj h0 hbj hbegin
    omega
  rw [hbDecode_slow hslot rfl hf hfast (fit.slowClass_eq h9 hbegin) (by omega) ((fit.slowRank_eq_iff h0).2 hbegin) hrank
    (by rw [fit.size hrank, sizeEntry_canonicalRank fit.short h0]), EngM.bind_ok hg, EngM.pure_run, fit.value h0]

/-- Every canonical code decodes to its symbol, by the fast table or the slow path. -/
theorem Fitting.reads (hb : buildSlot lens = .ok (canonicalSlot lens)) {i : Nat} (h0 : lens.getD i 0 ≠ 0) :
    (canonicalSlot lens).Reads i (codeBits lens i) := by
  by_cases h9 : lens.getD i 0 ≤ 9
  · have hi := lt_length_of_getD_ne h0
    exact buildSlot_reads fit.short hb hi h0 h9 (by have := fit.few; omega)
  · exact fit.reads_slow (by omega)

/-- At least 16 bits that begin no code are rejected. -/
theorem Fitting.rejects {t : Nat} {e : Eng} (hslot : e.slot t = canonicalSlot lens) (c : CanRead e)
    (h16 : 16 ≤ e.bitsAhead.length) (hno : ∀ i, lens.getD i 0 ≠ 0 → e.bitsAhead.take (lens.getD i 0) ≠ codeBits lens i) :
    ∃ f, hbDecode t e = .error (.raise 0x0301 0) f ∧ ReadsOn e f := by
  have hnone : ∀ i, lens.getD i 0 ≠ 0 → ¬ BeginsCode lens (bitsValue (e.bitsAhead.take 16)) i := fun i h0 hb => by
    have h15 := getD_le_of_forall_mem_le fit.short i
    exact hno i h0 ((fit.take_eq_codeBits_iff h0 (by omega)).2 hb)
  obtain ⟨f, hf, ro, -, -, -⟩ := brPeek16_ok c
  refine ⟨f, hbDecode_rejects hslot rfl hf (fit.fast_eq_zero fun j hj _ => hnone j hj) fun s r hs hs16 hr hlt hsize => ?_, ro⟩
  obtain ⟨h10, hle⟩ := slowClass_mem (canonicalSlot lens) (bitrev (bitsValue (e.bitsAhead.take 16)) 16)
  rw [fit.size hlt] at hsize
  obtain hzero | ⟨j, hj, hrank, hlength⟩ := sizeEntry_cases fit.short r
  · omega
  · obtain rfl : lens.getD j 0 = s := hlength.symm.trans hsize
    exact hnone j hj ((fit.slowRank_eq_iff hj).1 (by rw [hr, hrank]))

end

end Sys2Proof.Machine
end

section
/-! SUPPORT. HT_BUILD, HT_DECODE and HT_FIXED, and the obligations on them (41_huffman_decoder.md R168 to R170). -/

namespace Sys2Proof.Machine

/-- A failure of class 6 of a unit command that has changed nothing but the regions leaves the engine as it was (60_exceptions.md
R414). -/
theorem untouched_fail_operand (s : State) {code : Nat} (info : Nat) (rs : List Region) (hc : code / 256 = 6)
    (hw : s.start.written = []) : Untouched s.start (s.fail .unit code info { s.entry [] with regions := rs }).eng := by
  have hkeep : failClearsUnits .unit code = false := decide_eq_false (not_not.2 hc)
  have hmem : SameMem s.start (s.fail .unit code info { s.entry [] with regions := rs }).eng :=
    sameMem_fail (f := { s.entry [] with regions := rs }) s hw
  rw [State.fail_eng, hkeep] at hmem ⊢
  exact ⟨⟨⟨rfl, rfl⟩, rfl, ⟨rfl, rfl, rfl⟩, rfl⟩, ⟨rfl, rfl, rfl⟩, hmem⟩

/-! ### HT_DECODE (41_huffman_decoder.md R169) -/

/-- A slot that is not valid is not read (41_huffman_decoder.md R166). -/
theorem hbDecode_invalid {t : Nat} {e : Eng} (h : (e.slot t).valid = false) :
    hbDecode t e = .error (.raise 0x0603 (0x10 + t)) e := by
  rw [hbDecode, getE_bind, ensure_bind_fails h]

/-- HT_DECODE is `hb_decode` after its checks. -/
theorem htDecodeBody_eq {slot : Nat} {e f : Eng} (c : Snapshot) (hs : slot < 3) (hv : e.br.valid = true)
    (huse : useSource e = .ok () f) : htDecodeBody slot c e = (hbDecode slot >>= fun v => pure ⟨v, 0, 0, 0⟩) f := by
  rw [htDecodeBody, ensure_bind (decide_eq_true hs), EngM.bind_ok (needBits_ok hv), EngM.bind_ok huse]

section
variable {s : State} {slot : Nat} (ready : s.Ready []) (hs : slot < 3)
include ready hs

theorem htDecode_fails_invalid (hv : s.start.br.valid = true) (hslot : (s.start.slot slot).valid = false) :
    ∃ t, exec (.htDecode slot) s = .next t ∧ Failed s t 0x0603 (BitVec.ofNat 32 (16 + slot)) ∧ Untouched s.start t.eng := by
  obtain ⟨rs, huse⟩ := useSource_ok (e := s.entry []) ready.placed
  obtain ⟨hx, hf⟩ := ready.fails (i := .htDecode slot) rfl
    ((htDecodeBody_eq (e := s.entry []) s.running.snap hs hv huse).trans (EngM.bind_error (hbDecode_invalid hslot)))
    ⟨ready.live, ready.srcReq, ready.allocReq⟩ rfl (by omega)
  exact ⟨_, hx, hf, untouched_fail_operand s _ rs rfl ready.written⟩

variable {lens : List Nat} (fit : Fitting lens) (hslot : s.start.slot slot = canonicalSlot lens) (reads : CanRead s.start)
include fit hslot reads

/-- HT_DECODE at a canonical code. -/
theorem htDecode_completes (hb : buildSlot lens = .ok (canonicalSlot lens)) {i : Nat} (h0 : lens.getD i 0 ≠ 0)
    (h : s.start.bitsAhead.take (lens.getD i 0) = codeBits lens i) :
    ∃ t, exec (.htDecode slot) s = .next t ∧ Completed s t (BitVec.ofNat 32 i) 0 0 0 ∧
      t.eng.bitsAhead = s.start.bitsAhead.drop (lens.getD i 0) ∧ t.eng.br.valid = true ∧
      t.eng.bs = { s.start.bs with pos := t.eng.bs.pos } ∧ SameSlots s.start t.eng ∧ t.eng.inf = s.start.inf ∧
      SamePorts s.start t.eng ∧ SameMem s.start t.eng := by
  obtain ⟨rs, huse⟩ := useSource_ok (e := s.entry []) ready.placed
  obtain ⟨f, hf, ro, cf, hbits⟩ := fit.reads hb h0 slot { s.entry [] with regions := rs }
    (s.start.bitsAhead.drop (lens.getD i 0)) hslot ⟨reads.valid, reads.reader, reads.source, reads.mode⟩
    (by rw [← h]; exact (List.take_append_drop _ _).symm)
  obtain ⟨br, pos, eof, rfl⟩ := ro.fields
  have hi := (lt_length_of_getD_ne h0).trans_le fit.few
  obtain ⟨hx, hc⟩ := ready.completes (i := .htDecode slot) rfl
    ((htDecodeBody_eq (e := s.entry []) s.running.snap hs reads.valid huse).trans (EngM.bind_ok hf))
    ⟨ready.live, ready.srcReq, ready.allocReq⟩ rfl (by omega) (by decide)
  exact ⟨_, hx, hc, hbits, cf.valid, rfl, ⟨rfl, rfl, rfl⟩, rfl, ⟨rfl, rfl, rfl⟩, fun _ => rfl⟩

/-- HT_DECODE at bits that begin no code. -/
theorem htDecode_fails_noCode (h16 : 16 ≤ s.start.bitsAhead.length)
    (hno : ∀ i, lens.getD i 0 ≠ 0 → s.start.bitsAhead.take (lens.getD i 0) ≠ codeBits lens i) :
    ∃ t, exec (.htDecode slot) s = .next t ∧ Failed s t 0x0301 0 ∧ UnitsInvalid t.eng ∧ SameMem s.start t.eng := by
  obtain ⟨rs, huse⟩ := useSource_ok (e := s.entry []) ready.placed
  obtain ⟨f, hf, ro⟩ := fit.rejects (t := slot) (e := { s.entry [] with regions := rs }) hslot
    ⟨reads.valid, reads.reader, reads.source, reads.mode⟩ h16 hno
  obtain ⟨br, pos, eof, rfl⟩ := ro.fields
  obtain ⟨hx, hc⟩ := ready.fails (i := .htDecode slot) rfl
    ((htDecodeBody_eq (e := s.entry []) s.running.snap hs reads.valid huse).trans (EngM.bind_error hf))
    ⟨ready.live, ready.srcReq, ready.allocReq⟩ rfl (by decide)
  exact ⟨_, hx, hc, unitsInvalid_fail_unit s 0 (by decide) _, sameMem_fail s ready.written⟩

end

/-- Settles O35: a built slot is the canonical one, whose tables lead every code, and no other bits, to its symbol. -/
theorem htDecodeReadsCanonicalCodes : Obligations.HtDecodeReadsCanonicalCodes := by
  unfold Obligations.HtDecodeReadsCanonicalCodes
  refine ⟨?_, fun s slot ready hs hv hslot => htDecode_fails_invalid ready hs hv hslot⟩
  intro s slot lens h ready hs hv hr hsrc hm hn hlen hb hslot codeBits
  have fit := fitting_of_buildSlot hn hlen hb
  obtain rfl := buildSlot_ok_eq hb
  have reads : CanRead s.start := ⟨hv, hr, hsrc, hm⟩
  exact ⟨fun i _ h0 hcode => htDecode_completes ready hs fit hslot reads hb h0 hcode,
    fun h16 hno => htDecode_fails_noCode ready hs fit hslot reads h16 fun i h0 => hno i (lt_length_of_getD_ne h0) h0⟩

/-! ### HT_BUILD (41_huffman_decoder.md R168) -/

section
variable {slot : Nat} {c : Snapshot} {e : Eng}

theorem htBuildBody_count (hs : slot < 3) (hn : 288 < c.arg 1) :
    htBuildBody slot c e = .error (.raise 0x0602 (c.arg 1)) e := by
  rw [htBuildBody, ensure_bind (decide_eq_true hs), ensure_bind_fails (decide_eq_false (by rw [Config.huffMaxSyms]; omega))]

variable (hs : slot < 3) (hp : e.placed = []) (hn : c.arg 1 ≤ 288) (hr : c.arg 0 + c.arg 1 ≤ 0x100000000)
include hs hp hn hr

/-- With the lengths read, HT_BUILD fails at the first one above 15, and builds the slot where there is none. -/
theorem htBuildBody_eq {lens : List Nat} (hl : lens = (e.mem.read (c.arg 0) (c.arg 1)).map (·.toNat)) :
    htBuildBody slot c e =
      ((lens.findIdx? fun l => decide (15 < l)).elim (hbBuild slot lens >>= fun _ => pure ⟨0, 0, 0, 0⟩) (raise 0x0602))
        { e with regions := ⟨c.arg 0, c.arg 1, true⟩ :: e.regions } := by
  subst hl
  rw [htBuildBody, Config.huffMaxSyms, ensure_bind (decide_eq_true hs), ensure_bind (decide_eq_true hn),
    EngM.bind_ok (checkIn_ok hp hr), EngM.bind_ok (memRead_ok hr)]
  dsimp only
  cases ((e.mem.read (c.arg 0) (c.arg 1)).map (·.toNat)).findIdx? fun l => decide (15 < l) <;> rfl

theorem htBuildBody_long {lens : List Nat} {i : Nat} (hl : lens = (e.mem.read (c.arg 0) (c.arg 1)).map (·.toNat))
    (hi : 15 < lens.getD i 0) (hfirst : ∀ j, j < i → lens.getD j 0 ≤ 15) :
    htBuildBody slot c e = .error (.raise 0x0602 i) { e with regions := ⟨c.arg 0, c.arg 1, true⟩ :: e.regions } := by
  have hlt : i < lens.length := lt_length_of_getD_ne (by omega)
  have hfind : lens.findIdx? (fun l => decide (15 < l)) = some i := by
    refine List.findIdx?_eq_some_iff_getElem.2 ⟨hlt, ?_, fun j hj => ?_⟩
    · rw [List.getD_eq_getElem _ _ hlt] at hi
      exact decide_eq_true hi
    · have := hfirst j hj
      rw [List.getD_eq_getElem _ _ (by omega)] at this
      simpa using this
  rw [htBuildBody_eq hs hp hn hr hl, hfind, Option.elim_some, raise_run]

theorem htBuildBody_short {lens : List Nat} (hl : lens = (e.mem.read (c.arg 0) (c.arg 1)).map (·.toNat))
    (hlen : ∀ l ∈ lens, l ≤ 15) : htBuildBody slot c e =
      (hbBuild slot lens >>= fun _ => pure ⟨0, 0, 0, 0⟩) { e with regions := ⟨c.arg 0, c.arg 1, true⟩ :: e.regions } := by
  have hfind : lens.findIdx? (fun l => decide (15 < l)) = none :=
    List.findIdx?_eq_none_iff.2 fun l hl => decide_eq_false (Nat.not_lt.2 (hlen l hl))
  rw [htBuildBody_eq hs hp hn hr hl, hfind, Option.elim_none]

end

section
variable {s : State} {slot : Nat} (ready : s.Ready []) (hs : slot < 3)
include ready hs

theorem htBuild_fails_count (hn : 288 < s.arg 1) :
    ∃ t, exec (.htBuild slot) s = .next t ∧ Failed s t 0x0602 (BitVec.ofNat 32 (s.arg 1)) ∧ Untouched s.start t.eng := by
  obtain ⟨hx, hf⟩ := ready.fails (i := .htBuild slot) rfl (htBuildBody_count hs hn)
    ⟨ready.live, ready.srcReq, ready.allocReq⟩ rfl (Snapshot.arg_lt _ 1)
  exact ⟨_, hx, hf, untouched_fail_operand s _ s.start.regions rfl ready.written⟩

variable {lens : List Nat} (hn : s.arg 1 ≤ 288) (hr : s.arg 0 + s.arg 1 ≤ 0x100000000)
  (hl : lens = (s.start.mem.read (s.arg 0) (s.arg 1)).map (·.toNat))
include hn hr hl

theorem htBuild_fails_long {i : Nat} (hi : i < s.arg 1) (hlong : 15 < lens.getD i 0) (hfirst : ∀ j, j < i → lens.getD j 0 ≤ 15) :
    ∃ t, exec (.htBuild slot) s = .next t ∧ Failed s t 0x0602 (BitVec.ofNat 32 i) ∧ Untouched s.start t.eng := by
  obtain ⟨hx, hf⟩ := ready.fails (i := .htBuild slot) rfl
    (htBuildBody_long (e := s.entry []) hs ready.placed hn hr hl hlong hfirst)
    ⟨ready.live, ready.srcReq, ready.allocReq⟩ rfl (by omega)
  exact ⟨_, hx, hf, untouched_fail_operand s _ _ rfl ready.written⟩

variable (hlen : ∀ l ∈ lens, l ≤ 15)
include hlen

theorem htBuild_completes {h : Huff} (hb : buildSlot lens = .ok h) :
    ∃ t, exec (.htBuild slot) s = .next t ∧ Completed s t 0 0 0 0 ∧ t.eng.slot slot = h ∧
      (∀ k, k < 3 → k ≠ slot → t.eng.slot k = s.start.slot k) ∧ SameSource s.start t.eng ∧ t.eng.br = s.start.br ∧
      t.eng.inf = s.start.inf ∧ SamePorts s.start t.eng ∧ SameMem s.start t.eng := by
  have hbody := (htBuildBody_short (e := s.entry []) hs ready.placed hn hr hl hlen).trans (EngM.bind_ok (hbBuild_ok hb))
  have hself := Eng.slot_setSlot_self { s.entry [] with regions := ⟨s.arg 0, s.arg 1, true⟩ :: s.start.regions } slot h
  have hother := fun k hk hne =>
    Eng.slot_setSlot_of_ne { s.entry [] with regions := ⟨s.arg 0, s.arg 1, true⟩ :: s.start.regions } (u := k) h hs hk hne
  rw [Eng.setSlot_same] at hbody hself hother
  obtain ⟨hx, hc⟩ := ready.completes (i := .htBuild slot) rfl hbody ⟨ready.live, ready.srcReq, ready.allocReq⟩ rfl (by decide)
    (by decide)
  exact ⟨_, hx, hc, hself, fun k hk hne => hother k hk hne.symm, ⟨rfl, rfl⟩, rfl, rfl, ⟨rfl, rfl, rfl⟩, fun _ => rfl⟩

theorem htBuild_fails_lengths {x : Nat × Nat} (hb : buildSlot lens = .error x) :
    ∃ t, exec (.htBuild slot) s = .next t ∧ Failed s t (BitVec.ofNat 32 x.1) (BitVec.ofNat 32 x.2) ∧
      UnitsInvalid t.eng ∧ SameSource s.start t.eng ∧ SamePorts s.start t.eng ∧ SameMem s.start t.eng := by
  obtain ⟨code, info⟩ := x
  have hcode : code / 256 = 3 := by
    have : code = 0x0304 ∨ code = 0x0305 := buildSlot_error hb
    omega
  have hinfo : info ≤ 15 := buildSlot_error_info_le hb
  have hbody := (htBuildBody_short (e := s.entry []) hs ready.placed hn hr hl hlen).trans (EngM.bind_error (hbBuild_fails hb))
  rw [Eng.setSlot_same] at hbody
  obtain ⟨hx, hf⟩ := ready.fails (i := .htBuild slot) rfl hbody ⟨ready.live, ready.srcReq, ready.allocReq⟩ rfl (by omega)
  have hclear : failClearsUnits .unit code = true := decide_eq_true (by omega)
  refine ⟨_, hx, hf, unitsInvalid_fail_unit s info (by omega) _, ?_, ?_, sameMem_fail s ready.written⟩
  · rw [State.fail_eng, if_pos hclear]
    exact ⟨rfl, rfl⟩
  · rw [State.fail_eng, if_pos hclear]
    exact ⟨rfl, rfl, rfl⟩

end

/-! ### HT_FIXED (41_huffman_decoder.md R170) -/

theorem htFixedBody_ok {h0 h1 : Huff} (c : Snapshot) (e : Eng) (hb0 : buildSlot fixedLitLen = .ok h0)
    (hb1 : buildSlot fixedDistLen = .ok h1) : htFixedBody c e = .ok ⟨0, 0, 0, 0⟩ { e with ht0 := h0, ht1 := h1 } := by
  rw [htFixedBody, buildFixed, bind_assoc, EngM.bind_ok (hbBuild_ok hb0), EngM.bind_ok (hbBuild_ok hb1)]
  rfl

/-- Settles O33: HT_BUILD checks the count and the lengths in order and sets the one slot; both fixed sets of lengths are accepted,
and HT_FIXED sets their two slots. -/
theorem htBuildAndHtFixedComplete : Obligations.HtBuildAndHtFixedComplete := by
  unfold Obligations.HtBuildAndHtFixedComplete
  constructor
  · intro s slot lens ready hs hl
    refine ⟨htBuild_fails_count ready hs, fun hn hr => ⟨fun i => htBuild_fails_long ready hs hn hr hl, fun hlen => ⟨?_, ?_⟩⟩⟩
    · intro h hb
      obtain ⟨t, hx, hc, hself, hframe⟩ := htBuild_completes ready hs hn hr hl hlen hb
      exact ⟨t, hx, hc, hself, buildSlot_valid hb, hframe⟩
    · exact fun x => htBuild_fails_lengths ready hs hn hr hl hlen
  · obtain ⟨h0, hb0⟩ := exists_buildSlot (lens := fixedLitLen) (by decide +kernel) (by decide +kernel)
    obtain ⟨h1, hb1⟩ := exists_buildSlot (lens := fixedDistLen) (by decide +kernel) (by decide +kernel)
    refine ⟨h0, h1, hb0, hb1, fun s ready => ?_⟩
    obtain ⟨hx, hc⟩ := ready.completes (i := .htFixed) rfl (htFixedBody_ok s.running.snap (s.entry []) hb0 hb1)
      ⟨ready.live, ready.srcReq, ready.allocReq⟩ rfl (by decide) (by decide)
    exact ⟨_, hx, hc, rfl, rfl, rfl, ⟨rfl, rfl⟩, rfl, rfl, ⟨rfl, rfl, rfl⟩, fun _ => rfl⟩

end Sys2Proof.Machine
end

section
/-! SUPPORT. The inflate output as it fills and grows: what the engine leaves alone, and the bytes the output holds
(42_lz77_decompressor.md R191 to R193; 20_memory.md R76, R77). -/

namespace Sys2Proof.Machine

/-! ### The record of what has been written -/

/-- The running command has written the byte at `x`. -/
def Eng.Wrote (e : Eng) (x : Nat) : Prop := ∃ w ∈ e.written, w.addr ≤ x ∧ x < w.addr + w.len

/-- From `e` to `f` the byte at `x` has been left alone. -/
def Keeps (e f : Eng) (x : Nat) : Prop := f.mem.get x = e.mem.get x ∧ (f.Wrote x → e.Wrote x)

theorem Keeps.trans {e f g : Eng} {x : Nat} (h : Keeps e f x) (h' : Keeps f g x) : Keeps e g x :=
  ⟨h'.1.trans h.1, fun hw => h.2 (h'.2 hw)⟩

/-- A noted range holds its own bytes and those that were noted before. -/
theorem wrote_noteWrite {a n x : Nat} {toHost : Bool} {ws : List Written}
    (h : ∃ w ∈ noteWrite a n toHost ws, w.addr ≤ x ∧ x < w.addr + w.len) :
    (∃ w ∈ ws, w.addr ≤ x ∧ x < w.addr + w.len) ∨ (a ≤ x ∧ x < a + n) := by
  obtain ⟨w, hw, hx⟩ := h
  cases ws with
  | nil =>
    obtain rfl := List.mem_singleton.1 hw
    exact .inr hx
  | cons v ws =>
    rw [noteWrite] at hw
    split at hw
    · rename_i hj
      rcases List.mem_cons.1 hw with rfl | hw
      · dsimp only at hx
        by_cases hv : x < v.addr + v.len
        · exact .inl ⟨v, List.mem_cons_self, hx.1, hv⟩
        · exact .inr (by omega)
      · exact .inl ⟨w, List.mem_cons_of_mem _ hw, hx⟩
    · rcases List.mem_cons.1 hw with rfl | hw
      · exact .inr hx
      · exact .inl ⟨w, hw, hx⟩

/-- From `e` to `f` at most the `n` bytes at the output's end have been written. -/
def WritesTail (e f : Eng) (n : Nat) : Prop :=
  f.inf = { e.inf with len := e.inf.len + n } ∧
    ∀ x, f.Wrote x → e.Wrote x ∨ (e.inf.out + e.inf.len ≤ x ∧ x < e.inf.out + e.inf.len + n)

theorem WritesTail.trans {e f g : Eng} {n m : Nat} (h : WritesTail e f n) (h' : WritesTail f g m) : WritesTail e g (n + m) := by
  obtain ⟨hi, hw⟩ := h
  obtain ⟨hi', hw'⟩ := h'
  refine ⟨by rw [hi', hi, Nat.add_assoc], fun x hx => ?_⟩
  rcases hw' x hx with hx | hx
  · rcases hw x hx with hx | hx
    · exact .inl hx
    · exact .inr (by omega)
  · rw [hi] at hx
    exact .inr (by dsimp only at hx; omega)

theorem outStore_ends (b : Byte) (e : Eng) : (outStore b).Ends e (fun _ f => WritesTail e f 1) fun _ _ => True := by
  refine EngM.ends_bind (EngM.ends_getE (EngM.ends_bind (memWrite_ends (fun _ => ?_) fun _ => trivial)))
  refine EngM.ends_modE ⟨rfl, fun x hx => ?_⟩
  exact wrote_noteWrite hx

theorem copyBack_ends (dist n : Nat) (e : Eng) :
    (copyBack dist n).Ends e (fun _ f => WritesTail e f n) fun _ _ => True := by
  induction n generalizing e with
  | zero => exact EngM.ends_pure ⟨rfl, fun x hx => .inl hx⟩
  | succ n ih =>
    refine EngM.ends_bind (EngM.ends_getE (EngM.ends_bind (memByte_ends (fun _ => ?_) fun _ => trivial)))
    refine EngM.ends_bind ((outStore_ends _ e).mono (fun _ g hg => ?_) fun _ _ _ => trivial)
    refine (ih g).mono (fun _ f hf => ?_) fun _ _ _ => trivial
    rw [Nat.add_comm n 1]
    exact hg.trans hf

/-! ### Buffers -/

/-- The buffer that the output has once the allocator has granted `gs`, each an address and a size. -/
def InflateOut.bufferAfter (o : InflateOut) (gs : List (Word × Nat)) : Nat × Nat :=
  (gs.map fun g => (g.1.toNat, g.2)).getLastD (o.out, o.cap)

@[simp] theorem InflateOut.bufferAfter_nil (o : InflateOut) : o.bufferAfter [] = (o.out, o.cap) := rfl

@[simp] theorem InflateOut.bufferAfter_concat (o : InflateOut) (gs : List (Word × Nat)) (g : Word × Nat) :
    o.bufferAfter (gs ++ [g]) = (g.1.toNat, g.2) := by
  simp [InflateOut.bufferAfter]

/-- The last buffer is the first one or a granted one. -/
theorem InflateOut.bufferAfter_cases (o : InflateOut) (gs : List (Word × Nat)) :
    o.bufferAfter gs = (o.out, o.cap) ∧ gs = [] ∨ ∃ g ∈ gs, o.bufferAfter gs = (g.1.toNat, g.2) := by
  rcases List.eq_nil_or_concat' gs with rfl | ⟨hs, g, rfl⟩
  · exact .inl ⟨rfl, rfl⟩
  · exact .inr ⟨g, by simp, by simp⟩

/-- Buffers after buffers. -/
theorem InflateOut.bufferAfter_append {o p : InflateOut} {gs : List (Word × Nat)} (hs : List (Word × Nat))
    (h : (p.out, p.cap) = o.bufferAfter gs) : o.bufferAfter (gs ++ hs) = p.bufferAfter hs := by
  rcases List.eq_nil_or_concat' hs with rfl | ⟨hs, g, rfl⟩
  · rw [List.append_nil, bufferAfter_nil, h]
  · rw [← List.append_assoc, bufferAfter_concat, bufferAfter_concat]

/-- The address `x` is in no buffer of the output, neither the one at hand nor one of the grants `gs`. -/
def InflateOut.Avoids (o : InflateOut) (gs : List (Word × Nat)) (x : Nat) : Prop :=
  (x < o.out ∨ o.out + o.cap ≤ x) ∧ ∀ g ∈ gs, x < g.1.toNat ∨ g.1.toNat + g.2 ≤ x

theorem InflateOut.Avoids.last {o p : InflateOut} {gs hs : List (Word × Nat)} {x : Nat} (h : o.Avoids (gs ++ hs) x)
    (hp : (p.out, p.cap) = o.bufferAfter gs) : o.Avoids gs x ∧ p.Avoids hs x := by
  obtain ⟨h0, hg⟩ := h
  refine ⟨⟨h0, fun g hm => hg g (List.mem_append_left _ hm)⟩, ?_, fun g hm => hg g (List.mem_append_right _ hm)⟩
  rcases o.bufferAfter_cases gs with ⟨hb, -⟩ | ⟨g, hm, hb⟩
  all_goals
    rw [hb, Prod.mk.injEq] at hp
    rw [hp.1, hp.2]
  · exact h0
  · exact hg g (List.mem_append_left _ hm)

/-! ### A run that fills the output -/

/-- `f` is `e` after reads of the BitReader and `n` bytes appended to the output, which the allocator's grants `gs` have moved. -/
structure Grows (e f : Eng) (n : Nat) (gs : List (Word × Nat)) : Prop where
  same : f = { e with
    mem := f.mem, written := f.written, journal := f.journal, br := f.br, bs := { e.bs with pos := f.bs.pos }
    srcEof := f.srcEof, allocReq := f.allocReq, allocSize := f.allocSize, allocPtr := f.allocPtr, moves := f.moves
    regions := f.regions
    inf := { e.inf with out := (e.inf.bufferAfter gs).1, len := e.inf.len + n, cap := (e.inf.bufferAfter gs).2 } }
  moves : e.moves = gs.map (fun g => .allocResp g.1) ++ f.moves
  allocReq : e.allocReq = 0 → f.allocReq = 0
  regions : ∀ t ∈ f.regions, t.input = true → t ∈ e.regions
  meets : ∀ a k, e.inputMeets a k = false → f.inputMeets a k = false
  outside : ∀ x, e.inf.Avoids gs x → Keeps e f x
  still : gs = [] → (∀ x, x < e.inf.out + e.inf.len ∨ e.inf.out + e.inf.len + n ≤ x → Keeps e f x) ∧
    f.allocSize = e.allocSize ∧ f.allocPtr = e.allocPtr
  asked : ∀ hs g, gs = hs ++ [g] →
    f.allocSize = BitVec.ofNat 32 g.2 ∧ f.allocPtr = BitVec.ofNat 32 (e.inf.bufferAfter hs).1

section
variable {e f g : Eng} {n m : Nat} {gs hs : List (Word × Nat)}

theorem Grows.inf (h : Grows e f n gs) :
    f.inf = { e.inf with out := (e.inf.bufferAfter gs).1, len := e.inf.len + n, cap := (e.inf.bufferAfter gs).2 } := by
  rw [h.same]

theorem Grows.buffer (h : Grows e f n gs) : (f.inf.out, f.inf.cap) = e.inf.bufferAfter gs := by rw [h.inf]

theorem Grows.live (h : Grows e f n gs) : f.live = e.live := by rw [h.same]

theorem Grows.slot (h : Grows e f n gs) (t : Nat) : f.slot t = e.slot t := by rw [h.same]; rfl

theorem Grows.slots (h : Grows e f n gs) : SameSlots e f := by rw [h.same]; exact ⟨rfl, rfl, rfl⟩

theorem Grows.trans (h : Grows e f n gs) (h' : Grows f g m hs) : Grows e g (n + m) (gs ++ hs) where
  same := by
    rw [h'.same, e.inf.bufferAfter_append hs h.buffer, h.inf, h.same, Nat.add_assoc]
  moves := by rw [h.moves, h'.moves, List.map_append, List.append_assoc]
  allocReq hr := h'.allocReq (h.allocReq hr)
  regions t ht hi := h.regions t (h'.regions t ht hi) hi
  meets a k hm := h'.meets a k (h.meets a k hm)
  outside x hx := by
    obtain ⟨h1, h2⟩ := hx.last h.buffer
    exact (h.outside x h1).trans (h'.outside x h2)
  still hnil := by
    obtain ⟨rfl, rfl⟩ := List.append_eq_nil_iff.1 hnil
    obtain ⟨k, hsize, hptr⟩ := h.still rfl
    obtain ⟨k', hsize', hptr'⟩ := h'.still rfl
    refine ⟨fun x hx => ?_, hsize'.trans hsize, hptr'.trans hptr⟩
    have hinf := h.inf
    rw [InflateOut.bufferAfter_nil] at hinf
    rw [hinf] at k'
    exact (k x (by omega)).trans (k' x (by dsimp only; omega))
  asked ks c hks := by
    rcases List.eq_nil_or_concat' hs with rfl | ⟨hs', c', rfl⟩
    · rw [List.append_nil] at hks
      obtain ⟨-, hsize, hptr⟩ := h'.still rfl
      obtain ⟨ha, hp⟩ := h.asked ks c hks
      exact ⟨hsize.trans ha, hptr.trans hp⟩
    · rw [← List.append_assoc] at hks
      obtain ⟨rfl, hc⟩ := List.append_inj' hks rfl
      obtain rfl := List.singleton_inj.1 hc
      rw [e.inf.bufferAfter_append hs' h.buffer]
      exact h'.asked hs' c' rfl

/-- Reads leave the memory that the BitReader reads within what it was. -/
theorem ReadsOn.inputMeets (h : ReadsOn e f) {a k : Nat} (hm : e.inputMeets a k = false) : f.inputMeets a k = false := by
  have hs : f.sourceMeets a k = e.sourceMeets a k := by rw [h.same]; rfl
  rw [Eng.inputMeets] at hm ⊢
  cases hi : e.br.input with
  | source =>
    rw [hi] at hm
    rw [h.source hi]
    exact hs.trans hm
  | mem b l =>
    rw [hi] at hm
    obtain ⟨b', l', hf, hb, hl⟩ := h.buffer b l hi
    rw [hf]
    exact overlap_part hm hb (by omega)

theorem ReadsOn.grows (h : ReadsOn e f) : Grows e f 0 [] where
  same := by rw [h.same]; rfl
  moves := by rw [h.same]; rfl
  allocReq hr := by rw [h.same]; exact hr
  regions t ht _ := by rw [h.same] at ht; exact ht
  meets a k hm := h.inputMeets hm
  outside x _ := by rw [h.same]; exact ⟨rfl, id⟩
  still _ := by rw [h.same]; exact ⟨fun x _ => ⟨rfl, id⟩, rfl, rfl⟩
  asked hs g hg := by simp at hg

theorem ReadsOn.grows_trans (h : ReadsOn e f) (h' : Grows f g n gs) : Grows e g n gs := by
  have := h.grows.trans h'
  rwa [Nat.zero_add, List.nil_append] at this

theorem Grows.reads (h : Grows e f n gs) (h' : ReadsOn f g) : Grows e g n gs := by
  have := h.trans h'.grows
  rwa [Nat.add_zero, List.append_nil] at this

/-- Bytes that join the output where there is room. -/
theorem Appends.grows (h : Appends e f n) (w : WritesTail e f n) (room : e.inf.len + n ≤ e.inf.cap) : Grows e f n [] := by
  have keeps : ∀ x, x < e.inf.out + e.inf.len ∨ e.inf.out + e.inf.len + n ≤ x → Keeps e f x := fun x hx =>
    ⟨h.outside x hx, fun hw => (w.2 x hw).resolve_right (by omega)⟩
  refine ⟨?_, ?_, ?_, ?_, ?_, fun x hx => keeps x ?_, fun _ => ⟨keeps, ?_, ?_⟩, fun hs g hg => ?_⟩
  · rw [h.same]; rfl
  · rw [h.same]; rfl
  · rw [h.same]; exact id
  · rw [h.same]; exact fun t ht _ => ht
  · rw [h.same]; exact fun a k hm => hm
  · obtain ⟨hx, -⟩ := hx
    omega
  · rw [h.same]
  · rw [h.same]
  · simp at hg

end

/-! ### A granted Realloc of the output (42_lz77_decompressor.md R191; 20_memory.md R76, R77) -/

/-- The allocator may give the running command the buffer `g`: an input region of the command does not lie there
(20_memory.md R77). -/
structure Eng.MayMoveTo (e : Eng) (g : Word × Nat) : Prop where
  nonzero : g.1 ≠ 0
  range : g.1.toNat + g.2 ≤ Config.addrSpace
  regions : ∀ t ∈ e.regions, t.input = true → overlap t.addr t.len g.1.toNat g.2 = false

/-- The engine once its output has moved to the granted buffer `g`, with the moves `ms` to come. -/
def Eng.movedTo (e : Eng) (g : Word × Nat) (ms : List PortMove) : Eng :=
  let f := Eng.moveBuffer
    { e.answered with
      allocReq := 0, allocSize := BitVec.ofNat 32 g.2, allocPtr := BitVec.ofNat 32 e.inf.out, moves := ms }
    e.inf.out e.inf.cap ⟨g.1.toNat, g.2⟩
  { f with inf := { e.inf with out := g.1.toNat, cap := g.2 } }

section
variable {e : Eng} {n : Nat} {g : Word × Nat} {ms : List PortMove}

theorem Eng.MayMoveTo.allocOk (h : e.MayMoveTo g) (hl : e.live = []) :
    e.allocOk (dropBuf e.inf.out e.live) g.1.toNat g.2 = true := by
  have hr : e.regions.any (fun t => t.input && overlap t.addr t.len g.1.toNat g.2) = false :=
    List.any_eq_false.2 fun t ht => by
      cases hi : t.input with
      | false => simp
      | true => simp [h.regions t ht hi]
  rw [Eng.allocOk, hl, hr, decide_eq_true h.range]
  rfl

/-- A full reallocatable output moves to the granted buffer of the doubled capacity. -/
theorem outReserve_moves (hfull : e.inf.cap < e.inf.len + n) (hr : e.inf.realloc = true)
    (hneed : e.inf.len + n ≤ Config.sizeCeiling) (hc : g.2 = growCap 32 e.inf.cap (e.inf.len + n))
    (hm : e.moves = .allocResp g.1 :: ms) (h : e.MayMoveTo g) (hl : e.live = []) :
    outReserve n e = .ok () (e.movedTo g ms) := by
  have hsize : g.2 ≤ Config.sizeCeiling := by rw [hc]; exact growCap_le 32 (by omega)
  rw [outReserve, getE_bind, EngM.ite_run, if_neg (by omega), ensure_bind hr, ensure_bind (decide_eq_true hneed), ← hc,
    EngM.bind_ok (portRealloc_ok hsize hm h.nonzero (h.allocOk hl))]
  rfl

theorem Eng.movedTo_mem (e : Eng) (g : Word × Nat) (ms : List PortMove) :
    (e.movedTo g ms).mem = e.mem.write g.1.toNat (e.mem.read e.inf.out (min e.inf.cap g.2)) := rfl

/-- Outside the new buffer a move leaves memory alone. -/
theorem Eng.movedTo_outside {x : Nat} (ms : List PortMove) (h : x < g.1.toNat ∨ g.1.toNat + g.2 ≤ x) :
    (e.movedTo g ms).mem.get x = e.mem.get x := by
  rw [movedTo_mem, Memory.get_write_of_lt]
  rw [Memory.read_length]
  omega

/-- The new buffer begins with what the old one held. -/
theorem Eng.movedTo_read {k : Nat} (ms : List PortMove) (hk : k ≤ e.inf.cap) (hc : e.inf.cap ≤ g.2) :
    (e.movedTo g ms).mem.read g.1.toNat k = e.mem.read e.inf.out k := by
  refine Memory.read_congr fun i hi => ?_
  rw [movedTo_mem, Memory.get_copy e.mem (by omega)]

theorem Eng.movedTo_wrote {x : Nat} (h : (e.movedTo g ms).Wrote x) :
    e.Wrote x ∨ (g.1.toNat ≤ x ∧ x < g.1.toNat + g.2) := by
  obtain ⟨w, hw, hx⟩ := h
  rcases List.mem_append.1 (show w ∈ e.written.flatMap _ ++ e.written from hw) with hw | hw
  · obtain ⟨v, -, hv⟩ := List.mem_flatMap.1 hw
    obtain ⟨y, -, hy, rfl⟩ := (Written.mem_moved _ _ _ v x).1 ⟨w, hv, hx⟩
    exact .inr (by dsimp only at hy ⊢; omega)
  · exact .inl ⟨w, hw, hx⟩

theorem Eng.movedTo_grows (hm : e.moves = .allocResp g.1 :: ms) (hl : e.live = []) : Grows e (e.movedTo g ms) 0 [g] where
  same := by
    have : replaceBuf e.inf.out ⟨g.1.toNat, g.2⟩ e.live = e.live := by rw [hl]; rfl
    simp only [movedTo, moveBuffer, answered, this]
    rfl
  moves := hm
  allocReq _ := rfl
  regions t ht hi := by
    obtain ⟨u, hu, rfl⟩ := List.mem_map.1 (show t ∈ e.regions.map _ from ht)
    split at hi
    · cases hi
    · rename_i hne
      rwa [if_neg hne]
  meets a k hk := hk
  outside x hx := by
    obtain ⟨-, hx⟩ := hx
    have hx := hx g List.mem_cons_self
    exact ⟨movedTo_outside ms hx, fun hw => (movedTo_wrote hw).resolve_right (by omega)⟩
  still h := by cases h
  asked hs c h := by
    obtain ⟨rfl, rfl⟩ : hs = [] ∧ g = c := by
      cases hs with
      | nil => exact ⟨rfl, by simpa using h⟩
      | cons a hs => simp at h
    exact ⟨rfl, rfl⟩

end

end Sys2Proof.Machine
end

section
/-! SUPPORT. The inflate engine over an output that may grow: what it puts out, and what it has still ahead, after each piece of output
(42_lz77_decompressor.md R191 to R193, R203, R210). -/

namespace Sys2Proof.Machine

/-! ### Room -/

/-- The open output has room for pieces of the sizes `ns`, as the allocator's coming answers grant the buffers `gs`, apart from what the
BitReader reads (42_lz77_decompressor.md R191; 20_memory.md R77). -/
structure HasRoom (e : Eng) (ns : List Nat) (gs : List (Word × Nat)) : Prop where
  isOpen : e.inf.isOpen = true
  output : OutputOk e.inf
  live : e.live = []
  moves : e.moves = gs.map fun g => .allocResp g.1
  asked : gs.map Prod.snd = growths e.inf.cap e.inf.len ns
  grows : gs ≠ [] → e.inf.realloc = true ∧ e.inf.len + ns.sum ≤ 0x7fffffff
  granted : ∀ g ∈ gs, e.MayMoveTo g ∧ e.inputMeets g.1.toNat g.2 = false

section
variable {e f : Eng} {n : Nat} {ns : List Nat} {gs hs : List (Word × Nat)}

/-- What the allocator may give stays so while the output fills and grows. -/
theorem Grows.mayMoveTo (h : Grows e f n gs) {g : Word × Nat} (hg : e.MayMoveTo g ∧ e.inputMeets g.1.toNat g.2 = false) :
    f.MayMoveTo g ∧ f.inputMeets g.1.toNat g.2 = false := by
  obtain ⟨⟨nonzero, range, regions⟩, hm⟩ := hg
  exact ⟨⟨nonzero, range, fun t ht hi => regions t (h.regions t ht hi) hi⟩, h.meets _ _ hm⟩

theorem HasRoom.reads (r : HasRoom e ns gs) (ro : ReadsOn e f) : HasRoom f ns gs := by
  have hinf : f.inf = e.inf := by rw [ro.same]
  refine ⟨?_, ?_, ?_, ?_, ?_, ?_, fun g hg => ro.grows.mayMoveTo (r.granted g hg)⟩
  · rw [hinf]; exact r.isOpen
  · rw [hinf]; exact r.output
  · rw [ro.same]; exact r.live
  · rw [ro.same]; exact r.moves
  · rw [hinf]; exact r.asked
  · rw [hinf]; exact r.grows

/-- A piece that the buffer holds leaves the room for the pieces after it. -/
theorem HasRoom.appends (r : HasRoom e (n :: ns) gs) (h : Grows e f n []) (room : e.inf.len + n ≤ e.inf.cap) :
    HasRoom f ns gs := by
  have hinf : f.inf = { e.inf with len := e.inf.len + n } := h.inf
  obtain ⟨hlen, hrange, hout, hcap⟩ := r.output
  refine ⟨?_, ?_, h.live.trans r.live, ?_, ?_, ?_, fun g hg => h.mayMoveTo (r.granted g hg)⟩
  · rw [hinf]; exact r.isOpen
  · rw [hinf]; exact ⟨fun _ => room, hrange, hout, hcap⟩
  · rw [← r.moves, h.moves]; rfl
  · rw [r.asked, growths, if_pos room, hinf]
  · intro hne
    obtain ⟨hr, hs⟩ := r.grows hne
    rw [List.sum_cons] at hs
    rw [hinf]
    exact ⟨hr, by dsimp only; omega⟩

/-- No piece is left, so no grant is. -/
theorem HasRoom.no_grant (r : HasRoom e [] gs) : gs = [] := List.map_eq_nil_iff.1 r.asked

/-- Where the next piece fits and is the last, no grant is left. -/
theorem HasRoom.no_grant_of_fits (r : HasRoom e [n] gs) (room : e.inf.len + n ≤ e.inf.cap) : gs = [] := by
  have := r.asked
  rw [growths, if_pos room] at this
  exact List.map_eq_nil_iff.1 this

/-- A fixed output is granted nothing. -/
theorem HasRoom.fixed (r : HasRoom e ns gs) (hr : e.inf.realloc = false) : gs = [] := by
  by_contra hne
  rw [(r.grows hne).1] at hr
  cases hr

/-- From `e` to `f` `n` bytes have joined the output, some of the grants `gs` taken, and the others give room for `ns`. -/
def Fills (e f : Eng) (n : Nat) (ns : List Nat) (gs : List (Word × Nat)) : Prop :=
  ∃ taken left, gs = taken ++ left ∧ Grows e f n taken ∧ HasRoom f ns left

theorem ReadsOn.fills {g : Eng} (ro : ReadsOn e f) (h : Fills f g n ns gs) : Fills e g n ns gs := by
  obtain ⟨taken, left, hgs, gr, room⟩ := h
  exact ⟨taken, left, hgs, ro.grows_trans gr, room⟩

/-- A piece fills the room that was reserved for it. -/
theorem Fills.appends {g : Eng} (h : Fills e f 0 (n :: ns) gs) (room : f.inf.len + n ≤ f.inf.cap) (gr : Grows f g n []) :
    Fills e g n ns gs := by
  obtain ⟨taken, left, rfl, gr', r⟩ := h
  refine ⟨taken, left, rfl, ?_, r.appends gr room⟩
  have := gr'.trans gr
  rwa [Nat.zero_add, List.append_nil] at this

/-- With nothing left to put out all grants are taken. -/
theorem Fills.grows (h : Fills e f n [] gs) : Grows e f n gs ∧ HasRoom f [] [] := by
  obtain ⟨taken, left, rfl, gr, room⟩ := h
  obtain rfl := room.no_grant
  exact ⟨by rwa [List.append_nil], room⟩

/-! ### Reserving, and one piece of output -/

variable {out : List Byte} {bits : List Bool}

/-- The output's bytes and the bits ahead survive the move to a granted buffer. -/
theorem Inflating.movedTo (h : Inflating e out bits) (hlen : e.inf.len ≤ e.inf.cap) {g : Word × Nat} (ms : List PortMove)
    (hc : e.inf.cap ≤ g.2) (hrange : g.1.toNat + g.2 ≤ Config.addrSpace) (hap : e.inputMeets g.1.toNat g.2 = false) :
    Inflating (e.movedTo g ms) out bits := by
  have c := h.reads
  have hl := h.len
  refine ⟨⟨c.valid, c.reader, c.source, c.mode⟩, hap, hrange, h.len, ?_, ?_⟩
  · exact (Eng.movedTo_read ms (by omega) hc).trans h.data
  · have hb : (e.movedTo g ms).bytesAhead = e.bytesAhead :=
      bytesAhead_congr c rfl rfl hap fun x hx => Eng.movedTo_outside ms hx
    rw [← h.ahead, Eng.bitsAhead, Eng.bitsAhead, hb]
    rfl

/-- `out_reserve(n)` makes room for the next piece, in a new buffer where the old one is too small (42_lz77_decompressor.md R191). -/
theorem Inflating.outReserve (h : Inflating e out bits) (r : HasRoom e (n :: ns) gs) :
    ∃ f, outReserve n e = .ok () f ∧ Fills e f 0 (n :: ns) gs ∧ Inflating f out bits ∧ f.inf.len + n ≤ f.inf.cap := by
  by_cases room : e.inf.len + n ≤ e.inf.cap
  · exact ⟨e, outReserve_room room, ⟨[], gs, rfl, (ReadsOn.refl e).grows, r⟩, h, room⟩
  · have hasked := r.asked
    rw [growths, if_neg room] at hasked
    cases gs with
    | nil => cases hasked
    | cons g gs =>
      obtain ⟨hc, hgs⟩ := List.cons.inj hasked
      obtain ⟨hr, hsum⟩ := r.grows (List.cons_ne_nil _ _)
      rw [List.sum_cons] at hsum
      obtain ⟨hgrant, hap⟩ := r.granted g List.mem_cons_self
      have hneed : e.inf.len + n ≤ Config.sizeCeiling := by
        show _ ≤ 0x7fffffff
        omega
      have hge : e.inf.len + n ≤ g.2 := hc ▸ growCap_ge 32 hneed
      have hle : g.2 ≤ 0x7fffffff := hc ▸ growCap_le 32 (by omega)
      have gr := Eng.movedTo_grows r.moves r.live
      refine ⟨_, outReserve_moves (by omega) hr hneed hc r.moves hgrant r.live, ⟨[g], gs, rfl, gr, ?_⟩,
        h.movedTo (r.output.len r.isOpen) _ (by omega) hgrant.range hap, hge⟩
      refine ⟨r.isOpen, ⟨fun _ => ?_, fun _ => hgrant.range, fun _ => g.1.isLt, fun _ => ?_⟩, gr.live.trans r.live, rfl, ?_,
        fun _ => ⟨hr, by rw [List.sum_cons]; exact hsum⟩, fun g' hg' => gr.mayMoveTo (r.granted g' (List.mem_cons_of_mem _ hg'))⟩
      · show e.inf.len ≤ g.2
        omega
      · show g.2 < 2 ^ 32
        omega
      · show gs.map Prod.snd = growths g.2 e.inf.len (n :: ns)
        rw [growths, if_pos hge, hc]
        exact hgs

/-- One byte joins the output where there is room. -/
theorem Inflating.outStore (h : Inflating e out bits) (b : Byte) (room : e.inf.len + 1 ≤ e.inf.cap) :
    ∃ f, outStore b e = .ok () f ∧ Grows e f 1 [] ∧ Inflating f (out ++ [b]) bits := by
  have hlen := h.len
  have hrange := h.range
  obtain ⟨f, hf, -, hi⟩ := h.outPut b (by omega)
  rw [Machine.outPut, EngM.bind_ok (outReserve_room room)] at hf
  obtain ⟨f', hf', ap, -⟩ := outStore_ok (b := b) (e := e) (by omega)
  obtain rfl : f = f' := by injection hf.symm.trans hf'
  exact ⟨f, hf, ap.grows ((outStore_ends b e).ok hf) room, hi⟩

/-- A copy of earlier output joins it where there is room (42_lz77_decompressor.md R193). -/
theorem Inflating.copyBack (h : Inflating e out bits) {dist : Nat} (h1 : 1 ≤ dist) (hd : dist ≤ out.length)
    (room : e.inf.len + n ≤ e.inf.cap) :
    ∃ f, copyBack dist n e = .ok () f ∧ Grows e f n [] ∧ Inflating f (copyFrom dist n out) bits := by
  have hlen := h.len
  have hrange := h.range
  obtain ⟨f, hf, -, hi⟩ := h.infCopy (length := n) h1 hd (by omega)
  rw [Machine.infCopy, getE_bind, ensure_bind (decide_eq_true (by omega)), EngM.bind_ok (outReserve_room room)] at hf
  obtain ⟨f', hf', ap, -⟩ := copyBack_ok (dist := dist) n (e := e) h1 (by omega) (by omega)
  obtain rfl : f = f' := by injection hf.symm.trans hf'
  exact ⟨f, hf, ap.grows ((copyBack_ends dist n e).ok hf) room, hi⟩

/-- `out_put(b)` on an output that may grow (42_lz77_decompressor.md R192). -/
theorem Inflating.outPut_fills (h : Inflating e out bits) (r : HasRoom e (1 :: ns) gs) (b : Byte) :
    ∃ f, Machine.outPut b e = .ok () f ∧ Fills e f 1 ns gs ∧ Inflating f (out ++ [b]) bits := by
  obtain ⟨f, hf, fills, hi, room⟩ := h.outReserve r
  obtain ⟨g, hg, gr, hi'⟩ := hi.outStore b room
  exact ⟨g, by rw [Machine.outPut, EngM.bind_ok hf, hg], fills.appends room gr, hi'⟩

/-- `inf_copy(length, dist)` on an output that may grow (42_lz77_decompressor.md R193). -/
theorem Inflating.infCopy_fills (h : Inflating e out bits) (r : HasRoom e (n :: ns) gs) {dist : Nat} (h1 : 1 ≤ dist)
    (hd : dist ≤ out.length) :
    ∃ f, Machine.infCopy n dist e = .ok () f ∧ Fills e f n ns gs ∧ Inflating f (copyFrom dist n out) bits := by
  have hlen := h.len
  obtain ⟨f, hf, fills, hi, room⟩ := h.outReserve r
  obtain ⟨g, hg, gr, hi'⟩ := hi.copyBack h1 hd room
  refine ⟨g, ?_, fills.appends room gr, hi'⟩
  rw [Machine.infCopy, getE_bind, ensure_bind (decide_eq_true (by omega)), EngM.bind_ok hf, hg]

end

/-! ### Symbols (42_lz77_decompressor.md R210) -/

section
variable {lit dist : Nat → List Bool} {rest : List Bool} {e : Eng} {out : List Byte} {gs : List (Word × Nat)}

/-- One turn of the loop over an output that may grow: a symbol's token joins it. -/
theorem infCodes_symbol_fills {y : BlockSym} {ns : List Nat} (hf : y.Fits) (hr : y.ReadBy (e.slot 0) (e.slot 1) lit dist)
    (hv : y.token.Valid out.length) (room : HasRoom e (y.token.size :: ns) gs)
    (h : Inflating e out (y.bitsBy lit dist ++ rest)) :
    ∃ g, (∀ fuel, infCodes (fuel + 1) e = infCodes fuel g) ∧ Fills e g y.token.size ns gs ∧
      Inflating g (y.token.apply out) rest := by
  cases y with
  | lit b =>
    obtain ⟨f, hf, ro, cf, bf⟩ := hr 0 e _ rfl h.reads h.ahead
    obtain ⟨g, hg, fills, ig⟩ := (h.readsOn ro cf bf).outPut_fills (room.reads ro) b
    refine ⟨g, fun fuel => ?_, ro.fills fills, ig⟩
    rw [infCodes, EngM.bind_ok hf, EngM.ite_run, if_pos b.isLt, show byte b.toNat = b from BitVec.ofNat_toNat _ _,
      EngM.bind_ok hg]
  | copy j le d de =>
    obtain ⟨hj, hle, hd, hde⟩ := hf
    obtain ⟨r0, r1⟩ := hr
    have ha := h.ahead
    rw [BlockSym.bitsBy, List.append_assoc, List.append_assoc, List.append_assoc] at ha
    obtain ⟨f, hf, ro, cf, bf⟩ := r0 0 e _ rfl h.reads ha
    obtain ⟨k, hk, rk, ck, bk⟩ := readMatch_ok (e := f) (dist := dist) (rest := rest) hj hle hd hde
      (by rw [ro.slot]; exact r1) cf (by rw [bf]; simp only [List.append_assoc])
    obtain ⟨-, -, hd1, -, hdl⟩ := hv
    have rok := ro.trans rk
    obtain ⟨g, hg, fills, ig⟩ := (h.readsOn rok ck bk).infCopy_fills (room.reads rok) hd1 hdl
    refine ⟨g, fun fuel => ?_, rok.fills fills, ig⟩
    rw [infCodes, EngM.bind_ok hf, EngM.ite_run, if_neg (by omega), EngM.ite_run, if_neg (by omega),
      ensure_bind (decide_eq_true (by omega)), EngM.bind_ok hk]
    exact EngM.bind_ok hg

/-- The symbols of a block expand onto an output that may grow, and the loop goes on after them. -/
theorem infCodes_symbols (ys : List BlockSym) (hfits : ∀ y ∈ ys, y.Fits)
    (hread : ∀ y ∈ ys, y.ReadBy (e.slot 0) (e.slot 1) lit dist) (hv : TokensValid out (ys.map BlockSym.token))
    (room : HasRoom e ((ys.map BlockSym.token).map Token.size) gs)
    (h : Inflating e out (ys.flatMap (BlockSym.bitsBy lit dist) ++ rest)) :
    ∃ f, (∀ fuel, infCodes (ys.length + fuel) e = infCodes fuel f) ∧
      Grows e f ((ys.map BlockSym.token).map Token.size).sum gs ∧ HasRoom f [] [] ∧
      Inflating f ((ys.map BlockSym.token).foldl Token.apply out) rest := by
  induction ys generalizing e out gs with
  | nil =>
    obtain rfl := room.no_grant
    exact ⟨e, fun fuel => by rw [List.length_nil, Nat.zero_add], (ReadsOn.refl e).grows, room, h⟩
  | cons y ys ih =>
    rw [List.flatMap_cons, List.append_assoc] at h
    obtain ⟨g, hg, ⟨taken, left, rfl, gr, roomg⟩, ig⟩ :=
      infCodes_symbol_fills (hfits y List.mem_cons_self) (hread y List.mem_cons_self) hv.1 room h
    obtain ⟨f, hf, grf, roomf, jf⟩ := ih (fun z hz => hfits z (List.mem_cons_of_mem _ hz))
      (fun z hz => by rw [gr.slot 0, gr.slot 1]; exact hread z (List.mem_cons_of_mem _ hz)) hv.2 roomg ig
    refine ⟨f, fun fuel => ?_, gr.trans grf, roomf, jf⟩
    rw [List.length_cons, Nat.add_right_comm, hg, hf]

end

/-! ### Stored bytes (42_lz77_decompressor.md R203) -/

/-- Stored bytes join the output where there is room, and the copy goes on after them. -/
theorem copyStored_grows (data : List Byte) {bytes out : List Byte} {e : Eng} (h : InflatingBytes e out (data ++ bytes))
    (room : e.inf.len + data.length ≤ e.inf.cap) :
    ∃ f, (∀ k, copyStored (data.length + k) e = copyStored k f) ∧ Grows e f data.length [] ∧
      InflatingBytes f (out ++ data) bytes := by
  induction data generalizing e out with
  | nil => exact ⟨e, fun k => by rw [List.length_nil, Nat.zero_add], (ReadsOn.refl e).grows, by rwa [List.append_nil]⟩
  | cons b data ih =>
    rw [List.length_cons] at room ⊢
    obtain ⟨f, hf, ro, jf⟩ := h.brByte 0x0203
    have hinf : f.inf = e.inf := by rw [ro.same]
    obtain ⟨g, hg, gr, ig⟩ := jf.inflating.outStore b (by rw [hinf]; omega)
    have hginf : g.inf = { e.inf with len := e.inf.len + 1 } := by rw [← hinf]; exact gr.inf
    obtain ⟨k, hk, gr', jk⟩ := ih ig.toBytes (by rw [hginf]; dsimp only; omega)
    refine ⟨k, fun m => ?_, ?_, by rwa [List.append_assoc] at jk⟩
    · rw [Nat.add_right_comm, copyStored, EngM.bind_ok hf, show byte b.toNat = b from BitVec.ofNat_toNat _ _, EngM.bind_ok hg, hk]
    · rw [Nat.add_comm data.length]
      exact ro.grows_trans (gr.trans gr')

end Sys2Proof.Machine
end

section
/-! SUPPORT. How INF_BLOCK starts and ends, told from the run of its block (42_lz77_decompressor.md R205; 60_exceptions.md R414, R420). -/

namespace Sys2Proof.Machine

/-! ### Completion with four results -/

/-- A unit command whose steps give four results completes with them. -/
theorem State.Ready.completes_with {s : State} {answers : List PortMove} {i : Instr} {f : Eng} {x : Results}
    (ready : s.Ready answers) (hk : kindOf i = .unit) (h : bodyOf i s.running.snap (s.entry answers) = .ok x f) (rest : AtRest f)
    (hm : f.moves = []) (h0 : x.r0 < 2 ^ 32) (h1 : x.r1 < 2 ^ 32) (h2 : x.r2 < 2 ^ 32) (h3 : x.r3 < 2 ^ 32) :
    exec i s = .next (s.complete .unit x f) ∧
      Completed s (s.complete .unit x f) (BitVec.ofNat 32 x.r0) (BitVec.ofNat 32 x.r1) (BitVec.ofNat 32 x.r2)
        (BitVec.ofNat 32 x.r3) := by
  refine ⟨?_, State.complete_completed rest.srcReq rest.allocReq rest.live h0 h1 h2 h3⟩
  rw [exec_eq_runCommand, hk]
  exact runCommand_ok ((ready.body_eq (bodyOf i)).trans h) rest.live hm

/-! ### Before the block -/

/-- The input regions that a command declares for its ByteSource (20_memory.md R79). -/
def Eng.sourceRegions (e : Eng) : List Region :=
  match e.bs.mode with
  | .mem => [⟨e.bs.base, e.bs.len, true⟩]
  | .stream => [⟨e.bs.bufaddr, Config.srcBufSize, true⟩]
  | .closed => []

theorem useSource_regions {e : Eng} (hp : e.placed = []) :
    useSource e = .ok () { e with regions := e.sourceRegions ++ e.regions } := by
  rw [useSource, getE_bind, Eng.sourceRegions]
  cases e.bs.mode with
  | mem => exact declare_ok hp
  | stream => exact declare_ok hp
  | closed => rfl

theorem overlap_sourceRegions {e : Eng} {a n : Nat} {t : Region} (ht : t ∈ e.sourceRegions) (h : e.sourceMeets a n = false) :
    overlap t.addr t.len a n = false := by
  rw [overlap_comm]
  rw [Eng.sourceRegions] at ht
  rw [Eng.sourceMeets] at h
  cases hm : e.bs.mode with
  | closed => simp only [hm, List.not_mem_nil] at ht
  | mem | stream =>
    simp only [hm, List.mem_singleton] at ht h
    rwa [ht]

theorem needOutput_ok {e : Eng} (h : e.inf.isOpen = true) : needOutput e = .ok () e := by
  rw [needOutput, getE_bind, h, ensure_true]

theorem needOutputApart_ok {e : Eng} (h : e.inf.realloc = false → e.inputMeets e.inf.out e.inf.cap = false) :
    needOutputApart e = .ok () e := by
  rw [needOutputApart, getE_bind]
  cases hr : e.inf.realloc with
  | true => rfl
  | false => rw [h hr]; rfl

theorem useOutput_ok {e : Eng} (hp : e.placed = []) :
    useOutput e = .ok () { e with regions := ⟨e.inf.out, e.inf.cap, false⟩ :: e.regions } := by
  rw [useOutput, getE_bind, declare_ok hp]

/-- The engine on which INF_BLOCK runs its block: as at the acceptance, with the allocator's answers `ps` ahead and the input and
output regions declared. -/
def State.blockEntry (s : State) (ps : List Word) : Eng :=
  { s.entry (ps.map .allocResp) with regions := ⟨s.start.inf.out, s.start.inf.cap, false⟩ :: s.start.sourceRegions }

/-- The engine with other tables in its Huffman slots, after `k` draws of free values. -/
abbrev Eng.withTables (e : Eng) (h0 h1 h2 : Huff) (k : Nat) : Eng := { e with ht0 := h0, ht1 := h1, ht2 := h2, free := k }

section
variable {s : State} {ps : List Word}

/-- INF_BLOCK is its block after its checks. -/
theorem State.OutputOpen.infBlockBody_eq (h : s.OutputOpen ps) (hv : s.start.br.valid = true) :
    infBlockBody s.running.snap (s.entry (ps.map .allocResp)) =
      (infBlock >>= fun x => getE >>= fun e => pure ⟨x.1, x.2, e.inf.out, e.inf.len⟩) (s.blockEntry ps) := by
  rw [infBlockBody, EngM.bind_ok (needBits_ok (e := s.entry (ps.map .allocResp)) hv),
    EngM.bind_ok (needOutput_ok (e := s.entry (ps.map .allocResp)) h.isOpen),
    EngM.bind_ok (needOutputApart_ok (e := s.entry (ps.map .allocResp)) h.apart),
    EngM.bind_ok (useSource_regions (e := s.entry (ps.map .allocResp)) h.ready.placed),
    EngM.bind_ok (useOutput_ok (e := { s.entry (ps.map .allocResp) with regions := _ }) h.ready.placed)]
  simp only [h.ready.regions, List.append_nil]
  rfl

theorem State.blockEntry_canRead (c : CanRead s.start) (ps : List Word) : CanRead (s.blockEntry ps) :=
  ⟨c.valid, c.reader, c.source, c.mode⟩

/-! ### Room at the start -/

variable {ns : List Nat}

/-- The grants to a command: the allocator's answers with what was asked. -/
def State.grants (s : State) (ns : List Nat) (ps : List Word) : List (Word × Nat) := ps.zip (s.asks ns)

theorem State.grants_asked (h : ps.length = (s.asks ns).length) : (s.grants ns ps).map Prod.snd = s.asks ns :=
  List.map_snd_zip h.ge

theorem State.grants_answers (h : ps.length = (s.asks ns).length) :
    (s.grants ns ps).map (fun g => PortMove.allocResp g.1) = ps.map .allocResp := by
  rw [← Function.comp_def PortMove.allocResp Prod.fst, ← List.map_map, State.grants, List.map_fst_zip h.le]

theorem State.Room.hasRoom (r : s.Room ns ps) : HasRoom (s.blockEntry ps) ns (s.grants ns ps) where
  isOpen := r.opened.isOpen
  output := r.opened.output
  live := r.opened.ready.live
  moves := (State.grants_answers r.answers).symm
  asked := State.grants_asked r.answers
  grows hne := r.grows fun h => hne (by rw [State.grants, h, List.zip_nil_right])
  granted g hg := by
    obtain ⟨nonzero, range, hs, hi⟩ := r.granted g hg
    refine ⟨⟨nonzero, range, fun t ht hin => ?_⟩, hi⟩
    rcases List.mem_cons.1 ht with rfl | ht
    · cases hin
    · exact overlap_sourceRegions ht hs

theorem State.Room.inflating (r : s.Room ns ps) (c : CanRead s.start) :
    Inflating (s.blockEntry ps) s.outputBefore s.start.bitsAhead where
  reads := State.blockEntry_canRead c ps
  apart := r.apart
  range := r.opened.output.range r.opened.isOpen
  len := by rw [State.outputBefore, Memory.read_length]; rfl
  data := by rw [State.outputBefore, Memory.read_length]; rfl
  ahead := rfl

/-! ### What a run leaves alone -/

variable {f : Eng} {h0 h1 h2 : Huff} {n k : Nat}

/-- The frame of a command that has put `n` bytes in the output, in an engine `g` that differs from the last one of the run only in
what the command has written. -/
theorem Grows.outputFrame {g : Eng} (gr : Grows ((s.blockEntry ps).withTables h0 h1 h2 k) f n (s.grants ns ps))
    (hw : s.start.written = []) (hlen : ps.length = (s.asks ns).length) (hn : n ≤ ns.sum)
    (hmem : ∀ x, ¬ f.Wrote x → g.mem.get x = f.mem.get x) (hsize : g.allocSize = f.allocSize) (hptr : g.allocPtr = f.allocPtr)
    (hsrc : g.srcReqLen = f.srcReqLen) : OutputFrame s ns ps g := by
  have kept : ∀ x, Keeps ((s.blockEntry ps).withTables h0 h1 h2 k) f x → g.mem.get x = s.start.mem.get x := by
    rintro x ⟨hx, hwrote⟩
    refine (hmem x fun h => ?_).trans hx
    obtain ⟨w, hwm, -⟩ := hwrote h
    have hwm : w ∈ s.start.written := hwm
    rw [hw] at hwm
    cases hwm
  have hasked := State.grants_asked hlen
  refine ⟨fun x hx => kept x (gr.outside x ⟨hx _ List.mem_cons_self, fun c hc => ?_⟩), fun hnil => ?_, fun c hc => ?_, ?_⟩
  · exact hx _ (List.mem_cons_of_mem _ (List.mem_map_of_mem hc))
  · obtain ⟨keep, hs, hp⟩ := gr.still (by rw [State.grants, hnil, List.zip_nil_right])
    refine ⟨fun x hx => kept x (keep x ?_), hsize.trans hs, hptr.trans hp⟩
    show x < s.start.inf.out + s.start.inf.len ∨ s.start.inf.out + s.start.inf.len + n ≤ x
    omega
  · have hbuf : s.outputs ns ps = (s.start.inf.out, s.start.inf.cap) :: (s.grants ns ps).map fun g => (g.1.toNat, g.2) := rfl
    rcases List.eq_nil_or_concat' (s.grants ns ps) with hgs | ⟨hs, d, hgs⟩
    · rw [← hasked, hgs] at hc
      cases hc
    · rw [← hasked, hgs, List.map_append, List.map_singleton, List.getLast?_concat] at hc
      obtain rfl := Option.some.inj hc
      obtain ⟨ha, hp⟩ := gr.asked hs d hgs
      refine ⟨hsize.trans ha, hptr.trans (hp.trans ?_)⟩
      rw [hbuf, hgs, List.map_append, List.map_singleton, ← List.cons_append, List.dropLast_concat, List.getLastD_cons]
      rfl
  · rw [SameSrcPort, hsrc, gr.same]
    rfl

/-- A run that has taken all the allocator's answers is at rest, with no move left. -/
theorem Grows.atRest (gr : Grows ((s.blockEntry ps).withTables h0 h1 h2 k) f n (s.grants ns ps))
    (ready : s.Ready (ps.map .allocResp)) (hlen : ps.length = (s.asks ns).length) : AtRest f ∧ f.moves = [] := by
  refine ⟨⟨gr.live.trans ready.live, ?_, gr.allocReq ready.allocReq⟩, ?_⟩
  · rw [gr.same]; exact ready.srcReq
  · have := gr.moves
    rw [State.grants_answers hlen] at this
    exact List.self_eq_append_right.1 this

/-! ### The ends of INF_BLOCK -/

/-- INF_BLOCK whose block raises an error fails, and leaves alone what it has not written. -/
theorem blockFails_of_run {code info : Nat} (opened : s.OutputOpen ps) (hv : s.start.br.valid = true)
    (hlen : ps.length = (s.asks ns).length) (hrun : infBlock (s.blockEntry ps) = .error (.raise code info) f)
    (gr : Grows ((s.blockEntry ps).withTables h0 h1 h2 k) f n (s.grants ns ps)) (hn : n ≤ ns.sum) (hc : code / 256 ≠ 6)
    (hinfo : info < 2 ^ 32) : BlockFails s ns ps code info := by
  obtain ⟨rest, hm⟩ := gr.atRest opened.ready hlen
  obtain ⟨hx, hf⟩ := opened.ready.fails (i := .infBlock) rfl ((opened.infBlockBody_eq hv).trans (EngM.bind_error hrun)) rest hm hinfo
  have heng : (s.fail .unit code info f).eng = f.spoilHostRegions.invalidateUnits.idle := by
    rw [State.fail_eng, if_pos (show failClearsUnits .unit code = true from decide_eq_true hc)]
  refine ⟨_, hx, hf, unitsInvalid_fail_unit s info hc f, ?_⟩
  rw [heng]
  refine gr.outputFrame opened.ready.written hlen hn (fun x hx => Memory.get_scrambleAll _ _ _ _ _ fun w hw hxw => ?_) rfl rfl rfl
  exact hx ⟨w, (List.mem_filter.1 hw).1, hxw⟩

/-- INF_BLOCK whose block succeeds completes with the grown output. -/
theorem blockDone_of_run {final : Bool} {type : Nat} {after : List Byte} {rest : List Bool} (r : s.Room ns ps)
    (hv : s.start.br.valid = true) (ht : type < 4) (hrun : infBlock (s.blockEntry ps) = .ok (final.toNat, type) f)
    (gr : Grows ((s.blockEntry ps).withTables h0 h1 h2 k) f ns.sum (s.grants ns ps)) (room : HasRoom f [] [])
    (hi : Inflating f after rest) :
    ∃ t, exec .infBlock s = .next t ∧ (t.eng.ht0 = h0 ∧ t.eng.ht1 = h1 ∧ t.eng.ht2 = h2) ∧
      BlockDone s t final type ns ps after rest := by
  obtain ⟨hrest, hm⟩ := gr.atRest r.opened.ready r.answers
  have hlen := hi.len
  have hbuf : (f.inf.out, f.inf.cap) = s.outputAtEnd ns ps := by
    rw [gr.buffer, State.outputAtEnd, State.outputs, List.getLastD_cons]
    rfl
  have hout : f.inf.out = (s.outputAtEnd ns ps).1 := congrArg Prod.fst hbuf
  have hcap : f.inf.cap = (s.outputAtEnd ns ps).2 := congrArg Prod.snd hbuf
  have hle := room.output.len room.isOpen
  have hcap32 := room.output.cap room.isOpen
  obtain ⟨hx, hc⟩ := r.opened.ready.completes_with (i := .infBlock) (x := ⟨final.toNat, type, f.inf.out, f.inf.len⟩) rfl
    ((r.opened.infBlockBody_eq hv).trans (EngM.bind_ok hrun)) hrest hm (toNat_lt_two_pow final) (by show type < _; omega)
    (room.output.out room.isOpen) (by show f.inf.len < _; omega)
  refine ⟨_, hx, ?_, ?_, ?_, ?_, hi.ahead, hi.reads.valid, ?_, ?_⟩
  · obtain ⟨e0, e1, e2⟩ := gr.slots
    exact ⟨e0, e1, e2⟩
  · rw [← hout, ← hlen]
    simpa only [ofNat_toNat_bool] using hc
  · rw [← hout]
    exact hi.data
  · show f.inf = _
    rw [← hout, ← hcap, ← hlen, gr.inf]
    rfl
  · show f.bs = _
    rw [gr.same]
    rfl
  · exact gr.outputFrame r.opened.ready.written r.answers le_rfl (fun _ _ => rfl) rfl rfl rfl

end

end Sys2Proof.Machine
end

section
/-! SUPPORT. The symbols of a block up to its end or to one that fails it, and the obligation on fixed-Huffman blocks
(42_lz77_decompressor.md R204, R210). -/

namespace Sys2Proof.Machine

/-! ### Reads that set tables -/

/-- `f` is `e` after reads of the BitReader and changes of the Huffman slots. -/
def Scans (e f : Eng) : Prop := ReadsOn (e.withTables f.ht0 f.ht1 f.ht2 f.free) f

section
variable {e f g : Eng}

theorem ReadsOn.withTables (h : ReadsOn e f) (h0 h1 h2 : Huff) (k : Nat) :
    ReadsOn (e.withTables h0 h1 h2 k) (f.withTables h0 h1 h2 k) :=
  ⟨by rw [h.same], h.source, h.buffer⟩

theorem ReadsOn.scans (h : ReadsOn e f) : Scans e f := by
  have : e.withTables f.ht0 f.ht1 f.ht2 f.free = e := by rw [h.same]
  rwa [Scans, this]

theorem Scans.trans (h : Scans e f) (h' : Scans f g) : Scans e g := (h.withTables g.ht0 g.ht1 g.ht2 g.free).trans h'

theorem scans_withTables (e : Eng) (h0 h1 h2 : Huff) (k : Nat) : Scans e (e.withTables h0 h1 h2 k) := .refl _

theorem scans_setSlot (e : Eng) (t : Nat) (h : Huff) (k : Nat) : Scans e { e.setSlot t h with free := k } := by
  rw [Eng.setSlot_same]
  exact .refl _

theorem Scans.grows (h : Scans e f) : Grows (e.withTables f.ht0 f.ht1 f.ht2 f.free) f 0 [] := ReadsOn.grows h

theorem Scans.grows_trans {n : Nat} {gs : List (Word × Nat)} (h : Scans e f) (h' : Grows f g n gs) :
    Grows (e.withTables g.ht0 g.ht1 g.ht2 g.free) g n gs := by
  have hf : e.withTables g.ht0 g.ht1 g.ht2 g.free = e.withTables f.ht0 f.ht1 f.ht2 f.free := by rw [h'.same]
  rw [hf]
  exact ReadsOn.grows_trans h h'

theorem Scans.inflating {out : List Byte} {bits bits' : List Bool} (h : Scans e f) (hi : Inflating e out bits) (c : CanRead f)
    (hb : f.bitsAhead = bits') : Inflating f out bits' :=
  Inflating.readsOn (e := e.withTables f.ht0 f.ht1 f.ht2 f.free)
    ⟨⟨hi.reads.valid, hi.reads.reader, hi.reads.source, hi.reads.mode⟩, hi.apart, hi.range, hi.len, hi.data, hi.ahead⟩ h c hb

theorem Scans.hasRoom {ns : List Nat} {gs : List (Word × Nat)} (h : Scans e f) (r : HasRoom e ns gs) : HasRoom f ns gs :=
  HasRoom.reads (e := e.withTables f.ht0 f.ht1 f.ht2 f.free)
    ⟨r.isOpen, r.output, r.live, r.moves, r.asked, r.grows,
      fun g hg => ⟨⟨(r.granted g hg).1.nonzero, (r.granted g hg).1.range, (r.granted g hg).1.regions⟩, (r.granted g hg).2⟩⟩ h

theorem Scans.inf (h : Scans e f) : f.inf = e.inf := by rw [ReadsOn.same h]

theorem CanRead.setSlot (c : CanRead e) (t : Nat) (h : Huff) : CanRead (e.setSlot t h) := by
  rw [Eng.setSlot_same]
  exact ⟨c.valid, c.reader, c.source, c.mode⟩

theorem Eng.setSlot_bitsAhead (e : Eng) (t : Nat) (h : Huff) : (e.setSlot t h).bitsAhead = e.bitsAhead := by
  rw [Eng.setSlot_same]
  rfl

end

/-! ### A symbol that fails the block -/

theorem distance_le : ∀ d < 30, dbase.getD d 0 + 2 ^ dextra.getD d 0 ≤ 32769 := by decide

theorem BadSymbol.error_fits {P0 P1 : Nat → Prop} {sym dsym : Nat → List Bool} {inf : InflateOut} {out : Nat} {bits : List Bool}
    {code info : Nat} (h : BadSymbol P0 P1 sym dsym inf out bits code info) : code / 256 ≠ 6 ∧ info < 2 ^ 32 := by
  cases h with
  | length z h => exact ⟨by decide, by omega⟩
  | distance j le d hj c hl h => exact ⟨by decide, by omega⟩
  | far j le d de hj c hl hd cd he =>
    have := distance_le d hd
    exact ⟨by decide, by omega⟩
  | litFull b c hr h hn => exact ⟨by decide, hn⟩
  | copyFull j le d de hj c hl hd cd he h hr hf hn => exact ⟨by decide, hn⟩

/-- A distance symbol that stands for no distance. -/
theorem readMatch_fails {e : Eng} {dist : Nat → List Bool} {j le d : Nat} {rest : List Bool} (hj : j < 29)
    (hle : le < 2 ^ lextra.getD j 0) (hd : 30 ≤ d) (hr : (e.slot 1).Reads d (dist d)) (c : CanRead e)
    (h : e.bitsAhead = emit le (lextra.getD j 0) ++ dist d ++ rest) :
    ∃ f, readMatch (257 + j) e = .error (.raise 0x0301 d) f ∧ ReadsOn e f := by
  rw [List.append_assoc] at h
  obtain ⟨f, hf, rf, cf, bf⟩ := brGet_emit (lextra_le j hj) hle c h
  obtain ⟨g, hg, rg, cg, bg⟩ := hr 1 f _ (rf.slot 1) cf bf
  refine ⟨g, ?_, rf.trans rg⟩
  rw [readMatch]
  simp only [Nat.add_sub_cancel_left]
  rw [EngM.bind_ok hf, EngM.bind_ok hg, ensure_bind_fails (by simpa using hd)]

section
variable {P0 P1 : Nat → Prop} {sym dsym : Nat → List Bool} {e : Eng} {rest : List Bool}

/-- A length symbol is followed by its match. -/
theorem infCodes_length {j fuel : Nat} {bits : List Bool} (hj : j < 29) (r0 : (e.slot 0).Reads (257 + j) (sym (257 + j)))
    (c : CanRead e) (h : e.bitsAhead = sym (257 + j) ++ bits) :
    ∃ f, infCodes (fuel + 1) e =
        (readMatch (257 + j) >>= fun m => infCopy m.1 m.2 >>= fun _ => infCodes fuel) f ∧ ReadsOn e f ∧ CanRead f ∧
      f.bitsAhead = bits := by
  obtain ⟨f, hf, ro, cf, bf⟩ := r0 0 e _ rfl c h
  refine ⟨f, ?_, ro, cf, bf⟩
  rw [infCodes, EngM.bind_ok hf, EngM.ite_run, if_neg (by omega), EngM.ite_run, if_neg (by omega),
    ensure_bind (decide_eq_true (by omega))]

/-- A bad symbol fails the loop, before anything joins the output (42_lz77_decompressor.md R191, R193, R210). -/
theorem infCodes_bad {inf : InflateOut} {out code info : Nat} {bits : List Bool}
    (hb : BadSymbol P0 P1 sym dsym inf out bits code info)
    (r0 : ∀ z, P0 z → z < 288 → (e.slot 0).Reads z (sym z)) (r1 : ∀ d, P1 d → d < 32 → (e.slot 1).Reads d (dsym d))
    (c : CanRead e) (hlen : e.inf.len = out)
    (hfix : inf.realloc = false → e.inf.realloc = false ∧ e.inf.cap = inf.cap) (h : e.bitsAhead = bits ++ rest) (fuel : Nat) :
    ∃ f, infCodes (fuel + 1) e = .error (.raise code info) f ∧ ReadsOn e f := by
  have full : ∀ {f : Eng} {n : Nat}, ReadsOn e f → inf.realloc = false → inf.cap < out + n →
      outReserve n f = .error (.raise 0x0403 (out + n)) f := fun {f n} ro hr hf => by
    obtain ⟨hre, hcap⟩ := hfix hr
    have hinf : f.inf = e.inf := by rw [ro.same]
    rw [outReserve_fixed_full (by rw [hinf]; omega) (by rw [hinf]; exact hre), hinf, hlen]
  cases hb with
  | length z hz cz =>
    obtain ⟨f, hf, ro, -, -⟩ := r0 _ cz (by omega) 0 e _ rfl c h
    refine ⟨f, ?_, ro⟩
    rw [infCodes, EngM.bind_ok hf, EngM.ite_run, if_neg (by omega), EngM.ite_run, if_neg (by omega),
      ensure_bind_fails (decide_eq_false (by omega))]
  | distance j le d hj cj hl hd cd =>
    rw [List.append_assoc, List.append_assoc] at h
    obtain ⟨f, hf, ro, cf, bf⟩ := infCodes_length (fuel := fuel) hj (r0 _ cj (by omega)) c h
    rw [← List.append_assoc] at bf
    obtain ⟨g, hg, rg⟩ := readMatch_fails hj hl (by omega) (by rw [ro.slot]; exact r1 _ cd (by omega)) cf bf
    exact ⟨g, by rw [hf, EngM.bind_error hg], ro.trans rg⟩
  | litFull b cb hr hf _ =>
    obtain ⟨f, hf', ro, -, -⟩ := r0 b.toNat cb (by have := b.isLt; omega) 0 e _ rfl c h
    refine ⟨f, ?_, ro⟩
    rw [infCodes, EngM.bind_ok hf', EngM.ite_run, if_pos b.isLt, outPut, bind_assoc, EngM.bind_error (full ro hr hf)]
  | far j le d de hj cj hl hd cd he hfar =>
    rw [List.append_assoc, List.append_assoc, List.append_assoc] at h
    obtain ⟨f, hf, ro, cf, bf⟩ := infCodes_length (fuel := fuel) hj (r0 _ cj (by omega)) c h
    rw [← List.append_assoc, ← List.append_assoc] at bf
    obtain ⟨g, hg, rg, -, -⟩ := readMatch_ok hj hl hd he (by rw [ro.slot]; exact r1 d cd (by omega)) cf bf
    have hinf : g.inf = e.inf := by rw [rg.same, ro.same]
    exact ⟨g, by rw [hf, EngM.bind_ok hg, EngM.bind_error (infCopy_far (by rw [hinf, hlen]; exact hfar))], ro.trans rg⟩
  | copyFull j le d de hj cj hl hd cd he hback hr hf' _ =>
    rw [List.append_assoc, List.append_assoc, List.append_assoc] at h
    obtain ⟨f, hf, ro, cf, bf⟩ := infCodes_length (fuel := fuel) hj (r0 _ cj (by omega)) c h
    rw [← List.append_assoc, ← List.append_assoc] at bf
    obtain ⟨g, hg, rg, -, -⟩ := readMatch_ok hj hl hd he (by rw [ro.slot]; exact r1 d cd (by omega)) cf bf
    have hinf : g.inf = e.inf := by rw [rg.same, ro.same]
    refine ⟨g, ?_, ro.trans rg⟩
    rw [hf, EngM.bind_ok hg, infCopy, bind_assoc, getE_bind, bind_assoc,
      ensure_bind (decide_eq_true (by rw [hinf, hlen]; exact hback)), bind_assoc, EngM.bind_error (full (ro.trans rg) hr hf')]

/-! ### The loop with its bound -/

theorem length_le_flatMap {α β : Type} (f : α → List β) {l : List α} (h : ∀ x ∈ l, 1 ≤ (f x).length) :
    l.length ≤ (l.flatMap f).length := by
  induction l with
  | nil => exact Nat.zero_le _
  | cons x l ih =>
    have := h x List.mem_cons_self
    have := ih fun y hy => h y (List.mem_cons_of_mem _ hy)
    rw [List.flatMap_cons, List.length_append, List.length_cons]
    omega

/-- What the symbols of a block ask of its two codes: each has its codes, of at least one bit, and its tokens may stand there. -/
structure SymbolsRead (h0 h1 : Huff) (lit dist : Nat → List Bool) (out : List Byte) (ys : List BlockSym) : Prop where
  fits : ∀ y ∈ ys, y.Fits
  reads : ∀ y ∈ ys, y.ReadBy h0 h1 lit dist
  nonempty : ∀ y ∈ ys, 1 ≤ (y.bitsBy lit dist).length
  valid : TokensValid out (ys.map BlockSym.token)

/-- The bound of the loop is above the number of symbols ahead (70_reset_and_hazards.md R457). -/
theorem infSymbols_symbols {ys : List BlockSym} {out : List Byte} {gs : List (Word × Nat)}
    (hy : SymbolsRead (e.slot 0) (e.slot 1) sym dsym out ys) (room : HasRoom e ((ys.map BlockSym.token).map Token.size) gs)
    (h : Inflating e out (ys.flatMap (BlockSym.bitsBy sym dsym) ++ rest)) :
    ∃ f k, infSymbols e = infCodes (k + 1) f ∧ Grows e f ((ys.map BlockSym.token).map Token.size).sum gs ∧ HasRoom f [] [] ∧
      Inflating f ((ys.map BlockSym.token).foldl Token.apply out) rest := by
  obtain ⟨f, hf, gr, roomf, hi⟩ := infCodes_symbols ys hy.fits hy.reads hy.valid room h
  have hle : ys.length ≤ e.bitsLeft := by
    have := length_le_flatMap _ hy.nonempty
    rw [bitsLeft_eq h.reads, h.ahead, List.length_append]
    omega
  refine ⟨f, e.bitsLeft - ys.length, ?_, gr, roomf, hi⟩
  rw [infSymbols, getE_bind, ← hf]
  congr 1
  omega

/-- The end-of-block symbol ends the loop. -/
theorem infCodes_end (r : (e.slot 0).Reads 256 (sym 256)) (c : CanRead e) (h : e.bitsAhead = sym 256 ++ rest) (fuel : Nat) :
    ∃ f, infCodes (fuel + 1) e = .ok () f ∧ ReadsOn e f ∧ CanRead f ∧ f.bitsAhead = rest := by
  obtain ⟨f, hf, ro, cf, bf⟩ := r 0 e _ rfl c h
  refine ⟨f, ?_, ro, cf, bf⟩
  rw [infCodes, EngM.bind_ok hf]
  rfl

end

/-! ### A block of symbols -/

section
variable {s : State} {ps : List Word} {final : Bool} {type : Nat} {ys : List BlockSym} {lit dist : Nat → List Bool}
  {rest : List Bool} {e : Eng} (r : s.Room ((ys.map BlockSym.token).map Token.size) ps) (c : CanRead s.start)
  (hrun : infBlock (s.blockEntry ps) = (infSymbols >>= fun _ => pure (final.toNat, type)) e) (sc : Scans (s.blockEntry ps) e)
  (ce : CanRead e) (hy : SymbolsRead (e.slot 0) (e.slot 1) lit dist s.outputBefore ys)
include r c hrun sc ce hy

/-- A block of symbols up to the end-of-block symbol completes INF_BLOCK. -/
theorem symbolBlock_done (ht : type < 4) (hend : (e.slot 0).Reads 256 (lit 256))
    (ha : e.bitsAhead = ys.flatMap (BlockSym.bitsBy lit dist) ++ (lit 256 ++ rest)) :
    ∃ t, exec .infBlock s = .next t ∧ (t.eng.ht0 = e.ht0 ∧ t.eng.ht1 = e.ht1 ∧ t.eng.ht2 = e.ht2) ∧
      BlockDone s t final type ((ys.map BlockSym.token).map Token.size) ps
        ((ys.map BlockSym.token).foldl Token.apply s.outputBefore) rest := by
  obtain ⟨f, k, hf, gr, room, hi⟩ := infSymbols_symbols hy (sc.hasRoom r.hasRoom) (sc.inflating (r.inflating c) ce ha)
  obtain ⟨g, hg, ro, cg, bg⟩ := infCodes_end (sym := lit) (by rw [gr.slot]; exact hend) hi.reads hi.ahead k
  have gr' := sc.grows_trans (gr.reads ro)
  obtain ⟨s0, s1, s2⟩ := (gr.reads ro).slots
  rw [s0, s1, s2] at gr'
  exact blockDone_of_run r c.valid ht (hrun.trans (by rw [EngM.bind_ok (hf.trans hg), EngM.pure_run])) gr'
    (room.reads ro) (hi.readsOn ro cg bg)

/-- A block of symbols up to a bad one fails INF_BLOCK. -/
theorem symbolBlock_fails {P0 P1 : Nat → Prop} {bits : List Bool} {code info : Nat}
    (r0 : ∀ z, P0 z → z < 288 → (e.slot 0).Reads z (lit z)) (r1 : ∀ d, P1 d → d < 32 → (e.slot 1).Reads d (dist d))
    (hb : BadSymbol P0 P1 lit dist s.start.inf ((ys.map BlockSym.token).foldl Token.apply s.outputBefore).length bits code info)
    (ha : e.bitsAhead = ys.flatMap (BlockSym.bitsBy lit dist) ++ (bits ++ rest)) :
    BlockFails s ((ys.map BlockSym.token).map Token.size) ps code info := by
  obtain ⟨f, k, hf, gr, room, hi⟩ := infSymbols_symbols hy (sc.hasRoom r.hasRoom) (sc.inflating (r.inflating c) ce ha)
  have hfix : s.start.inf.realloc = false → f.inf.realloc = false ∧ f.inf.cap = s.start.inf.cap := fun hr => by
    have hnil := r.hasRoom.fixed hr
    rw [hnil] at gr
    rw [gr.inf, sc.inf]
    exact ⟨hr, rfl⟩
  obtain ⟨g, hg, ro⟩ := infCodes_bad hb (fun z hz => by rw [gr.slot]; exact r0 z hz) (fun d hd => by rw [gr.slot]; exact r1 d hd)
    hi.reads hi.len hfix hi.ahead k
  obtain ⟨hc, hinfo⟩ := hb.error_fits
  exact blockFails_of_run r.opened c.valid r.answers (hrun.trans (EngM.bind_error (hf.trans hg)))
    (sc.grows_trans (gr.reads ro)) le_rfl hc hinfo

end

/-! ### Fixed-Huffman blocks (42_lz77_decompressor.md R204) -/

/-- After the header of a fixed-Huffman block the two fixed tables stand, and its symbols are ahead. -/
theorem infBlock_fixedHeader {e : Eng} {final : Bool} {bits : List Bool} (c : CanRead e)
    (h : e.bitsAhead = final :: true :: false :: bits) :
    ∃ f, infBlock e = (infSymbols >>= fun _ => pure (final.toNat, 1)) f ∧ Scans e f ∧ CanRead f ∧ f.bitsAhead = bits ∧
      f.ht2 = e.ht2 ∧ (∀ z, z < 288 → (f.slot 0).Reads z (emitSym z)) ∧ ∀ d, d < 32 → (f.slot 1).Reads d (emitDist d) := by
  obtain ⟨f, g, hf, hg, rg, cg, bg⟩ := blockHeader_ok (type := 1) (by omega) c h
  obtain ⟨h0, h1, hfix, r0, r1⟩ := buildFixed_reads
  refine ⟨(g.setSlot 0 h0).setSlot 1 h1, ?_, ?_, (cg.setSlot 0 h0).setSlot 1 h1, bg, ?_, r0, r1⟩
  · rw [infBlock, EngM.bind_ok hf, EngM.bind_ok hg, if_neg (by omega), if_pos rfl, EngM.bind_ok (hfix g)]
  · exact rg.scans.trans (scans_withTables g h0 h1 g.ht2 g.free)
  · rw [rg.same]
    rfl

theorem BlockSym.one_le_length_bitsBy {lit dist : Nat → List Bool} {y : BlockSym} (h : ∀ z, 1 ≤ (lit z).length) :
    1 ≤ (y.bitsBy lit dist).length := by
  cases y with
  | lit b => exact h _
  | copy j le d de =>
    have := h (257 + j)
    simp only [bitsBy, List.length_append]
    omega

/-- Settles O40: the header leaves the fixed tables, under which each token's symbol joins the output, up to the end-of-block symbol or
to a bad one. -/
theorem infBlockExpandsFixedTokens : Obligations.InfBlockExpandsFixedTokens := by
  unfold Obligations.InfBlockExpandsFixedTokens
  intro s final ts ps rest room hv hr hs hm hvalid after block
  have c : CanRead s.start := ⟨hv, hr, hs, hm⟩
  obtain ⟨ys, rfl, hfits, hbits⟩ := exists_blockSyms hvalid
  have start : ∀ tail, block tail → ∃ e, infBlock (s.blockEntry ps) = (infSymbols >>= fun _ => pure (final.toNat, 1)) e ∧
      Scans (s.blockEntry ps) e ∧ CanRead e ∧ e.bitsAhead = ys.flatMap (BlockSym.bitsBy emitSym emitDist) ++ (tail ++ rest) ∧
      e.ht2 = s.start.ht2 ∧ (∀ z, z < 288 → (e.slot 0).Reads z (emitSym z)) ∧ ∀ d, d < 32 → (e.slot 1).Reads d (emitDist d) := by
    intro tail htail
    rw [← hbits, ← List.append_assoc]
    exact infBlock_fixedHeader (State.blockEntry_canRead c ps) htail
  have symbols : ∀ {e : Eng}, (∀ z, z < 288 → (e.slot 0).Reads z (emitSym z)) → (∀ d, d < 32 → (e.slot 1).Reads d (emitDist d)) →
      SymbolsRead (e.slot 0) (e.slot 1) emitSym emitDist s.outputBefore ys := fun r0 r1 =>
    ⟨hfits, fun y hy => (hfits y hy).readBy r0 r1, fun _ _ => BlockSym.one_le_length_bitsBy emitSym_ne_nil, hvalid⟩
  refine ⟨fun hblock => ?_, fun bits code info hb hblock => ?_⟩
  · obtain ⟨e, hrun, sc, ce, ha, h2, r0, r1⟩ := start _ hblock
    obtain ⟨t, hx, ⟨-, -, t2⟩, hd⟩ := symbolBlock_done room c hrun sc ce (symbols r0 r1) (by omega) (r0 256 (by omega)) ha
    exact ⟨t, hx, t2.trans h2, hd⟩
  · obtain ⟨e, hrun, sc, ce, ha, -, r0, r1⟩ := start _ hblock
    exact symbolBlock_fails room c hrun sc ce (symbols r0 r1) (fun z _ => r0 z) (fun d _ => r1 d) hb ha

end Sys2Proof.Machine
end

section
/-! SUPPORT. The header of a dynamic block: the code lengths that its items give, and the tables that it leaves
(42_lz77_decompressor.md R208; 30_encoding.md R100, R104). -/

namespace Sys2Proof.Machine

/-! ### The items of the code lengths -/

/-- The count and the length that an item adds after the lengths `out`. -/
def LenItem.run (out : List Nat) : LenItem → Nat × Nat
  | .len l => (1, l)
  | .again n => (n, out.getLastD 0)
  | .zeros n => (n, 0)
  | .manyZeros n => (n, 0)

theorem LenItem.apply_eq (out : List Nat) (x : LenItem) : x.apply out = out ++ List.replicate (x.run out).1 (x.run out).2 := by
  cases x <;> rfl

theorem LenItem.length_apply (out : List Nat) (x : LenItem) : (x.apply out).length = out.length + (x.run out).1 := by
  rw [apply_eq, List.length_append, List.length_replicate]

/-- The bits of an item after those of its symbol. -/
def LenItem.extra : LenItem → List Bool
  | .len _ => []
  | .again n => emit (n - 3) 2
  | .zeros n => emit (n - 3) 3
  | .manyZeros n => emit (n - 11) 7

theorem LenItem.bits_eq (cl : List Nat) (x : LenItem) : x.bits cl = codeBits cl x.symbol ++ x.extra := by
  cases x <;> rfl

section
variable {cl : List Nat} {x : LenItem} {out : List Nat}

/-- The symbols below 16 are lengths. -/
theorem LenItem.Coded.symbol_lt_iff (h : x.Coded cl) : x.symbol < 16 ↔ ∃ l, x = .len l := by
  obtain ⟨-, h⟩ := h
  cases x with
  | len l => exact ⟨fun _ => ⟨l, rfl⟩, fun _ => Nat.lt_succ_of_le h⟩
  | again n | zeros n | manyZeros n => simp [symbol]

/-- The symbol 16 repeats the length before it. -/
theorem LenItem.Coded.exists_again (h : x.Coded cl) (h16 : x.symbol = 16) : ∃ n, x = .again n := by
  obtain ⟨-, h⟩ := h
  cases x with
  | again n => exact ⟨n, rfl⟩
  | len l => exact absurd h16 (Nat.ne_of_lt (Nat.lt_succ_of_le h))
  | zeros n | manyZeros n => cases h16

theorem LenItem.Coded.one_le_run (h : x.Coded cl) : 1 ≤ (x.run out).1 := by
  obtain ⟨-, h⟩ := h
  cases x with
  | len l => exact le_rfl
  | again n | zeros n | manyZeros n => exact le_trans (by decide) h.1

theorem LenItem.Coded.apply_le (h : x.Coded cl) (ho : ∀ l ∈ out, l ≤ 15) : ∀ l ∈ x.apply out, l ≤ 15 := by
  intro l hl
  rw [apply_eq] at hl
  rcases List.mem_append.1 hl with hl | hl
  · exact ho l hl
  · rw [List.eq_of_mem_replicate hl]
    cases x with
    | len l => exact h.2
    | again n =>
      rcases List.eq_nil_or_concat' out with rfl | ⟨out, v, rfl⟩
      · exact Nat.zero_le _
      · simpa [run] using ho v (by simp)
    | zeros n | manyZeros n => exact Nat.zero_le _

theorem lenItems_le {xs : List LenItem} (h : LenItemsValid cl out xs) (ho : ∀ l ∈ out, l ≤ 15) :
    ∀ l ∈ xs.foldl LenItem.apply out, l ≤ 15 := by
  induction xs generalizing out with
  | nil => exact ho
  | cons x xs ih =>
    obtain ⟨hx, -, hxs⟩ := h
    exact ih hxs (hx.apply_le ho)

/-- Each item adds a length. -/
theorem length_le_foldl_lenItems {xs : List LenItem} (h : LenItemsValid cl out xs) :
    out.length + xs.length ≤ (xs.foldl LenItem.apply out).length := by
  induction xs generalizing out with
  | nil => exact le_rfl
  | cons x xs ih =>
    obtain ⟨hx, -, hxs⟩ := h
    have h1 := hx.one_le_run (out := out)
    have h2 := ih hxs
    rw [LenItem.length_apply] at h2
    rw [List.length_cons, List.foldl_cons]
    omega

/-! ### Reading the items (42_lz77_decompressor.md R208) -/

variable {e : Eng} {rest : List Bool} {ntot : Nat}

/-- The extra bits of a repeat. -/
theorem readRepeat_ok (hx : x.Coded cl) (h16 : 16 ≤ x.symbol) (hrep : ∀ n, x = .again n → out ≠ []) (c : CanRead e)
    (ha : e.bitsAhead = x.extra ++ rest) :
    ∃ f, readRepeat x.symbol out.reverse e = .ok (x.run out) f ∧ ReadsOn e f ∧ CanRead f ∧ f.bitsAhead = rest := by
  have hlen := hx.symbol_lt_iff.not.1 (by omega)
  obtain ⟨-, hx⟩ := hx
  cases x with
  | len l => exact absurd ⟨l, rfl⟩ hlen
  | again n =>
    obtain ⟨h3, h6⟩ := hx
    obtain ⟨f, hf, ro, cf, bf⟩ := brGet_emit (v := n - 3) (n := 2) (by decide) (by omega) c ha
    obtain ⟨l, v, hout⟩ := (List.eq_nil_or_concat' out).resolve_left (hrep n rfl)
    refine ⟨f, ?_, ro, cf, bf⟩
    rw [hout, List.reverse_append, readRepeat, LenItem.symbol, if_pos rfl, EngM.bind_ok hf]
    simp [LenItem.run, Nat.sub_add_cancel h3]
  | zeros n =>
    obtain ⟨h3, h10⟩ := hx
    obtain ⟨f, hf, ro, cf, bf⟩ := brGet_emit (v := n - 3) (n := 3) (by decide) (by omega) c ha
    refine ⟨f, ?_, ro, cf, bf⟩
    rw [readRepeat, LenItem.symbol, if_neg (by decide), if_pos rfl, EngM.bind_ok hf, Nat.sub_add_cancel h3]
    rfl
  | manyZeros n =>
    obtain ⟨h11, h138⟩ := hx
    obtain ⟨f, hf, ro, cf, bf⟩ := brGet_emit (v := n - 11) (n := 7) (by decide) (by omega) c ha
    refine ⟨f, ?_, ro, cf, bf⟩
    rw [readRepeat, LenItem.symbol, if_neg (by decide), if_neg (by decide), EngM.bind_ok hf, Nat.sub_add_cancel h11]
    rfl

/-- A repeat of the length before, where there is none. -/
theorem readRepeat_fails {n : Nat} (hn : 3 ≤ n ∧ n ≤ 6) (c : CanRead e) (ha : e.bitsAhead = emit (n - 3) 2 ++ rest) :
    ∃ f, readRepeat 16 [] e = .error (.raise 0x0304 16) f ∧ ReadsOn e f := by
  obtain ⟨f, hf, ro, -, -⟩ := brGet_emit (v := n - 3) (n := 2) (by decide) (by omega) c ha
  exact ⟨f, by rw [readRepeat, if_pos rfl, EngM.bind_ok hf]; rfl, ro⟩

/-- The symbol that begins an item leads to the item's extra bits. -/
theorem readLengths_symbol (hr : (e.slot 2).Reads x.symbol (codeBits cl x.symbol)) (c : CanRead e) (hlt : out.length < ntot)
    (ha : e.bitsAhead = x.bits cl ++ rest) :
    ∃ f, ReadsOn e f ∧ CanRead f ∧ f.bitsAhead = x.extra ++ rest ∧ ∀ fuel, readLengths ntot (fuel + 1) out.reverse e =
        (if x.symbol < 16 then readLengths ntot fuel (x.symbol :: out.reverse) f
        else (readRepeat x.symbol out.reverse >>= fun p =>
          ensure (decide (p.1 ≤ ntot - out.length)) 0x0304 x.symbol >>= fun _ =>
            readLengths ntot fuel (List.replicate p.1 p.2 ++ out.reverse)) f) := by
  rw [LenItem.bits_eq, List.append_assoc] at ha
  obtain ⟨f, hf, ro, cf, bf⟩ := hr 2 e _ rfl c ha
  refine ⟨f, ro, cf, bf, fun fuel => ?_⟩
  rw [readLengths, List.length_reverse, EngM.ite_run, if_pos hlt, EngM.bind_ok hf, EngM.ite_run]

/-- One turn of the loop: an item's lengths join the others. -/
theorem readLengths_item (hx : x.Coded cl) (hrep : ∀ n, x = .again n → out ≠ [])
    (hr : (e.slot 2).Reads x.symbol (codeBits cl x.symbol)) (c : CanRead e) (hfit : (x.apply out).length ≤ ntot)
    (ha : e.bitsAhead = x.bits cl ++ rest) :
    ∃ f, (∀ fuel, readLengths ntot (fuel + 1) out.reverse e = readLengths ntot fuel (x.apply out).reverse f) ∧ ReadsOn e f ∧
      CanRead f ∧ f.bitsAhead = rest := by
  have h1 := hx.one_le_run (out := out)
  rw [LenItem.length_apply] at hfit
  obtain ⟨f, ro, cf, bf, hf⟩ := readLengths_symbol hr c (by omega : out.length < ntot) ha
  by_cases h16 : x.symbol < 16
  · obtain ⟨l, rfl⟩ := hx.symbol_lt_iff.1 h16
    exact ⟨f, fun fuel => by rw [hf, if_pos h16, LenItem.apply, List.reverse_append]; rfl, ro, cf, bf⟩
  · obtain ⟨g, hg, rg, cg, bg⟩ := readRepeat_ok hx (by omega) hrep cf bf
    refine ⟨g, fun fuel => ?_, ro.trans rg, cg, bg⟩
    rw [hf, if_neg h16, EngM.bind_ok hg, ensure_bind (decide_eq_true (by omega)), LenItem.apply_eq, List.reverse_append,
      List.reverse_replicate]

/-- The items of a header give its code lengths, and the loop goes on after them. -/
theorem readLengths_items (xs : List LenItem) (hv : LenItemsValid cl out xs)
    (hr : ∀ z, cl.getD z 0 ≠ 0 → (e.slot 2).Reads z (codeBits cl z)) (c : CanRead e)
    (hfit : (xs.foldl LenItem.apply out).length ≤ ntot) (ha : e.bitsAhead = xs.flatMap (LenItem.bits cl) ++ rest) :
    ∃ f, (∀ fuel, readLengths ntot (xs.length + fuel) out.reverse e =
        readLengths ntot fuel (xs.foldl LenItem.apply out).reverse f) ∧ ReadsOn e f ∧ CanRead f ∧ f.bitsAhead = rest := by
  induction xs generalizing e out with
  | nil => exact ⟨e, fun fuel => by rw [List.length_nil, Nat.zero_add]; rfl, .refl e, c, ha⟩
  | cons x xs ih =>
    obtain ⟨hx, hrep, hxs⟩ := hv
    have hle := length_le_foldl_lenItems hxs
    rw [List.foldl_cons] at hfit
    rw [List.flatMap_cons, List.append_assoc] at ha
    obtain ⟨f, hf, ro, cf, bf⟩ := readLengths_item hx hrep (hr _ hx.1) c (by omega : (x.apply out).length ≤ ntot) ha
    obtain ⟨g, hg, rg, cg, bg⟩ := ih hxs (fun z hz => by rw [ro.slot]; exact hr z hz) cf hfit bf
    exact ⟨g, fun fuel => by rw [List.length_cons, Nat.add_right_comm, hf, hg]; rfl, ro.trans rg, cg, bg⟩

/-- An item that may not stand where it does fails the loop: a repeat with no length before it, or past the count of lengths. -/
theorem readLengths_fails (hx : x.Coded cl) (hr : (e.slot 2).Reads x.symbol (codeBits cl x.symbol)) (c : CanRead e)
    (hlt : out.length < ntot) (hbad : (out = [] ∧ x.symbol = 16) ∨ ntot < (x.apply out).length) (ha : e.bitsAhead = x.bits cl ++ rest)
    (fuel : Nat) :
    ∃ f, readLengths ntot (fuel + 1) out.reverse e = .error (.raise 0x0304 x.symbol) f ∧ ReadsOn e f := by
  obtain ⟨f, ro, cf, bf, hf⟩ := readLengths_symbol hr c hlt ha
  have h16 : ¬ x.symbol < 16 := fun h => by
    obtain ⟨l, rfl⟩ := hx.symbol_lt_iff.1 h
    have hone : ((LenItem.len l).apply out).length = out.length + 1 := LenItem.length_apply out _
    omega
  by_cases hnone : ∃ n, x = .again n ∧ out = []
  · obtain ⟨n, rfl, rfl⟩ := hnone
    obtain ⟨g, hg, rg⟩ := readRepeat_fails hx.2 cf bf
    exact ⟨g, by rw [hf, if_neg h16]; exact EngM.bind_error hg, ro.trans rg⟩
  · obtain ⟨g, hg, rg, -, -⟩ := readRepeat_ok hx (by omega) (fun n hn ho => hnone ⟨n, hn, ho⟩) cf bf
    refine ⟨g, ?_, ro.trans rg⟩
    have hover : ntot < (x.apply out).length := by
      refine hbad.resolve_left fun ⟨ho, hs⟩ => hnone ?_
      obtain ⟨n, hn⟩ := hx.exists_again hs
      exact ⟨n, hn, ho⟩
    rw [LenItem.length_apply] at hover
    rw [hf, if_neg h16, EngM.bind_ok hg, ensure_bind_fails (decide_eq_false (by omega))]

/-! ### The code-length code lengths -/

theorem readCodeLengths_ok (hcl : ∀ i, cl.getD i 0 ≤ 7) (order acc : List Nat) (c : CanRead e)
    (ha : e.bitsAhead = (order.flatMap fun i => emit (cl.getD i 0) 3) ++ rest) :
    ∃ f, readCodeLengths order acc e = .ok (order.foldl (fun l i => l.set i (cl.getD i 0)) acc) f ∧ ReadsOn e f ∧ CanRead f ∧
      f.bitsAhead = rest := by
  induction order generalizing e acc with
  | nil => exact ⟨e, rfl, .refl e, c, ha⟩
  | cons i order ih =>
    rw [List.flatMap_cons, List.append_assoc] at ha
    obtain ⟨f, hf, ro, cf, bf⟩ := brGet_emit (n := 3) (by decide) (by have := hcl i; omega) c ha
    obtain ⟨g, hg, rg, cg, bg⟩ := ih (acc.set i (cl.getD i 0)) cf bf
    exact ⟨g, by rw [readCodeLengths, EngM.bind_ok hf, hg, List.foldl_cons], ro.trans rg, cg, bg⟩

theorem length_foldl_set (order acc : List Nat) :
    (order.foldl (fun l i => l.set i (cl.getD i 0)) acc).length = acc.length := by
  induction order generalizing acc with
  | nil => rfl
  | cons i order ih => rw [List.foldl_cons, ih, List.length_set]

theorem getD_foldl_set {order acc : List Nat} {j : Nat} (hj : j < acc.length) :
    (order.foldl (fun l i => l.set i (cl.getD i 0)) acc).getD j 0 = if j ∈ order then cl.getD j 0 else acc.getD j 0 := by
  induction order generalizing acc with
  | nil => rfl
  | cons i order ih =>
    rw [List.foldl_cons, ih (by rwa [List.length_set])]
    by_cases hm : j ∈ order
    · rw [if_pos hm, if_pos (List.mem_cons_of_mem _ hm)]
    · rw [if_neg hm]
      by_cases hij : j = i
      · subst hij
        rw [if_pos List.mem_cons_self, List.getD_eq_getElem _ _ (by rwa [List.length_set]), List.getElem_set_self]
      · rw [if_neg (by simp [hij, hm]), List.getD_eq_getElem _ _ (by rwa [List.length_set]),
          List.getElem_set_ne (Ne.symm hij), List.getD_eq_getElem _ _ hj]

/-- The lengths that the header holds, in CLORDER, and zeros for the others, are the code-length code lengths. -/
theorem foldl_set_clorder {n : Nat} (h19 : cl.length = 19) (hrest : ∀ i ∈ clorder.drop n, cl.getD i 0 = 0) :
    (clorder.take n).foldl (fun l i => l.set i (cl.getD i 0)) (List.replicate 19 0) = cl := by
  have hall : ∀ j < 19, j ∈ clorder := by decide
  refine List.ext_getElem ((length_foldl_set _ _).trans (by rw [List.length_replicate, h19])) fun j h1 h2 => ?_
  rw [← List.getD_eq_getElem _ 0 h1, ← List.getD_eq_getElem _ 0 h2, getD_foldl_set (by rw [List.length_replicate]; omega)]
  by_cases hm : j ∈ clorder.take n
  · rw [if_pos hm]
  · have hj := hall j (by omega)
    rw [← List.take_append_drop n clorder] at hj
    rw [if_neg hm, hrest j ((List.mem_append.1 hj).resolve_left hm), List.getD_replicate]
    omega

end

end Sys2Proof.Machine
end

section
/-! SUPPORT. Dynamic blocks: the tables that the header builds, and the obligation on INF_BLOCK (42_lz77_decompressor.md R194, R208,
R210). -/

namespace Sys2Proof.Machine

/-! ### The header (42_lz77_decompressor.md R208) -/

/-- What follows the fields of a dynamic header: the code-length table, the items, and the two tables of the block. -/
def DynHeader.buildTables (d : DynHeader) : EngM Unit := do
  hbBuild 2 d.cl
  let acc ← readLengths (d.hlit + d.hdist) (d.hlit + d.hdist) []
  hbBuild 0 (acc.reverse.take d.hlit)
  hbBuild 1 (acc.reverse.drop d.hlit)

section
variable {d : DynHeader} {e : Eng} {bits : List Bool}

/-- The fields of a dynamic header, and then its tables. -/
theorem infDynamic_eq (ok : d.FieldsOk) (c : CanRead e) (ha : e.bitsAhead = d.fieldBits ++ bits) :
    ∃ f, infDynamic e = d.buildTables f ∧ ReadsOn e f ∧ CanRead f ∧ f.bitsAhead = bits := by
  obtain ⟨⟨hlit, hlit'⟩, ⟨hdist, hdist'⟩, ⟨hclen, hclen'⟩, ⟨h19, h7⟩, hrest⟩ := ok
  rw [DynHeader.fieldBits, List.append_assoc, List.append_assoc, List.append_assoc] at ha
  have hcl : ∀ i, d.cl.getD i 0 ≤ 7 := fun i => by
    by_cases hi : i < d.cl.length
    · rw [List.getD_eq_getElem _ _ hi]
      exact h7 _ (List.getElem_mem hi)
    · rw [List.getD_eq_default _ _ (by omega)]
      exact Nat.zero_le _
  obtain ⟨f1, hf1, r1, c1, b1⟩ := brGet_emit (n := 5) (by decide) (by omega) c ha
  obtain ⟨f2, hf2, r2, c2, b2⟩ := brGet_emit (n := 5) (by decide) (by omega) c1 b1
  obtain ⟨f3, hf3, r3, c3, b3⟩ := brGet_emit (n := 4) (by decide) (by omega) c2 b2
  obtain ⟨f4, hf4, r4, c4, b4⟩ := readCodeLengths_ok hcl (clorder.take d.hclen) (List.replicate 19 0) c3 b3
  refine ⟨f4, ?_, ((r1.trans r2).trans r3).trans r4, c4, b4⟩
  rw [foldl_set_clorder h19 hrest] at hf4
  rw [infDynamic, EngM.bind_ok hf1, EngM.bind_ok hf2, EngM.bind_ok hf3, Nat.sub_add_cancel hclen, EngM.bind_ok hf4,
    Nat.sub_add_cancel hlit, Nat.sub_add_cancel hdist]
  rfl

/-- A dynamic block up to the tables of its header. -/
theorem infBlock_dynamicHeader {final : Bool} (ok : d.FieldsOk) (c : CanRead e)
    (ha : e.bitsAhead = final :: false :: true :: (d.fieldBits ++ bits)) :
    ∃ f, infBlock e = (d.buildTables >>= fun _ => infSymbols >>= fun _ => pure (final.toNat, 2)) f ∧ ReadsOn e f ∧ CanRead f ∧
      f.bitsAhead = bits := by
  obtain ⟨f, g, hf, hg, rg, cg, bg⟩ := blockHeader_ok (type := 2) (by decide) c ha
  obtain ⟨k, hk, rk, ck, bk⟩ := infDynamic_eq ok cg bg
  refine ⟨k, ?_, rg.trans rk, ck, bk⟩
  rw [infBlock, EngM.bind_ok hf, EngM.bind_ok hg, if_neg (by decide), if_neg (by decide), if_pos rfl, EngM.bind_run, EngM.bind_run, hk]

/-! ### The tables -/

/-- A slot built of accepted lengths reads every code. -/
theorem buildSlot_reads_codes {lens : List Nat} {h : Huff} (hn : lens.length ≤ 288) (hlen : ∀ l ∈ lens, l ≤ 15)
    (hb : buildSlot lens = .ok h) {z : Nat} (hz : lens.getD z 0 ≠ 0) : h.Reads z (codeBits lens z) := by
  obtain rfl := buildSlot_ok_eq hb
  exact (fitting_of_buildSlot hn hlen hb).reads hb hz

/-- A rejected build, with only the slots changed. -/
theorem hbBuild_scans {lens : List Nat} {x : Nat × Nat} (t : Nat) (hb : buildSlot lens = .error x) (e : Eng) :
    ∃ f, hbBuild t lens e = .error (.raise x.1 x.2) f ∧ Scans e f :=
  ⟨_, hbBuild_fails hb, scans_setSlot e t _ _⟩

/-- The code-length lengths that a table rejects. -/
theorem buildTables_fails_cl {x : Nat × Nat} (hb : buildSlot d.cl = .error x) (e : Eng) :
    ∃ f, d.buildTables e = .error (.raise x.1 x.2) f ∧ Scans e f := by
  obtain ⟨f, hf, sc⟩ := hbBuild_scans 2 hb e
  exact ⟨f, EngM.bind_error hf, sc⟩

variable {h2 : Huff} (ok : d.FieldsOk) (hb2 : buildSlot d.cl = .ok h2) (hv : LenItemsValid d.cl [] d.items) (c : CanRead e)
include ok hb2 hv c

/-- The items of the header are read under the code-length table. -/
theorem buildTables_items (hle : d.lens.length ≤ d.hlit + d.hdist) (ha : e.bitsAhead = d.items.flatMap (LenItem.bits d.cl) ++ bits) :
    ∃ f k, k = d.hlit + d.hdist - d.items.length ∧ d.items.length ≤ d.lens.length ∧
      d.buildTables e = (readLengths (d.hlit + d.hdist) k d.lens.reverse >>= fun acc =>
        hbBuild 0 (acc.reverse.take d.hlit) >>= fun _ => hbBuild 1 (acc.reverse.drop d.hlit)) f ∧
      Scans e f ∧ CanRead f ∧ f.bitsAhead = bits ∧ f.ht2 = h2 ∧ ∀ z, d.cl.getD z 0 ≠ 0 → (f.slot 2).Reads z (codeBits d.cl z) := by
  obtain ⟨-, -, -, ⟨h19, h7⟩, -⟩ := ok
  have hcl : ∀ z, d.cl.getD z 0 ≠ 0 → h2.Reads z (codeBits d.cl z) := fun z hz =>
    buildSlot_reads_codes (by omega) (fun l hl => (h7 l hl).trans (by decide)) hb2 hz
  have hitems : d.items.length ≤ d.lens.length := by
    have := length_le_foldl_lenItems hv
    rwa [List.length_nil, Nat.zero_add] at this
  obtain ⟨f, hf, ro, cf, bf⟩ := readLengths_items d.items hv (e := e.setSlot 2 h2) (ntot := d.hlit + d.hdist)
    (fun z hz => by rw [Eng.slot_setSlot_self]; exact hcl z hz) (c.setSlot 2 h2) hle ha
  have hrun := hf (d.hlit + d.hdist - d.items.length)
  rw [Nat.add_sub_cancel' (hitems.trans hle), List.reverse_nil] at hrun
  have h2f : f.ht2 = h2 := by rw [ro.same]; rfl
  refine ⟨f, _, rfl, hitems, ?_, (scans_setSlot e 2 h2 e.free).trans ro.scans, cf, bf, h2f, fun z hz => ?_⟩
  · rw [DynHeader.buildTables, EngM.bind_ok (hbBuild_ok hb2), EngM.bind_run, EngM.bind_run, hrun]
    rfl
  · rw [show f.slot 2 = h2 from h2f]
    exact hcl z hz

/-- An item that may not stand after the header's items fails it. -/
theorem buildTables_fails_item {x : LenItem} (hlt : d.lens.length < d.hlit + d.hdist) (hx : x.Coded d.cl)
    (hbad : (d.lens = [] ∧ x.symbol = 16) ∨ d.hlit + d.hdist < (x.apply d.lens).length)
    (ha : e.bitsAhead = d.items.flatMap (LenItem.bits d.cl) ++ (x.bits d.cl ++ bits)) :
    ∃ f, d.buildTables e = .error (.raise 0x0304 x.symbol) f ∧ Scans e f := by
  obtain ⟨f, k, hk, hitems, hf, sc, cf, bf, -, hr⟩ := buildTables_items ok hb2 hv c hlt.le ha
  obtain ⟨k, rfl⟩ : ∃ j, k = j + 1 := ⟨k - 1, by omega⟩
  obtain ⟨g, hg, rg⟩ := readLengths_fails hx (hr _ hx.1) cf hlt hbad bf k
  exact ⟨g, hf.trans (EngM.bind_error hg), sc.trans rg.scans⟩

variable (hlen : d.lens.length = d.hlit + d.hdist) (ha : e.bitsAhead = d.items.flatMap (LenItem.bits d.cl) ++ bits)
include hlen ha

/-- With all its lengths read the header builds the block's two tables. -/
theorem buildTables_lens :
    ∃ f, d.buildTables e = (hbBuild 0 (d.lens.take d.hlit) >>= fun _ => hbBuild 1 (d.lens.drop d.hlit)) f ∧ Scans e f ∧ CanRead f ∧
      f.bitsAhead = bits ∧ f.ht2 = h2 := by
  obtain ⟨f, k, -, -, hf, sc, cf, bf, h2f, -⟩ := buildTables_items ok hb2 hv c hlen.le ha
  have hdone : readLengths (d.hlit + d.hdist) k d.lens.reverse f = .ok d.lens.reverse f := by
    cases k with
    | zero => rfl
    | succ k => rw [readLengths, EngM.ite_run, if_neg (by rw [List.length_reverse, hlen]; exact Nat.lt_irrefl _)]; rfl
  exact ⟨f, by rw [hf, EngM.bind_ok hdone, List.reverse_reverse], sc, cf, bf, h2f⟩

theorem buildTables_fails_lit {x : Nat × Nat} (hb : buildSlot (d.lens.take d.hlit) = .error x) :
    ∃ f, d.buildTables e = .error (.raise x.1 x.2) f ∧ Scans e f := by
  obtain ⟨f, hf, sc, -, -, -⟩ := buildTables_lens ok hb2 hv c hlen ha
  obtain ⟨g, hg, sg⟩ := hbBuild_scans 0 hb f
  exact ⟨g, hf.trans (EngM.bind_error hg), sc.trans sg⟩

theorem buildTables_fails_dist {h0 : Huff} {x : Nat × Nat} (hb0 : buildSlot (d.lens.take d.hlit) = .ok h0)
    (hb : buildSlot (d.lens.drop d.hlit) = .error x) : ∃ f, d.buildTables e = .error (.raise x.1 x.2) f ∧ Scans e f := by
  obtain ⟨f, hf, sc, -, -, -⟩ := buildTables_lens ok hb2 hv c hlen ha
  obtain ⟨g, hg, sg⟩ := hbBuild_scans 1 hb (f.setSlot 0 h0)
  exact ⟨g, hf.trans ((EngM.bind_ok (hbBuild_ok hb0)).trans hg), (sc.trans (scans_setSlot f 0 h0 f.free)).trans sg⟩

/-- The three tables stand after a header that all three accept. -/
theorem buildTables_ok {h0 h1 : Huff} (hb0 : buildSlot (d.lens.take d.hlit) = .ok h0) (hb1 : buildSlot (d.lens.drop d.hlit) = .ok h1) :
    ∃ f, d.buildTables e = .ok () f ∧ Scans e f ∧ CanRead f ∧ f.bitsAhead = bits ∧ f.ht0 = h0 ∧ f.ht1 = h1 ∧ f.ht2 = h2 := by
  obtain ⟨f, hf, sc, cf, bf, h2f⟩ := buildTables_lens ok hb2 hv c hlen ha
  exact ⟨(f.setSlot 0 h0).setSlot 1 h1, hf.trans ((EngM.bind_ok (hbBuild_ok hb0)).trans (hbBuild_ok hb1)),
    sc.trans (scans_withTables f h0 h1 f.ht2 f.free), (cf.setSlot 0 h0).setSlot 1 h1, bf, rfl, rfl, h2f⟩

end

/-! ### The symbols of a dynamic block (42_lz77_decompressor.md R210) -/

theorem BlockSym.bits_eq (lit dist : List Nat) (y : BlockSym) : y.bits lit dist = y.bitsBy (codeBits lit) (codeBits dist) := by
  cases y <;> rfl

theorem BlockSym.Coded.fits {lit dist : List Nat} {y : BlockSym} (h : y.Coded lit dist) : y.Fits := by
  cases y with
  | lit b => trivial
  | copy j le d de =>
    obtain ⟨hj, -, hle, hd, -, hde⟩ := h
    exact ⟨hj, hle, hd, hde⟩

theorem BlockSym.Coded.readBy {lit dist : List Nat} {h0 h1 : Huff} {y : BlockSym} (h : y.Coded lit dist)
    (r0 : ∀ z, lit.getD z 0 ≠ 0 → h0.Reads z (codeBits lit z)) (r1 : ∀ z, dist.getD z 0 ≠ 0 → h1.Reads z (codeBits dist z)) :
    y.ReadBy h0 h1 (codeBits lit) (codeBits dist) := by
  cases y with
  | lit b => exact r0 _ h
  | copy j le d de =>
    obtain ⟨-, hlit, -, -, hdist, -⟩ := h
    exact ⟨r0 _ hlit, r1 _ hdist⟩

theorem BlockSym.Coded.one_le_length {lit dist : List Nat} {y : BlockSym} (h : y.Coded lit dist) :
    1 ≤ (y.bitsBy (codeBits lit) (codeBits dist)).length := by
  have pos : ∀ z, lit.getD z 0 ≠ 0 → 1 ≤ (codeBits lit z).length := fun z hz => by
    rw [codeBits, emit_length]
    omega
  cases y with
  | lit b => exact pos _ h
  | copy j le d de =>
    obtain ⟨-, hlit, -⟩ := h
    have := pos _ hlit
    simp only [bitsBy, List.length_append]
    omega

/-- The two tables of a block read the codes of their lengths. -/
theorem lens_read {d : DynHeader} {h0 h1 : Huff} (ok : d.FieldsOk) (hv : LenItemsValid d.cl [] d.items)
    (hlen : d.lens.length = d.hlit + d.hdist) (hb0 : buildSlot (d.lens.take d.hlit) = .ok h0)
    (hb1 : buildSlot (d.lens.drop d.hlit) = .ok h1) :
    (∀ z, (d.lens.take d.hlit).getD z 0 ≠ 0 → h0.Reads z (codeBits (d.lens.take d.hlit) z)) ∧
      ∀ z, (d.lens.drop d.hlit).getD z 0 ≠ 0 → h1.Reads z (codeBits (d.lens.drop d.hlit) z) := by
  have hle : ∀ l ∈ d.lens, l ≤ 15 := lenItems_le hv (by simp)
  have hlit := ok.hlit.2
  have hdist := ok.hdist.2
  refine ⟨fun z => buildSlot_reads_codes ?_ (fun l hl => hle l (List.mem_of_mem_take hl)) hb0,
    fun z => buildSlot_reads_codes ?_ (fun l hl => hle l (List.mem_of_mem_drop hl)) hb1⟩
  · exact (List.length_take_le _ _).trans hlit
  · rw [List.length_drop]
    omega

theorem symbolsRead_of_coded {lit dist : List Nat} {h0 h1 : Huff} {out : List Byte} {ys : List BlockSym}
    (hy : ∀ y ∈ ys, y.Coded lit dist) (r0 : ∀ z, lit.getD z 0 ≠ 0 → h0.Reads z (codeBits lit z))
    (r1 : ∀ z, dist.getD z 0 ≠ 0 → h1.Reads z (codeBits dist z)) (hv : TokensValid out (ys.map BlockSym.token)) :
    SymbolsRead h0 h1 (codeBits lit) (codeBits dist) out ys where
  fits y h := (hy y h).fits
  reads y h := (hy y h).readBy r0 r1
  nonempty y h := (hy y h).one_le_length
  valid := hv

/-! ### The obligation -/

/-- INF_BLOCK that fails before anything joins the output. -/
theorem blockFails_of_scans {s : State} {f : Eng} {code info : Nat} (opened : s.OutputOpen []) (hv : s.start.br.valid = true)
    (hrun : infBlock (s.blockEntry []) = .error (.raise code info) f) (sc : Scans (s.blockEntry []) f) (hc : code / 256 ≠ 6)
    (hinfo : info < 2 ^ 32) : BlockFails s [] [] code info :=
  blockFails_of_run opened hv rfl hrun sc.grows le_rfl hc hinfo

/-- INF_BLOCK on a dynamic block whose tables fail. -/
theorem dynamicBlock_fails {s : State} {final : Bool} {d : DynHeader} {bits : List Bool} {code info : Nat} (c : CanRead s.start)
    (ok : d.FieldsOk) (ha : s.start.bitsAhead = final :: false :: true :: (d.fieldBits ++ bits))
    (h : ∀ e, CanRead e → e.bitsAhead = bits → ∃ f, d.buildTables e = .error (.raise code info) f ∧ Scans e f)
    (hc : code / 256 ≠ 6) (hinfo : info < 2 ^ 32) (opened : s.OutputOpen []) : BlockFails s [] [] code info := by
  obtain ⟨e, he, re, ce, be⟩ := infBlock_dynamicHeader (e := s.blockEntry []) ok (State.blockEntry_canRead c []) ha
  obtain ⟨f, hf, sf⟩ := h e ce be
  exact blockFails_of_scans opened c.valid (he.trans (EngM.bind_error hf)) (re.scans.trans sf) hc hinfo

/-- The error of a rejected build. -/
theorem buildSlot_error_fits {lens : List Nat} {x : Nat × Nat} (h : buildSlot lens = .error x) : x.1 / 256 ≠ 6 ∧ x.2 < 2 ^ 32 := by
  have := buildSlot_error h
  have := buildSlot_error_info_le h
  omega

/-- Settles O36: the header's items give the code lengths, each of the three builds may reject its own, and under the tables each symbol
joins the output, up to the end-of-block symbol or to a bad one. -/
theorem infBlockExpandsDynamicTokens : Obligations.InfBlockExpandsDynamicTokens := by
  unfold Obligations.InfBlockExpandsDynamicTokens
  intro s final d rest hv hr hs hm ok total lit dist block fails
  have c : CanRead s.start := ⟨hv, hr, hs, hm⟩
  have header : ∀ {bits}, block (d.bits ++ bits) →
      s.start.bitsAhead = final :: false :: true :: (d.fieldBits ++ (d.items.flatMap (LenItem.bits d.cl) ++ (bits ++ rest))) := by
    intro bits h
    rw [h, DynHeader.bits]
    simp only [List.append_assoc]
  have header_nil : block d.bits →
      s.start.bitsAhead = final :: false :: true :: (d.fieldBits ++ (d.items.flatMap (LenItem.bits d.cl) ++ rest)) := fun h => by
    rw [h, DynHeader.bits, List.append_assoc]
  refine ⟨fun x hx opened hblock => ?_, fun h2 hb2 hitems => ⟨fun hlt x hx hbad opened hblock => ?_, fun hlen =>
    ⟨fun x hx opened hblock => ?_, fun h0 hb0 => ⟨fun x hx opened hblock => ?_, ?_⟩⟩⟩⟩
  · obtain ⟨hc, hi⟩ := buildSlot_error_fits hx
    exact dynamicBlock_fails c ok hblock (fun e _ _ => buildTables_fails_cl hx e) hc hi opened
  · have hsym : x.symbol < 2 ^ 32 := by
      have := lt_length_of_getD_ne hx.1
      have := ok.cl.1
      omega
    exact dynamicBlock_fails c ok (header hblock)
      (fun e ce be => buildTables_fails_item ok hb2 hitems ce hlt hx hbad be) (by decide) hsym opened
  · obtain ⟨hc, hi⟩ := buildSlot_error_fits hx
    exact dynamicBlock_fails c ok (header_nil hblock) (fun e ce be => buildTables_fails_lit ok hb2 hitems ce hlen be hx) hc hi opened
  · obtain ⟨hc, hi⟩ := buildSlot_error_fits hx
    exact dynamicBlock_fails c ok (header_nil hblock)
      (fun e ce be => buildTables_fails_dist ok hb2 hitems ce hlen be hb0 hx) hc hi opened
  · intro h1 syms ps hb1 hcoded ts after symbols room hvalid
    obtain ⟨r0, r1⟩ := lens_read ok hitems hlen hb0 hb1
    have hbits : syms.flatMap (BlockSym.bits lit dist) = syms.flatMap (BlockSym.bitsBy (codeBits lit) (codeBits dist)) :=
      List.flatMap_congr fun y _ => y.bits_eq lit dist
    have start : ∀ tail, block (symbols ++ tail) → ∃ e, infBlock (s.blockEntry ps) =
        (infSymbols >>= fun _ => pure (final.toNat, 2)) e ∧ Scans (s.blockEntry ps) e ∧ CanRead e ∧
        e.bitsAhead = syms.flatMap (BlockSym.bitsBy (codeBits lit) (codeBits dist)) ++ (tail ++ rest) ∧ e.ht0 = h0 ∧ e.ht1 = h1 ∧
        e.ht2 = h2 := by
      intro tail htail
      rw [List.append_assoc] at htail
      obtain ⟨e, he, re, ce, be⟩ := infBlock_dynamicHeader (e := s.blockEntry ps) ok (State.blockEntry_canRead c ps) (header htail)
      obtain ⟨f, hf, sf, cf, bf, hts⟩ := buildTables_ok ok hb2 hitems ce hlen be hb0 hb1
      exact ⟨f, he.trans (EngM.bind_ok hf), re.scans.trans sf, cf, by rw [bf, hbits, List.append_assoc], hts⟩
    have hy : SymbolsRead h0 h1 (codeBits lit) (codeBits dist) s.outputBefore syms := symbolsRead_of_coded hcoded r0 r1 hvalid
    refine ⟨fun h256 hblock => ?_, fun bits code info hbad hblock => ?_⟩
    · obtain ⟨e, hrun, sc, ce, ha, rfl, rfl, rfl⟩ := start _ hblock
      obtain ⟨t, hx, ⟨e0, e1, e2⟩, hd⟩ := symbolBlock_done room c hrun sc ce hy (by decide) (r0 256 h256) ha
      exact ⟨t, hx, e0, e1, e2, hd⟩
    · obtain ⟨e, hrun, sc, ce, ha, rfl, rfl, -⟩ := start _ hblock
      exact symbolBlock_fails room c hrun sc ce hy (fun z hz _ => r0 z hz) (fun z hz _ => r1 z hz) hbad ha

end Sys2Proof.Machine
end

section
/-! SUPPORT. INF_OPEN and INF_COPY, and the obligations on them (42_lz77_decompressor.md R191, R193, R201, R206; 20_memory.md R76,
R77). -/

namespace Sys2Proof.Machine

/-! ### INF_OPEN (42_lz77_decompressor.md R201) -/

section
variable {c : Snapshot} {e : Eng}

theorem infOpenBody_fixed (hp : e.placed = []) (h : c.arg 0 + c.arg 1 ≤ 0x100000000) :
    infOpenBody false c e = .ok ⟨c.arg 0, c.arg 1, 0, 0⟩
      { e with regions := ⟨c.arg 0, c.arg 1, false⟩ :: e.regions, inf := ⟨true, c.arg 0, 0, c.arg 1, false⟩ } := by
  rw [infOpenBody, if_neg Bool.false_ne_true, EngM.bind_ok (checkOut_ok hp h)]
  rfl

variable {n : Nat} (hn : max (c.arg 1) 1 = n) (hcap : n ≤ Config.sizeCeiling)
include hn hcap

theorem infOpenBody_waits (hm : e.moves = []) :
    infOpenBody true c e = .error .wait
      { e with allocReq := 1, allocSize := BitVec.ofNat 32 n, allocPtr := 0, moves := [] } := by
  rw [infOpenBody, if_pos rfl, hn, ensure_bind (decide_eq_true hcap), EngM.bind_error (portAlloc_waits hcap hm)]

theorem infOpenBody_refused (hm : e.moves = [.allocResp 0]) :
    infOpenBody true c e = .error (.raise 0x0401 n)
      { e with allocReq := 0, allocSize := BitVec.ofNat 32 n, allocPtr := 0, moves := [], journal := [] } := by
  rw [infOpenBody, if_pos rfl, hn, ensure_bind (decide_eq_true hcap), EngM.bind_error (portAlloc_refused hcap hm)]
  rfl

/-- A granted buffer becomes the output, and passes to the host. -/
theorem infOpenBody_granted {p : Word} (hm : e.moves = [.allocResp p]) (hp : p ≠ 0) (hr : p.toNat + n ≤ 0x100000000)
    (hl : e.live = []) (hreg : e.regions = []) :
    infOpenBody true c e = .ok ⟨p.toNat, n, 0, 0⟩
      { e with
        allocReq := 0, allocSize := BitVec.ofNat 32 n, allocPtr := 0, moves := [], live := [], journal := []
        regions := [⟨p.toNat, n, false⟩], inf := ⟨true, p.toNat, 0, n, true⟩ } := by
  have hgrant : Grants e p n :=
    { nonzero := hp, size := hcap, range := hr, regions := by simp [hreg], live := by simp [hl] }
  have hlive : dropBuf p.toNat (e.granted p n []).live = [] := by simp [hl, dropBuf]
  have hout : outputAt p.toNat (e.granted p n []).live = [⟨p.toNat, n, false⟩] := by
    simp [hl, outputAt]
  rw [infOpenBody, if_pos rfl, hn, ensure_bind (decide_eq_true hcap), EngM.bind_ok (portAlloc_granted hm hgrant),
    EngM.bind_ok (handOver_run _ _), hlive, hout, show (e.granted p n []).regions = [] from hreg]
  rfl

end

/-- Settles O37: the fixed form takes the two arguments, and the reallocatable form does what the allocator answers. -/
theorem infOpenCompletes : Obligations.InfOpenCompletes := by
  unfold Obligations.InfOpenCompletes
  refine ⟨fun s ready h => ?_, fun s p ready => ?_, fun s => ?_⟩
  · obtain ⟨hx, hc⟩ := ready.completes (i := .infOpen false) rfl
      (infOpenBody_fixed (c := s.running.snap) (e := s.entry []) ready.placed h) ⟨ready.live, ready.srcReq, ready.allocReq⟩ rfl
      (s.running.snap.arg_lt 0) (s.running.snap.arg_lt 1)
    exact ⟨_, hx, hc, rfl, ⟨rfl, rfl⟩, rfl, ⟨rfl, rfl, rfl⟩, ⟨rfl, rfl, rfl⟩, fun _ => rfl⟩
  · generalize hn : max (s.arg 1) 1 = n
    intro hcap hp hr
    obtain ⟨hx, hc⟩ := ready.completes (i := .infOpen true) rfl
      (infOpenBody_granted (c := s.running.snap) (e := s.entry [.allocResp p]) hn hcap rfl hp hr ready.live ready.regions)
      ⟨rfl, ready.srcReq, rfl⟩ rfl p.isLt (Nat.lt_of_le_of_lt hcap (by decide))
    rw [BitVec.ofNat_toNat, BitVec.setWidth_eq] at hc
    exact ⟨_, hx, hc, rfl, rfl, rfl, rfl, ⟨rfl, rfl⟩, rfl, ⟨rfl, rfl, rfl⟩, fun _ => rfl⟩
  · generalize hn : max (s.arg 1) 1 = n
    refine fun hcap => ⟨fun ready => ?_, fun ready => ?_⟩
    · have hbody := infOpenBody_waits (c := s.running.snap) (e := s.entry []) hn hcap rfl
      refine ⟨_, runCommand_waits ((ready.body_eq (infOpenBody true)).trans hbody), ?_, rfl, rfl, rfl,
        ⟨⟨rfl, rfl⟩, rfl, ⟨rfl, rfl, rfl⟩, rfl⟩, fun _ => rfl⟩
      exact ⟨rfl, .inr ⟨ready.srcReq, (by decide : (1 : BitVec 2) ≠ 0)⟩, rfl, rfl, rfl, rfl, rfl, .suspend s s.running _⟩
    · obtain ⟨hx, hf⟩ := ready.fails (i := .infOpen true) rfl
        (infOpenBody_refused (c := s.running.snap) (e := s.entry [.allocResp 0]) hn hcap rfl) ⟨ready.live, ready.srcReq, rfl⟩ rfl
        (Nat.lt_of_le_of_lt hcap (by decide))
      exact ⟨_, hx, hf, unitsInvalid_fail_unit s _ (by decide) _, sameMem_fail s ready.written⟩

/-! ### INF_COPY (42_lz77_decompressor.md R206) -/

/-- Doublings that stop at the first capacity with room (42_lz77_decompressor.md R191). -/
theorem growCap_eq (k : Nat) {fuel c need : Nat} (hk : k < fuel) (hc : c ≤ Config.sizeCeiling)
    (hsmall : ∀ j, j < k → min (c * 2 ^ j) Config.sizeCeiling < need) (hroom : need ≤ min (c * 2 ^ k) Config.sizeCeiling) :
    growCap fuel c need = min (c * 2 ^ k) Config.sizeCeiling := by
  obtain ⟨fuel, rfl⟩ := Nat.exists_eq_add_of_lt hk
  induction k generalizing c with
  | zero =>
    rw [pow_zero, Nat.mul_one, Nat.min_eq_left hc] at hroom ⊢
    rw [growCap, if_neg (by omega)]
  | succ k ih =>
    have hstep : ∀ j, min (min (2 * c) Config.sizeCeiling * 2 ^ j) Config.sizeCeiling =
        min (c * 2 ^ (j + 1)) Config.sizeCeiling := fun j => by
      have hpow : c * 2 ^ (j + 1) = 2 * c * 2 ^ j := by ring
      rw [hpow]
      rcases Nat.le_total (2 * c) Config.sizeCeiling with h | h
      · rw [Nat.min_eq_left h]
      · have hj : Config.sizeCeiling ≤ Config.sizeCeiling * 2 ^ j := Nat.le_mul_of_pos_right _ (Nat.two_pow_pos j)
        rw [Nat.min_eq_right h, Nat.min_eq_right hj, Nat.min_eq_right (hj.trans (Nat.mul_le_mul_right _ h))]
    have h0 := hsmall 0 (Nat.succ_pos k)
    rw [pow_zero, Nat.mul_one, Nat.min_eq_left hc] at h0
    rw [show k + 1 + fuel + 1 = (k + fuel + 1) + 1 by omega, growCap, if_pos h0, ← hstep k]
    exact ih (Nat.min_le_right _ _) (fun j hj => by rw [hstep]; exact hsmall _ (by omega)) (by rw [hstep]; exact hroom) (by omega)

/-- The bytes that INF_COPY appends, each as the one `dist` before it. -/
def CopiedAt (m : Memory) (x n dist : Nat) : Prop := ∀ k, k < n → m.get (x + k) = m.get (x + k - dist)

section
variable {s : State} {ms : List PortMove} (ready : s.Ready ms) (hopen : s.start.inf.isOpen = true) (hlo : 3 ≤ s.arg 0)
  (hhi : s.arg 0 ≤ 258) (h1 : 1 ≤ s.arg 1) (hmax : s.arg 1 ≤ 32768)

/-- The engine on which INF_COPY copies: as at the acceptance, with the output region declared. -/
def State.copyEntry (s : State) (ms : List PortMove) : Eng :=
  { s.entry ms with regions := [⟨s.start.inf.out, s.start.inf.cap, false⟩] }

include ready hopen hlo hhi h1 hmax

/-- INF_COPY is `inf_copy` after its checks. -/
theorem infCopyBody_eq : infCopyBody s.running.snap (s.entry ms) =
    (infCopy (s.arg 0) (s.arg 1) >>= fun _ => getE >>= fun e => pure ⟨0, 0, e.inf.out, e.inf.len⟩) (s.copyEntry ms) := by
  rw [infCopyBody, EngM.bind_ok (needOutput_ok (e := s.entry ms) hopen), ensure_bind (decide_eq_true ⟨hlo, hhi⟩),
    ensure_bind (decide_eq_true ⟨h1, hmax⟩), EngM.bind_ok (useOutput_ok (e := s.entry ms) ready.placed)]
  simp only [ready.regions]
  rfl

variable {f : Eng}

theorem infCopy_completes (hf : infCopy (s.arg 0) (s.arg 1) (s.copyEntry ms) = .ok () f) (rest : AtRest f) (hm : f.moves = [])
    (ho : f.inf.out < 2 ^ 32) (hl : f.inf.len < 2 ^ 32) :
    exec .infCopy s = .next (s.complete .unit ⟨0, 0, f.inf.out, f.inf.len⟩ f) ∧
      Completed s (s.complete .unit ⟨0, 0, f.inf.out, f.inf.len⟩ f) 0 0 (BitVec.ofNat 32 f.inf.out) (BitVec.ofNat 32 f.inf.len) :=
  ready.completes_with (i := .infCopy) (x := ⟨0, 0, f.inf.out, f.inf.len⟩) rfl
    ((infCopyBody_eq ready hopen hlo hhi h1 hmax).trans (EngM.bind_ok hf)) rest hm (Nat.two_pow_pos 32) (Nat.two_pow_pos 32) ho hl

/-- INF_COPY that fails before its first byte. -/
theorem infCopy_fails {code info : Nat} (hf : infCopy (s.arg 0) (s.arg 1) (s.copyEntry ms) = .error (.raise code info) (s.copyEntry ms))
    (hms : ms = []) (hc : code / 256 ≠ 6) (hinfo : info < 2 ^ 32) :
    ∃ t, exec .infCopy s = .next t ∧ Failed s t (BitVec.ofNat 32 code) (BitVec.ofNat 32 info) ∧ UnitsInvalid t.eng ∧
      SameMem s.start t.eng := by
  obtain ⟨hx, hfail⟩ := ready.fails (i := .infCopy) rfl ((infCopyBody_eq ready hopen hlo hhi h1 hmax).trans (EngM.bind_error hf))
    ⟨ready.live, ready.srcReq, ready.allocReq⟩ hms hinfo
  exact ⟨_, hx, hfail, unitsInvalid_fail_unit s _ hc _, sameMem_fail s ready.written⟩

/-- INF_COPY within the capacity. -/
theorem infCopy_within (output : OutputOk s.start.inf) (hms : ms = []) (hd : s.arg 1 ≤ s.start.inf.len)
    (room : s.start.inf.len + s.arg 0 ≤ s.start.inf.cap) :
    ∃ t, exec .infCopy s = .next t ∧
      Completed s t 0 0 (BitVec.ofNat 32 s.start.inf.out) (BitVec.ofNat 32 (s.start.inf.len + s.arg 0)) ∧
      CopiedAt t.eng.mem (s.start.inf.out + s.start.inf.len) (s.arg 0) (s.arg 1) ∧
      SameMemOutside s.start t.eng (s.start.inf.out + s.start.inf.len) (s.arg 0) ∧
      t.eng.inf = { s.start.inf with len := s.start.inf.len + s.arg 0 } ∧ SameSource s.start t.eng ∧ t.eng.br = s.start.br ∧
      SameSlots s.start t.eng ∧ SamePorts s.start t.eng := by
  obtain ⟨f, hf, ap, hcopied⟩ := infCopy_ok (length := s.arg 0) (e := s.copyEntry ms) h1 hd room (output.range hopen)
  have hcap := output.cap hopen
  have hinf : f.inf = { s.start.inf with len := s.start.inf.len + s.arg 0 } := ap.inf
  obtain ⟨hx, hc⟩ := infCopy_completes ready hopen hlo hhi h1 hmax hf
    (by rw [ap.same]; exact ⟨ready.live, ready.srcReq, ready.allocReq⟩) (by rw [ap.same]; exact hms)
    (by rw [hinf]; exact output.out hopen) (by rw [hinf]; exact lt_of_le_of_lt room hcap)
  simp only [hinf] at hc hx
  refine ⟨_, hx, hc, hcopied, ap.outside, hinf, ?_⟩
  rw [State.complete_eng, if_neg (by decide), ap.same]
  exact ⟨⟨rfl, rfl⟩, rfl, ⟨rfl, rfl, rfl⟩, ⟨rfl, rfl, rfl⟩⟩

/-- INF_COPY beyond the capacity of a reallocatable output: it goes on in the granted buffer. -/
theorem infCopy_grown {g : Word × Nat} (output : OutputOk s.start.inf) (hms : ms = [.allocResp g.1]) (hd : s.arg 1 ≤ s.start.inf.len)
    (full : s.start.inf.cap < s.start.inf.len + s.arg 0) (hneed : s.start.inf.len + s.arg 0 ≤ 0x7fffffff)
    (hr : s.start.inf.realloc = true) (hg : g.2 = growCap 32 s.start.inf.cap (s.start.inf.len + s.arg 0)) (hp : g.1 ≠ 0)
    (hrange : g.1.toNat + g.2 ≤ 0x100000000) :
    ∃ t, exec .infCopy s = .next t ∧ Completed s t 0 0 g.1 (BitVec.ofNat 32 (s.start.inf.len + s.arg 0)) ∧
      t.eng.mem.read g.1.toNat s.start.inf.len = s.start.mem.read s.start.inf.out s.start.inf.len ∧
      CopiedAt t.eng.mem (g.1.toNat + s.start.inf.len) (s.arg 0) (s.arg 1) ∧ SameMemOutside s.start t.eng g.1.toNat g.2 ∧
      t.eng.inf = ⟨true, g.1.toNat, s.start.inf.len + s.arg 0, g.2, true⟩ ∧ t.eng.allocSize = BitVec.ofNat 32 g.2 ∧
      t.eng.allocPtr = BitVec.ofNat 32 s.start.inf.out ∧ SameSrcPort s.start t.eng ∧ SameSource s.start t.eng ∧
      t.eng.br = s.start.br ∧ SameSlots s.start t.eng := by
  have hle := output.len hopen
  have hge : s.start.inf.len + s.arg 0 ≤ g.2 := hg ▸ growCap_ge 32 hneed
  have hres : outReserve (s.arg 0) (s.copyEntry ms) = .ok () ((s.copyEntry ms).movedTo g []) := by
    refine outReserve_moves full hr hneed hg hms ⟨hp, hrange, fun t ht hi => ?_⟩ ready.live
    obtain rfl := List.mem_singleton.1 ht
    cases hi
  obtain ⟨f, hf, ap, hcopied⟩ := copyBack_ok (dist := s.arg 1) (s.arg 0) (e := (s.copyEntry ms).movedTo g []) h1 hd
    (by show g.1.toNat + s.start.inf.len + s.arg 0 ≤ 0x100000000; omega)
  have hrun : infCopy (s.arg 0) (s.arg 1) (s.copyEntry ms) = .ok () f := by
    rw [infCopy, getE_bind, ensure_bind (decide_eq_true (show s.arg 1 ≤ (s.copyEntry ms).inf.len from hd)), EngM.bind_ok hres, hf]
  have hinf : f.inf = ⟨true, g.1.toNat, s.start.inf.len + s.arg 0, g.2, true⟩ := by
    rw [ap.inf]
    show InflateOut.mk s.start.inf.isOpen _ _ _ s.start.inf.realloc = _
    rw [hopen, hr]
    rfl
  have gr := Eng.movedTo_grows (e := s.copyEntry ms) (g := g) hms ready.live
  obtain ⟨hx, hc⟩ := infCopy_completes ready hopen hlo hhi h1 hmax hrun
    (by rw [ap.same]; exact ⟨gr.live.trans ready.live, ready.srcReq, rfl⟩) (by rw [ap.same]; rfl)
    (by rw [hinf]; exact g.1.isLt) (by rw [hinf]; show s.start.inf.len + s.arg 0 < 2 ^ 32; omega)
  simp only [hinf, BitVec.ofNat_toNat, BitVec.setWidth_eq] at hc hx
  have outside : ∀ x, x < g.1.toNat + s.start.inf.len ∨ g.1.toNat + s.start.inf.len + s.arg 0 ≤ x →
      f.mem.get x = ((s.copyEntry ms).movedTo g []).mem.get x := ap.outside
  refine ⟨_, hx, hc, ?_, hcopied, fun x hx => ?_, hinf, ?_⟩
  · refine Eq.trans (Memory.read_congr fun i (hi : i < s.start.inf.len) => outside _ (by omega)) (Eng.movedTo_read [] ?_ ?_)
    · exact hle
    · show s.start.inf.cap ≤ g.2
      omega
  · exact (outside x (by omega)).trans (Eng.movedTo_outside [] hx)
  · rw [State.complete_eng, if_neg (by decide), ap.same]
    exact ⟨rfl, rfl, rfl, ⟨rfl, rfl⟩, rfl, ⟨rfl, rfl, rfl⟩⟩

end

/-- Settles O41: the four cases are those of the distance and of the output's room. -/
theorem infCopyCompletes : Obligations.InfCopyCompletes := by
  unfold Obligations.InfCopyCompletes
  intro s hopen output hlo hhi h1 hmax inf need copied
  refine ⟨fun ready hd room => infCopy_within ready hopen hlo hhi h1 hmax output rfl hd room, fun ready hfar => ?_,
    fun ready hd full hneed hr => ?_, fun k p ready hd full hneed hr => ?_⟩
  · exact infCopy_fails ready hopen hlo hhi h1 hmax (infCopy_far hfar) rfl (by decide) (by omega)
  · refine infCopy_fails ready hopen hlo hhi h1 hmax ?_ rfl (by decide) hneed
    rw [infCopy, getE_bind, ensure_bind (decide_eq_true (show s.arg 1 ≤ (s.copyEntry []).inf.len from hd)),
      EngM.bind_error (outReserve_fixed_full (e := s.copyEntry []) full hr)]
    rfl
  · intro c hc hsmall hp hrange
    have hk : k < 32 := by
      by_contra hk
      have hcap : 1 ≤ inf.cap := Nat.one_le_iff_ne_zero.2 fun h0 => by
        simp only [c, h0, Nat.zero_mul] at hc
        omega
      have h31 := hsmall 31 (by omega)
      omega
    have hg : c = growCap 32 inf.cap need := (growCap_eq k hk (by show inf.cap ≤ 0x7fffffff; omega) hsmall hc).symm
    exact infCopy_grown (g := (p, c)) ready hopen hlo hhi h1 hmax output rfl hd full hneed hr hg hp hrange

end Sys2Proof.Machine
end

section
/-! SUPPORT. INF_ZHDR, and the obligation on it (42_lz77_decompressor.md R202). -/

namespace Sys2Proof.Machine

/-! ### The zlib header (42_lz77_decompressor.md R202) -/

/-- `zlib_header()` after its two bytes. -/
def zlibChecks (cmf flg : Nat) : EngM (Nat × Nat) := do
  ensure (decide ((cmf * 256 + flg) % 31 = 0)) 0x0114 (cmf * 256 + flg)
  ensure (!bit flg 5) 0x0115 flg
  ensure (decide (cmf % 16 = 8)) 0x0116 cmf
  pure (cmf, flg)

section
variable {e : Eng} {cmf flg : Nat}

theorem zlibChecks_ok (hsum : (cmf * 256 + flg) % 31 = 0) (hdict : flg.testBit 5 = false) (hmethod : cmf % 16 = 8) :
    zlibChecks cmf flg e = .ok (cmf, flg) e := by
  rw [zlibChecks, ensure_bind (decide_eq_true hsum), ensure_bind (by rw [bit_eq_testBit, hdict]; rfl),
    ensure_bind (decide_eq_true hmethod)]
  rfl

theorem zlibChecks_fails_sum (hsum : (cmf * 256 + flg) % 31 ≠ 0) :
    zlibChecks cmf flg e = .error (.raise 0x0114 (cmf * 256 + flg)) e := by
  rw [zlibChecks, ensure_bind_fails (decide_eq_false hsum)]

theorem zlibChecks_fails_dict (hsum : (cmf * 256 + flg) % 31 = 0) (hdict : flg.testBit 5 = true) :
    zlibChecks cmf flg e = .error (.raise 0x0115 flg) e := by
  rw [zlibChecks, ensure_bind (decide_eq_true hsum), ensure_bind_fails (by rw [bit_eq_testBit, hdict]; rfl)]

theorem zlibChecks_fails_method (hsum : (cmf * 256 + flg) % 31 = 0) (hdict : flg.testBit 5 = false) (hmethod : cmf % 16 ≠ 8) :
    zlibChecks cmf flg e = .error (.raise 0x0116 cmf) e := by
  rw [zlibChecks, ensure_bind (decide_eq_true hsum), ensure_bind (by rw [bit_eq_testBit, hdict]; rfl),
    ensure_bind_fails (decide_eq_false hmethod)]

variable (c : CanRead e) (h8 : e.br.nbits % 8 = 0)
include c h8

theorem zlibHeader_eq (h : 16 ≤ e.bitsAhead.length) :
    ∃ f, zlibHeader e = zlibChecks (bitsValue (e.bitsAhead.take 8)) (bitsValue ((e.bitsAhead.drop 8).take 8)) f ∧ ReadsOn e f ∧
      CanRead f ∧ f.bitsAhead = e.bitsAhead.drop 16 := by
  obtain ⟨f, hf, rf, cf, bf, nf⟩ := brByte_ok (err := 0x0114) c h8 (by omega)
  obtain ⟨g, hg, rg, cg, bg, -⟩ := brByte_ok (err := 0x0114) cf nf (by rw [bf, List.length_drop]; omega)
  rw [bf] at hg bg
  refine ⟨g, ?_, rf.trans rg, cg, by rw [bg, List.drop_drop]⟩
  rw [zlibHeader, EngM.bind_ok hf, EngM.bind_ok hg]
  rfl

/-- A header cut short lacks its first byte or its second. -/
theorem zlibHeader_short (h : e.bitsAhead.length < 16) : ∃ f, zlibHeader e = .error (.raise 0x0114 0) f ∧ ReadsOn e f := by
  have hl := bitsAhead_length e
  by_cases h0 : e.bitsAhead.length = 0
  · obtain ⟨f, hf, ro, -⟩ := brByte_fails (err := 0x0114) c (List.eq_nil_of_length_eq_zero h0)
    exact ⟨f, by rw [zlibHeader, EngM.bind_error hf], ro⟩
  · obtain ⟨f, hf, rf, cf, bf, -⟩ := brByte_ok (err := 0x0114) c h8 (by omega)
    obtain ⟨g, hg, rg, -⟩ := brByte_fails (err := 0x0114) cf (by rw [bf]; exact List.drop_eq_nil_of_le (by omega))
    exact ⟨g, by rw [zlibHeader, EngM.bind_ok hf, EngM.bind_error hg], rf.trans rg⟩

end

section
variable {s : State} (ready : s.Ready [])
include ready

/-- INF_ZHDR is `zlib_header()` at the byte boundary, after its checks. -/
theorem infZhdrBody_eq (c : CanRead s.start) :
    ∃ rs f, infZhdrBody s.running.snap (s.entry []) = (zlibHeader >>= fun x => pure ⟨x.1, x.2, 0, 0⟩) f ∧
      ReadsOn { s.entry [] with regions := rs } f ∧ CanRead f ∧ f.bitsAhead = s.start.bitsAhead.drop (s.start.br.nbits % 8) ∧ f.br.nbits % 8 = 0 := by
  obtain ⟨rs, huse⟩ := useSource_ok (e := s.entry []) ready.placed
  obtain ⟨f, hf, ro, cf, bf, nf⟩ := brAlign_ok (e := { s.entry [] with regions := rs })
    ⟨c.valid, c.reader, c.source, c.mode⟩
  refine ⟨rs, f, ?_, ro, cf, bf, nf⟩
  rw [infZhdrBody, EngM.bind_ok (needBits_ok (e := s.entry []) c.valid), EngM.bind_ok huse, EngM.bind_ok hf]

/-- INF_ZHDR whose steps raise an error. -/
theorem infZhdr_fails {rs : List Region} {g : Eng} {code info : Nat}
    (hg : infZhdrBody s.running.snap (s.entry []) = .error (.raise code info) g)
    (ro : ReadsOn { s.entry [] with regions := rs } g) (hc : code / 256 ≠ 6) (hinfo : info < 2 ^ 32) :
    ∃ t, exec .infZhdr s = .next t ∧ Failed s t (BitVec.ofNat 32 code) (BitVec.ofNat 32 info) ∧ UnitsInvalid t.eng ∧
      SameMem s.start t.eng := by
  obtain ⟨br, pos, eof, rfl⟩ := ro.fields
  obtain ⟨hx, hf⟩ := ready.fails (i := .infZhdr) rfl hg ⟨ready.live, ready.srcReq, ready.allocReq⟩ rfl hinfo
  exact ⟨_, hx, hf, unitsInvalid_fail_unit s info hc _, sameMem_fail s ready.written⟩

end

/-- Settles O38: two bytes at the boundary go through the checks in their order, and a header cut short has no two bytes. -/
theorem infZhdrCompletes : Obligations.InfZhdrCompletes := by
  unfold Obligations.InfZhdrCompletes
  intro s v cmf flg ready hv hr hs hm hvdef hcmf hflg fails
  have c : CanRead s.start := ⟨hv, hr, hs, hm⟩
  obtain ⟨rs, f, hbody, ro, cf, bf, nf⟩ := infZhdrBody_eq ready c
  rw [← hvdef] at bf
  refine ⟨fun hlen => ?_, fun hlen => ?_⟩
  · obtain ⟨g, hg, rg, cg, bg⟩ := zlibHeader_eq cf nf (by rwa [bf])
    rw [bf, ← hcmf, ← hflg] at hg
    rw [bf] at bg
    have hcmf' : cmf < 2 ^ 8 := hcmf ▸ (bitsValue_lt _).trans_le (Nat.pow_le_pow_right (by decide) (List.length_take_le 8 _))
    have hflg' : flg < 2 ^ 8 := hflg ▸ (bitsValue_lt _).trans_le (Nat.pow_le_pow_right (by decide) (List.length_take_le 8 _))
    have failsWith : ∀ {code info}, zlibChecks cmf flg g = .error (.raise code info) g → code / 256 ≠ 6 → info < 2 ^ 32 →
        fails (BitVec.ofNat 32 code) info := fun h =>
      infZhdr_fails ready (hbody.trans (EngM.bind_error (hg.trans h))) (ro.trans rg)
    refine ⟨fun hsum hdict hmethod => ?_, fun hsum => failsWith (zlibChecks_fails_sum hsum) (by decide) (by omega),
      fun hsum hdict => failsWith (zlibChecks_fails_dict hsum hdict) (by decide) (by omega),
      fun hsum hdict hmethod => failsWith (zlibChecks_fails_method hsum hdict hmethod) (by decide) (by omega)⟩
    have hrun := hbody.trans (EngM.bind_ok (hg.trans (zlibChecks_ok hsum hdict hmethod)))
    obtain ⟨br, pos, eof, rfl⟩ := (ro.trans rg).fields
    obtain ⟨hx, hc⟩ := ready.completes (i := .infZhdr) rfl hrun ⟨ready.live, ready.srcReq, ready.allocReq⟩ rfl
      (by show cmf < 2 ^ 32; omega) (by show flg < 2 ^ 32; omega)
    exact ⟨_, hx, hc, bg, cg.valid, rfl, ⟨rfl, rfl, rfl⟩, rfl, ⟨rfl, rfl, rfl⟩, fun _ => rfl⟩
  · obtain ⟨g, hg, rg⟩ := zlibHeader_short cf nf (by rwa [bf])
    exact infZhdr_fails ready (hbody.trans (EngM.bind_error hg)) (ro.trans rg) (by decide) (by decide)

end Sys2Proof.Machine
end

section
/-! SUPPORT. The stored blocks of INF_BLOCK, and the obligation on them (42_lz77_decompressor.md R194, R203, R205). -/

namespace Sys2Proof.Machine

/-! ### Whole bytes ahead -/

/-- The BitReader can read, and it has the bytes `bytes` ahead. -/
structure BytesAhead (e : Eng) (bytes : List Byte) : Prop where
  reads : CanRead e
  ahead : e.bitsAhead = bytesBits bytes

section
variable {e : Eng} {bytes : List Byte}

theorem BytesAhead.boundary (h : BytesAhead e bytes) : e.br.nbits % 8 = 0 := by
  have := bitsAhead_length e
  rw [h.ahead, bytesBits_length] at this
  omega

theorem BytesAhead.brByte_cons {b : Byte} (h : BytesAhead e (b :: bytes)) (err : Nat) :
    ∃ f, brByte err e = .ok b.toNat f ∧ ReadsOn e f ∧ BytesAhead f bytes := by
  have ha := h.ahead
  rw [bytesBits_cons] at ha
  obtain ⟨f, hf, ro, cf, bf, -⟩ := brByte_ok (err := err) h.reads h.boundary (by rw [ha, List.length_append, emit_length]; omega)
  rw [ha, List.take_left' (emit_length _ _), bitsValue_emit, Nat.mod_eq_of_lt b.isLt] at hf
  rw [ha, List.drop_left' (emit_length _ _)] at bf
  exact ⟨f, hf, ro, cf, bf⟩

theorem BytesAhead.brByte_nil (h : BytesAhead e []) (err : Nat) : ∃ f, brByte err e = .error (.raise err 0) f ∧ ReadsOn e f := by
  obtain ⟨f, hf, ro, -⟩ := brByte_fails (err := err) h.reads h.ahead
  exact ⟨f, hf, ro⟩

theorem BytesAhead.inflating (h : BytesAhead e bytes) {g : Eng} {out : List Byte} {bits : List Bool} (hi : Inflating g out bits)
    (ro : ReadsOn g e) : InflatingBytes e out bytes := (hi.readsOn ro h.reads h.ahead).toBytes

/-- The bytes end before the data does. -/
theorem BytesAhead.copyStored_nil (h : BytesAhead e []) (k : Nat) :
    ∃ f, copyStored (k + 1) e = .error (.raise 0x0203 0) f ∧ ReadsOn e f := by
  obtain ⟨f, hf, ro⟩ := h.brByte_nil 0x0203
  exact ⟨f, by rw [copyStored, EngM.bind_error hf], ro⟩

end

/-! ### LEN and NLEN -/

/-- `inf_stored()` after its LEN and NLEN. -/
def storedData (len nlen : Nat) : EngM Unit := do
  ensure (decide (nlen = len ^^^ 0xFFFF)) 0x0204 len
  outReserve len
  copyStored len

/-- `inf_stored()` at its byte boundary. -/
def storedBytes : EngM Unit := do
  let l0 ← brByte 0x0205
  let l1 ← brByte 0x0205
  let n0 ← brByte 0x0205
  let n1 ← brByte 0x0205
  storedData (l0 + 256 * l1) (n0 + 256 * n1)

theorem infStored_eq : infStored = brAlign >>= fun _ => storedBytes := rfl

section
variable {e : Eng} {bytes : List Byte} (h : BytesAhead e bytes)
include h

/-- LEN and NLEN cut short: some byte of the four is not there. -/
theorem storedBytes_short (hl : bytes.length < 4) : ∃ f, storedBytes e = .error (.raise 0x0205 0) f ∧ ReadsOn e f := by
  rw [storedBytes]
  rcases bytes with _ | ⟨b0, bytes⟩
  · obtain ⟨f, hf, ro⟩ := h.brByte_nil 0x0205
    exact ⟨f, by rw [EngM.bind_error hf], ro⟩
  obtain ⟨f0, hf0, r0, h0⟩ := h.brByte_cons 0x0205
  rw [EngM.bind_ok hf0]
  rcases bytes with _ | ⟨b1, bytes⟩
  · obtain ⟨f, hf, ro⟩ := h0.brByte_nil 0x0205
    exact ⟨f, by rw [EngM.bind_error hf], r0.trans ro⟩
  obtain ⟨f1, hf1, r1, h1⟩ := h0.brByte_cons 0x0205
  rw [EngM.bind_ok hf1]
  rcases bytes with _ | ⟨b2, bytes⟩
  · obtain ⟨f, hf, ro⟩ := h1.brByte_nil 0x0205
    exact ⟨f, by rw [EngM.bind_error hf], (r0.trans r1).trans ro⟩
  obtain ⟨f2, hf2, r2, h2⟩ := h1.brByte_cons 0x0205
  rw [EngM.bind_ok hf2]
  obtain rfl : bytes = [] := List.eq_nil_of_length_eq_zero (by simp only [List.length_cons] at hl; omega)
  obtain ⟨f, hf, ro⟩ := h2.brByte_nil 0x0205
  exact ⟨f, by rw [EngM.bind_error hf], ((r0.trans r1).trans r2).trans ro⟩

theorem storedBytes_eq (hl : 4 ≤ bytes.length) :
    ∃ f, storedBytes e = storedData (le16 bytes 0) (le16 bytes 2) f ∧ ReadsOn e f ∧ BytesAhead f (bytes.drop 4) := by
  obtain ⟨b0, b1, b2, b3, rest, rfl⟩ : ∃ b0 b1 b2 b3 rest, bytes = b0 :: b1 :: b2 :: b3 :: rest := by
    match bytes, hl with
    | b0 :: b1 :: b2 :: b3 :: rest, _ => exact ⟨b0, b1, b2, b3, rest, rfl⟩
  obtain ⟨f0, hf0, r0, h0⟩ := h.brByte_cons 0x0205
  obtain ⟨f1, hf1, r1, h1⟩ := h0.brByte_cons 0x0205
  obtain ⟨f2, hf2, r2, h2⟩ := h1.brByte_cons 0x0205
  obtain ⟨f3, hf3, r3, h3⟩ := h2.brByte_cons 0x0205
  refine ⟨f3, ?_, ((r0.trans r1).trans r2).trans r3, h3⟩
  rw [storedBytes, EngM.bind_ok hf0, EngM.bind_ok hf1, EngM.bind_ok hf2, EngM.bind_ok hf3, Nat.mul_comm 256, Nat.mul_comm 256]
  rfl

end

/-! ### The data -/

section
variable {e : Eng} {len nlen : Nat}

theorem storedData_fails_check (h : nlen ≠ len ^^^ 0xFFFF) : storedData len nlen e = .error (.raise 0x0204 len) e := by
  rw [storedData, ensure_bind_fails (decide_eq_false h)]

theorem storedData_fails_full (h : e.inf.cap < e.inf.len + len) (hr : e.inf.realloc = false) :
    storedData len (len ^^^ 0xFFFF) e = .error (.raise 0x0403 (e.inf.len + len)) e := by
  rw [storedData, ensure_bind (decide_eq_true rfl), EngM.bind_error (outReserve_fixed_full h hr)]

/-- Room is made for the whole block, and the bytes ahead join the output; `k` are still to come. -/
theorem storedData_grows {out d bytes : List Byte} {k : Nat} {gs : List (Word × Nat)} (h : InflatingBytes e out (d ++ bytes))
    (r : HasRoom e [d.length + k] gs) :
    ∃ f, storedData (d.length + k) ((d.length + k) ^^^ 0xFFFF) e = copyStored k f ∧ Grows e f d.length gs ∧
      (k = 0 → HasRoom f [] []) ∧ InflatingBytes f (out ++ d) bytes := by
  obtain ⟨f, hf, ⟨taken, left, rfl, gr, roomf⟩, hi, fits⟩ := h.inflating.outReserve r
  obtain rfl := roomf.no_grant_of_fits fits
  obtain ⟨g, hg, gr', jg⟩ := copyStored_grows d hi.toBytes (by omega)
  refine ⟨g, ?_, ?_, ?_, jg⟩
  · rw [storedData, ensure_bind (decide_eq_true rfl), EngM.bind_ok hf, hg]
  · rw [List.append_nil]
    simpa using gr.trans gr'
  · rintro rfl
    exact roomf.appends gr' fits

end

/-! ### The block -/

section
variable {e : Eng} {final : Bool} (c : CanRead e)
include c

theorem infBlock_stored_eq {pad : List Bool} {bytes : List Byte} (hp : pad.length < 8)
    (h : e.bitsAhead = final :: false :: false :: (pad ++ bytesBits bytes)) :
    ∃ f, infBlock e = (storedBytes >>= fun _ => pure (final.toNat, 0)) f ∧ ReadsOn e f ∧ BytesAhead f bytes := by
  obtain ⟨a, b, ha, hb, rb, cb, bb⟩ := blockHeader_ok (type := 0) (rest := pad ++ bytesBits bytes) (by decide) c h
  obtain ⟨f, hf, rf, cf, bf, -⟩ := brAlign_ok cb
  have hl := bitsAhead_length b
  rw [bb, List.length_append, bytesBits_length] at hl
  rw [bb, List.drop_left' (by omega)] at bf
  refine ⟨f, ?_, rb.trans rf, cf, bf⟩
  rw [infBlock, EngM.bind_ok ha, EngM.bind_ok hb, if_pos rfl, infStored_eq, bind_assoc, EngM.bind_ok hf]

theorem infBlock_reserved {rest : List Bool} (h : e.bitsAhead = final :: true :: true :: rest) :
    ∃ f, infBlock e = .error (.raise 0x0303 3) f ∧ ReadsOn e f := by
  obtain ⟨a, b, ha, hb, rb, -, -⟩ := blockHeader_ok (type := 3) (by decide) c h
  exact ⟨b, by rw [infBlock, EngM.bind_ok ha, EngM.bind_ok hb]; rfl, rb⟩

/-- A header cut short lacks its first bit, or its type. -/
theorem infBlock_short (h : e.bitsAhead.length < 3) :
    ∃ f, infBlock e = .error (.raise 0x0205 (if e.bitsAhead.length = 0 then 1 else 2)) f ∧ ReadsOn e f := by
  by_cases h0 : e.bitsAhead.length = 0
  · obtain ⟨f, hf, ro, -⟩ := brGet_fails (n := 1) (by decide) c (by omega)
    exact ⟨f, by rw [if_pos h0, infBlock, EngM.bind_error hf], ro⟩
  · obtain ⟨f, hf, rf, cf, bf⟩ := brGet_ok (n := 1) (by decide) c (by omega)
    obtain ⟨g, hg, rg, -⟩ := brGet_fails (n := 2) (by decide) cf (by rw [bf, List.length_drop]; omega)
    exact ⟨g, by rw [if_neg h0, infBlock, EngM.bind_ok hf, EngM.bind_error hg], rf.trans rg⟩

end

theorem le16_lt (bytes : List Byte) (i : Nat) : le16 bytes i < 65536 := by
  have := (bytes.getD i 0).isLt
  have := (bytes.getD (i + 1) 0).isLt
  simp only [le16, byteAt]
  omega

/-! ### INF_BLOCK -/

/-- INF_BLOCK whose block fails before it puts anything out. -/
theorem blockFails_of_reads {s : State} {f : Eng} {code info : Nat} (opened : s.OutputOpen []) (hv : s.start.br.valid = true)
    (hrun : infBlock (s.blockEntry []) = .error (.raise code info) f) (ro : ReadsOn (s.blockEntry []) f) (hc : code / 256 ≠ 6)
    (hinfo : info < 2 ^ 32) : BlockFails s [] [] code info :=
  blockFails_of_scans opened hv hrun ro.scans hc hinfo

section
variable {s : State} {final : Bool} {pad : List Bool} {bytes : List Byte} (c : CanRead s.start) (hp : pad.length < 8)
  (h : s.start.bitsAhead = final :: false :: false :: (pad ++ bytesBits bytes))
include c hp h

theorem storedBlock_short (opened : s.OutputOpen []) (hl : bytes.length < 4) : BlockFails s [] [] 0x0205 0 := by
  obtain ⟨f, hf, ro, hb⟩ := infBlock_stored_eq (State.blockEntry_canRead c []) hp h
  obtain ⟨g, hg, rg⟩ := storedBytes_short hb hl
  exact blockFails_of_reads opened c.valid (hf.trans (EngM.bind_error hg)) (ro.trans rg) (by decide) (by decide)

variable (hl : 4 ≤ bytes.length)
include hl

/-- INF_BLOCK has read LEN and NLEN. -/
theorem storedBlock_eq (ps : List Word) :
    ∃ f, infBlock (s.blockEntry ps) = (storedData (le16 bytes 0) (le16 bytes 2) >>= fun _ => pure (final.toNat, 0)) f ∧
      ReadsOn (s.blockEntry ps) f ∧ BytesAhead f (bytes.drop 4) := by
  obtain ⟨f, hf, ro, hb⟩ := infBlock_stored_eq (State.blockEntry_canRead c ps) hp h
  obtain ⟨g, hg, rg, hd⟩ := storedBytes_eq hb hl
  exact ⟨g, by rw [hf, EngM.bind_run, hg, EngM.bind_run], ro.trans rg, hd⟩

theorem storedBlock_fails {code info : Nat} (opened : s.OutputOpen [])
    (hd : ∀ f : Eng, f.inf = s.start.inf → storedData (le16 bytes 0) (le16 bytes 2) f = .error (.raise code info) f)
    (hc : code / 256 ≠ 6) (hinfo : info < 2 ^ 32) : BlockFails s [] [] code info := by
  obtain ⟨f, hf, ro, -⟩ := storedBlock_eq c hp h hl []
  exact blockFails_of_reads opened c.valid (hf.trans (EngM.bind_error (hd f (by rw [ro.same]; rfl)))) ro hc hinfo

variable {ps : List Word} {d rest : List Byte} {k : Nat} (hn : le16 bytes 2 = le16 bytes 0 ^^^ 0xFFFF)
  (hlen : le16 bytes 0 = d.length + k) (hdata : bytes.drop 4 = d ++ rest)
  (room : s.Room [le16 bytes 0] ps)
include hn hlen hdata room

/-- INF_BLOCK has put the bytes `d` of its data in the output; `k` are still to come. -/
theorem storedBlock_grows :
    ∃ f, infBlock (s.blockEntry ps) = (copyStored k >>= fun _ => pure (final.toNat, 0)) f ∧
      Grows (s.blockEntry ps) f d.length (s.grants [le16 bytes 0] ps) ∧ (k = 0 → HasRoom f [] []) ∧
      InflatingBytes f (s.outputBefore ++ d) rest := by
  obtain ⟨f, hf, ro, hb⟩ := storedBlock_eq c hp h hl ps
  have hi := hb.inflating (room.inflating c) ro
  have hr := room.hasRoom.reads ro
  rw [hdata] at hi
  rw [hn, hlen] at hf
  rw [hlen] at hr ⊢
  obtain ⟨g, hg, gr, roomg, jg⟩ := storedData_grows hi hr
  exact ⟨g, by rw [hf, EngM.bind_run, hg, EngM.bind_run], ro.grows_trans gr, roomg, jg⟩

end

/-- Settles O39: the header and the two lengths are read or cut short, then room is made for the whole block, and the data joins the
output up to its end or to the end of the input. -/
theorem infBlockCopiesAStoredBlock : Obligations.InfBlockCopiesAStoredBlock := by
  unfold Obligations.InfBlockCopiesAStoredBlock
  intro s hv hr hs hm
  have c : CanRead s.start := ⟨hv, hr, hs, hm⟩
  refine ⟨fun final pad bytes hp h => ?_, fun opened h => ?_, fun final rest opened h => ?_⟩
  · intro len need data
    have hlen : len < 65536 := le16_lt bytes 0
    refine ⟨fun opened hl => storedBlock_short c hp h opened hl, fun opened hl hn => ?_,
      fun hl hn => ⟨fun opened hre hcap hneed => ?_, fun ps room => ⟨fun hshort => ?_, fun hfull => ?_⟩⟩⟩
    · exact storedBlock_fails c hp h hl opened (fun f _ => storedData_fails_check hn) (by decide) (by omega)
    · refine storedBlock_fails c hp h hl opened (fun f hf => ?_) (by decide) hneed
      rw [hn, storedData_fails_full (by rw [hf]; exact hcap) (by rw [hf]; exact hre), hf]
    · obtain ⟨k, hk⟩ := Nat.exists_eq_add_of_lt hshort
      obtain ⟨f, hf, gr, -, jf⟩ := storedBlock_grows (k := k + 1) c hp h hl hn hk (List.append_nil data).symm room
      obtain ⟨g, hg, rg⟩ := BytesAhead.copyStored_nil ⟨jf.inflating.reads, jf.inflating.ahead⟩ k
      have gr' : Grows (s.blockEntry ps) g data.length (s.grants [len] ps) := by simpa using gr.trans rg.grows
      exact blockFails_of_run (h0 := s.start.ht0) (h1 := s.start.ht1) (h2 := s.start.ht2) (k := s.start.free) room.opened hv
        room.answers (hf.trans (EngM.bind_error hg)) gr' (by rw [List.sum_singleton]; exact hshort.le) (by decide) (by decide)
    · obtain ⟨f, hf, gr, roomf, jf⟩ := storedBlock_grows (k := 0) c hp h hl hn (List.length_take_of_le hfull).symm
        (List.take_append_drop len data).symm room
      rw [List.length_take_of_le hfull, ← List.sum_singleton (x := len)] at gr
      obtain ⟨t, hx, ⟨e0, e1, e2⟩, hd⟩ := blockDone_of_run (h0 := s.start.ht0) (h1 := s.start.ht1) (h2 := s.start.ht2)
        (k := s.start.free) room hv (by decide) hf gr (roomf rfl) jf.inflating
      exact ⟨t, hx, ⟨e0, e1, e2⟩, hd⟩
  · obtain ⟨f, hf, ro⟩ := infBlock_short (State.blockEntry_canRead c []) h
    exact blockFails_of_reads opened hv hf ro (by decide) (by split <;> decide)
  · obtain ⟨f, hf, ro⟩ := infBlock_reserved (State.blockEntry_canRead c []) h
    exact blockFails_of_reads opened hv hf ro (by decide) (by decide)

end Sys2Proof.Machine
end

section
/-! SUPPORT. A run of PNG_DECODE as a whole: what its steps leave alone, how it starts, and how it fails (43_png_chunk_parser.md R240,
R244; 60_exceptions.md R414). -/

namespace Sys2Proof.Machine

/-! ### What a run leaves alone -/

/-- Memory is as it was outside the buffers `bufs`, each an address and a size. -/
def SameOutside (e f : Eng) (bufs : List (Nat × Nat)) : Prop :=
  ∀ x, (∀ b ∈ bufs, x < b.1 ∨ b.1 + b.2 ≤ x) → f.mem.get x = e.mem.get x

theorem SameOutside.refl (e : Eng) (bufs : List (Nat × Nat)) : SameOutside e e bufs := fun _ _ => rfl

theorem SameOutside.trans {e f g : Eng} {bufs : List (Nat × Nat)} (h : SameOutside e f bufs) (h' : SameOutside f g bufs) :
    SameOutside e g bufs := fun x hx => (h' x hx).trans (h x hx)

/-- More buffers may have been written to; those of size 0 do not count. -/
theorem SameOutside.mono {e f : Eng} {bufs more : List (Nat × Nat)} (h : SameOutside e f bufs)
    (hb : ∀ b ∈ bufs, b.2 = 0 ∨ b ∈ more) : SameOutside e f more := fun x hx => h x fun b hm => by
  rcases hb b hm with h0 | hm
  · omega
  · exact hx b hm

/-- The command has written nothing that is the host's. -/
def Eng.OwnWrites (e : Eng) : Prop := ∀ w ∈ e.written, w.toHost = false

theorem ownWrites_noteWrite {ws : List Written} (h : ∀ w ∈ ws, w.toHost = false) (a n : Nat) :
    ∀ w ∈ noteWrite a n false ws, w.toHost = false := by
  cases ws with
  | nil => simp [noteWrite]
  | cons v ws =>
    rw [noteWrite]
    split
    · rename_i hv
      exact List.forall_mem_cons.2 ⟨hv.2, fun w hw => h w (List.mem_cons_of_mem _ hw)⟩
    · exact List.forall_mem_cons.2 ⟨rfl, h⟩

/-- Steps of a PNG_DECODE from `e` to `f`: they have written to no buffer but `bufs`, none of them the host's, LIVE is `live`, and
the answers `moves` are to come. -/
structure PngRun (e f : Eng) (bufs : List (Nat × Nat)) (live : List Buf) (moves : List PortMove) : Prop
    extends PngStep e f live moves where
  own : f.OwnWrites
  outside : SameOutside e f bufs

section
variable {e f g : Eng} {bufs more : List (Nat × Nat)} {live : List Buf} {moves : List PortMove}

theorem PngRun.mono (h : PngRun e f bufs live moves) (hb : ∀ b ∈ bufs, b.2 = 0 ∨ b ∈ more) : PngRun e f more live moves :=
  ⟨h.toPngStep, h.own, h.outside.mono hb⟩

/-- Reads of the source, and changes of the parser's state. -/
theorem PngRun.reads (h : PngRun e f bufs live moves)
    (hg : g = { f with bs := { f.bs with pos := g.bs.pos }, srcEof := g.srcEof, png := g.png }) :
    PngRun e g bufs live moves where
  frame := h.frame.trans ⟨by rw [hg]⟩
  live := by rw [hg]; exact h.live
  moves := by rw [hg]; exact h.moves
  allocReq := by rw [hg]; exact h.allocReq
  own := by rw [hg]; exact h.own
  outside := by rw [hg]; exact h.outside

/-- A write to one of the buffers. -/
theorem PngRun.writes {a n x : Nat} {bs : List Byte} (h : PngRun e f bufs live moves) (hb : (a, n) ∈ bufs) (hx : a ≤ x)
    (hn : x + bs.length ≤ a + n) (hr : a + n ≤ Config.addrSpace) :
    ∃ g, memWrite false x bs f = .ok () g ∧ g = { f with mem := f.mem.write x bs, written := g.written, journal := g.journal } ∧
      PngRun e g bufs live moves := by
  refine ⟨_, memWrite_ok (by omega), rfl, ⟨h.frame.trans ⟨rfl⟩, h.live, h.moves, h.allocReq⟩, ownWrites_noteWrite h.own _ _,
    h.outside.trans fun y hy => ?_⟩
  exact Memory.get_write_of_lt _ _ _ _ (by have := hy _ hb; omega)

end

/-! ### How a command starts -/

/-- The engine on which the parser of PNG_DECODE runs: as at the acceptance, with the answers `ms` ahead, the source's slice declared and
the parser's state new (43_png_chunk_parser.md R240). -/
def State.pngEntry (s : State) (ms : List PortMove) : Eng :=
  { s.entry ms with regions := [s.start.sourceRegion], png := some Png.init }

/-- What PNG_DECODE does after the signature, where `n` bytes are left: the chunks, and then the pipeline. -/
def pngParse (req : Nat) (c : Snapshot) (n : Nat) : EngM Results := do
  chunks c (n + 1)
  let p ← getP
  let (img, ch) ← pipeline c req p
  handOver img
  pure ⟨img, p.w, p.h, ch⟩

section
variable {s : State} {ms : List PortMove} {req : Nat}

theorem pngDecodeBody_eq (ready : s.Ready ms) (hmode : s.start.bs.mode = .mem) (hreq : req ≤ 4) :
    pngDecodeBody req s.running.snap (s.entry ms) =
      (signature >>= fun _ => getE >>= fun e => pngParse req s.running.snap e.sourceLeft) (s.pngEntry ms) := by
  rw [pngDecodeBody, ensure_bind (decide_eq_true hreq), EngM.bind_ok (needSource_mem (e := s.entry ms) hmode),
    EngM.bind_ok (useSource_mem (e := s.entry ms) hmode ready.placed), modE_bind]
  simp only [ready.regions]
  rfl

theorem State.pngEntry_run (ready : s.Ready ms) : PngRun (s.pngEntry ms) (s.pngEntry ms) [] [] ms :=
  ⟨⟨⟨rfl⟩, ready.live, rfl, ready.allocReq⟩,
    fun w (hw : w ∈ s.start.written) => absurd (ready.written ▸ hw) List.not_mem_nil, SameOutside.refl _ _⟩

/-- The signature has been read, and `bytes` come after it. -/
theorem pngDecodeBody_signed {bytes : List Byte} (ready : s.Ready ms) (hmode : s.start.bs.mode = .mem) (hok : SourceOk s.start.bs)
    (hreq : req ≤ 4) (h : s.start.mem.read (s.start.bs.base + s.start.bs.pos) (s.start.bs.len - s.start.bs.pos) = pngSig ++ bytes) :
    pngDecodeBody req s.running.snap (s.entry ms) = pngParse req s.running.snap bytes.length ((s.pngEntry ms).advance 8) ∧
      SourceAt ((s.pngEntry ms).advance 8) bytes := by
  obtain ⟨hsig, hs⟩ := signature_ok (e := s.pngEntry ms) ⟨hmode, hok, h⟩
  refine ⟨?_, hs⟩
  rw [pngDecodeBody_eq ready hmode hreq, EngM.bind_ok hsig, getE_bind, hs.sourceLeft]

end

/-! ### How a command fails -/

/-- Frees of all of LIVE, each with an answer. -/
theorem freeAll_ok (bs : List Buf) {e : Eng} {vs : List Word} {ms : List PortMove} (hv : vs.length = bs.length)
    (hm : e.moves = vs.map .allocResp ++ ms) (h0 : e.allocReq = 0) :
    ∃ f, freeAll bs e = .ok () f ∧ f.moves = ms ∧ f.allocReq = 0 ∧
      f.live = e.live.filter (fun c => decide (∀ b ∈ bs, c.addr ≠ b.addr)) ∧
      f = { e with live := f.live, allocReq := f.allocReq, allocSize := f.allocSize, allocPtr := f.allocPtr, moves := f.moves,
                   journal := f.journal } := by
  induction bs generalizing e vs with
  | nil =>
    obtain rfl := List.eq_nil_of_length_eq_zero hv
    exact ⟨e, rfl, hm, h0, by simp, rfl⟩
  | cons b bs ih =>
    obtain ⟨v, vs, rfl⟩ := List.exists_cons_of_length_eq_add_one hv
    rw [List.map_cons, List.cons_append] at hm
    obtain ⟨f, hf, fm, fa, fl, fs⟩ := ih (e := e.freed b.addr (vs.map .allocResp ++ ms)) (Nat.succ.inj hv) rfl rfl
    refine ⟨f, ?_, fm, fa, ?_, by rw [fs]; rfl⟩
    · rw [freeAll, EngM.bind_ok (portFree_freed hm), hf]
    · rw [fl]
      show (dropBuf b.addr e.live).filter _ = _
      rw [dropBuf, List.filter_filter]
      refine List.filter_congr fun c _ => ?_
      simp [Bool.decide_and, Bool.and_comm]

/-- The failure sequence frees LIVE (60_exceptions.md R414 step 1). -/
theorem unwinding_ok {e : Eng} {vs : List Word} (hv : vs.length = e.live.length) (hm : e.moves = vs.map .allocResp)
    (h0 : e.allocReq = 0) :
    ∃ f, unwinding e = .ok () f ∧ f.live = [] ∧ f.moves = [] ∧ f.allocReq = 0 ∧
      f = { e with live := f.live, allocReq := f.allocReq, allocSize := f.allocSize, allocPtr := f.allocPtr, moves := f.moves,
                   journal := f.journal } := by
  obtain ⟨f, hf, fm, fa, fl, fs⟩ := freeAll_ok e.live (ms := []) hv (by rw [List.append_nil]; exact hm) h0
  refine ⟨f, ?_, ?_, fm, fa, fs⟩
  · rw [unwinding, freeLive, bind_assoc, getE_bind, EngM.bind_ok hf, settleMoves_empty fm]
  · rw [fl, List.filter_eq_nil_iff]
    intro c hc
    simp only [decide_eq_true_eq, not_forall]
    exact ⟨c, hc, by simp⟩

/-- PNG_DECODE fails where its steps raise an error and the Frees of the failure sequence lead to `f` (60_exceptions.md R414). -/
theorem pngDecode_fails {s : State} {ms : List PortMove} {req code info : Nat} {g f : Eng} (ready : s.Ready ms)
    (hbody : pngDecodeBody req s.running.snap (s.entry ms) = .error (.raise code info) g) (hu : unwinding g = .ok () f)
    (rest : AtRest f) (own : f.OwnWrites) (hinfo : info < 2 ^ 32) :
    exec (.pngDecode req) s = .next (s.fail .top code info f) ∧
      Failed s (s.fail .top code info f) (BitVec.ofNat 32 code) (BitVec.ofNat 32 info) ∧
      UnitsInvalid (s.fail .top code info f).eng ∧ SameMem f (s.fail .top code info f).eng := by
  have hf := Failed.fail s .top code (BitVec.ofNat 32 info) rest
  rw [BitVec.toNat_ofNat, Nat.mod_eq_of_lt hinfo] at hf
  refine ⟨?_, hf, ⟨rfl, rfl, rfl, rfl, rfl⟩, fun x => ?_⟩
  · have h1 : finishing (pngDecodeBody req s.running.snap) { s.running.base with moves := s.running.log } =
        .error (.raise code info) g := by
      rw [finishing, EngM.bind_error ((ready.body_eq _).trans hbody)]
    show runCommand .top (pngDecodeBody req) s = _
    simp only [runCommand, course, h1, hu, State.halt]
  · show (f.mem.scrambleAll f.free 0 (f.written.filter (·.toHost))).get x = f.mem.get x
    rw [List.filter_eq_nil_iff.2 fun w hw => by rw [own w hw]; decide]
    rfl

/-- From `s` PNG_DECODE fails with `E(code, info)` and leaves memory alone outside `bufs` (60_exceptions.md R414). -/
def PngFails (s : State) (req code info : Nat) (bufs : List (Nat × Nat)) : Prop :=
  ∃ t, exec (.pngDecode req) s = .next t ∧ Failed s t (BitVec.ofNat 32 code) (BitVec.ofNat 32 info) ∧ UnitsInvalid t.eng ∧
    (∀ x, (∀ b ∈ bufs, x < b.1 ∨ b.1 + b.2 ≤ x) → t.eng.mem.get x = s.start.mem.get x) ∧
    SameSrcPort s.start t.eng ∧ t.eng.bs = { s.start.bs with pos := t.eng.bs.pos }

/-- A run of the parser that raises an error, with an answer to come for each buffer in LIVE. -/
theorem pngFails_of_run {s : State} {ms : List PortMove} {req code info : Nat} {g : Eng} {bufs : List (Nat × Nat)} {live : List Buf}
    {vs : List Word} (ready : s.Ready ms) (hbody : pngDecodeBody req s.running.snap (s.entry ms) = .error (.raise code info) g)
    (run : PngRun (s.pngEntry ms) g bufs live (vs.map .allocResp)) (hv : vs.length = live.length) (hinfo : info < 2 ^ 32) :
    PngFails s req code info bufs := by
  obtain ⟨f, hu, fl, -, fa, fs⟩ := unwinding_ok (hv.trans (by rw [run.live])) run.moves run.allocReq
  have hsame := run.frame.same
  have hsrc : f.srcReq = 0 := by
    rw [fs, hsame]
    exact ready.srcReq
  have own : f.OwnWrites := by
    rw [fs]
    exact run.own
  obtain ⟨hx, hfail, hunits, hmem⟩ := pngDecode_fails ready hbody hu ⟨fl, hsrc, fa⟩ own hinfo
  refine ⟨_, hx, hfail, hunits, fun x hb => ?_, ?_, ?_⟩
  · rw [hmem x, fs]
    exact run.outside x hb
  · show f.srcReqLen = s.start.srcReqLen
    rw [fs, hsame]
    rfl
  · show f.bs = { s.start.bs with pos := f.bs.pos }
    rw [fs, hsame]
    rfl

end Sys2Proof.Machine
end

section
/-! SUPPORT. The data and the CRC of a chunk, whole or cut short, and the header of any chunk (43_png_chunk_parser.md R243, R245,
R255). -/

namespace Sys2Proof.Machine

/-! ### Bytes of a MEM-mode source, cut short or skipped (43_png_chunk_parser.md R243) -/

section
variable {f : Eng} {bytes : List Byte} {n : Nat}

theorem need_take (err : Nat) (h : SourceAt f bytes) (hn : n ≤ bytes.length) :
    need n err f = .ok (bytes.take n) (f.advance n) ∧ SourceAt (f.advance n) (bytes.drop n) := by
  rw [← List.take_append_drop n bytes] at h
  have := need_ok err h
  rwa [List.length_take_of_le hn] at this

/-- `need(n, err)` with too few bytes. -/
theorem need_cut (err : Nat) (h : SourceAt f bytes) (hn : bytes.length < n) :
    need n err f = .error (.raise err bytes.length) { f.advance bytes.length with srcEof := true } := by
  rw [need, EngM.bind_ok (bsGetN_sourceAt h), List.take_of_length_le hn.le, ensure_bind_fails (by simpa using hn),
    Nat.min_eq_right hn.le, decide_eq_true hn, Bool.or_true]

theorem SourceAt.drop (h : SourceAt f bytes) (hn : n ≤ bytes.length) : SourceAt (f.advance n) (bytes.drop n) :=
  (need_take 0 h hn).2

theorem bsSkip_sourceAt (n : Nat) (h : SourceAt f bytes) :
    bsSkip n f = .ok () (f.advance (min n bytes.length)) ∧ SourceAt (f.advance (min n bytes.length)) (bytes.drop n) := by
  have hlen : f.bs.len - f.bs.pos = bytes.length := by rw [← h.ahead, Memory.read_length]
  have hpos := (h.ok.slice h.mode).2
  have hdrop : bytes.drop (min n bytes.length) = bytes.drop n := by
    rcases Nat.le_total n bytes.length with hn | hn
    · rw [Nat.min_eq_left hn]
    · rw [Nat.min_eq_right hn, List.drop_length, List.drop_of_length_le hn]
  refine ⟨?_, hdrop ▸ h.drop (Nat.min_le_right _ _)⟩
  rw [bsSkip_mem n h.mode, Eng.advance, show min f.bs.len (f.bs.pos + n) = f.bs.pos + min n bytes.length by omega]

end

theorem be32_take_four {bytes : List Byte} (h : 4 ≤ bytes.length) : be32 (bytes.take 4) 0 = be32 bytes 0 := by
  obtain ⟨a, bytes, rfl⟩ := List.exists_cons_of_length_pos (by omega : 0 < bytes.length)
  obtain ⟨b, bytes, rfl⟩ := List.exists_cons_of_length_pos (by simp at h; omega : 0 < bytes.length)
  obtain ⟨c, bytes, rfl⟩ := List.exists_cons_of_length_pos (by simp at h; omega : 0 < bytes.length)
  obtain ⟨d, bytes, rfl⟩ := List.exists_cons_of_length_pos (by simp at h; omega : 0 < bytes.length)
  rfl

/-! ### Where the parser stands -/

/-- After steps of a PNG_DECODE from `e` the parser has come to `f`: its state is `p`, and the source has `bytes` ahead. -/
structure ParserAt (e f : Eng) (p : Png) (bufs : List (Nat × Nat)) (live : List Buf) (moves : List PortMove) (bytes : List Byte) : Prop
    extends PngRun e f bufs live moves where
  png : f.png = some p
  source : SourceAt f bytes

section
variable {c : Snapshot} {e f g : Eng} {p p' : Png} {bufs more : List (Nat × Nat)} {live : List Buf} {moves : List PortMove}
  {bytes rest : List Byte} {len type code info n : Nat} {use : List Byte → EngM Unit}

theorem ParserAt.readTo (h : ParserAt e f p bufs live moves bytes) (hs : SourceAt (f.advance n) rest) :
    ParserAt e (f.advance n) p bufs live moves rest :=
  ⟨h.toPngRun.reads rfl, h.png, hs⟩

theorem ParserAt.drop (h : ParserAt e f p bufs live moves bytes) (hn : n ≤ bytes.length) :
    ParserAt e (f.advance n) p bufs live moves (bytes.drop n) := h.readTo (h.source.drop hn)

theorem ParserAt.mono (h : ParserAt e f p bufs live moves bytes) (hb : ∀ b ∈ bufs, b.2 = 0 ∨ b ∈ more) :
    ParserAt e f p more live moves bytes := ⟨h.toPngRun.mono hb, h.png, h.source⟩

/-- A change of the parser's state. -/
theorem ParserAt.modP (h : ParserAt e f p bufs live moves bytes) (u : Png → Png) :
    modP u f = .ok () { f with png := some (u p) } ∧ ParserAt e { f with png := some (u p) } (u p) bufs live moves bytes :=
  ⟨modP_run u h.png, h.toPngRun.reads rfl, rfl, h.source.congr rfl fun _ _ _ => rfl⟩

/-! ### The CRC (43_png_chunk_parser.md R255) -/

/-- A CRC that is cut short, or that is checked and wrong. -/
theorem chunkCrc_fails {d : List Byte} (h : ParserAt e f p bufs live moves bytes)
    (hf : (bytes.length < 4 ∧ code = 0x0201 ∧ info = bytes.length) ∨
      (c.verifyCrc = true ∧ 4 ≤ bytes.length ∧ be32 bytes 0 ≠ (crc32 0 (putBe32 type ++ d)).toNat ∧ code = 0x0307 ∧ info = type)) :
    ∃ g, chunkCrc c type d f = .error (.raise code info) g ∧ PngRun e g bufs live moves := by
  rcases hf with ⟨hcut, rfl, rfl⟩ | ⟨hv, hlen, hne, rfl, rfl⟩
  · exact ⟨_, by rw [chunkCrc, EngM.bind_error (need_cut _ h.source hcut)], h.toPngRun.reads rfl⟩
  · refine ⟨_, ?_, (h.drop hlen).toPngRun⟩
    rw [chunkCrc, EngM.bind_ok (need_take _ h.source hlen).1, be32_take_four hlen, hv, decide_eq_false hne]
    rfl

/-! ### Data that is used (43_png_chunk_parser.md R246 to R254) -/

/-- The end of a chunk that the parser uses: its data is read, used, and its CRC checked. -/
def takeData (c : Snapshot) (type len : Nat) (use : List Byte → EngM Unit) : EngM Unit := do
  let d ← need len 0x0201
  use d
  chunkCrc c type d

/-- A sound chunk's data is used, and its CRC accepted. -/
theorem takeData_ok {ch : Chunk} (hs : ch.Sound c.verifyCrc) (h : ParserAt e f p bufs live moves (ch.data ++ (ch.crc ++ rest)))
    (hu : use ch.data (f.advance ch.data.length) = .ok () g) (hg : ParserAt e g p' more live moves (ch.crc ++ rest)) :
    takeData c ch.type ch.data.length use f = .ok () (g.advance 4) ∧ ParserAt e (g.advance 4) p' more live moves rest := by
  obtain ⟨hcrc, hr⟩ := chunkCrc_ok hs hg.source
  refine ⟨?_, hg.readTo hr⟩
  rw [takeData, EngM.bind_ok (need_ok 0x0201 h.source).1, EngM.bind_ok hu, hcrc]

/-- A chunk whose end fails, its data used where it is not cut short. -/
theorem takeData_fails (h : ParserAt e f p bufs live moves bytes) (hf : EndFails c.verifyCrc len type bytes code info)
    (hu : len ≤ bytes.length → ∃ g p', use (bytes.take len) (f.advance len) = .ok () g ∧
      ParserAt e g p' more live moves (bytes.drop len)) :
    ∃ g, takeData c type len use f = .error (.raise code info) g ∧
      PngRun e g (if bytes.length < len then bufs else more) live moves := by
  rcases Nat.lt_or_ge bytes.length len with hlt | hge
  · obtain ⟨rfl, rfl⟩ : code = 0x0201 ∧ info = bytes.length := by
      rcases hf with ⟨-, hc⟩ | ⟨hlen, -⟩ | ⟨-, hlen, -⟩
      · exact hc
      · omega
      · omega
    rw [if_pos hlt]
    exact ⟨_, by rw [takeData, EngM.bind_error (need_cut _ h.source hlt)], h.toPngRun.reads rfl⟩
  · obtain ⟨g, p', hg, hp⟩ := hu hge
    obtain ⟨k, hk, hr⟩ := chunkCrc_fails (c := c) (type := type) (d := bytes.take len) (code := code) (info := info) hp (by
      rw [List.length_drop]
      rcases hf with ⟨hlen, -⟩ | ⟨-, hlen, hcode, hinfo⟩ | ⟨hv, hlen, hne, hcode, hinfo⟩
      · omega
      · exact .inl ⟨by omega, hcode, hinfo⟩
      · exact .inr ⟨hv, by omega, hne, hcode, hinfo⟩)
    rw [if_neg hge.not_gt]
    exact ⟨k, by rw [takeData, EngM.bind_ok (need_take _ h.source hge).1, EngM.bind_ok hg, hk], hr⟩

/-- The same for data whose use changes the parser's state alone. -/
theorem takeData_fails_of_modP {u : List Byte → Png → Png} (h : ParserAt e f p bufs live moves bytes)
    (hf : EndFails c.verifyCrc len type bytes code info) :
    ∃ g, takeData c type len (fun d => modP (u d)) f = .error (.raise code info) g ∧ PngRun e g bufs live moves := by
  have := takeData_fails (use := fun d => modP (u d)) h hf fun hlen =>
    ⟨_, _, ((h.drop hlen).modP (u (bytes.take len))).1, ((h.drop hlen).modP (u (bytes.take len))).2⟩
  rwa [ite_self] at this

/-- Two uses that do the same to an engine in this parser state. -/
theorem takeData_congr {use' : List Byte → EngM Unit} (h : ParserAt e f p bufs live moves bytes)
    (hu : ∀ d (g : Eng), g.png = some p → use d g = use' d g) : takeData c type len use f = takeData c type len use' f := by
  rw [takeData, takeData]
  rcases Nat.lt_or_ge bytes.length len with hlt | hge
  · rw [EngM.bind_error (need_cut _ h.source hlt), EngM.bind_error (need_cut _ h.source hlt)]
  · rw [EngM.bind_ok (need_take _ h.source hge).1, EngM.bind_ok (need_take _ h.source hge).1, EngM.bind_run, EngM.bind_run,
      hu _ (f.advance len) h.png]

/-- Data that is not used. -/
theorem takeData_unused : takeData c type len (fun _ => pure ()) = need len 0x0201 >>= chunkCrc c type := by
  simp only [takeData, pure_bind]

/-! ### Chunks that are skipped (43_png_chunk_parser.md R255) -/

theorem chunkSkip_checked (hv : c.verifyCrc = true) (type len : Nat) :
    chunkSkip c type len = takeData c type len fun _ => pure () := by
  rw [chunkSkip, skipData, if_pos hv, takeData_unused]

theorem chunkSkip_unchecked (hv : c.verifyCrc = false) (type len : Nat) :
    chunkSkip c type len = bsSkip len >>= fun _ => chunkCrc c type [] := by
  rw [chunkSkip, skipData, hv, if_neg Bool.false_ne_true, bind_assoc]
  simp only [pure_bind]

/-- Where CRCs are not checked the data of a chunk does not matter. -/
theorem Chunk.Sound.withData {ch : Chunk} (h : ch.Sound false) : ({ ch with data := [] } : Chunk).Sound false :=
  ⟨h.type, Nat.zero_le _, h.crcLength, fun hv => absurd hv Bool.false_ne_true⟩

theorem chunkSkip_ok {ch : Chunk} (hs : ch.Sound c.verifyCrc) (h : ParserAt e f p bufs live moves (ch.data ++ (ch.crc ++ rest))) :
    ∃ g, chunkSkip c ch.type ch.data.length f = .ok () g ∧ ParserAt e g p bufs live moves rest := by
  cases hv : c.verifyCrc with
  | true =>
    rw [chunkSkip_checked hv]
    exact ⟨_, takeData_ok hs h rfl (h.readTo (need_ok 0 h.source).2)⟩
  | false =>
    obtain ⟨hskip, hs1⟩ := bsSkip_sourceAt ch.data.length h.source
    rw [List.drop_left] at hs1
    obtain ⟨hcrc, hs2⟩ := chunkCrc_ok (c := c) (ch := { ch with data := [] }) (by rw [hv] at hs ⊢; exact hs.withData) hs1
    exact ⟨_, by rw [chunkSkip_unchecked hv, EngM.bind_ok hskip, hcrc], (h.readTo hs1).readTo hs2⟩

theorem chunkSkip_fails (h : ParserAt e f p bufs live moves bytes) (hf : SkipFails c.verifyCrc len type bytes code info) :
    ∃ g, chunkSkip c type len f = .error (.raise code info) g ∧ PngRun e g bufs live moves := by
  rcases hf with ⟨hv, hf⟩ | ⟨hv, hlen, hcode, hinfo⟩
  · rw [chunkSkip_checked hv]
    have := takeData_fails (use := fun _ => pure ()) h hf fun hlen => ⟨_, p, rfl, h.drop hlen⟩
    rwa [ite_self] at this
  · obtain ⟨hskip, hs⟩ := bsSkip_sourceAt len h.source
    obtain ⟨g, hg, hr⟩ := chunkCrc_fails (c := c) (type := type) (d := []) (code := code) (info := info) (h.readTo hs)
      (.inl ⟨by rw [List.length_drop]; omega, hcode, by rw [List.length_drop]; exact hinfo⟩)
    exact ⟨g, by rw [chunkSkip_unchecked hv, EngM.bind_ok hskip, hg], hr⟩

/-! ### The header of a chunk (43_png_chunk_parser.md R245) -/

/-- The turn of the chunk loop after a chunk's header. -/
def chunkTurn (c : Snapshot) (fuel len type : Nat) : EngM Unit := do
  ensure (decide (len ≤ 0x7fffffff)) 0x0117 len
  if type = typeCgBI then do
    modP fun p => { p with cgbi := true }
    chunkSkip c type len
    chunks c fuel
  else do
    let p ← getP
    ensure (!p.first || decide (type = typeIHDR)) 0x0102 type
    if type = typeIEND then iend c len
    else do
      chunk c type len
      chunks c fuel

theorem chunks_turn (fuel : Nat) (hl : len < 0x100000000) (ht : type < 0x100000000)
    (h : ParserAt e f p bufs live moves (putBe32 len ++ putBe32 type ++ rest)) :
    chunks c (fuel + 1) f = chunkTurn c fuel len type (f.advance 8) ∧ ParserAt e (f.advance 8) p bufs live moves rest := by
  obtain ⟨hn, hr⟩ := need_ok (d := putBe32 len ++ putBe32 type) 0x0201 h.source
  rw [show (putBe32 len ++ putBe32 type).length = 8 by rfl] at hn hr
  have h0 : be32 (putBe32 len ++ putBe32 type) 0 = len := be32_putBe32 hl _
  have h4 : be32 (putBe32 len ++ putBe32 type) 4 = type := by
    have := be32_putBe32 ht []
    rwa [List.append_nil] at this
  refine ⟨?_, h.readTo hr⟩
  rw [chunks, EngM.bind_ok hn, h0, h4, chunkTurn]

/-- Fewer than eight bytes are no header. -/
theorem chunks_short (fuel : Nat) (h : ParserAt e f p bufs live moves bytes) (hlen : bytes.length < 8) :
    ∃ g, chunks c (fuel + 1) f = .error (.raise 0x0201 bytes.length) g ∧ PngRun e g bufs live moves :=
  ⟨_, by rw [chunks, EngM.bind_error (need_cut _ h.source hlen)], h.toPngRun.reads rfl⟩

theorem chunkTurn_tooLong (fuel type : Nat) (hl : 0x7fffffff < len) :
    chunkTurn c fuel len type f = .error (.raise 0x0117 len) f := by
  rw [chunkTurn, ensure_bind_fails (by simpa using hl)]

variable (hl : len ≤ 0x7fffffff)
include hl

theorem chunkTurn_cgbi (fuel : Nat) (hp : f.png = some p) :
    chunkTurn c fuel len typeCgBI f =
      (chunkSkip c typeCgBI len >>= fun _ => chunks c fuel) { f with png := some { p with cgbi := true } } := by
  rw [chunkTurn, ensure_bind (decide_eq_true hl), if_pos rfl, EngM.bind_ok (modP_run _ hp)]

theorem chunkTurn_notIHDR (fuel : Nat) (hp : f.png = some p) (hfirst : p.first = true) (hi : type ≠ typeIHDR) (hc : type ≠ typeCgBI) :
    chunkTurn c fuel len type f = .error (.raise 0x0102 type) f := by
  rw [chunkTurn, ensure_bind (decide_eq_true hl), if_neg hc, EngM.bind_ok (getP_run hp),
    ensure_bind_fails (by simp [hfirst, hi])]

theorem chunkTurn_iend (fuel : Nat) (hp : f.png = some p) (hfirst : p.first = false) :
    chunkTurn c fuel len typeIEND f = iend c len f := by
  rw [chunkTurn, ensure_bind (decide_eq_true hl), if_neg (by decide), EngM.bind_ok (getP_run hp), ensure_bind (by simp [hfirst]),
    if_pos rfl]

theorem chunkTurn_other (fuel : Nat) (hp : f.png = some p) (hfirst : p.first = true → type = typeIHDR) (hc : type ≠ typeCgBI)
    (he : type ≠ typeIEND) : chunkTurn c fuel len type f = (chunk c type len >>= fun _ => chunks c fuel) f := by
  have hok : (!p.first || decide (type = typeIHDR)) = true := by
    cases hf : p.first with
    | false => rfl
    | true => simpa using hfirst hf
  rw [chunkTurn, ensure_bind (decide_eq_true hl), if_neg hc, EngM.bind_ok (getP_run hp), ensure_bind hok, if_neg he]

end

end Sys2Proof.Machine
end

section
/-! SUPPORT. Each chunk of a PNG file before the IDATs, as the parser uses it or rejects it (43_png_chunk_parser.md R246 to R250). -/

namespace Sys2Proof.Machine

section
variable {c : Snapshot} {e f g : Eng} {p : Png} {bufs : List (Nat × Nat)} {live : List Buf} {moves : List PortMove}
  {bytes rest : List Byte} {len code info : Nat}

/-! ### IHDR (43_png_chunk_parser.md R246) -/

/-- The fields of an IHDR with the data `d`, before its CRC is checked. -/
def Png.withFields (d : List Byte) (p : Png) : Png :=
  { p with
    w := be32 d 0, h := be32 d 4, depth := byteAt d 8, ctype := byteAt d 9, interlace := byteAt d 12
    imgN := colourChannels (byteAt d 9) }

/-- What IHDR does with its data. -/
def ihdrUse (d : List Byte) : EngM Unit := ihdrCheck d >>= fun _ => modP (Png.withFields d)

theorem ihdr_eq (hp : f.png = some p) (hfirst : p.first = true) :
    ihdr c 13 f = (takeData c typeIHDR 13 ihdrUse >>= fun _ => modP fun p => { p with first := false }) f := by
  rw [ihdr, EngM.bind_ok (getP_run hp), ensure_bind hfirst, ensure_bind (by decide), takeData]
  simp only [ihdrUse, bind_assoc]
  rfl

theorem ihdr_second (hp : f.png = some p) (hfirst : p.first = false) : ihdr c len f = .error (.raise 0x0103 0) f := by
  rw [ihdr, EngM.bind_ok (getP_run hp), ensure_bind_fails hfirst]

theorem ihdr_length (hp : f.png = some p) (hfirst : p.first = true) (hl : len ≠ 13) : ihdr c len f = .error (.raise 0x0104 len) f := by
  rw [ihdr, EngM.bind_ok (getP_run hp), ensure_bind hfirst, ensure_bind_fails (decide_eq_false hl)]

/-- A first bad field of the data. -/
theorem ihdr_check_fails {d : List Byte} (h : ParserAt e f p bufs live moves (d ++ rest)) (hfirst : p.first = true)
    (hd : d.length = 13) (hc : ∀ g, ihdrCheck d g = .error (.raise code info) g) :
    ihdr c 13 f = .error (.raise code info) (f.advance 13) := by
  have hn := (need_ok 0x0201 h.source).1
  rw [hd] at hn
  rw [ihdr_eq h.png hfirst, EngM.bind_error]
  rw [takeData, EngM.bind_ok hn, ihdrUse, bind_assoc, EngM.bind_error (hc _)]

/-- Good data, used. -/
theorem ihdrUse_ok {d : List Byte} (h : ParserAt e f p bufs live moves bytes) (hd : HeaderOk d) :
    ∃ g, ihdrUse d f = .ok () g ∧ ParserAt e g (p.withFields d) bufs live moves bytes := by
  obtain ⟨hm, hp⟩ := h.modP (Png.withFields d)
  exact ⟨_, by rw [ihdrUse, EngM.bind_ok (ihdrCheck_ok hd), hm], hp⟩

theorem ihdr_accepted {ch : Chunk} (hs : ch.Sound c.verifyCrc) (ht : ch.type = typeIHDR) (hd : HeaderOk ch.data)
    (hfirst : p.first = true) (h : ParserAt e f p bufs live moves (ch.data ++ (ch.crc ++ rest))) :
    ∃ g, ihdr c ch.data.length f = .ok () g ∧ ParserAt e g (p.withHeader ch.data) bufs live moves rest := by
  obtain ⟨hi, hr⟩ := ihdr_ok hs ht hd h.png hfirst h.source
  exact ⟨_, hi, h.toPngRun.reads rfl, rfl, hr.congr rfl fun _ _ _ => rfl⟩

/-- A first IHDR that is cut short in its CRC, or has a wrong one. -/
theorem ihdr_end_fails (h : ParserAt e f p bufs live moves bytes) (hfirst : p.first = true) (hd : 13 ≤ bytes.length → HeaderOk (bytes.take 13))
    (hf : EndFails c.verifyCrc 13 typeIHDR bytes code info) :
    ∃ g, ihdr c 13 f = .error (.raise code info) g ∧ PngRun e g bufs live moves := by
  obtain ⟨g, hg, hr⟩ := takeData_fails (use := ihdrUse) h hf fun hlen =>
    ⟨_, _, (ihdrUse_ok (h.drop hlen) (hd hlen)).choose_spec.1, (ihdrUse_ok (h.drop hlen) (hd hlen)).choose_spec.2⟩
  rw [ite_self] at hr
  exact ⟨g, by rw [ihdr_eq h.png hfirst, EngM.bind_error hg], hr⟩

/-! ### PLTE (43_png_chunk_parser.md R248) -/

/-- The parser's state after a PLTE with the data `d`: only an indexed image takes its palette. -/
def Png.withPalette (len : Nat) (d : List Byte) (p : Png) : Png :=
  if p.ctype = 3 then { p with pal := plteEntries p.pal d (len / 3), palLen := len / 3 } else p

theorem plte_eq (h : ParserAt e f p bufs live moves bytes) (hseen : p.idatSeen = false) (hl : len ≤ 768 ∧ len % 3 = 0) :
    plte c len f = takeData c typePLTE len (fun d => modP (Png.withPalette len d)) f := by
  rw [plte, EngM.bind_ok (getP_run h.png), ensure_bind (by rw [hseen]; rfl), ensure_bind (decide_eq_true hl)]
  by_cases h3 : p.ctype = 3
  · simp only [if_pos h3]
    exact takeData_congr (use := fun d => modP fun p => { p with pal := plteEntries p.pal d (len / 3), palLen := len / 3 }) h
      fun d g hg => by rw [modP_run _ hg, modP_run _ hg, Png.withPalette, if_pos h3]
  · simp only [if_neg h3]
    rw [show (fun d => chunkCrc c typePLTE d) = chunkCrc c typePLTE from rfl, ← takeData_unused]
    exact takeData_congr (use := fun _ => pure ()) h fun d g hg => by
      rw [modP_run _ hg, Png.withPalette, if_neg h3, ← hg]
      rfl

theorem plte_late (hp : f.png = some p) (hseen : p.idatSeen = true) : plte c len f = .error (.raise 0x010D 0) f := by
  rw [plte, EngM.bind_ok (getP_run hp), ensure_bind_fails (by rw [hseen]; rfl)]

theorem plte_length (hp : f.png = some p) (hseen : p.idatSeen = false) (hl : 768 < len ∨ len % 3 ≠ 0) :
    plte c len f = .error (.raise 0x010C len) f := by
  rw [plte, EngM.bind_ok (getP_run hp), ensure_bind (by rw [hseen]; rfl), ensure_bind_fails (decide_eq_false (by omega))]

theorem plte_accepted {ch : Chunk} (hs : ch.Sound c.verifyCrc) (ht : ch.type = typePLTE) (hseen : p.idatSeen = false)
    (hl : ch.data.length ≤ 768 ∧ ch.data.length % 3 = 0) (h : ParserAt e f p bufs live moves (ch.data ++ (ch.crc ++ rest))) :
    ∃ g, plte c ch.data.length f = .ok () g ∧ ParserAt e g (p.withPalette ch.data.length ch.data) bufs live moves rest := by
  obtain ⟨hm, hp⟩ := (h.readTo (need_ok 0 h.source).2).modP (Png.withPalette ch.data.length ch.data)
  rw [plte_eq h hseen hl, ← ht]
  exact ⟨_, takeData_ok hs h hm hp⟩

theorem plte_end_fails (h : ParserAt e f p bufs live moves bytes) (hseen : p.idatSeen = false) (hl : len ≤ 768 ∧ len % 3 = 0)
    (hf : EndFails c.verifyCrc len typePLTE bytes code info) :
    ∃ g, plte c len f = .error (.raise code info) g ∧ PngRun e g bufs live moves := by
  rw [plte_eq h hseen hl]
  exact takeData_fails_of_modP h hf

/-! ### tRNS (43_png_chunk_parser.md R250) -/

/-- The parser's state after a tRNS with the data `d`: alphas of the palette, or a key. -/
def Png.withTrns (len : Nat) (d : List Byte) (p : Png) : Png :=
  if p.ctype = 3 then { p with pal := trnsEntries p.pal d len, palTrns := true }
  else { p with key := trnsKey p.key d p.imgN p.depth, hasKey := true }

/-- A tRNS of `len` bytes is one that an image with this head can have. -/
def Png.TrnsFits (p : Png) (len : Nat) : Prop :=
  (p.ctype = 3 ∧ p.palLen ≠ 0 ∧ len ≤ p.palLen) ∨ ((p.ctype = 0 ∨ p.ctype = 2) ∧ len = 2 * p.imgN)

theorem trns_eq (h : ParserAt e f p bufs live moves bytes) (hseen : p.idatSeen = false) (hfit : p.TrnsFits len) :
    trns c len f = takeData c typeTRNS len (fun d => modP (Png.withTrns len d)) f := by
  have same : ∀ u : List Byte → Png → Png, (∀ d, u d p = p.withTrns len d) →
      takeData c typeTRNS len (fun d => modP (u d)) f = takeData c typeTRNS len (fun d => modP (Png.withTrns len d)) f :=
    fun u hu => takeData_congr h fun d g hg => by rw [modP_run _ hg, modP_run _ hg, hu]
  rw [trns, EngM.bind_ok (getP_run h.png), ensure_bind (by rw [hseen]; rfl), EngM.ite_run]
  rcases hfit with ⟨h3, hpal, hl⟩ | ⟨hk, hl⟩
  · rw [if_pos h3, ensure_bind (decide_eq_true hpal), ensure_bind (decide_eq_true hl)]
    exact same (fun d p => { p with pal := trnsEntries p.pal d len, palTrns := true }) fun d => (if_pos h3).symm
  · have h3 : p.ctype ≠ 3 := by omega
    rw [if_neg h3, ensure_bind (decide_eq_true (by omega)), ensure_bind (decide_eq_true hl)]
    exact same (fun d q => { q with key := trnsKey q.key d q.imgN q.depth, hasKey := true }) fun d => (if_neg h3).symm

theorem trns_late (hp : f.png = some p) (hseen : p.idatSeen = true) : trns c len f = .error (.raise 0x010E 0) f := by
  rw [trns, EngM.bind_ok (getP_run hp), ensure_bind_fails (by rw [hseen]; rfl)]

section
variable (hp : f.png = some p) (hseen : p.idatSeen = false)
include hp hseen

theorem trns_noPalette (h3 : p.ctype = 3) (hpal : p.palLen = 0) : trns c len f = .error (.raise 0x010F 0) f := by
  rw [trns, EngM.bind_ok (getP_run hp), ensure_bind (by rw [hseen]; rfl), EngM.ite_run, if_pos h3,
    ensure_bind_fails (by simp [hpal])]

theorem trns_beyondPalette (h3 : p.ctype = 3) (hpal : p.palLen ≠ 0) (hl : p.palLen < len) :
    trns c len f = .error (.raise 0x0110 len) f := by
  rw [trns, EngM.bind_ok (getP_run hp), ensure_bind (by rw [hseen]; rfl), EngM.ite_run, if_pos h3,
    ensure_bind (decide_eq_true hpal), ensure_bind_fails (by simpa using hl)]

theorem trns_withAlpha (ha : p.ctype = 4 ∨ p.ctype = 6) : trns c len f = .error (.raise 0x0111 0) f := by
  rw [trns, EngM.bind_ok (getP_run hp), ensure_bind (by rw [hseen]; rfl), EngM.ite_run, if_neg (by omega),
    ensure_bind_fails (decide_eq_false (by omega))]

theorem trns_keyLength (hk : p.ctype = 0 ∨ p.ctype = 2) (hl : len ≠ 2 * p.imgN) : trns c len f = .error (.raise 0x0110 len) f := by
  rw [trns, EngM.bind_ok (getP_run hp), ensure_bind (by rw [hseen]; rfl), EngM.ite_run, if_neg (by omega),
    ensure_bind (decide_eq_true (by omega)), ensure_bind_fails (decide_eq_false hl)]

end

theorem trns_accepted {ch : Chunk} (hs : ch.Sound c.verifyCrc) (ht : ch.type = typeTRNS) (hseen : p.idatSeen = false)
    (hfit : p.TrnsFits ch.data.length) (h : ParserAt e f p bufs live moves (ch.data ++ (ch.crc ++ rest))) :
    ∃ g, trns c ch.data.length f = .ok () g ∧ ParserAt e g (p.withTrns ch.data.length ch.data) bufs live moves rest := by
  obtain ⟨hm, hp⟩ := (h.readTo (need_ok 0 h.source).2).modP (Png.withTrns ch.data.length ch.data)
  rw [trns_eq h hseen hfit, ← ht]
  exact ⟨_, takeData_ok hs h hm hp⟩

theorem trns_end_fails (h : ParserAt e f p bufs live moves bytes) (hseen : p.idatSeen = false) (hfit : p.TrnsFits len)
    (hf : EndFails c.verifyCrc len typeTRNS bytes code info) :
    ∃ g, trns c len f = .error (.raise code info) g ∧ PngRun e g bufs live moves := by
  rw [trns_eq h hseen hfit]
  exact takeData_fails_of_modP h hf

/-! ### IEND (43_png_chunk_parser.md R254) -/

theorem iend_empty (hp : f.png = some p) (hlen : p.idatLen = 0) : iend c len f = .error (.raise 0x0113 0) f := by
  rw [iend, EngM.bind_ok (getP_run hp), ensure_bind_fails (by simp [hlen])]

theorem iend_end_fails (hv : c.verifyCrc = true) (h : ParserAt e f p bufs live moves bytes) (hlen : p.idatLen ≠ 0)
    (hf : EndFails c.verifyCrc len typeIEND bytes code info) :
    ∃ g, iend c len f = .error (.raise code info) g ∧ PngRun e g bufs live moves := by
  obtain ⟨g, hg, hr⟩ := takeData_fails (use := fun _ => pure ()) h hf fun hl => ⟨_, p, rfl, h.drop hl⟩
  rw [takeData_unused] at hg
  rw [ite_self] at hr
  exact ⟨g, by rw [iend, EngM.bind_ok (getP_run h.png), ensure_bind (decide_eq_true hlen), EngM.ite_run, if_pos hv]; exact hg, hr⟩

/-! ### Which chunk it is (43_png_chunk_parser.md R245) -/

theorem chunk_unknown {type : Nat} (h : type ≠ typeIHDR ∧ type ≠ typePLTE ∧ type ≠ typeTRNS ∧ type ≠ typeIDAT) :
    chunk c type len = if type.testBit 29 then chunkSkip c type len else raise 0x0501 type := by
  rw [chunk, if_neg h.1, if_neg h.2.1, if_neg h.2.2.1, if_neg h.2.2.2, bit_eq_testBit]
  cases type.testBit 29 <;> rfl

/-- An ancillary chunk but tRNS is none that the parser knows. -/
theorem ancillary_unknown {type : Nat} (h : type.testBit 29 = true) (ht : type ≠ typeTRNS) :
    (type ≠ typeIHDR ∧ type ≠ typePLTE ∧ type ≠ typeTRNS ∧ type ≠ typeIDAT) ∧ type ≠ typeCgBI ∧ type ≠ typeIEND := by
  have critical : ∀ t, t.testBit 29 = false → type ≠ t := fun t h0 he => by
    rw [he, h0] at h
    cases h
  exact ⟨⟨critical _ (by decide), critical _ (by decide), ht, critical _ (by decide)⟩, critical _ (by decide), critical _ (by decide)⟩

theorem chunk_ancillary {type : Nat} (h : type.testBit 29 = true) (ht : type ≠ typeTRNS) : chunk c type len = chunkSkip c type len := by
  rw [chunk_unknown (ancillary_unknown h ht).1, if_pos h]

end

end Sys2Proof.Machine
end

section
/-! SUPPORT. The signature and the fields of IHDR, and the obligation on them (43_png_chunk_parser.md R244, R246; 60_exceptions.md
R415). -/

namespace Sys2Proof.Machine

theorem depthOk_iff (n : Nat) : depthOk n = true ↔ n = 1 ∨ n = 2 ∨ n = 4 ∨ n = 8 := by
  simp only [depthOk, Bool.or_eq_true, beq_iff_eq, or_assoc]

theorem ctypeOk_iff (n : Nat) : ctypeOk n = true ↔ n = 0 ∨ n = 2 ∨ n = 3 ∨ n = 4 ∨ n = 6 := by
  simp only [ctypeOk, Bool.or_eq_true, beq_iff_eq, or_assoc]

/-! ### The first bad field (43_png_chunk_parser.md R246) -/

section
variable {d : List Byte} (g : Eng)

theorem ihdrCheck_size (h : ¬(be32 d 0 ≤ 16777216 ∧ be32 d 4 ≤ 16777216)) : ihdrCheck d g = .error (.raise 0x010B 0) g := by
  rw [ihdrCheck, Config.maxDim, ensure_bind_fails (decide_eq_false h)]

variable (small : be32 d 0 ≤ 16777216 ∧ be32 d 4 ≤ 16777216)
include small

theorem ihdrCheck_depth (h : ¬(byteAt d 8 = 1 ∨ byteAt d 8 = 2 ∨ byteAt d 8 = 4 ∨ byteAt d 8 = 8)) :
    ihdrCheck d g = .error (.raise 0x0106 (byteAt d 8)) g := by
  rw [ihdrCheck, Config.maxDim, ensure_bind (decide_eq_true small), ensure_bind_fails (Bool.eq_false_iff.2 fun hd => h ((depthOk_iff _).1 hd))]

variable (depth : byteAt d 8 = 1 ∨ byteAt d 8 = 2 ∨ byteAt d 8 = 4 ∨ byteAt d 8 = 8)
include depth

theorem ihdrCheck_ctype (h : ¬(byteAt d 9 = 0 ∨ byteAt d 9 = 2 ∨ byteAt d 9 = 3 ∨ byteAt d 9 = 4 ∨ byteAt d 9 = 6)) :
    ihdrCheck d g = .error (.raise 0x0107 (byteAt d 9)) g := by
  rw [ihdrCheck, Config.maxDim, ensure_bind (decide_eq_true small), ensure_bind ((depthOk_iff _).2 depth),
    ensure_bind_fails (Bool.eq_false_iff.2 fun hc => h ((ctypeOk_iff _).1 hc))]

variable (ctype : byteAt d 9 = 0 ∨ byteAt d 9 = 2 ∨ byteAt d 9 = 3 ∨ byteAt d 9 = 4 ∨ byteAt d 9 = 6)
include ctype

/-- Size, depth and colour type are good: the checks go on. -/
theorem ihdrCheck_methods : ihdrCheck d g = (do
    ensure (decide (byteAt d 10 = 0)) 0x0108 (byteAt d 10)
    ensure (decide (byteAt d 11 = 0)) 0x0109 (byteAt d 11)
    ensure (decide (byteAt d 12 ≤ 1)) 0x010A (byteAt d 12)
    ensure (decide (be32 d 0 ≠ 0 ∧ be32 d 4 ≠ 0)) 0x0105 0
    ensure (decide (be32 d 0 * be32 d 4 * 4 ≤ Config.sizeCeiling)) 0x0402 0) g := by
  rw [ihdrCheck, Config.maxDim, ensure_bind (decide_eq_true small), ensure_bind ((depthOk_iff _).2 depth), ensure_bind ((ctypeOk_iff _).2 ctype)]

theorem ihdrCheck_compression (h : byteAt d 10 ≠ 0) : ihdrCheck d g = .error (.raise 0x0108 (byteAt d 10)) g := by
  rw [ihdrCheck_methods g small depth ctype, ensure_bind_fails (decide_eq_false h)]

variable (compression : byteAt d 10 = 0)
include compression

theorem ihdrCheck_filter (h : byteAt d 11 ≠ 0) : ihdrCheck d g = .error (.raise 0x0109 (byteAt d 11)) g := by
  rw [ihdrCheck_methods g small depth ctype, ensure_bind (decide_eq_true compression), ensure_bind_fails (decide_eq_false h)]

variable (filter : byteAt d 11 = 0)
include filter

theorem ihdrCheck_interlace (h : 1 < byteAt d 12) : ihdrCheck d g = .error (.raise 0x010A (byteAt d 12)) g := by
  rw [ihdrCheck_methods g small depth ctype, ensure_bind (decide_eq_true compression), ensure_bind (decide_eq_true filter),
    ensure_bind_fails (decide_eq_false (Nat.not_le.2 h))]

variable (interlace : byteAt d 12 ≤ 1)
include interlace

theorem ihdrCheck_zero (h : be32 d 0 = 0 ∨ be32 d 4 = 0) : ihdrCheck d g = .error (.raise 0x0105 0) g := by
  rw [ihdrCheck_methods g small depth ctype, ensure_bind (decide_eq_true compression), ensure_bind (decide_eq_true filter),
    ensure_bind (decide_eq_true interlace), ensure_bind_fails (decide_eq_false (by omega))]

theorem ihdrCheck_area (h : 0x7fffffff < be32 d 0 * be32 d 4 * 4) : ihdrCheck d g = .error (.raise 0x0402 0) g := by
  have hnz : be32 d 0 ≠ 0 ∧ be32 d 4 ≠ 0 := by
    constructor <;> intro h0 <;> simp [h0] at h
  rw [ihdrCheck_methods g small depth ctype, ensure_bind (decide_eq_true compression), ensure_bind (decide_eq_true filter),
    ensure_bind (decide_eq_true interlace), ensure_bind (decide_eq_true hnz),
    decide_eq_false (show ¬ be32 d 0 * be32 d 4 * 4 ≤ Config.sizeCeiling from Nat.not_le.2 h), ensure_false]

end

/-! ### The obligation -/

theorem signature_fails {f : Eng} {bytes : List Byte} (h : SourceAt f bytes) (hs : bytes.take 8 ≠ pngSig) :
    signature f = .error (.raise 0x0101 0)
      { f.advance (min 8 bytes.length) with srcEof := f.srcEof || decide (bytes.length < 8) } := by
  rw [signature, EngM.bind_ok (bsGetN_sourceAt h), decide_eq_false hs, ensure_false]

section
variable {s : State} {req code info : Nat} {g : Eng}

/-- A failure before any request to the allocator. -/
theorem pngDecode_fails_atRest (ready : s.Ready []) (hbody : pngDecodeBody req s.running.snap (s.entry []) = .error (.raise code info) g)
    (hg : g = { s.pngEntry [] with bs := g.bs, srcEof := g.srcEof, png := g.png }) (hinfo : info < 2 ^ 32) :
    ∃ t, exec (.pngDecode req) s = .next t ∧ Failed s t (BitVec.ofNat 32 code) (BitVec.ofNat 32 info) ∧
      UnitsInvalid t.eng ∧ SameMem s.start t.eng ∧ SamePorts s.start t.eng ∧ t.eng.bs = g.bs := by
  have hlive : g.live = [] := by rw [hg]; exact ready.live
  have hmoves : g.moves = [] := by rw [hg]; rfl
  have hu : unwinding g = .ok () g := by rw [unwinding, EngM.bind_ok (freeLive_empty hlive), settleMoves_empty hmoves]
  have rest : AtRest g := ⟨hlive, by rw [hg]; exact ready.srcReq, by rw [hg]; exact ready.allocReq⟩
  have own : g.OwnWrites := by
    rw [hg]
    exact (State.pngEntry_run ready).own
  obtain ⟨hx, hf, hunits, hmem⟩ := pngDecode_fails ready hbody hu rest own hinfo
  refine ⟨_, hx, hf, hunits, fun x => ?_, ?_, rfl⟩
  · rw [hmem x, hg]
    rfl
  · show SamePorts s.start g
    rw [hg]
    exact ⟨rfl, rfl, rfl⟩

/-- Other bytes than the signature, or fewer. -/
theorem pngDecode_signature_fails (ready : s.Ready []) (hmode : s.start.bs.mode = .mem) (hok : SourceOk s.start.bs) (hreq : req ≤ 4)
    (h : (s.start.mem.read (s.start.bs.base + s.start.bs.pos) (s.start.bs.len - s.start.bs.pos)).take 8 ≠ pngSig) :
    ∃ g, pngDecodeBody req s.running.snap (s.entry []) = .error (.raise 0x0101 0) g ∧
      g = { s.pngEntry [] with bs := g.bs, srcEof := g.srcEof, png := g.png } ∧
      g.bs = { s.start.bs with pos := min s.start.bs.len (s.start.bs.pos + 8) } := by
  have hs : SourceAt (s.pngEntry []) _ := ⟨hmode, hok, rfl⟩
  refine ⟨_, (pngDecodeBody_eq ready hmode hreq).trans (EngM.bind_error (signature_fails hs h)), rfl, ?_⟩
  · have hpos := (hok.slice hmode).2
    rw [Memory.read_length]
    show ({ s.start.bs with pos := s.start.bs.pos + min 8 (s.start.bs.len - s.start.bs.pos) } : ByteSource) = _
    rw [show s.start.bs.pos + min 8 (s.start.bs.len - s.start.bs.pos) = min s.start.bs.len (s.start.bs.pos + 8) by omega]

/-- A first bad field of an IHDR that is whole. -/
theorem pngDecode_header_fails {d rest : List Byte} (ready : s.Ready []) (hmode : s.start.bs.mode = .mem) (hok : SourceOk s.start.bs)
    (hreq : req ≤ 4) (hd : d.length = 13)
    (h : s.start.mem.read (s.start.bs.base + s.start.bs.pos) (s.start.bs.len - s.start.bs.pos) =
      [137, 80, 78, 71, 13, 10, 26, 10] ++ [0, 0, 0, 13, 73, 72, 68, 82] ++ d ++ rest)
    (hc : ∀ g, ihdrCheck d g = .error (.raise code info) g) :
    ∃ g, pngDecodeBody req s.running.snap (s.entry []) = .error (.raise code info) g ∧
      g = { s.pngEntry [] with bs := g.bs, srcEof := g.srcEof, png := g.png } := by
  have h' : s.start.mem.read (s.start.bs.base + s.start.bs.pos) (s.start.bs.len - s.start.bs.pos) =
      pngSig ++ (putBe32 13 ++ putBe32 typeIHDR ++ (d ++ rest)) := by
    rw [h, List.append_assoc, List.append_assoc]
    rfl
  obtain ⟨hbody, hs⟩ := pngDecodeBody_signed ready hmode hok hreq h'
  have start : ParserAt (s.pngEntry []) ((s.pngEntry []).advance 8) Png.init [] [] [] (putBe32 13 ++ putBe32 typeIHDR ++ (d ++ rest)) :=
    ⟨(State.pngEntry_run ready).reads rfl, rfl, hs⟩
  obtain ⟨hturn, hp⟩ := chunks_turn (c := s.running.snap) (putBe32 13 ++ putBe32 typeIHDR ++ (d ++ rest)).length (by decide) (by decide) start
  refine ⟨(((s.pngEntry []).advance 8).advance 8).advance 13, ?_, rfl⟩
  rw [hbody, pngParse, EngM.bind_error]
  rw [hturn, chunkTurn_other (by decide) _ hp.png (fun _ => rfl) (by decide) (by decide), EngM.bind_error]
  rw [chunk, if_pos rfl]
  exact ihdr_check_fails hp rfl hd hc

end

theorem byteAt_lt (s : List Byte) (i : Nat) : byteAt s i < 2 ^ 32 :=
  Nat.lt_trans (s.getD i 0).isLt (by decide)

/-- Settles O44: the signature is read as far as there are bytes, and the checks of IHDR's data fail at the first bad field. -/
theorem pngHeaderChecked : Obligations.PngHeaderChecked := by
  unfold Obligations.PngHeaderChecked
  refine ⟨fun s req ready hmode hok hreq hsig => ?_, fun s req d rest ready hmode hok hreq hd h => ?_⟩
  · obtain ⟨g, hbody, hg, hbs⟩ := pngDecode_signature_fails ready hmode hok hreq hsig
    obtain ⟨t, hx, hf, hunits, hmem, hports, hb⟩ := pngDecode_fails_atRest ready hbody hg (by decide)
    exact ⟨t, hx, hf, hmem, hports, hb.trans hbs, hunits⟩
  · intro w ht small depth ctype code info hcase
    have fails : (∀ g, ihdrCheck d g = .error (.raise code info) g) → info < 2 ^ 32 →
        ∃ t, exec (.pngDecode req) s = .next t ∧ Failed s t (BitVec.ofNat 32 code) (BitVec.ofNat 32 info) ∧
          UnitsInvalid t.eng ∧ SameMem s.start t.eng ∧ SamePorts s.start t.eng := fun hc hinfo => by
      obtain ⟨g, hbody, hg⟩ := pngDecode_header_fails ready hmode hok hreq hd h hc
      obtain ⟨t, hx, hf, hunits, hmem, hports, -⟩ := pngDecode_fails_atRest ready hbody hg hinfo
      exact ⟨t, hx, hf, hunits, hmem, hports⟩
    rcases hcase with ⟨hs, rfl, rfl⟩ | ⟨hs, hdep, rfl, rfl⟩ | ⟨hs, hdep, hct, rfl, rfl⟩ | ⟨hs, hdep, hct, h10, rfl, rfl⟩ |
      ⟨hs, hdep, hct, h10, h11, rfl, rfl⟩ | ⟨hs, hdep, hct, h10, h11, h12, rfl, rfl⟩ | ⟨hs, hdep, hct, h10, h11, h12, hz, rfl, rfl⟩ |
      ⟨hs, hdep, hct, h10, h11, h12, ha, rfl, rfl⟩
    · exact fails (fun g => ihdrCheck_size g hs) (by decide)
    · exact fails (fun g => ihdrCheck_depth g hs hdep) (byteAt_lt _ _)
    · exact fails (fun g => ihdrCheck_ctype g hs hdep hct) (byteAt_lt _ _)
    · exact fails (fun g => ihdrCheck_compression g hs hdep hct h10) (byteAt_lt _ _)
    · exact fails (fun g => ihdrCheck_filter g hs hdep hct h10 h11) (byteAt_lt _ _)
    · exact fails (fun g => ihdrCheck_interlace g hs hdep hct h10 h11 h12) (byteAt_lt _ _)
    · exact fails (fun g => ihdrCheck_zero g hs hdep hct h10 h11 h12 hz) (by decide)
    · exact fails (fun g => ihdrCheck_area g hs hdep hct h10 h11 h12 ha) (by decide)

end Sys2Proof.Machine
end

section
/-! SUPPORT. IDAT: the room in the accumulator, and the data that joins it (43_png_chunk_parser.md R252). -/

namespace Sys2Proof.Machine

/-! ### The accumulator -/

/-- The IDAT accumulator holds `z`: it is one of the buffers `bufs`, in host memory and apart from what the source reads. -/
structure HoldsIdat (f : Eng) (p : Png) (bufs : List (Nat × Nat)) (z : List Byte) : Prop where
  len : p.idatLen = z.length
  fits : z.length ≤ p.idatCap
  data : f.mem.read (p.idat.getD 0) z.length = z
  buffer : (p.idat.getD 0, p.idatCap) ∈ bufs
  range : p.idat.getD 0 + p.idatCap ≤ Config.addrSpace
  apart : overlap f.bs.base f.bs.len (p.idat.getD 0) p.idatCap = false

section
variable {c : Snapshot} {e f g : Eng} {p : Png} {bufs more : List (Nat × Nat)} {live : List Buf} {moves ms : List PortMove}
  {bytes rest z d : List Byte} {len size code info : Nat} {v : Word}

/-- The accumulator stays where steps leave memory and the source's slice alone. -/
theorem HoldsIdat.congr {p' : Png} (h : HoldsIdat f p bufs z) (hm : g.mem = f.mem) (hb : g.bs.base = f.bs.base ∧ g.bs.len = f.bs.len)
    (hp : p'.idat = p.idat ∧ p'.idatLen = p.idatLen ∧ p'.idatCap = p.idatCap) : HoldsIdat g p' bufs z := by
  obtain ⟨len, fits, data, buffer, range, apart⟩ := h
  obtain ⟨ha, hl, hc⟩ := hp
  exact ⟨hl.trans len, hc ▸ fits, by rw [hm, ha]; exact data, by rw [ha, hc]; exact buffer, by rw [ha, hc]; exact range,
    by rw [hb.1, hb.2, ha, hc]; exact apart⟩

/-- What an IDAT does with its data: it joins the accumulator, which then holds `size` bytes. -/
def idatUse (size : Nat) (d : List Byte) : EngM Unit := do
  let p ← getP
  memWrite false (p.idat.getD 0 + p.idatLen) d
  modP fun p => { p with idatLen := size }

theorem idatUse_ok (h : ParserAt e f p bufs live moves bytes) (acc : HoldsIdat f p bufs z)
    (room : z.length + d.length ≤ p.idatCap) :
    ∃ g, idatUse (z.length + d.length) d f = .ok () g ∧
      ParserAt e g { p with idatLen := z.length + d.length } bufs live moves bytes ∧
      HoldsIdat g { p with idatLen := z.length + d.length } bufs (z ++ d) := by
  obtain ⟨len, fits, data, buffer, range, apart⟩ := acc
  obtain ⟨g, hg, gs, gr⟩ := h.toPngRun.writes (x := p.idat.getD 0 + p.idatLen) (bs := d) buffer (by omega) (by omega) range
  have gp : ParserAt e g p bufs live moves bytes := by
    refine ⟨gr, by rw [gs]; exact h.png, h.source.congr (by rw [gs]) fun x h1 h2 => ?_⟩
    rw [gs]
    exact Memory.get_write_of_lt _ _ _ _ (by have := overlap_false apart; omega)
  obtain ⟨hm, hp⟩ := gp.modP fun p => { p with idatLen := z.length + d.length }
  refine ⟨_, ?_, hp, ⟨List.length_append.symm, by rw [List.length_append]; exact room, ?_, buffer, range, ?_⟩⟩
  · rw [idatUse, EngM.bind_ok (getP_run h.png), EngM.bind_ok hg, hm]
  · show g.mem.read (p.idat.getD 0) _ = _
    rw [gs, List.length_append, Memory.read_add, Memory.read_write_of_apart _ _ _ _ _ (by omega), data, len,
      Memory.read_write_self]
  · show overlap g.bs.base g.bs.len _ _ = false
    rw [gs]
    exact apart

/-! ### Room for the data -/

theorem idatReserve_room (hp : f.png = some p) (hl : size ≤ p.idatCap) : idatReserve size len f = .ok () f := by
  rw [idatReserve, EngM.bind_ok (getP_run hp), EngM.ite_run, if_neg (by omega), EngM.pure_run]

theorem idatReserve_tooLarge (hp : f.png = some p) (hcap : p.idatCap < size) (hl : 0x7fffffff < size) :
    idatReserve size len f = .error (.raise 0x0402 size) f := by
  rw [idatReserve, EngM.bind_ok (getP_run hp), EngM.ite_run, if_pos hcap,
    ensure_bind_fails (decide_eq_false (Nat.not_le.2 hl : ¬size ≤ Config.sizeCeiling))]

/-- Where there is no accumulator the first one is allocated. -/
theorem idatReserve_first (h : ParserAt e f p bufs live (.allocResp v :: ms) bytes) (hcap : p.idatCap = 0) (hlen : 0 < len)
    (hmax : len ≤ 0x7fffffff) (hg : Grants f v (max 4096 len)) (happ : overlap f.bs.base f.bs.len v.toNat (max 4096 len) = false) :
    ∃ g, idatReserve len len f = .ok () g ∧
      ParserAt e g { p with idat := some v.toNat, idatCap := max 4096 len } bufs (live ++ [⟨v.toNat, max 4096 len⟩]) ms bytes ∧
      (p.idatLen = 0 → (v.toNat, max 4096 len) ∈ more →
        HoldsIdat g { p with idat := some v.toNat, idatCap := max 4096 len } more []) := by
  have hc : idatCapacity p.idatCap len len = max 4096 len := by
    rw [idatCapacity, if_pos hcap, growCap, Config.idatMinCap, if_neg (by omega)]
  let g : Eng := { f.granted v (max 4096 len) ms with png := some { p with idat := some v.toNat, idatCap := max 4096 len } }
  refine ⟨g, ?_, ⟨⟨⟨h.frame.trans ⟨rfl⟩, ?_, rfl, rfl⟩, h.own, h.outside⟩, rfl, h.source.congr rfl fun _ _ _ => rfl⟩, fun h0 hm =>
    ⟨h0, Nat.zero_le _, rfl, hm, hg.range, happ⟩⟩
  · rw [idatReserve, EngM.bind_ok (getP_run h.png), EngM.ite_run, if_pos (by omega),
      ensure_bind (decide_eq_true (show len ≤ Config.sizeCeiling from hmax)), hc, if_pos hcap,
      EngM.bind_ok (portAlloc_granted h.moves hg)]
    exact modP_run _ (e := f.granted v (max 4096 len) ms) h.png
  · show f.live ++ _ = _
    rw [h.live]

/-- What the command had written stays its own when a buffer moves. -/
theorem ownWrites_moveBuffer (h : f.OwnWrites) (a cap : Nat) (r : Buf) : (f.moveBuffer a cap r).OwnWrites := by
  intro w hw
  rcases List.mem_append.1 (show w ∈ f.written.flatMap _ ++ f.written from hw) with hw | hw
  · obtain ⟨u, hu, hw⟩ := List.mem_flatMap.1 hw
    rw [Written.moved] at hw
    split at hw
    · rw [List.mem_singleton.1 hw]
      exact h u hu
    · cases hw
  · exact h w hw

/-- The engine after a granted Realloc of the one buffer in LIVE, of `cap` bytes at `a`, to `n` bytes. -/
def Eng.regrown (f : Eng) (a cap : Nat) (v : Word) (n : Nat) (ms : List PortMove) : Eng :=
  Eng.moveBuffer
    { f.answered with allocReq := 0, allocSize := BitVec.ofNat 32 n, allocPtr := BitVec.ofNat 32 a, moves := ms } a cap ⟨v.toNat, n⟩

/-- A granted Realloc of the one buffer in LIVE to a larger one, where the command has declared input regions only. -/
theorem portRealloc_regrown {a cap n : Nat} (h : PngRun e f bufs [⟨a, cap⟩] (.allocResp v :: ms)) (hc : cap ≤ n)
    (hg : Fresh f.regions v n) (hin : ∀ t ∈ f.regions, t.input = true) :
    portRealloc a cap n f = .ok v.toNat (f.regrown a cap v n ms) ∧
      PngRun e (f.regrown a cap v n ms) (bufs ++ [(v.toNat, n)]) [⟨v.toNat, n⟩] ms := by
  have hdrop : dropBuf a f.live = [] := by rw [h.live]; simp [dropBuf]
  have hok : f.allocOk (dropBuf a f.live) v.toNat n = true := by
    rw [hdrop]
    exact Grants.allocOk (e := { f with live := [] }) ⟨hg, fun b hb => by cases hb⟩
  have hlive : (f.regrown a cap v n ms).live = [⟨v.toNat, n⟩] := by
    show replaceBuf a ⟨v.toNat, n⟩ f.live = _
    rw [h.live]
    simp [replaceBuf]
  have hregions : (f.regrown a cap v n ms).regions = f.regions := by
    refine (List.map_congr_left fun t ht => if_neg fun heq => ?_).trans (List.map_id _)
    have := hin t ht
    rw [heq] at this
    cases this
  refine ⟨portRealloc_ok hg.size h.moves hg.nonzero hok, ⟨h.frame.trans ⟨?_⟩, hlive, rfl, rfl⟩, ownWrites_moveBuffer h.own _ _ _,
    (h.outside.mono fun b hb => .inr (List.mem_append_left _ hb)).trans fun x hx => ?_⟩
  · show f.regrown a cap v n ms = { f with
      mem := _, bs := _, srcEof := _, br := _, ht0 := _, ht1 := _, inf := _, png := _, live := _, allocReq := _, allocSize := _
      allocPtr := _, moves := _, written := _, journal := _ }
    rw [← hregions]
    rfl
  · have := hx (v.toNat, n) (List.mem_append_right _ List.mem_cons_self)
    show (f.mem.write v.toNat (f.mem.read a (min cap n))).get x = _
    exact Memory.get_write_of_lt _ _ _ _ (by rw [Memory.read_length]; omega)

/-- A full accumulator moves to a granted buffer of `n` bytes, with what it holds. -/
theorem idatReserve_grows {a cap n : Nat} (h : ParserAt e f p bufs [⟨a, cap⟩] (.allocResp v :: ms) bytes)
    (acc : HoldsIdat f p bufs z) (ha : p.idat = some a) (hcap : p.idatCap = cap) (h0 : 0 < cap) (hfull : cap < size)
    (hmax : size ≤ 0x7fffffff) (hn : growCap 32 cap size = n) (hg : Fresh f.regions v n) (hin : ∀ t ∈ f.regions, t.input = true)
    (happ : overlap f.bs.base f.bs.len v.toNat n = false) :
    ∃ g, idatReserve size len f = .ok () g ∧
      ParserAt e g { p with idat := some v.toNat, idatCap := n } (bufs ++ [(v.toNat, n)]) [⟨v.toNat, n⟩] ms bytes ∧
      HoldsIdat g { p with idat := some v.toNat, idatCap := n } (bufs ++ [(v.toNat, n)]) z := by
  obtain ⟨len', fits, data, buffer, range, apart⟩ := acc
  rw [hcap] at fits
  rw [ha] at data
  have hsize : size ≤ n := hn ▸ growCap_ge 32 (show size ≤ Config.sizeCeiling from hmax)
  obtain ⟨hr, run⟩ := portRealloc_regrown h.toPngRun (by omega) hg hin
  have hmem : (f.regrown a cap v n ms).mem = f.mem.write v.toNat (f.mem.read a cap) := by
    show f.mem.write v.toNat (f.mem.read a (min cap n)) = _
    rw [Nat.min_eq_left (by omega)]
  have at' : ParserAt e (f.regrown a cap v n ms) p (bufs ++ [(v.toNat, n)]) [⟨v.toNat, n⟩] ms bytes := by
    refine ⟨run, h.png, h.source.congr rfl fun x h1 h2 => ?_⟩
    rw [hmem]
    exact Memory.get_write_of_lt _ _ _ _ (by rw [Memory.read_length]; have := overlap_false happ; omega)
  obtain ⟨hm, hp⟩ := at'.modP fun p => { p with idat := some v.toNat, idatCap := n }
  have hcapacity : idatCapacity p.idatCap size len = n := by rw [idatCapacity, hcap, if_neg (by omega), hn]
  refine ⟨_, ?_, hp, ⟨len', fits.trans (hfull.le.trans hsize), ?_, List.mem_append_right _ List.mem_cons_self, hg.range, happ⟩⟩
  · rw [idatReserve, EngM.bind_ok (getP_run h.png), EngM.ite_run, if_pos (by omega),
      ensure_bind (decide_eq_true (show size ≤ Config.sizeCeiling from hmax)), hcapacity, if_neg (by omega), ha,
      Option.getD_some, hcap, EngM.bind_ok hr]
    exact hm
  · show (f.regrown a cap v n ms).mem.read v.toNat z.length = z
    rw [hmem]
    refine Eq.trans (Memory.read_congr fun i hi => ?_) data
    rw [Memory.get_copy f.mem (by omega)]
    rfl

/-! ### The chunk (43_png_chunk_parser.md R252) -/

theorem idat_noPalette (hp : f.png = some p) (h3 : p.ctype = 3) (hpal : p.palLen = 0) :
    idat c len f = .error (.raise 0x0112 0) f := by
  rw [idat, EngM.bind_ok (getP_run hp), ensure_bind_fails (decide_eq_false (by omega))]

/-- The parser's state once an IDAT has begun. -/
def Png.started (p : Png) : Png := { p with idatSeen := true }

/-- An IDAT whose palette is there reserves room for its data. -/
theorem idat_eq (hp : f.png = some p) (hpal : p.ctype ≠ 3 ∨ p.palLen ≠ 0) :
    idat c len f =
      (idatReserve (p.idatLen + len) len >>= fun _ => takeData c typeIDAT len (idatUse (p.idatLen + len)))
        { f with png := some p.started } := by
  rw [idat, EngM.bind_ok (getP_run hp), ensure_bind (decide_eq_true hpal), EngM.bind_ok (modP_run _ hp)]
  simp only [takeData, idatUse, bind_assoc]
  rfl

theorem ParserAt.started (h : ParserAt e f p bufs live moves bytes) :
    ParserAt e { f with png := some p.started } p.started bufs live moves bytes := (h.modP Png.started).2

theorem HoldsIdat.started (acc : HoldsIdat f p bufs z) : HoldsIdat { f with png := some p.started } p.started bufs z :=
  acc.congr rfl ⟨rfl, rfl⟩ ⟨rfl, rfl, rfl⟩

theorem idat_tooLarge (h : ParserAt e f p bufs live moves bytes) (hpal : p.ctype ≠ 3 ∨ p.palLen ≠ 0)
    (hcap : p.idatCap < p.idatLen + len) (hl : 0x7fffffff < p.idatLen + len) :
    ∃ g, idat c len f = .error (.raise 0x0402 (p.idatLen + len)) g ∧ PngRun e g bufs live moves :=
  ⟨_, by rw [idat_eq h.png hpal, EngM.bind_error (idatReserve_tooLarge (p := p.started) rfl hcap hl)], h.started.toPngRun⟩

section
variable {p' : Png} (hp : f.png = some p) (hpal : p.ctype ≠ 3 ∨ p.palLen ≠ 0) (hz : p.idatLen = z.length)
include hp hpal hz

/-- An IDAT that is sound, once it has room: its data joins the accumulator. -/
theorem idat_accepted {ch : Chunk} (hs : ch.Sound c.verifyCrc) (ht : ch.type = typeIDAT)
    (hr : idatReserve (z.length + ch.data.length) ch.data.length { f with png := some p.started } = .ok () g)
    (h : ParserAt e g p' bufs live moves (ch.data ++ (ch.crc ++ rest))) (acc : HoldsIdat g p' bufs z)
    (room : z.length + ch.data.length ≤ p'.idatCap) :
    ∃ k, idat c ch.data.length f = .ok () k ∧
      ParserAt e k { p' with idatLen := z.length + ch.data.length } bufs live moves rest ∧
      HoldsIdat k { p' with idatLen := z.length + ch.data.length } bufs (z ++ ch.data) := by
  obtain ⟨k, hk, hka, hkz⟩ := idatUse_ok (h.readTo (need_ok 0 h.source).2) (acc.congr rfl ⟨rfl, rfl⟩ ⟨rfl, rfl, rfl⟩) room
  obtain ⟨ht', hp'⟩ := takeData_ok hs h hk hka
  exact ⟨_, by rw [idat_eq hp hpal, hz, EngM.bind_ok hr, ← ht, ht'], hp', hkz.congr rfl ⟨rfl, rfl⟩ ⟨rfl, rfl, rfl⟩⟩

/-- An IDAT whose end fails, once it has room. -/
theorem idat_end_fails (hf : EndFails c.verifyCrc len typeIDAT bytes code info)
    (hr : idatReserve (z.length + len) len { f with png := some p.started } = .ok () g)
    (h : ParserAt e g p' bufs live moves bytes) (hm : ∀ b ∈ bufs, b.2 = 0 ∨ b ∈ more) (acc : HoldsIdat g p' more z)
    (room : z.length + len ≤ p'.idatCap) :
    ∃ k, idat c len f = .error (.raise code info) k ∧ PngRun e k (if bytes.length < len then bufs else more) live moves := by
  obtain ⟨k, hk, hkr⟩ := takeData_fails (c := c) (type := typeIDAT) (more := more) (use := idatUse (z.length + len)) h hf fun hlen => by
    have hd : (bytes.take len).length = len := List.length_take_of_le hlen
    have := idatUse_ok (d := bytes.take len) ((h.mono hm).drop hlen) (acc.congr rfl ⟨rfl, rfl⟩ ⟨rfl, rfl, rfl⟩) (by rw [hd]; exact room)
    rw [hd] at this
    obtain ⟨k, hk, hka, -⟩ := this
    exact ⟨k, _, hk, hka⟩
  exact ⟨k, by rw [idat_eq hp hpal, hz, EngM.bind_ok hr, hk], hkr⟩

end

end

end Sys2Proof.Machine
end

section
/-! SUPPORT. The chunk loop over chunks that are sound: the head of a file, and IDATs (43_png_chunk_parser.md R245, R256). -/

namespace Sys2Proof.Machine

/-! ### Which chunk it is (43_png_chunk_parser.md R245) -/

theorem chunk_ihdr (c : Snapshot) (len : Nat) : chunk c typeIHDR len = ihdr c len := rfl
theorem chunk_plte (c : Snapshot) (len : Nat) : chunk c typePLTE len = plte c len := rfl
theorem chunk_trns (c : Snapshot) (len : Nat) : chunk c typeTRNS len = trns c len := rfl
theorem chunk_idat (c : Snapshot) (len : Nat) : chunk c typeIDAT len = idat c len := rfl

/-! ### Turns of the loop -/

/-- From `f`, `n` turns of the chunk loop lead to `g`. -/
def Turns (c : Snapshot) (n : Nat) (f g : Eng) : Prop := ∀ fuel, chunks c (fuel + n) f = chunks c fuel g

section
variable {c : Snapshot} {e f g k : Eng} {p : Png} {bufs more : List (Nat × Nat)} {live : List Buf} {moves : List PortMove}
  {bytes rest z : List Byte} {ch : Chunk} {m n : Nat} {Q : Eng → Prop}

theorem Turns.refl (c : Snapshot) (f : Eng) : Turns c 0 f f := fun _ => rfl

theorem Turns.trans (h : Turns c n f g) (h' : Turns c m g k) : Turns c (n + m) f k := fun fuel => by
  rw [Nat.add_comm n m, ← Nat.add_assoc, h, h']

theorem Chunk.bytes_append (ch : Chunk) (rest : List Byte) :
    ch.bytes ++ rest = putBe32 ch.data.length ++ putBe32 ch.type ++ (ch.data ++ (ch.crc ++ rest)) := by
  simp only [Chunk.bytes, List.append_assoc]

/-- A sound chunk's header is read, and the turn goes on. -/
theorem chunks_turn_chunk (fuel : Nat) (hs : ch.Sound c.verifyCrc) (h : ParserAt e f p bufs live moves (ch.bytes ++ rest)) :
    chunks c (fuel + 1) f = chunkTurn c fuel ch.data.length ch.type (f.advance 8) ∧
      ParserAt e (f.advance 8) p bufs live moves (ch.data ++ (ch.crc ++ rest)) := by
  rw [Chunk.bytes_append] at h
  exact chunks_turn fuel (by have := hs.data; omega) hs.type h

/-- A chunk, neither CgBI nor IEND, whose use leads to `g`. -/
theorem turns_of_chunk (hs : ch.Sound c.verifyCrc) (hc : ch.type ≠ typeCgBI) (he : ch.type ≠ typeIEND)
    (h : ParserAt e f p bufs live moves (ch.bytes ++ rest)) (hfirst : p.first = true → ch.type = typeIHDR)
    (hu : ParserAt e (f.advance 8) p bufs live moves (ch.data ++ (ch.crc ++ rest)) →
      ∃ g, chunk c ch.type ch.data.length (f.advance 8) = .ok () g ∧ Q g) : ∃ g, Turns c 1 f g ∧ Q g := by
  obtain ⟨g, hg, hq⟩ := hu (chunks_turn_chunk 0 hs h).2
  refine ⟨g, fun fuel => ?_, hq⟩
  obtain ⟨ht, hp⟩ := chunks_turn_chunk fuel hs h
  rw [ht, chunkTurn_other hs.data fuel hp.png hfirst hc he, EngM.bind_ok hg]

/-- A sound CgBI (43_png_chunk_parser.md R245, R255). -/
theorem turns_cgbi (hs : ch.Sound c.verifyCrc) (ht : ch.type = typeCgBI) (h : ParserAt e f p bufs live moves (ch.bytes ++ rest)) :
    ∃ g, Turns c 1 f g ∧ ParserAt e g { p with cgbi := true } bufs live moves rest := by
  obtain ⟨-, hp0⟩ := chunks_turn_chunk 0 hs h
  obtain ⟨g, hg, hga⟩ := chunkSkip_ok hs (hp0.modP fun p => { p with cgbi := true }).2
  refine ⟨g, fun fuel => ?_, hga⟩
  obtain ⟨hturn, hp⟩ := chunks_turn_chunk fuel hs h
  rw [hturn, ht, chunkTurn_cgbi hs.data fuel hp.png, EngM.bind_ok (ht ▸ hg)]

/-! ### The head -/

/-- The parser's state after the head's chunks. -/
def PngHead.parsed (h : PngHead) (p : Png) : Png :=
  h.plte.elim (p.withHeader h.ihdr.data) fun ch => (p.withHeader h.ihdr.data).withPalette ch.data.length ch.data

theorem turns_extra (extra : List Chunk) (hs : ∀ ch ∈ extra, ch.Sound c.verifyCrc)
    (ht : ∀ ch ∈ extra, ch.type.testBit 29 = true ∧ ch.type ≠ typeTRNS) (hfirst : p.first = false)
    (h : ParserAt e f p bufs live moves (extra.flatMap Chunk.bytes ++ rest)) :
    ∃ g, Turns c extra.length f g ∧ ParserAt e g p bufs live moves rest := by
  induction extra generalizing f with
  | nil => exact ⟨f, Turns.refl c f, h⟩
  | cons ch extra ih =>
    obtain ⟨hbit, hne⟩ := ht ch List.mem_cons_self
    obtain ⟨-, hc, he⟩ := ancillary_unknown hbit hne
    have sound := hs ch List.mem_cons_self
    rw [List.flatMap_cons, List.append_assoc] at h
    obtain ⟨k, hk, hka⟩ := turns_of_chunk sound hc he h (fun h1 => by rw [hfirst] at h1; cases h1) fun hd => by
      rw [chunk_ancillary hbit hne]
      exact chunkSkip_ok sound hd
    obtain ⟨g, hg, hga⟩ := ih (fun c hc => hs c (List.mem_cons_of_mem _ hc)) (fun c hc => ht c (List.mem_cons_of_mem _ hc)) hka
    have := hk.trans hg
    rw [Nat.add_comm] at this
    exact ⟨g, this, hga⟩

theorem turns_ihdr (hs : ch.Sound c.verifyCrc) (ht : ch.type = typeIHDR) (hd : HeaderOk ch.data) (hfirst : p.first = true)
    (h : ParserAt e f p bufs live moves (ch.bytes ++ rest)) :
    ∃ g, Turns c 1 f g ∧ ParserAt e g (p.withHeader ch.data) bufs live moves rest :=
  turns_of_chunk hs (by rw [ht]; decide) (by rw [ht]; decide) h (fun _ => ht) fun hp => by
    rw [ht, chunk_ihdr]
    exact ihdr_accepted hs ht hd hfirst hp

theorem turns_plte (plte : Option Chunk) (hs : ∀ ch ∈ plte, ch.Sound c.verifyCrc)
    (ht : ∀ ch ∈ plte, ch.type = typePLTE ∧ ch.data.length ≤ 768 ∧ ch.data.length % 3 = 0) (hfirst : p.first = false)
    (hseen : p.idatSeen = false) (h : ParserAt e f p bufs live moves (plte.toList.flatMap Chunk.bytes ++ rest)) :
    ∃ g, Turns c plte.toList.length f g ∧
      ParserAt e g (plte.elim p fun ch => p.withPalette ch.data.length ch.data) bufs live moves rest := by
  cases plte with
  | none => exact ⟨f, Turns.refl c f, h⟩
  | some ch =>
    obtain ⟨ht, hl⟩ := ht ch rfl
    simp only [Option.toList_some, List.flatMap_cons, List.flatMap_nil, List.append_nil] at h
    refine turns_of_chunk (hs ch rfl) (by rw [ht]; decide) (by rw [ht]; decide) h (fun h => by rw [hfirst] at h; cases h) fun hp => ?_
    rw [ht, chunk_plte]
    exact plte_accepted (hs ch rfl) ht hseen hl hp

/-! ### What the head says -/

section
variable (h : PngHead) (p : Png)

/-- Of the head a PLTE gives the palette alone. -/
theorem PngHead.parsed_eq :
    h.parsed p = { p.withHeader h.ihdr.data with pal := (h.parsed p).pal, palLen := (h.parsed p).palLen } := by
  rw [PngHead.parsed]
  cases h.plte with
  | none => rfl
  | some ch =>
    simp only [Option.elim_some, Png.withPalette]
    split <;> rfl

@[simp] theorem PngHead.parsed_first : (h.parsed p).first = false := by rw [parsed_eq]; rfl
@[simp] theorem PngHead.parsed_w : (h.parsed p).w = be32 h.ihdr.data 0 := by rw [parsed_eq]; rfl
@[simp] theorem PngHead.parsed_h : (h.parsed p).h = be32 h.ihdr.data 4 := by rw [parsed_eq]; rfl
@[simp] theorem PngHead.parsed_depth : (h.parsed p).depth = byteAt h.ihdr.data 8 := by rw [parsed_eq]; rfl
@[simp] theorem PngHead.parsed_ctype : (h.parsed p).ctype = h.ctype := by rw [parsed_eq]; rfl
@[simp] theorem PngHead.parsed_interlace : (h.parsed p).interlace = byteAt h.ihdr.data 12 := by rw [parsed_eq]; rfl
@[simp] theorem PngHead.parsed_idatSeen : (h.parsed p).idatSeen = p.idatSeen := by rw [parsed_eq]; rfl
@[simp] theorem PngHead.parsed_idat : (h.parsed p).idat = p.idat := by rw [parsed_eq]; rfl
@[simp] theorem PngHead.parsed_idatLen : (h.parsed p).idatLen = p.idatLen := by rw [parsed_eq]; rfl
@[simp] theorem PngHead.parsed_idatCap : (h.parsed p).idatCap = p.idatCap := by rw [parsed_eq]; rfl
@[simp] theorem PngHead.parsed_cgbi : (h.parsed p).cgbi = p.cgbi := by rw [parsed_eq]; rfl
@[simp] theorem PngHead.parsed_hasKey : (h.parsed p).hasKey = p.hasKey := by rw [parsed_eq]; rfl
@[simp] theorem PngHead.parsed_palTrns : (h.parsed p).palTrns = p.palTrns := by rw [parsed_eq]; rfl

end

/-- A sound head is parsed. -/
theorem turns_head {h : PngHead} (hs : h.Sound c.verifyCrc) (hfirst : p.first = true) (hseen : p.idatSeen = false)
    (hp : ParserAt e f p bufs live moves (h.chunks.flatMap Chunk.bytes ++ rest)) :
    ∃ g, Turns c h.chunks.length f g ∧ ParserAt e g (h.parsed p) bufs live moves rest := by
  obtain ⟨sound, ti, hdr, tp, tx⟩ := hs
  simp only [PngHead.chunks, List.forall_mem_cons, List.forall_mem_append, Option.mem_toList] at sound
  obtain ⟨si, sp, sx⟩ := sound
  simp only [PngHead.chunks, List.flatMap_cons, List.flatMap_append, List.append_assoc] at hp
  obtain ⟨f1, t1, h1⟩ := turns_ihdr si ti hdr hfirst hp
  obtain ⟨f2, t2, h2⟩ := turns_plte (p := p.withHeader h.ihdr.data) h.plte sp tp rfl hseen h1
  obtain ⟨g, t3, h3⟩ := turns_extra h.extra sx tx (h.parsed_first p) h2
  refine ⟨g, ?_, h3⟩
  have := (t1.trans t2).trans t3
  rwa [show 1 + h.plte.toList.length + h.extra.length = h.chunks.length by simp only [PngHead.chunks, List.length_cons, List.length_append]; omega] at this

theorem PngHead.parsed_imgN {h : PngHead} (hd : HeaderOk h.ihdr.data) (p : Png) : (h.parsed p).imgN = h.imgN := by
  rw [parsed_eq]
  show colourChannels h.ctype = h.imgN
  have hc : h.ctype = 0 ∨ h.ctype = 2 ∨ h.ctype = 3 ∨ h.ctype = 4 ∨ h.ctype = 6 := hd.ctype
  rcases hc with hc | hc | hc | hc | hc <;> simp [PngHead.imgN, hc, colourChannels]

theorem PngHead.parsed_palLen (h : PngHead) {p : Png} (hp : p.palLen = 0) : (h.parsed p).palLen = h.palLen := by
  rw [PngHead.parsed, PngHead.palLen]
  cases h.plte with
  | none => rw [Option.elim_none, Option.elim_none, Nat.zero_div, ite_self]; exact hp
  | some ch =>
    rw [Option.elim_some, Option.elim_some, Png.withPalette]
    show Png.palLen (if h.ctype = 3 then _ else _) = _
    split
    · rfl
    · exact hp

/-- An image with this head has the palette it needs. -/
theorem PngHead.parsed_palette {h : PngHead} {p : Png} (hp : p.palLen = 0) (hpal : h.ctype = 3 → h.palLen ≠ 0) :
    (h.parsed p).ctype ≠ 3 ∨ (h.parsed p).palLen ≠ 0 := by
  rw [parsed_ctype, parsed_palLen h hp]
  exact Classical.or_iff_not_imp_left.2 fun h3 => hpal (not_not.1 h3)

end

end Sys2Proof.Machine
end

section
/-! SUPPORT. IDATs in the chunk loop (43_png_chunk_parser.md R252). -/

namespace Sys2Proof.Machine

/-! ### Buffers of the allocator -/

/-- A buffer that the allocator may give PNG_DECODE: in host memory, and apart from the source's slice (20_memory.md R77). -/
def State.GoodBuffer (s : State) (v : Word) (n : Nat) : Prop :=
  v ≠ 0 ∧ v.toNat + n ≤ 0x100000000 ∧ overlap s.start.bs.base s.start.bs.len v.toNat n = false

section
variable {s : State} {c : Snapshot} {e f g : Eng} {p : Png} {bufs more : List (Nat × Nat)} {live live' : List Buf}
  {moves ms : List PortMove} {bytes rest z : List Byte} {ch : Chunk} {n len code info : Nat} {v : Word}

/-- Steps of a PNG_DECODE declare no region, and leave the source's slice. -/
theorem PngStep.fresh (h : PngStep (s.pngEntry ms) f live moves) (hb : s.GoodBuffer v n) (hn : n ≤ 0x7fffffff) :
    Fresh f.regions v n ∧ overlap f.bs.base f.bs.len v.toNat n = false := by
  obtain ⟨hv, hr, ho⟩ := hb
  refine ⟨⟨hv, hn, hr, fun t ht => ?_⟩, ?_⟩
  · rw [h.frame.regions] at ht
    rw [List.mem_singleton.1 ht]
    exact ho
  · rw [h.frame.same]
    exact ho

theorem PngStep.inputs (h : PngStep (s.pngEntry ms) f live moves) : ∀ t ∈ f.regions, t.input = true := fun t ht => by
  rw [h.frame.regions] at ht
  rw [List.mem_singleton.1 ht]

/-- With LIVE empty the duty is to the regions alone. -/
theorem Fresh.grants_alone (h : Fresh f.regions v n) (hl : f.live = []) : Grants f v n :=
  ⟨h, fun b hb => by rw [hl] at hb; cases hb⟩

/-! ### IDATs that are sound -/

/-- The parser's state with an accumulator of `cap` bytes at `a` that holds `n` bytes. -/
def Png.accumulating (p : Png) (a : Option Nat) (n cap : Nat) : Png :=
  { p with idatSeen := true, idat := a, idatLen := n, idatCap := cap }

/-- There is no accumulator yet. -/
def Png.NoData (p : Png) : Prop := p.idat = none ∧ p.idatLen = 0 ∧ p.idatCap = 0

theorem Png.started_noData (h : p.NoData) : p.started = p.accumulating none 0 0 := by
  obtain ⟨ha, hl, hc⟩ := h
  simp only [Png.started, Png.accumulating, ha, hl, hc]

/-- Where there is no accumulator no data is held. -/
theorem Png.NoData.holds (hp : p.NoData) (f : Eng) (hb : (0, 0) ∈ bufs) : HoldsIdat f p bufs [] := by
  obtain ⟨ha, hl, hc⟩ := hp
  exact ⟨hl, Nat.zero_le _, rfl, by rwa [ha, hc], by rw [ha, hc]; decide, by rw [hc]; simp [overlap]⟩

section
variable (hs : ch.Sound c.verifyCrc) (ht : ch.type = typeIDAT) (hfirst : p.first = false) (hpal : p.ctype ≠ 3 ∨ p.palLen ≠ 0)
include hs ht hfirst

/-- An IDAT of the chunk loop, whose use leads to `g`. -/
theorem turns_idat {Q : Eng → Prop} (h : ParserAt e f p bufs live moves (ch.bytes ++ rest))
    (hu : ParserAt e (f.advance 8) p bufs live moves (ch.data ++ (ch.crc ++ rest)) →
      ∃ g, idat c ch.data.length (f.advance 8) = .ok () g ∧ Q g) : ∃ g, Turns c 1 f g ∧ Q g :=
  turns_of_chunk hs (by rw [ht]; decide) (by rw [ht]; decide) h (fun h => by rw [hfirst] at h; cases h) fun hp => by
    rw [ht, chunk_idat]
    exact hu hp

include hpal

/-- An empty IDAT where there is no accumulator. -/
theorem turns_idat_empty (hd : ch.data = []) (hno : p.NoData) (h : ParserAt e f p bufs live moves (ch.bytes ++ rest)) :
    ∃ g, Turns c 1 f g ∧ ParserAt e g (p.accumulating none 0 0) bufs live moves rest := by
  refine turns_idat hs ht hfirst h fun hp => ?_
  have hp0 : ParserAt e _ p ((0, 0) :: bufs) live moves _ := hp.mono fun b hb => .inr (List.mem_cons_of_mem _ hb)
  obtain ⟨g, hg, hga, -⟩ := idat_accepted (z := []) hp.png hpal hno.2.1 hs ht
    (by rw [hd]; exact idatReserve_room (p := p.started) rfl (Nat.zero_le _)) hp0.started (hno.holds _ List.mem_cons_self).started
    (by rw [hd]; exact Nat.zero_le _)
  refine ⟨g, hg, ?_⟩
  rw [Png.started_noData hno, hd] at hga
  exact hga.mono fun b hb => by
    rcases List.mem_cons.1 hb with rfl | hb
    · exact .inl rfl
    · exact .inr hb

/-- A first IDAT with data: the accumulator is allocated. -/
theorem turns_idat_first (hd : ch.data ≠ []) (hno : p.NoData) (h : ParserAt e f p [] [] (.allocResp v :: ms) (ch.bytes ++ rest))
    (hg : Fresh f.regions v (max 4096 ch.data.length)) (happ : overlap f.bs.base f.bs.len v.toNat (max 4096 ch.data.length) = false) :
    ∃ g, Turns c 1 f g ∧
      (ParserAt e g (p.accumulating (some v.toNat) ch.data.length (max 4096 ch.data.length)) [(v.toNat, max 4096 ch.data.length)]
        [⟨v.toNat, max 4096 ch.data.length⟩] ms rest ∧
      HoldsIdat g (p.accumulating (some v.toNat) ch.data.length (max 4096 ch.data.length)) [(v.toNat, max 4096 ch.data.length)]
        ch.data) := by
  refine turns_idat hs ht hfirst h fun hp => ?_
  obtain ⟨k, hk, hka, hkz⟩ := idatReserve_first (more := [(v.toNat, max 4096 ch.data.length)]) hp.started hno.2.2
    (List.length_pos_iff.2 hd) hs.data (Fresh.grants_alone (f := { f.advance 8 with png := _ }) hg h.live) happ
  obtain ⟨g, hg, hga, hgz⟩ := idat_accepted (z := []) hp.png hpal hno.2.1 hs ht (by rw [List.length_nil, Nat.zero_add]; exact hk)
    (hka.mono fun b hb => by cases hb) (hkz hno.2.1 List.mem_cons_self)
    (by rw [List.length_nil, Nat.zero_add]; exact Nat.le_max_right _ _)
  rw [List.length_nil, Nat.zero_add] at hga hgz
  exact ⟨g, hg, hga, hgz⟩

end

/-- More IDATs, for which there is room. -/
theorem turns_idats {p : Png} {a : Nat} {cap : Nat} (idats : List Chunk)
    (hs : ∀ ch ∈ idats, ch.Sound c.verifyCrc ∧ ch.type = typeIDAT) (hfirst : p.first = false) (hpal : p.ctype ≠ 3 ∨ p.palLen ≠ 0)
    (room : z.length + (idats.flatMap fun ch => ch.data).length ≤ cap)
    (h : ParserAt e f (p.accumulating (some a) z.length cap) bufs live moves (idats.flatMap Chunk.bytes ++ rest))
    (acc : HoldsIdat f (p.accumulating (some a) z.length cap) bufs z) :
    let z' := z ++ idats.flatMap fun ch => ch.data
    ∃ g, Turns c idats.length f g ∧ ParserAt e g (p.accumulating (some a) z'.length cap) bufs live moves rest ∧
      HoldsIdat g (p.accumulating (some a) z'.length cap) bufs z' := by
  induction idats generalizing f z with
  | nil =>
    rw [List.flatMap_nil, List.append_nil]
    exact ⟨f, Turns.refl c f, h, acc⟩
  | cons ch idats ih =>
    obtain ⟨sound, ht⟩ := hs ch List.mem_cons_self
    rw [List.flatMap_cons, List.length_append] at room
    rw [List.flatMap_cons, List.append_assoc] at h
    obtain ⟨k, hk, hka, hkz⟩ := turns_idat (p := p.accumulating (some a) z.length cap) sound ht hfirst h fun hp =>
      idat_accepted hp.png hpal rfl sound ht
        (idatReserve_room (p := (p.accumulating (some a) z.length cap).started) rfl (show _ ≤ cap by omega)) hp.started
        (acc.congr rfl ⟨rfl, rfl⟩ ⟨rfl, rfl, rfl⟩) (show _ ≤ cap by omega)
    obtain ⟨g, hg, hga, hgz⟩ := ih (z := z ++ ch.data) (fun c hc => hs c (List.mem_cons_of_mem _ hc))
      (by rw [List.length_append]; omega) (by rw [List.length_append]; exact hka) (by rw [List.length_append]; exact hkz)
    have := hk.trans hg
    rw [Nat.add_comm] at this
    rw [List.flatMap_cons, ← List.append_assoc]
    exact ⟨g, this, hga, hgz⟩

end

end Sys2Proof.Machine
end

section
/-! SUPPORT. The chunk that fails, and the obligation on it (43_png_chunk_parser.md R245 to R256; 60_exceptions.md R414, R415). -/

namespace Sys2Proof.Machine

/-! ### Info words -/

section
variable {v : Bool} {h : PngHead} {a b : Bool} {len type code info : Nat} {rest : List Byte}

theorem EndFails.info_lt (hf : EndFails v len type rest code info) (ht : type < 2 ^ 32) (hr : rest.length < 2 ^ 32) : info < 2 ^ 32 := by
  rcases hf with ⟨-, -, rfl⟩ | ⟨-, -, -, rfl⟩ | ⟨-, -, -, -, rfl⟩ <;> omega

theorem SkipFails.info_lt (hf : SkipFails v len type rest code info) (ht : type < 2 ^ 32) (hr : rest.length < 2 ^ 32) : info < 2 ^ 32 := by
  rcases hf with ⟨-, hf⟩ | ⟨-, -, -, rfl⟩
  · exact hf.info_lt ht hr
  · omega

end

/-! ### The first chunk -/

section
variable {s : State} {c : Snapshot} {e f g : Eng} {p : Png} {bufs more : List (Nat × Nat)} {live live' : List Buf}
  {moves ms : List PortMove} {bytes rest z : List Byte} {ch : Chunk} {n len type code info : Nat} {v : Word}

/-- The turn of a chunk, neither CgBI nor IEND, whose use fails. -/
theorem chunkTurn_chunk_fails (fuel : Nat) (h : ParserAt e f p bufs live moves rest) (hl : len ≤ 0x7fffffff)
    (hfirst : p.first = true → type = typeIHDR) (hc : type ≠ typeCgBI) (he : type ≠ typeIEND)
    (hf : chunk c type len f = .error (.raise code info) g) : chunkTurn c fuel len type f = .error (.raise code info) g := by
  rw [chunkTurn_other hl fuel h.png hfirst hc he, EngM.bind_error hf]

/-- A CgBI that is cut short or has a wrong CRC. -/
theorem chunkTurn_cgbi_fails (fuel : Nat) (h : ParserAt e f p bufs live moves rest) (hl : len ≤ 0x7fffffff)
    (hf : SkipFails c.verifyCrc len typeCgBI rest code info) :
    ∃ g, chunkTurn c fuel len typeCgBI f = .error (.raise code info) g ∧ PngRun e g bufs live moves := by
  obtain ⟨g, hg, hr⟩ := chunkSkip_fails (h.modP fun p => { p with cgbi := true }).2 hf
  exact ⟨g, by rw [chunkTurn_cgbi hl fuel h.png, EngM.bind_error hg], hr⟩

/-- The errors of a first chunk. -/
def FirstFails (verify : Bool) (len type : Nat) (rest : List Byte) (code info : Nat) : Prop :=
  (0x7fffffff < len ∧ code = 0x0117 ∧ info = len) ∨
  (len ≤ 0x7fffffff ∧ type ≠ 0x49484452 ∧ type ≠ 0x43674249 ∧ code = 0x0102 ∧ info = type) ∨
  (len ≤ 0x7fffffff ∧ type = 0x43674249 ∧ SkipFails verify len type rest code info) ∨
  (len ≤ 0x7fffffff ∧ type = 0x49484452 ∧ len ≠ 13 ∧ code = 0x0104 ∧ info = len) ∨
  (type = 0x49484452 ∧ len = 13 ∧ rest.length < 13 ∧ code = 0x0201 ∧ info = rest.length) ∨
  (type = 0x49484452 ∧ len = 13 ∧ HeaderOk (rest.take 13) ∧ EndFails verify len type rest code info)

theorem FirstFails.info_lt {verify : Bool} (hf : FirstFails verify len type rest code info) (hl : len < 2 ^ 32) (ht : type < 2 ^ 32)
    (hr : rest.length < 2 ^ 32) : info < 2 ^ 32 := by
  rcases hf with ⟨-, -, rfl⟩ | ⟨-, -, -, -, rfl⟩ | ⟨-, -, hf⟩ | ⟨-, -, -, -, rfl⟩ | ⟨-, -, -, -, rfl⟩ | ⟨-, -, -, hf⟩
  · exact hl
  · exact ht
  · exact hf.info_lt ht hr
  · exact hl
  · exact hr
  · exact hf.info_lt ht hr

theorem chunkTurn_first_fails (fuel : Nat) (h : ParserAt e f p bufs live moves rest) (hfirst : p.first = true)
    (hf : FirstFails c.verifyCrc len type rest code info) :
    ∃ g, chunkTurn c fuel len type f = .error (.raise code info) g ∧ PngRun e g bufs live moves := by
  have header : type = typeIHDR → len ≤ 0x7fffffff → (∃ g, ihdr c len f = .error (.raise code info) g ∧ PngRun e g bufs live moves) →
      ∃ g, chunkTurn c fuel len type f = .error (.raise code info) g ∧ PngRun e g bufs live moves := by
    rintro rfl hl ⟨g, hg, hr⟩
    exact ⟨g, chunkTurn_chunk_fails fuel h hl (fun _ => rfl) (by decide) (by decide) (by rw [chunk_ihdr, hg]), hr⟩
  rcases hf with ⟨hl, rfl, rfl⟩ | ⟨hl, hi, hc, rfl, rfl⟩ | ⟨hl, rfl, hf⟩ | ⟨hl, ht, hne, rfl, rfl⟩ | ⟨ht, rfl, hr, rfl, rfl⟩ |
    ⟨ht, rfl, hd, hf⟩
  · exact ⟨_, chunkTurn_tooLong fuel type hl, h.toPngRun⟩
  · exact ⟨_, chunkTurn_notIHDR hl fuel h.png hfirst hi hc, h.toPngRun⟩
  · exact chunkTurn_cgbi_fails fuel h hl hf
  · exact header ht hl ⟨_, ihdr_length h.png hfirst hne, h.toPngRun⟩
  · exact header ht (by decide) (ihdr_end_fails h hfirst (fun h13 => by omega) (.inl ⟨hr, rfl, rfl⟩))
  · rw [ht] at hf
    exact header ht (by decide) (ihdr_end_fails h hfirst (fun _ => hd) hf)

/-! ### A chunk after the head -/

theorem chunk_critical (hbit : type.testBit 29 = false) (hi : type ≠ typeIHDR) (hp : type ≠ typePLTE) (hd : type ≠ typeIDAT) :
    chunk c type len f = .error (.raise 0x0501 type) f := by
  have ht : type ≠ typeTRNS := fun h => by rw [h] at hbit; exact absurd hbit (by decide)
  rw [chunk_unknown ⟨hi, hp, ht, hd⟩, hbit, if_neg Bool.false_ne_true]
  rfl

/-- The parser's state after the head `h` and then IDATs if `started`, with no data if `empty`. -/
structure PngHead.Shows (h : PngHead) (started empty : Bool) (p : Png) : Prop where
  first : p.first = false
  ctype : p.ctype = h.ctype
  imgN : p.imgN = h.imgN
  palLen : p.palLen = h.palLen
  idatSeen : p.idatSeen = started
  idatLen : empty = decide (p.idatLen = 0)

section
variable {h : PngHead} {started empty : Bool}

theorem ChunkFails.info_lt {verify : Bool} (hf : ChunkFails verify h started empty len type rest code info) (hl : len < 2 ^ 32)
    (ht : type < 2 ^ 32) (hr : rest.length < 2 ^ 32) : info < 2 ^ 32 := by
  rcases hf with ⟨-, -, rfl⟩ | ⟨-, hf⟩
  · exact hl
  rcases hf with ⟨-, -, rfl⟩ | ⟨-, -, -, rfl⟩ | ⟨-, -, -, -, rfl⟩ | ⟨-, -, -, rfl⟩ | ⟨-, -, -, -, -, rfl⟩ | ⟨-, -, -, -, -, -, rfl⟩ |
    ⟨-, -, -, -, -, rfl⟩ | ⟨-, -, -, -, rfl⟩ | ⟨-, -, -, -, rfl⟩ | ⟨-, -, -, rfl⟩ | ⟨-, -, -, rfl⟩ | ⟨-, hf⟩ | ⟨-, hf⟩
  any_goals omega
  · exact hf.info_lt ht hr
  · exact hf.info_lt ht hr

/-- The turn of the first chunk that fails. -/
theorem chunkTurn_fails (fuel : Nat) (hat : ParserAt e f p bufs live moves rest) (hp : h.Shows started empty p)
    (hf : ChunkFails c.verifyCrc h started empty len type rest code info) :
    ∃ g, chunkTurn c fuel len type f = .error (.raise code info) g ∧ PngRun e g bufs live moves := by
  obtain ⟨first, ctype, imgN, palLen, idatSeen, idatLen⟩ := hp
  rcases hf with ⟨hl, rfl, rfl⟩ | ⟨hl, hf⟩
  · exact ⟨_, chunkTurn_tooLong fuel type hl, hat.toPngRun⟩
  have other : type ≠ typeCgBI → type ≠ typeIEND →
      (∃ g, chunk c type len f = .error (.raise code info) g ∧ PngRun e g bufs live moves) →
      ∃ g, chunkTurn c fuel len type f = .error (.raise code info) g ∧ PngRun e g bufs live moves := fun hc he ⟨g, hg, hr⟩ =>
    ⟨g, chunkTurn_chunk_fails fuel hat hl (fun h => by rw [first] at h; cases h) hc he hg, hr⟩
  have atOnce : chunk c type len f = .error (.raise code info) f →
      ∃ g, chunk c type len f = .error (.raise code info) g ∧ PngRun e g bufs live moves := fun h => ⟨f, h, hat.toPngRun⟩
  rw [← idatSeen, ← ctype, ← palLen, ← imgN, idatLen] at hf
  rcases hf with ⟨rfl, rfl, rfl⟩ | ⟨rfl, hs, rfl, rfl⟩ | ⟨rfl, hs, hne, rfl, rfl⟩ | ⟨rfl, hs, rfl, rfl⟩ | ⟨rfl, hs, h3, h0, rfl, rfl⟩ |
    ⟨rfl, hs, h3, h0, hlt, rfl, rfl⟩ | ⟨rfl, hs, hk, hne, rfl, rfl⟩ | ⟨rfl, hs, ha, rfl, rfl⟩ | ⟨rfl, h3, h0, rfl, rfl⟩ |
    ⟨rfl, h0, rfl, rfl⟩ | ⟨hbit, hu, rfl, rfl⟩ | ⟨hkind, hf⟩ | ⟨hkind, hf⟩
  · exact other (by decide) (by decide) (atOnce (ihdr_second hat.png first))
  · exact other (by decide) (by decide) (atOnce (plte_late hat.png hs))
  · exact other (by decide) (by decide) (atOnce (plte_length hat.png hs hne))
  · exact other (by decide) (by decide) (atOnce (trns_late hat.png hs))
  · exact other (by decide) (by decide) (atOnce (trns_noPalette hat.png hs h3 h0))
  · exact other (by decide) (by decide) (atOnce (trns_beyondPalette hat.png hs h3 h0 hlt))
  · exact other (by decide) (by decide) (atOnce (trns_keyLength hat.png hs hk hne))
  · exact other (by decide) (by decide) (atOnce (trns_withAlpha hat.png hs ha))
  · exact other (by decide) (by decide) (atOnce (idat_noPalette hat.png h3 h0))
  · exact ⟨f, (chunkTurn_iend hl fuel hat.png first).trans (iend_empty hat.png (by simpa using h0)), hat.toPngRun⟩
  · obtain ⟨hi, hpl, hid, he, hc⟩ := hu
    exact other hc he (atOnce (chunk_critical hbit hi hpl hid))
  · rcases hkind with ⟨rfl, hs, hlen⟩ | ⟨rfl, hs, hfit⟩ | ⟨rfl, h0, hv⟩
    · exact other (by decide) (by decide) (plte_end_fails hat hs hlen hf)
    · exact other (by decide) (by decide) (trns_end_fails hat hs hfit hf)
    · obtain ⟨g, hg, hr⟩ := iend_end_fails hv hat (by simpa using h0) hf
      exact ⟨g, (chunkTurn_iend hl fuel hat.png first).trans hg, hr⟩
  · rcases hkind with ⟨hbit, hne⟩ | rfl
    · obtain ⟨-, hc, he⟩ := ancillary_unknown hbit hne
      exact other hc he (by rw [chunk_ancillary hbit hne]; exact chunkSkip_fails hat hf)
    · exact chunkTurn_cgbi_fails fuel hat hl hf

end

/-! ### The head and an IDAT -/

section
variable {h : PngHead}

/-- A head, and then an IDAT without data, or none. -/
theorem turns_head_noData {idat : Option Chunk} (hs : h.Sound c.verifyCrc)
    (hi : ∀ ch ∈ idat, ch.Sound c.verifyCrc ∧ ch.type = typeIDAT ∧ (h.ctype = 3 → h.palLen ≠ 0))
    (hz : ∀ ch ∈ idat, ch.data = [])
    (hp : ParserAt e f Png.init bufs live moves ((h.chunks ++ idat.toList).flatMap Chunk.bytes ++ rest)) :
    ∃ g p, Turns c (h.chunks ++ idat.toList).length f g ∧ ParserAt e g p bufs live moves rest ∧ h.Shows idat.isSome true p ∧
      p.NoData := by
  rw [List.flatMap_append, List.append_assoc] at hp
  obtain ⟨g, hg, hga⟩ := turns_head hs rfl rfl hp
  have hno : (h.parsed Png.init).NoData := ⟨h.parsed_idat _, h.parsed_idatLen _, h.parsed_idatCap _⟩
  have himg := PngHead.parsed_imgN hs.header Png.init
  have hpl : (h.parsed Png.init).palLen = h.palLen := h.parsed_palLen rfl
  cases idat with
  | none =>
    refine ⟨g, _, by simpa using hg, hga, ⟨h.parsed_first _, h.parsed_ctype _, himg, hpl, h.parsed_idatSeen _, ?_⟩, hno⟩
    rw [hno.2.1]
    rfl
  | some ch =>
    obtain ⟨sound, ht, hpal⟩ := hi ch rfl
    rw [Option.toList_some, List.flatMap_singleton] at hga
    obtain ⟨k, hk, hka⟩ := turns_idat_empty sound ht (h.parsed_first _) (PngHead.parsed_palette rfl hpal) (hz ch rfl) hno hga
    exact ⟨k, _, by simpa using hg.trans hk, hka, ⟨h.parsed_first _, h.parsed_ctype _, himg, hpl, rfl, rfl⟩, rfl, rfl, rfl⟩

/-- A head, and then an IDAT with data, to which the allocator gives the buffer `v`. -/
theorem turns_head_data {ms' : List PortMove} (hs : h.Sound c.verifyCrc) (sound : ch.Sound c.verifyCrc) (ht : ch.type = typeIDAT)
    (hpal : h.ctype = 3 → h.palLen ≠ 0) (hd : ch.data ≠ []) (hn : n = max 4096 ch.data.length) (hb : s.GoodBuffer v n)
    (hp : ParserAt (s.pngEntry ms') f Png.init [] [] (.allocResp v :: ms) ((h.chunks ++ [ch]).flatMap Chunk.bytes ++ rest)) :
    ∃ g p, Turns c (h.chunks ++ [ch]).length f g ∧ ParserAt (s.pngEntry ms') g p [(v.toNat, n)] [⟨v.toNat, n⟩] ms rest ∧
      h.Shows true false p ∧ HoldsIdat g p [(v.toNat, n)] ch.data ∧ p.idat = some v.toNat ∧ p.idatCap = n := by
  subst hn
  rw [List.flatMap_append, List.append_assoc] at hp
  obtain ⟨g, hg, hga⟩ := turns_head hs rfl rfl hp
  rw [List.flatMap_singleton] at hga
  have hno : (h.parsed Png.init).NoData := ⟨h.parsed_idat _, h.parsed_idatLen _, h.parsed_idatCap _⟩
  obtain ⟨hfresh, happ⟩ := hga.toPngRun.fresh hb (max_le (by decide) sound.data)
  obtain ⟨k, hk, hka, hkz⟩ := turns_idat_first sound ht (h.parsed_first _) (PngHead.parsed_palette rfl hpal) hd hno hga hfresh happ
  refine ⟨k, _, by simpa using hg.trans hk, hka, ⟨h.parsed_first _, h.parsed_ctype _, PngHead.parsed_imgN hs.header _,
    h.parsed_palLen rfl, rfl, ?_⟩, hkz, rfl, rfl⟩
  exact (decide_eq_false (Nat.ne_of_gt (List.length_pos_iff.2 hd))).symm

end

/-! ### The command -/

theorem length_le_flatMap_bytes (cs : List Chunk) : cs.length ≤ (cs.flatMap Chunk.bytes).length := by
  induction cs with
  | nil => exact Nat.le_refl 0
  | cons ch cs ih =>
    have : ch.bytes.length = 8 + (ch.data.length + ch.crc.length) := by
      simp only [Chunk.bytes, List.length_append, putBe32, List.length_cons, List.length_nil]
      omega
    rw [List.flatMap_cons, List.length_append, List.length_cons]
    omega

/-- From `g`, where the loop stands, its next turn fails. -/
def NextFails (c : Snapshot) (e g : Eng) (code info : Nat) (bufs : List (Nat × Nat)) (live : List Buf) (moves : List PortMove) : Prop :=
  ∀ fuel, ∃ k, chunks c (fuel + 1) g = .error (.raise code info) k ∧ PngRun e k bufs live moves

/-- The header of the next chunk is whole, and its turn fails. -/
theorem nextFails_of_turn {moves' : List PortMove} (h : ParserAt e g p bufs live moves (putBe32 len ++ putBe32 type ++ rest))
    (hl : len < 0x100000000) (ht : type < 0x100000000)
    (hf : ∀ fuel, ParserAt e (g.advance 8) p bufs live moves rest →
      ∃ k, chunkTurn c fuel len type (g.advance 8) = .error (.raise code info) k ∧ PngRun e k more live' moves') :
    NextFails c e g code info more live' moves' := fun fuel => by
  obtain ⟨hturn, hp⟩ := chunks_turn (c := c) fuel hl ht h
  obtain ⟨k, hk, hr⟩ := hf fuel hp
  exact ⟨k, hturn.trans hk, hr⟩

/-- After the sound chunks `cs` the loop fails. -/
theorem pngFails_of_chunks {req : Nat} {vs : List Word} {cs : List Chunk} (ready : s.Ready ms) (hmode : s.start.bs.mode = .mem)
    (hok : SourceOk s.start.bs) (hreq : req ≤ 4)
    (hahead : s.start.mem.read (s.start.bs.base + s.start.bs.pos) (s.start.bs.len - s.start.bs.pos) =
      pngSig ++ (cs.flatMap Chunk.bytes ++ rest))
    (hf : ∀ f, ParserAt (s.pngEntry ms) f Png.init [] [] ms (cs.flatMap Chunk.bytes ++ rest) →
      ∃ g, Turns s.running.snap cs.length f g ∧
        NextFails s.running.snap (s.pngEntry ms) g code info bufs live (vs.map .allocResp))
    (hv : vs.length = live.length) (hinfo : rest.length < 2 ^ 32 → info < 2 ^ 32) : PngFails s req code info bufs := by
  obtain ⟨hbody, hs⟩ := pngDecodeBody_signed ready hmode hok hreq hahead
  obtain ⟨g, hturns, hnext⟩ := hf _ ⟨(State.pngEntry_run ready).reads rfl, rfl, hs⟩
  obtain ⟨fuel, hfuel⟩ : ∃ fuel, (cs.flatMap Chunk.bytes ++ rest).length + 1 = fuel + 1 + cs.length :=
    ⟨(cs.flatMap Chunk.bytes ++ rest).length - cs.length, by
      have := length_le_flatMap_bytes cs
      rw [List.length_append]
      omega⟩
  obtain ⟨k, hk, hr⟩ := hnext fuel
  refine pngFails_of_run ready (hbody.trans ?_) hr hv (hinfo ?_)
  · rw [pngParse, hfuel, EngM.bind_error ((hturns _).trans hk)]
  · have hlen := congrArg List.length hahead
    have := (hok.slice hmode).1
    rw [Memory.read_length, List.length_append, List.length_append, show pngSig.length = 8 from rfl] at hlen
    have : s.start.bs.base + s.start.bs.len ≤ 2 ^ 32 := this
    omega

/-! ### The IDAT that fails (43_png_chunk_parser.md R252) -/

section
variable {moves' : List PortMove} (hl : len ≤ 0x7fffffff) (hfirst : p.first = false) (hpal : p.ctype ≠ 3 ∨ p.palLen ≠ 0)
include hl hfirst

theorem nextFails_idat (h : ParserAt e g p bufs live moves (putBe32 len ++ putBe32 typeIDAT ++ rest))
    (hf : ParserAt e (g.advance 8) p bufs live moves rest →
      ∃ k, idat c len (g.advance 8) = .error (.raise code info) k ∧ PngRun e k more live' moves') :
    NextFails c e g code info more live' moves' :=
  nextFails_of_turn h (by omega) (by decide) fun fuel hp => by
    obtain ⟨k, hk, hr⟩ := hf hp
    exact ⟨k, chunkTurn_chunk_fails fuel hp hl (fun h => by rw [hfirst] at h; cases h) (by decide) (by decide)
      (by rw [chunk_idat]; exact hk), hr⟩

include hpal

/-- An empty IDAT without data before. -/
theorem nextFails_idat_empty (h : ParserAt e g p bufs live moves (putBe32 len ++ putBe32 typeIDAT ++ rest)) (hno : p.NoData)
    (h0 : len = 0) (hf : EndFails c.verifyCrc len typeIDAT rest code info) : NextFails c e g code info bufs live moves :=
  nextFails_idat hl hfirst h fun hp => by
    obtain ⟨k, hk, hr⟩ := idat_end_fails (more := (0, 0) :: bufs) (z := []) hp.png hpal hno.2.1 hf
      (by rw [h0]; exact idatReserve_room (p := p.started) rfl (Nat.zero_le _)) hp.started
      (fun b hb => .inr (List.mem_cons_of_mem _ hb)) (hno.holds _ List.mem_cons_self).started (by rw [h0]; exact Nat.zero_le _)
    refine ⟨k, hk, hr.mono fun b hb => ?_⟩
    split at hb
    · exact .inr hb
    · exact (List.mem_cons.1 hb).imp (fun h => by rw [h]) id

/-- A first IDAT with data. -/
theorem nextFails_idat_first (h : ParserAt e g p [] [] (.allocResp v :: ms) (putBe32 len ++ putBe32 typeIDAT ++ rest))
    (hno : p.NoData) (h0 : 0 < len) (hf : EndFails c.verifyCrc len typeIDAT rest code info)
    (hfresh : Fresh g.regions v (max 4096 len)) (happ : overlap g.bs.base g.bs.len v.toNat (max 4096 len) = false) :
    NextFails c e g code info (if rest.length < len then [] else [(v.toNat, max 4096 len)]) [⟨v.toNat, max 4096 len⟩] ms :=
  nextFails_idat hl hfirst h fun hp => by
    obtain ⟨k, hk, hka, hkz⟩ := idatReserve_first (more := [(v.toNat, max 4096 len)]) hp.started hno.2.2 h0 hl
      (Fresh.grants_alone (f := { g.advance 8 with png := _ }) hfresh h.live) happ
    exact idat_end_fails (z := []) hp.png hpal hno.2.1 hf (by rw [List.length_nil, Nat.zero_add]; exact hk) hka
      (fun b hb => by cases hb) (hkz hno.2.1 List.mem_cons_self) (by rw [List.length_nil, Nat.zero_add]; exact Nat.le_max_right _ _)

variable (h : ParserAt e g p bufs live moves (putBe32 len ++ putBe32 typeIDAT ++ rest)) (acc : HoldsIdat g p bufs z)
include h acc

/-- An IDAT that makes the data too large. -/
theorem nextFails_idat_tooLarge (hcap : p.idatCap < z.length + len) (hlarge : 0x7fffffff < z.length + len) :
    NextFails c e g 0x0402 (z.length + len) bufs live moves :=
  nextFails_idat hl hfirst h fun hp => by
    rw [← acc.len] at hcap hlarge ⊢
    exact idat_tooLarge hp hpal hcap hlarge

/-- An IDAT for which there is room. -/
theorem nextFails_idat_room (hroom : z.length + len ≤ p.idatCap) (hf : EndFails c.verifyCrc len typeIDAT rest code info) :
    NextFails c e g code info bufs live moves :=
  nextFails_idat hl hfirst h fun hp => by
    have := idat_end_fails hp.png hpal acc.len hf (idatReserve_room (p := p.started) rfl hroom) hp.started
      (fun b hb => .inr hb) (acc.congr rfl ⟨rfl, rfl⟩ ⟨rfl, rfl, rfl⟩) hroom
    rwa [ite_self] at this

end

/-- An IDAT that makes the accumulator grow. -/
theorem nextFails_idat_grows {a cap : Nat} (hl : len ≤ 0x7fffffff) (hfirst : p.first = false) (hpal : p.ctype ≠ 3 ∨ p.palLen ≠ 0)
    (h : ParserAt e g p bufs [⟨a, cap⟩] (.allocResp v :: ms) (putBe32 len ++ putBe32 typeIDAT ++ rest)) (acc : HoldsIdat g p bufs z)
    (ha : p.idat = some a) (hcap : p.idatCap = cap) (h0 : 0 < cap) (hfull : cap < z.length + len)
    (hmax : z.length + len ≤ 0x7fffffff) (hn : growCap 32 cap (z.length + len) = n) (hfresh : Fresh g.regions v n)
    (hin : ∀ t ∈ g.regions, t.input = true) (happ : overlap g.bs.base g.bs.len v.toNat n = false)
    (hf : EndFails c.verifyCrc len typeIDAT rest code info) :
    NextFails c e g code info (bufs ++ [(v.toNat, n)]) [⟨v.toNat, n⟩] ms :=
  nextFails_idat hl hfirst h fun hp => by
    obtain ⟨k, hk, hka, hkz⟩ := idatReserve_grows (len := len) hp.started (acc.congr rfl ⟨rfl, rfl⟩ ⟨rfl, rfl, rfl⟩) ha hcap h0 hfull hmax hn
      hfresh hin happ
    have := idat_end_fails hp.png hpal acc.len hf hk hka (fun b hb => .inr hb) hkz
      (hn ▸ growCap_ge 32 (show z.length + len ≤ Config.sizeCeiling from hmax))
    rwa [ite_self] at this

end

end Sys2Proof.Machine
end

section
/-! SUPPORT. The obligation on the chunks that fail (43_png_chunk_parser.md R245 to R256; 60_exceptions.md R414, R415). -/

namespace Sys2Proof.Machine

theorem PngHead.Shows.palette {h : PngHead} {a b : Bool} {q : Png} (hq : h.Shows a b q) (hpal : h.ctype = 3 → h.palLen ≠ 0) :
    q.ctype ≠ 3 ∨ q.palLen ≠ 0 := by
  rw [hq.ctype, hq.palLen]
  exact Classical.or_iff_not_imp_left.2 fun h3 => hpal (not_not.1 h3)

section
variable {s : State} {req : Nat} {h : PngHead} {idat : Option Chunk} {bad rest : List Byte} {p f r : Word} {len code info k : Nat}
  (hreq : req ≤ 4) (hmode : s.start.bs.mode = .mem) (hok : SourceOk s.start.bs)
include hreq hmode hok

/-- A first chunk that fails. -/
theorem pngFails_first {type : Nat} (ready : s.Ready []) (hl : len < 0x100000000) (ht : type < 0x100000000)
    (hahead : s.start.mem.read (s.start.bs.base + s.start.bs.pos) (s.start.bs.len - s.start.bs.pos) =
      pngSig ++ (putBe32 len ++ putBe32 type ++ rest))
    (hf : FirstFails s.running.snap.verifyCrc len type rest code info) : PngFails s req code info [] :=
  pngFails_of_chunks (cs := []) (vs := []) (rest := putBe32 len ++ putBe32 type ++ rest) ready hmode hok hreq hahead
    (fun g hg => ⟨g, Turns.refl _ _, nextFails_of_turn hg hl ht fun fuel hp => chunkTurn_first_fails fuel hp rfl hf⟩) rfl
    fun hlen => hf.info_lt hl ht (by rw [List.length_append] at hlen; omega)

/-- What follows a head, and perhaps an IDAT: too few bytes for a header, or a chunk that fails. -/
def BadNext (verify : Bool) (h : PngHead) (started empty : Bool) (bad : List Byte) (code info : Nat) : Prop :=
  (bad.length < 8 ∧ code = 0x0201 ∧ info = bad.length) ∨
    (∃ len type rest, len < 0x100000000 ∧ type < 0x100000000 ∧ bad = putBe32 len ++ putBe32 type ++ rest ∧
      ChunkFails verify h started empty len type rest code info)

omit hreq hmode hok in
theorem BadNext.info_lt {verify started empty : Bool} (hf : BadNext verify h started empty bad code info)
    (hbad : bad.length < 2 ^ 32) : info < 2 ^ 32 := by
  rcases hf with ⟨-, -, rfl⟩ | ⟨len, type, rest, hl, ht, rfl, hf⟩
  · exact hbad
  · exact hf.info_lt hl ht (by rw [List.length_append] at hbad; omega)

omit hreq hmode hok in
theorem BadNext.nextFails {c : Snapshot} {e g : Eng} {q : Png} {bufs : List (Nat × Nat)} {live : List Buf} {moves : List PortMove}
    {started empty : Bool} (hf : BadNext c.verifyCrc h started empty bad code info) (hp : ParserAt e g q bufs live moves bad)
    (hq : h.Shows started empty q) : NextFails c e g code info bufs live moves := by
  rcases hf with ⟨hlen, rfl, rfl⟩ | ⟨len, type, rest, hl, ht, rfl, hf⟩
  · exact fun fuel => chunks_short fuel hp hlen
  · exact nextFails_of_turn hp hl ht fun fuel hp => chunkTurn_fails fuel hp hq hf

variable (hs : h.Sound s.running.snap.verifyCrc)
  (hahead : s.start.mem.read (s.start.bs.base + s.start.bs.pos) (s.start.bs.len - s.start.bs.pos) =
    pngSig ++ ((h.chunks ++ idat.toList).flatMap Chunk.bytes ++ bad))
  (hi : ∀ c ∈ idat, c.Sound s.running.snap.verifyCrc ∧ c.type = typeIDAT ∧ (h.ctype = 3 → h.palLen ≠ 0))
include hs hahead hi

/-- Without data before, what comes next fails. -/
theorem pngFails_noData {ms : List PortMove} {bufs : List (Nat × Nat)} {live : List Buf} {vs : List Word}
    (hz : ∀ c ∈ idat, c.data = []) (ready : s.Ready ms)
    (hf : ∀ g q, ParserAt (s.pngEntry ms) g q [] [] ms bad → h.Shows idat.isSome true q → q.NoData →
      NextFails s.running.snap (s.pngEntry ms) g code info bufs live (vs.map .allocResp))
    (hv : vs.length = live.length) (hinfo : bad.length < 2 ^ 32 → info < 2 ^ 32) : PngFails s req code info bufs :=
  pngFails_of_chunks ready hmode hok hreq hahead (fun g hg => by
    obtain ⟨k, q, hk, hka, hq, hno⟩ := turns_head_noData hs hi hz hg
    exact ⟨k, hk, hf k q hka hq hno⟩) hv hinfo

/-- With data before, what comes next fails. -/
theorem pngFails_data {ch : Chunk} {n : Nat} {ms : List PortMove} {bufs : List (Nat × Nat)} {live : List Buf} {vs : List Word}
    (hidat : idat = some ch) (hd : ch.data ≠ []) (hn : n = max 4096 ch.data.length) (hb : s.GoodBuffer p n)
    (ready : s.Ready (.allocResp p :: ms))
    (hf : ∀ g q, ParserAt (s.pngEntry (.allocResp p :: ms)) g q [(p.toNat, n)] [⟨p.toNat, n⟩] ms bad → h.Shows true false q →
      HoldsIdat g q [(p.toNat, n)] ch.data → q.idat = some p.toNat → q.idatCap = n →
      NextFails s.running.snap (s.pngEntry (.allocResp p :: ms)) g code info bufs live (vs.map .allocResp))
    (hv : vs.length = live.length) (hinfo : bad.length < 2 ^ 32 → info < 2 ^ 32) : PngFails s req code info bufs := by
  subst hidat
  obtain ⟨sound, ht, hpal⟩ := hi ch rfl
  exact pngFails_of_chunks ready hmode hok hreq hahead (fun g hg => by
    obtain ⟨k, q, hk, hka, hq, hz, ha, hc⟩ := turns_head_data hs sound ht hpal hd hn hb hg
    exact ⟨k, hk, hf k q hka hq hz ha hc⟩) hv hinfo

/-! An IDAT that fails. -/

section
variable (hl : len ≤ 0x7fffffff) (hpal : h.ctype = 3 → h.palLen ≠ 0) (hbad : bad = putBe32 len ++ putBe32 typeIDAT ++ rest)
include hl hpal hbad

section
variable (hz : ∀ c ∈ idat, c.data = []) (hf : EndFails s.running.snap.verifyCrc len typeIDAT rest code info)
include hz hf

omit hreq hmode hok hs hahead hi hl hpal hz in
theorem idat_info_lt (hlen : bad.length < 2 ^ 32) : info < 2 ^ 32 :=
  hf.info_lt (by decide) (by rw [hbad, List.length_append] at hlen; omega)

/-- An empty IDAT, with no data before. -/
theorem pngFails_idat_empty (h0 : len = 0) (ready : s.Ready []) : PngFails s req code info [] :=
  pngFails_noData (live := []) (vs := []) hreq hmode hok hs hahead hi hz ready (fun g q hg hq hno => by
    rw [hbad] at hg
    exact nextFails_idat_empty hl hq.first (hq.palette hpal) hg hno h0 hf) rfl (idat_info_lt hbad hf)

/-- A first IDAT with data. -/
theorem pngFails_idat_first (h0 : 0 < len) (ready : s.Ready [.allocResp p, .allocResp f]) (hb : s.GoodBuffer p (max 4096 len)) :
    PngFails s req code info (if rest.length < len then [] else [(p.toNat, max 4096 len)]) :=
  pngFails_noData (live := [⟨p.toNat, max 4096 len⟩]) (vs := [f]) hreq hmode hok hs hahead hi hz ready (fun g q hg hq hno => by
    rw [hbad] at hg
    obtain ⟨hfresh, happ⟩ := hg.toPngRun.fresh hb (max_le (by decide) hl)
    exact nextFails_idat_first hl hq.first (hq.palette hpal) hg hno h0 hf hfresh happ) rfl (idat_info_lt hbad hf)

end

variable {ch : Chunk} {n : Nat} (hidat : idat = some ch) (hd : ch.data ≠ []) (hn : n = max 4096 ch.data.length) (hb : s.GoodBuffer p n)
include hidat hd hn hb

/-- An IDAT that makes the data too large. -/
theorem pngFails_idat_tooLarge (hlarge : 0x7fffffff < ch.data.length + len) (ready : s.Ready [.allocResp p, .allocResp f]) :
    PngFails s req 0x0402 (ch.data.length + len) [(p.toNat, n)] := by
  have hsound : ch.data.length ≤ 0x7fffffff := (hi ch hidat).1.data
  exact pngFails_data (live := [⟨p.toNat, n⟩]) (vs := [f]) hreq hmode hok hs hahead hi hidat hd hn hb ready
    (fun g q hg hq hz _ hc => by
      rw [hbad] at hg
      exact nextFails_idat_tooLarge hl hq.first (hq.palette hpal) hg hz (by omega) hlarge) rfl (fun _ => by omega)

variable (hf : EndFails s.running.snap.verifyCrc len typeIDAT rest code info)
include hf

/-- An IDAT for which there is room. -/
theorem pngFails_idat_room (hroom : ch.data.length + len ≤ n) (ready : s.Ready [.allocResp p, .allocResp f]) :
    PngFails s req code info [(p.toNat, n)] :=
  pngFails_data (live := [⟨p.toNat, n⟩]) (vs := [f]) hreq hmode hok hs hahead hi hidat hd hn hb ready
    (fun g q hg hq hz _ hc => by
      rw [hbad] at hg
      exact nextFails_idat_room hl hq.first (hq.palette hpal) hg hz (hc ▸ hroom) hf) rfl (idat_info_lt hbad hf)

/-- An IDAT that makes the accumulator grow to `m` bytes. -/
theorem pngFails_idat_grows {m : Nat} (hfull : n < ch.data.length + len) (hmax : ch.data.length + len ≤ 0x7fffffff)
    (hm : growCap 32 n (ch.data.length + len) = m) (ready : s.Ready [.allocResp p, .allocResp r, .allocResp f])
    (hb' : s.GoodBuffer r m) : PngFails s req code info [(p.toNat, n), (r.toNat, m)] :=
  pngFails_data (live := [⟨r.toNat, m⟩]) (vs := [f]) hreq hmode hok hs hahead hi hidat hd hn hb ready
    (fun g q hg hq hz ha hc => by
      rw [hbad] at hg
      obtain ⟨hfresh, happ⟩ := hg.toPngRun.fresh hb' (hm ▸ growCap_le 32 (show n ≤ 0x7fffffff by omega))
      exact nextFails_idat_grows hl hq.first (hq.palette hpal) hg hz ha hc (by omega) hfull hmax hm hfresh hg.toPngRun.inputs happ hf)
    rfl (idat_info_lt hbad hf)

end

end

theorem data_of_elim_eq_nil {idat : Option Chunk} (hz : (idat.elim [] fun c => c.data) = []) : ∀ c ∈ idat, c.data = [] := by
  rintro c rfl
  exact hz

theorem exists_of_elim_ne_nil {idat : Option Chunk} (hz : (idat.elim [] fun c => c.data) ≠ []) : ∃ c, idat = some c := by
  cases idat with
  | none => exact absurd rfl hz
  | some c => exact ⟨c, rfl⟩

/-- The obligation's bytes, with the chunks taken together. -/
theorem ahead_eq {l : List Byte} {h : PngHead} {idat : Option Chunk} {bad : List Byte}
    (hl : l = [137, 80, 78, 71, 13, 10, 26, 10] ++ h.chunks.flatMap Chunk.bytes ++ idat.toList.flatMap Chunk.bytes ++ bad) :
    l = pngSig ++ ((h.chunks ++ idat.toList).flatMap Chunk.bytes ++ bad) := by
  rw [hl, List.flatMap_append, List.append_assoc, List.append_assoc, List.append_assoc]
  rfl

/-- Settles O57: the chunk loop takes the sound chunks turn by turn, and its next turn fails. -/
theorem pngChunksChecked : Obligations.PngChunksChecked := by
  unfold Obligations.PngChunksChecked
  intro s req hreq hmode hok verify ahead sig fails buffer
  refine ⟨fun ready => ⟨fun bad hahead hlen => ?_, fun len type rest code info hl ht hahead hf => ?_⟩, ?_, ?_⟩
  · exact pngFails_of_chunks (cs := []) (vs := []) ready hmode hok hreq hahead
      (fun g hg => ⟨g, Turns.refl _ _, fun fuel => chunks_short fuel hg hlen⟩) rfl id
  · have hahead : ahead = pngSig ++ (putBe32 len ++ putBe32 type ++ rest) := by
      rw [hahead, List.append_assoc, List.append_assoc, List.append_assoc]
      rfl
    exact pngFails_first hreq hmode hok ready hl ht hahead hf
  · intro h idat bad p f code info hs hi z n ready hb hahead (hf : BadNext verify h idat.isSome (decide (z = [])) bad code info)
    replace hahead := ahead_eq hahead
    by_cases hz : z = []
    · rw [decide_eq_true hz] at hf
      rw [if_pos hz] at ready
      exact pngFails_noData (bufs := [(p.toNat, n)]) (live := []) (vs := []) hreq hmode hok hs hahead hi
        (data_of_elim_eq_nil hz) ready (fun g q hg hq _ => hf.nextFails (hg.mono fun b hb => by cases hb) hq) rfl hf.info_lt
    · obtain ⟨ch, rfl⟩ := exists_of_elim_ne_nil hz
      rw [decide_eq_false hz] at hf
      rw [if_neg hz] at ready
      exact pngFails_data (live := [⟨p.toNat, n⟩]) (vs := [f]) hreq hmode hok hs hahead hi rfl hz (if_neg hz) (hb hz) ready
        (fun g q hg hq _ _ _ => hf.nextFails hg hq) rfl hf.info_lt
  · intro h idat len rest p f hs hpal hi hl z n size hahead
    replace hahead := ahead_eq (l := ahead) (bad := putBe32 len ++ putBe32 typeIDAT ++ rest) (by rw [← List.append_assoc, ← List.append_assoc]; exact hahead)
    have hi : ∀ c ∈ idat, c.Sound verify ∧ c.type = typeIDAT ∧ (h.ctype = 3 → h.palLen ≠ 0) := fun c hc =>
      ⟨(hi c hc).1, (hi c hc).2, hpal⟩
    refine ⟨fun hbig ready hb => ?_, fun code info hsize hf => ⟨fun h0 ready => ?_, fun hz h0 ready hb => ?_,
      fun hz hroom ready hb => ?_, ?_⟩⟩
    · have hz : z ≠ [] := fun hz => by
        have : size = len := by show z.length + len = len; rw [hz]; exact Nat.zero_add _
        omega
      obtain ⟨ch, rfl⟩ := exists_of_elim_ne_nil hz
      exact pngFails_idat_tooLarge hreq hmode hok hs hahead hi hl hpal rfl rfl hz rfl hb hbig ready
    · have h0 : z.length = 0 ∧ len = 0 := Nat.add_eq_zero_iff.1 h0
      exact pngFails_idat_empty hreq hmode hok hs hahead hi hl hpal rfl (data_of_elim_eq_nil (List.eq_nil_of_length_eq_zero h0.1)) hf
        h0.2 ready
    · exact pngFails_idat_first hreq hmode hok hs hahead hi hl hpal rfl (data_of_elim_eq_nil hz) hf h0 ready hb
    · obtain ⟨ch, rfl⟩ := exists_of_elim_ne_nil hz
      exact pngFails_idat_room hreq hmode hok hs hahead hi hl hpal rfl rfl hz rfl hb hf hroom ready
    · intro k r hz hfull c hc hsmall ready hb hb'
      obtain ⟨ch, rfl⟩ := exists_of_elim_ne_nil hz
      have hn : 4096 ≤ n := Nat.le_max_left _ _
      have hk : k < 20 := Nat.lt_of_not_le fun hk => by
        have := hsmall 19 (by omega)
        omega
      have hgrow : growCap 32 n size = c := growCap_eq k (by omega) (show n ≤ 0x7fffffff by omega) hsmall hc
      exact pngFails_idat_grows hreq hmode hok hs hahead hi hl hpal rfl rfl hz rfl hb hf hfull hsize hgrow ready hb'

end Sys2Proof.Machine
end

section
/-! SUPPORT. An image in a buffer of the pipeline, pixel by pixel: what each step after the reconstruction makes of it
(43_png_chunk_parser.md R260 to R265; 45_format_converter.md R313 to R322). -/

namespace Sys2Proof.Machine

/-! ### Pixels in memory -/

/-- `N` pixels of `n` bytes lie at `a`, one after the other. -/
def Memory.HasPixels (m : Memory) (a n N : Nat) (px : Nat → List Byte) : Prop := ∀ i, i < N → m.read (a + i * n) n = px i

theorem pixel_within {i n N : Nat} (hi : i < N) : i * n + n ≤ N * n := by
  rw [← Nat.succ_mul]
  exact Nat.mul_le_mul_right n hi

theorem pixel_offset_inj {c i j k l : Nat} (hk : k < c) (hl : l < c) (h : i * c + k = j * c + l) : i = j ∧ k = l := by
  have hmod := congrArg (· % c) h
  simp only [Nat.mul_add_mod', Nat.mod_eq_of_lt hk, Nat.mod_eq_of_lt hl] at hmod
  subst hmod
  exact ⟨Nat.eq_of_mul_eq_mul_right (Nat.zero_lt_of_lt hk) (Nat.add_right_cancel h), rfl⟩

section
variable {m m' : Memory} {a n N : Nat} {px : Nat → List Byte}

theorem Memory.HasPixels.length (h : m.HasPixels a n N px) {i : Nat} (hi : i < N) : (px i).length = n := by
  rw [← h i hi, Memory.read_length]

theorem Memory.HasPixels.congr (h : m.HasPixels a n N px) (hm : ∀ x, a ≤ x → x < a + N * n → m'.get x = m.get x) :
    m'.HasPixels a n N px := fun i hi => by
  rw [← h i hi]
  exact Memory.read_congr fun k hk => hm _ (by omega) (by have := pixel_within (n := n) hi; omega)

/-- Pixels given byte by byte. -/
theorem Memory.hasPixels_of_get (hl : ∀ i, i < N → (px i).length = n)
    (h : ∀ i k, i < N → k < n → m.get (a + i * n + k) = (px i).getD k 0) : m.HasPixels a n N px := fun i hi => by
  have := Memory.read_eq (m := m) (a := a + i * n) (bs := px i) fun k hk => h i k hi (hl i hi ▸ hk)
  rwa [hl i hi] at this

theorem Memory.HasPixels.get (h : m.HasPixels a n N px) {i k : Nat} (hi : i < N) (hk : k < n) :
    m.get (a + i * n + k) = (px i).getD k 0 := by
  rw [← h i hi, Memory.read_getD _ _ _ _ hk]

theorem Memory.HasPixels.pixels (h : m.HasPixels a n N px) : pixels n N (m.read a (N * n)) = (List.range N).map px := by
  refine List.ext_getElem? fun i => ?_
  rcases Nat.lt_or_ge i N with hi | hi
  · rw [Nat.mul_comm, pixels_getD m a hi, h i hi, List.getElem?_map, List.getElem?_range hi, Option.map_some]
  · rw [List.getElem?_eq_none (by rw [pixels_length]; exact hi), List.getElem?_eq_none (by simpa using hi)]

/-- Pixels that are written. -/
theorem Memory.hasPixels_write (m : Memory) (a : Nat) (hl : ∀ i, i < N → (px i).length = n) :
    (m.write a ((List.range N).flatMap px)).HasPixels a n N px := by
  have hrow : ∀ row ∈ (List.range N).map px, row.length = n := by
    intro row hr
    obtain ⟨i, hi, rfl⟩ := List.mem_map.1 hr
    exact hl i (List.mem_range.1 hi)
  have hlen : ((List.range N).map px).length = N := by simp
  have := (Memory.read_flatten_iff (m.write a ((List.range N).map px).flatten) a n hrow).1
    (by rw [← flatten_length hrow, Memory.read_write_self])
  intro i hi
  rw [List.flatMap_def, this i (by rwa [hlen]), List.getElem_map, List.getElem_range]

theorem flatMap_range_length (hl : ∀ i, i < N → (px i).length = n) : ((List.range N).flatMap px).length = N * n := by
  rw [List.length_flatMap, List.map_congr_left fun i hi => hl i (List.mem_range.1 hi), List.map_const', List.sum_replicate,
    List.length_range, smul_eq_mul]

theorem Memory.HasPixels.bytes (h : m.HasPixels a 1 N px) : m.read a N = (List.range N).map fun i => (px i).getD 0 0 := by
  refine List.ext_getElem (by simp) fun i hi _ => ?_
  rw [Memory.read_length] at hi
  have := h.get hi Nat.zero_lt_one
  rw [Nat.mul_one, Nat.add_zero] at this
  rw [Memory.read_getElem, this, List.getElem_map, List.getElem_range]

end

/-! ### Images in the pipeline -/

/-- After steps of a PNG_DECODE from `e` that wrote to no buffer but `bufs`, an image of `N` pixels of `n` bytes lies in the buffer at
`a`. -/
structure ImageAt (e f : Eng) (bufs : List (Nat × Nat)) (live : List Buf) (moves : List PortMove) (a N n : Nat) (px : Nat → List Byte) :
    Prop extends PngStep e f live moves where
  outside : SameOutside e f bufs
  buffer : (a, N * n) ∈ bufs
  range : a + N * n ≤ Config.addrSpace
  pixels : f.mem.HasPixels a n N px

section
variable {e f g : Eng} {bufs : List (Nat × Nat)} {live live' : List Buf} {moves ms : List PortMove} {a b k N n r : Nat}
  {px px' : Nat → List Byte} {v w : Word}

/-- The image changes in its buffer. -/
theorem ImageAt.inPlace (h : ImageAt e f bufs live moves a N n px)
    (hg : g = { f with mem := g.mem, written := g.written, journal := g.journal })
    (hout : ∀ x, x < a ∨ a + N * n ≤ x → g.mem.get x = f.mem.get x) (hpx : g.mem.HasPixels a n N px') :
    ImageAt e g bufs live moves a N n px' where
  frame := h.frame.trans ⟨by rw [hg]⟩
  live := by rw [hg]; exact h.live
  moves := by rw [hg]; exact h.moves
  allocReq := by rw [hg]; exact h.allocReq
  outside := h.outside.trans fun x hx => hout x (hx _ h.buffer)
  buffer := h.buffer
  range := h.range
  pixels := hpx

/-- An image goes to a new buffer. -/
theorem ImageAt.toNew (h : ImageAt e f bufs live moves a N n px) (hs : PngStep f g live' ms)
    (hm : g.mem = f.mem.write b ((List.range N).flatMap px')) (hl : ∀ i, i < N → (px' i).length = r)
    (hr : b + N * r ≤ Config.addrSpace) : ImageAt e g (bufs ++ [(b, N * r)]) live' ms b N r px' where
  frame := h.frame.trans hs.frame
  live := hs.live
  moves := hs.moves
  allocReq := hs.allocReq
  outside := (h.outside.mono fun b hb => .inr (List.mem_append_left _ hb)).trans fun x hx => by
    have := hx _ (List.mem_append_right _ List.mem_cons_self)
    rw [hm]
    exact Memory.get_write_of_lt _ _ _ _ (by rw [flatMap_range_length hl]; exact this)
  buffer := List.mem_append_right _ List.mem_cons_self
  range := hr
  pixels := hm ▸ Memory.hasPixels_write _ _ hl

/-- The buffer that the image does not lie in is freed. -/
theorem ImageAt.free (h : ImageAt e f bufs [⟨b, k⟩, ⟨a, N * n⟩] (.allocResp w :: ms) a N n px) (hk : 0 < k) (hn : 0 < N * n)
    (hap : overlap b k a (N * n) = false) :
    portFree b f = .ok () (f.freed b ms) ∧ ImageAt e (f.freed b ms) bufs [⟨a, N * n⟩] ms a N n px := by
  have hstep := f.freed_step b ms
  rw [h.live, dropBuf_pair hk hn hap] at hstep
  exact ⟨portFree_freed h.moves,
    ⟨⟨h.frame.trans hstep.frame, hstep.live, hstep.moves, hstep.allocReq⟩, h.outside, h.buffer, h.range, h.pixels⟩⟩

/-! ### Steps of the pipeline -/

theorem convert_image {s : Nat} (h : ImageAt e f bufs [⟨a, N * s⟩] (.allocResp v :: ms) a N s px) (hs : 1 ≤ s ∧ s ≤ 4)
    (hr : 1 ≤ r ∧ r ≤ 4) (hg : Fresh f.regions v (N * r)) (hap : overlap a (N * s) v.toNat (N * r) = false) :
    ∃ g, convert a N s r f = .ok v.toNat g ∧
      ImageAt e g (bufs ++ [(v.toNat, N * r)]) [⟨a, N * s⟩, ⟨v.toNat, N * r⟩] ms v.toNat N r fun i => convertPixel s r (px i) := by
  obtain ⟨g, hc, hstep, hm⟩ := convert_ok hs hr h.range h.moves (hg.grants h.live hap)
  rw [h.live] at hstep
  refine ⟨g, hc, h.toNew hstep ?_ (fun i hi => convertPixel_length hs hr (h.pixels.length hi)) hg.range⟩
  rw [hm, convertBytes, h.pixels.pixels, List.flatMap_map]

theorem palette_image {pal : Vector Rgba 256} {palLen out : Nat} (h : ImageAt e f bufs [⟨a, N * 1⟩] (.allocResp v :: ms) a N 1 px)
    (hout : out ≤ 4) (hg : Fresh f.regions v (N * out)) (hap : overlap a (N * 1) v.toNat (N * out) = false) :
    ∃ g, paletteExpand a N pal palLen out f = .ok v.toNat g ∧
      ImageAt e g (bufs ++ [(v.toNat, N * out)]) [⟨a, N * 1⟩, ⟨v.toNat, N * out⟩] ms v.toNat N out
        fun i => expandIndex pal palLen out ((px i).getD 0 0) := by
  have hl : ∀ v, (expandIndex pal palLen out v).length = out := fun v => by
    rw [expandIndex, Rgba.bytes, List.length_take]
    exact Nat.min_eq_left hout
  have hrange := h.range
  have hbytes := h.pixels.bytes
  rw [Nat.mul_one] at hrange
  let bs := (List.range N).flatMap fun i => expandIndex pal palLen out ((px i).getD 0 0)
  have hbs : bs.length = N * out := flatMap_range_length fun i _ => hl _
  let g : Eng := { f.granted v (N * out) ms with
    mem := f.mem.write v.toNat bs, written := noteWrite v.toNat bs.length false f.written, journal := journalBytes v.toNat bs [] }
  have hw : memWrite false v.toNat bs (f.granted v (N * out) ms) = .ok () g := memWrite_ok (by rw [hbs]; exact hg.range)
  refine ⟨g, ?_, h.toNew (px' := fun i => expandIndex pal palLen out ((px i).getD 0 0)) ⟨⟨rfl⟩, ?_, rfl, rfl⟩ rfl
    (fun i _ => hl _) hg.range⟩
  · rw [paletteExpand, EngM.bind_ok (portAlloc_granted h.moves (hg.grants h.live hap)), EngM.bind_ok (memRead_ok hrange),
      Eng.granted_mem, hbytes, List.flatMap_map]
    exact EngM.bind_ok hw
  · show f.live ++ _ = _
    rw [h.live]
    rfl

/-- The key decides the alpha of each pixel. -/
theorem key_image {key : List Byte} (h : ImageAt e f bufs live moves a N (n + 1) fun i => px i ++ [255])
    (hl : ∀ i, i < N → (px i).length = n) :
    ∃ g, keyApply false a N (n + 1) key f = .ok () g ∧
      ImageAt e g bufs live moves a N (n + 1) fun i => px i ++ [if px i = key.take n then 0 else 255] := by
  obtain ⟨g, hg, hs, halpha, hrest⟩ := keyApply_ok (toHost := false) (c := n + 1) (key := key) (Nat.succ_pos n) h.range
  simp only [Nat.add_sub_cancel] at halpha hrest
  have colours : ∀ i k, i < N → k < n → f.mem.get (a + i * (n + 1) + k) = (px i).getD k 0 := fun i k hi hk => by
    rw [h.pixels.get hi (by omega), List.getD_append _ _ _ _ (by rw [hl i hi]; exact hk)]
  refine ⟨g, hg, h.inPlace hs (fun x hx => hrest x fun i hi heq => ?_) (Memory.hasPixels_of_get (fun i hi => by simp [hl i hi])
    fun i k hi hk => ?_)⟩
  · have := pixel_within (n := n + 1) hi
    omega
  · rcases Nat.lt_succ_iff_lt_or_eq.1 hk with hk | rfl
    · rw [hrest _ fun j hj heq => ?_, colours i k hi hk, List.getD_append _ _ _ _ (by rw [hl i hi]; exact hk)]
      have := (pixel_offset_inj (c := n + 1) (by omega) (by omega) (i := i) (j := j) (k := k) (l := n) (by omega)).2
      omega
    · have hpx : f.mem.read (a + i * (k + 1)) k = px i := by
        have := Memory.read_eq (m := f.mem) (a := a + i * (k + 1)) (bs := px i) fun l hlt => colours i l hi (hl i hi ▸ hlt)
        rwa [hl i hi] at this
      rw [halpha i hi, hpx, List.getD_append_right _ _ _ _ (hl i hi).le, hl i hi, Nat.sub_self]
      rfl

/-- The byte `k` of a corrected pixel. -/
theorem corrected_getD {unpremul : Bool} {p : List Byte} {k : Nat} (hk : k < p.length) :
    (corrected unpremul p).getD k 0 =
      if k = 3 then p.getD 3 0
      else if unpremul = true ∧ p.length = 4 ∧ p.getD 3 0 ≠ 0 then unpremultiply (p.getD 3 0) (p.getD (2 - k) 0)
      else p.getD (2 - k) 0 := by
  have hpos : 0 < byteAt p 3 ↔ p.getD 3 0 ≠ 0 := by
    rw [Nat.pos_iff_ne_zero, byteAt, ne_eq, ne_eq, not_iff_not]
    exact ⟨fun h => BitVec.eq_of_toNat_eq h, fun h => by rw [h]; rfl⟩
  rw [corrected, List.getD_eq_getElem _ _ (by simpa using hk), List.getElem_map, List.getElem_range]
  simp only [hpos]
  split
  · rfl
  split
  · rfl
  · exact BitVec.ofNat_toNat .. |>.trans (BitVec.setWidth_eq _)

/-- Red and blue change places, and the colours are divided by alpha where that is asked for. -/
theorem cgbi_image {unpremul : Bool} (h : ImageAt e f bufs live moves a N n px) (hn : n = 3 ∨ n = 4) :
    ∃ g, cgbiFix false a N n unpremul f = .ok () g ∧
      ImageAt e g bufs live moves a N n fun i => corrected unpremul (px i) := by
  obtain ⟨g, hg, hs, hcolour, halpha, hrest⟩ := cgbiFix_ok (toHost := false) (unpremul := unpremul) (e := f) hn h.range
  have hlen : ∀ i, i < N → (px i).length = n := fun i hi => h.pixels.length hi
  refine ⟨g, hg, h.inPlace hs hrest (Memory.hasPixels_of_get (fun i hi => by simp [corrected, hlen i hi]) fun i k hi hk => ?_)⟩
  rw [corrected_getD (by rw [hlen i hi]; exact hk), hlen i hi]
  split
  · rename_i h3
    subst h3
    rw [halpha i hi (by omega), h.pixels.get hi hk]
  · rw [hcolour i k hi (by omega), h.pixels.get hi (k := 2 - k) (by omega)]
    rcases hn with rfl | rfl
    · rw [if_neg (by omega), if_neg (by omega)]
    · rw [h.pixels.get hi (by omega)]

/-- The rows change places. -/
theorem flip_image {wd ht : Nat} (h : ImageAt e f bufs live moves a (wd * ht) n px) :
    ∃ g, flip false a (wd * n) ht f = .ok () g ∧
      ImageAt e g bufs live moves a (wd * ht) n fun i => px ((ht - 1 - i / wd) * wd + i % wd) := by
  have hsize : wd * n * ht = wd * ht * n := by ring
  obtain ⟨g, hg, hs, hrows, hrest⟩ := flip_ok (toHost := false) (buf := a) (rowlen := wd * n) (rows := ht) (e := f)
    (by rw [hsize]; exact h.range)
  rw [hsize] at hrest
  have key : ∀ i, i < wd * ht → ht - 1 - i / wd < ht ∧ i / wd < ht ∧ i % wd < wd := fun i hi => by
    have hw : 0 < wd := Nat.pos_of_ne_zero fun h0 => by rw [h0, Nat.zero_mul] at hi; omega
    have hy := Nat.div_lt_of_lt_mul hi
    exact ⟨(Nat.sub_le _ _).trans_lt (Nat.sub_one_lt_of_lt hy), hy, Nat.mod_lt _ hw⟩
  have hlt : ∀ x y, x < wd → y < ht → y * wd + x < wd * ht := fun x y hx hy => by
    have := pixel_within (n := wd) hy
    rw [Nat.mul_comm ht] at this
    omega
  refine ⟨g, hg, h.inPlace hs hrest (Memory.hasPixels_of_get (fun i hi => ?_) fun i k hi hk => ?_)⟩
  · obtain ⟨hrow, -, hx⟩ := key i hi
    exact h.pixels.length (hlt _ _ hx hrow)
  · obtain ⟨hrow, hy, hx⟩ := key i hi
    have split : ∀ y, (y * wd + i % wd) * n + k = y * (wd * n) + (i % wd * n + k) := fun y => by ring
    have hk' : i % wd * n + k < wd * n := by
      have := pixel_within (n := n) hx
      omega
    have := hrows (i / wd) (i % wd * n + k) hy hk'
    rw [Nat.add_assoc, Nat.add_assoc, ← split, ← split, Nat.mul_comm (i / wd), Nat.div_add_mod, ← Nat.add_assoc,
      ← Nat.add_assoc] at this
    rw [this, h.pixels.get (hlt _ _ hx hrow) hk]

end

end Sys2Proof.Machine
end

section
/-! SUPPORT. Reconstruction of a raster pixel by pixel, of an image that is interlaced or not (44_scanline_filter_unit.md R287 to
R290). -/

namespace Sys2Proof.Machine

/-! ### Rows of a sub-image -/

theorem unfilterBytes_length (t fb : Nat) (xs ups left upLeft : List Byte) :
    (unfilterBytes t fb xs ups left upLeft).length = xs.length := by
  induction xs generalizing ups left upLeft with
  | nil => rfl
  | cons x xs ih => rw [unfilterBytes, List.length_cons, ih, List.length_cons]

/-- Reconstructed rows are whole where the filtered data is. -/
theorem defilter_rows {fb rb ph : Nat} {buf prior : List Byte} {rows : List (List Byte)} (h : defilter fb rb ph buf prior = .ok rows)
    (hl : ph * (rb + 1) ≤ buf.length) : rows.length = ph ∧ ∀ row ∈ rows, row.length = rb := by
  induction ph generalizing buf prior rows with
  | zero =>
    cases h
    exact ⟨rfl, fun row hr => by cases hr⟩
  | succ ph ih =>
    rw [Nat.succ_mul] at hl
    rw [defilter] at h
    dsimp only at h
    split at h
    · cases h
    split at h
    · cases h
    · rename_i rest hrest
      cases h
      obtain ⟨hn, hrows⟩ := ih hrest (by rw [List.length_drop]; omega)
      refine ⟨by rw [List.length_cons, hn], List.forall_mem_cons.2 ⟨?_, hrows⟩⟩
      rw [unfilterRow, unfilterBytes_length, List.length_take, List.length_drop]
      omega

theorem unpack_length {l : Layout} {row : List Byte} {pw : Nat} (h : row.length = l.rowbytes pw) :
    (unpack l row pw).length = pw * l.imgN := by
  rw [unpack]
  split
  · rename_i h8
    rw [List.length_take, h, Layout.rowbytes, h8]
    omega
  · simp

/-! ### Writes of pixels -/

/-- From `e` to `f` pixels of the image `px` are written, those of `S` among them, to the raster of `N` pixels of `n` bytes at `v`. -/
structure Draws (e f : Eng) (v n N : Nat) (px : Nat → List Byte) (S : Nat → Prop) : Prop where
  same : f = { e with mem := f.mem, written := f.written, journal := f.journal }
  outside : ∀ x, x < v ∨ v + N * n ≤ x → f.mem.get x = e.mem.get x
  shown : ∀ i, i < N → e.mem.read (v + i * n) n = px i ∨ S i → f.mem.read (v + i * n) n = px i

section
variable {e f g : Eng} {v n N : Nat} {px : Nat → List Byte} {S T : Nat → Prop}

theorem Draws.refl (e : Eng) (hS : ∀ i, ¬S i) : Draws e e v n N px S :=
  ⟨rfl, fun _ _ => rfl, fun i _ h => h.resolve_right (hS i)⟩

theorem Draws.trans (h : Draws e f v n N px S) (h' : Draws f g v n N px T) : Draws e g v n N px fun i => S i ∨ T i where
  same := by rw [h'.same, h.same]
  outside x hx := (h'.outside x hx).trans (h.outside x hx)
  shown i hi hs := h'.shown i hi (by
    rcases hs with hs | hs | hs
    · exact .inl (h.shown i hi (.inl hs))
    · exact .inl (h.shown i hi (.inr hs))
    · exact .inr hs)

theorem Draws.mono (h : Draws e f v n N px S) (hS : ∀ i, T i → S i) : Draws e f v n N px T :=
  ⟨h.same, h.outside, fun i hi hs => h.shown i hi (hs.imp id (hS i))⟩

/-- One pixel is written. -/
theorem draws_pixel {i : Nat} (hi : i < N) (hl : (px i).length = n) (hr : v + N * n ≤ Config.addrSpace) :
    ∃ f, memWrite false (v + i * n) (px i) e = .ok () f ∧ Draws e f v n N px (· = i) := by
  have hin := pixel_within (n := n) hi
  refine ⟨_, memWrite_ok (by omega), rfl, fun x hx => Memory.get_write_of_lt _ _ _ _ (by omega), fun j hj hs => ?_⟩
  show (e.mem.write (v + i * n) (px i)).read (v + j * n) n = px j
  rcases eq_or_ne j i with rfl | hne
  · exact Memory.read_write _ hl
  · rw [Memory.read_write_of_apart _ _ _ _ _ ?_]
    · exact hs.resolve_right hne
    · rcases Nat.lt_or_gt_of_ne hne with hlt | hlt
      · have := pixel_within (n := n) hlt
        omega
      · have := pixel_within (n := n) hlt
        omega

/-! ### An image that is not interlaced -/

/-- The rows of a raster give its pixels. -/
theorem hasPixels_of_rows {m : Memory} {w h : Nat} {rows : List (List Byte)} (hlen : rows.length = h)
    (hrow : ∀ row ∈ rows, row.length = w * n)
    (hpx : ∀ x y, x < w → y < h → px (y * w + x) = ((rows.getD y []).drop (x * n)).take n) :
    (m.write v rows.flatten).HasPixels v n (w * h) px := by
  subst hlen
  have hr := (Memory.read_flatten_iff (m.write v rows.flatten) v (w * n) hrow).1
    (by rw [← flatten_length hrow, Memory.read_write_self])
  intro i hi
  have hw : 0 < w := Nat.pos_of_ne_zero fun h0 => by rw [h0, Nat.zero_mul] at hi; omega
  have hy : i / w < rows.length := Nat.div_lt_of_lt_mul hi
  have hx : i % w < w := Nat.mod_lt _ hw
  have hin := pixel_within (n := n) hx
  have := hpx _ _ hx hy
  rw [Nat.mul_comm (i / w), Nat.div_add_mod] at this
  rw [this, List.getD_eq_getElem _ _ hy, ← hr _ hy, Memory.read_drop _ _ _ _ (by omega), Memory.read_take _ _ _ _ (by omega),
    Nat.add_assoc]
  congr 2
  calc i * n = (w * (i / w) + i % w) * n := by rw [Nat.div_add_mod]
    _ = i / w * (w * n) + i % w * n := by ring

/-! ### Adam7 (44_scanline_filter_unit.md R289) -/

/-- The raster index of the pixel `i` in the row `j` of the pass `p`. -/
def Adam7Pass.index (p : Adam7Pass) (w i j : Nat) : Nat := (p.yorig + j * p.yspc) * w + (p.xorig + i * p.xspc)

/-- A pass in a raster: its spacings are not 0. -/
def Adam7Pass.Spaced (p : Adam7Pass) : Prop := 0 < p.xspc ∧ 0 < p.yspc

theorem adam7_spaced : ∀ p ∈ adam7, p.Spaced := by
  simp [adam7, Adam7Pass.Spaced]

section
variable {l : Layout} {p : Adam7Pass} {w h y : Nat}

theorem Adam7Pass.width_lt (hp : p.Spaced) {i : Nat} (hi : i < p.width w) : p.xorig + i * p.xspc < w := by
  have := (Nat.le_div_iff_mul_le hp.1).1 (Nat.succ_le_of_lt hi)
  rw [Nat.succ_mul] at this
  have := hp.1
  omega

theorem Adam7Pass.height_lt (hp : p.Spaced) {j : Nat} (hj : j < p.height h) : p.yorig + j * p.yspc < h := by
  have := (Nat.le_div_iff_mul_le hp.2).1 (Nat.succ_le_of_lt hj)
  rw [Nat.succ_mul] at this
  have := hp.2
  omega

theorem raster_index_lt {x y : Nat} (hx : x < w) (hy : y < h) : y * w + x < w * h := by
  have := pixel_within (n := w) hy
  rw [Nat.mul_comm h] at this
  omega

theorem Adam7Pass.index_lt (hp : p.Spaced) {i j : Nat} (hi : i < p.width w) (hj : j < p.height h) : p.index w i j < w * h :=
  raster_index_lt (width_lt hp hi) (height_lt hp hj)

/-- The pixels of a row, from pixel `i` on, are written to their places. -/
theorem scatterRow_draws {j : Nat} (hr : v + N * l.imgN ≤ Config.addrSpace) (n i : Nat) {bs : List Byte}
    (hb : bs.length = n * l.imgN) (hin : ∀ k, i ≤ k → k < i + n → p.index w k j < N)
    (hpx : ∀ k, k < n → px (p.index w (i + k) j) = (bs.drop (k * l.imgN)).take l.imgN) :
    ∃ f, scatterRow l p v w (p.yorig + j * p.yspc) n i bs e = .ok () f ∧
      Draws e f v l.imgN N px fun q => ∃ k, i ≤ k ∧ k < i + n ∧ q = p.index w k j := by
  induction n generalizing e i bs with
  | zero => exact ⟨e, rfl, Draws.refl e fun q ⟨k, h1, h2, _⟩ => by omega⟩
  | succ n ih =>
    rw [Nat.succ_mul] at hb
    have h0 := hpx 0 (Nat.succ_pos n)
    rw [Nat.add_zero, Nat.zero_mul, List.drop_zero] at h0
    obtain ⟨f, hf, df⟩ := draws_pixel (e := e) (px := px) (hin i (Nat.le_refl i) (by omega))
      (by rw [h0, List.length_take]; omega) hr
    obtain ⟨g, hg, dg⟩ := ih (e := f) (i + 1) (bs := bs.drop l.imgN) (by rw [List.length_drop]; omega)
      (fun k h1 h2 => hin k (by omega) (by omega)) fun k hk => by
        rw [List.drop_drop, Nat.add_right_comm, Nat.add_comm l.imgN, ← Nat.succ_mul]
        exact hpx (k + 1) (by omega)
    refine ⟨g, ?_, (df.trans dg).mono fun q ⟨k, h1, h2, hq⟩ => ?_⟩
    · rw [scatterRow, ← h0]
      exact (EngM.bind_ok hf).trans hg
    · rcases Nat.eq_or_lt_of_le h1 with rfl | h1
      · exact .inl hq
      · exact .inr ⟨k, h1, by omega, hq⟩

/-- The rows of a pass, from row `j` on, are written to their places. -/
theorem scatterRows_draws (hp : p.Spaced) (hr : v + w * h * l.imgN ≤ Config.addrSpace) (j : Nat) {rows : List (List Byte)}
    (hj : j + rows.length ≤ p.height h) (hrow : ∀ row ∈ rows, (unpack l row (p.width w)).length = p.width w * l.imgN)
    (hpx : ∀ i k, i < p.width w → k < rows.length →
      px (p.index w i (j + k)) = ((unpack l (rows.getD k []) (p.width w)).drop (i * l.imgN)).take l.imgN) :
    ∃ f, scatterRows l p v w j rows e = .ok () f ∧
      Draws e f v l.imgN (w * h) px fun q => ∃ i k, i < p.width w ∧ j ≤ k ∧ k < j + rows.length ∧ q = p.index w i k := by
  induction rows generalizing e j with
  | nil => exact ⟨e, rfl, Draws.refl e fun q ⟨i, k, _, h1, h2, _⟩ => by rw [List.length_nil] at h2; omega⟩
  | cons row rows ih =>
    rw [List.length_cons] at hj
    obtain ⟨f, hf, df⟩ := scatterRow_draws (e := e) (px := px) (p := p) (w := w) (j := j) hr (p.width w) 0 (hrow row List.mem_cons_self)
      (fun k _ hk => p.index_lt hp (by omega) (by omega)) fun k hk => by
        rw [Nat.zero_add]
        exact hpx k 0 hk (Nat.succ_pos _)
    obtain ⟨g, hg, dg⟩ := ih (e := f) (j + 1) (by omega) (fun r hr => hrow r (List.mem_cons_of_mem _ hr)) fun i k hi hk => by
      have := hpx i (k + 1) hi (Nat.succ_lt_succ hk)
      rwa [← Nat.add_assoc, Nat.add_right_comm] at this
    refine ⟨g, ?_, (df.trans dg).mono fun q ⟨i, k, hi, h1, h2, hq⟩ => ?_⟩
    · rw [scatterRows, EngM.bind_ok hf, hg]
    · rcases Nat.eq_or_lt_of_le h1 with rfl | h1
      · exact .inl ⟨i, Nat.zero_le _, by omega, hq⟩
      · exact .inr ⟨i, k, hi, h1, by rw [List.length_cons] at h2; omega, hq⟩

/-- The filtered data `buf` of the pass `p` reconstructs to its pixels of the image `px`. -/
def PassShows (l : Layout) (w h : Nat) (px : Nat → List Byte) (p : Adam7Pass) (buf : List Byte) : Prop :=
  0 < p.width w → 0 < p.height h → ∃ rows, defilter l.stride (l.rowbytes (p.width w)) (p.height h) buf [] = .ok rows ∧
    ∀ i j, i < p.width w → j < p.height h →
      px (p.index w i j) = ((unpack l (rows.getD j []) (p.width w)).drop (i * l.imgN)).take l.imgN

/-- The pixel of the raster index `q` lies in the pass `p`. -/
def Adam7Pass.Holds (p : Adam7Pass) (w h q : Nat) : Prop := ∃ i j, i < p.width w ∧ j < p.height h ∧ q = p.index w i j

theorem reconPasses_draws (hr : v + w * h * l.imgN ≤ Config.addrSpace) (ps : List Adam7Pass) (hps : ∀ p ∈ ps, p.Spaced)
    {buf : List Byte} (hlen : (ps.map fun p => l.filteredSize (p.width w) (p.height h)).sum ≤ buf.length)
    (hpx : ∀ k (hk : k < ps.length), PassShows l w h px ps[k]
      (buf.drop ((ps.take k).map fun p => l.filteredSize (p.width w) (p.height h)).sum)) :
    ∃ f, reconPasses l v w h ps buf e = .ok () f ∧ Draws e f v l.imgN (w * h) px fun q => ∃ p ∈ ps, p.Holds w h q := by
  induction ps generalizing e buf with
  | nil => exact ⟨e, rfl, Draws.refl e fun q ⟨p, hp, _⟩ => by cases hp⟩
  | cons p ps ih =>
    rw [List.map_cons, List.sum_cons] at hlen
    have tail : ∀ k (hk : k < ps.length), PassShows l w h px ps[k]
        ((buf.drop (l.filteredSize (p.width w) (p.height h))).drop
          ((ps.take k).map fun p => l.filteredSize (p.width w) (p.height h)).sum) := fun k hk => by
      have := hpx (k + 1) (Nat.succ_lt_succ hk)
      rwa [List.take_succ_cons, List.map_cons, List.sum_cons, ← List.drop_drop] at this
    have rest : ∀ f, Draws e f v l.imgN (w * h) px (p.Holds w h) →
        ∃ g, reconPasses l v w h ps (buf.drop (l.filteredSize (p.width w) (p.height h))) f = .ok () g ∧
          Draws e g v l.imgN (w * h) px fun q => ∃ p' ∈ p :: ps, p'.Holds w h q := fun f df => by
      obtain ⟨g, hg, dg⟩ := ih (e := f) (fun p hp => hps p (List.mem_cons_of_mem _ hp)) (by rw [List.length_drop]; omega) tail
      refine ⟨g, hg, (df.trans dg).mono fun q ⟨p', hp', hq⟩ => ?_⟩
      rcases List.mem_cons.1 hp' with rfl | hp'
      · exact .inl hq
      · exact .inr ⟨p', hp', hq⟩
    rw [reconPasses]
    by_cases hne : 0 < p.width w ∧ 0 < p.height h
    · have head : PassShows l w h px p buf := hpx 0 (Nat.succ_pos _)
      obtain ⟨rows, hrows, hshow⟩ := head hne.1 hne.2
      rw [Layout.filteredSize, if_pos hne] at hlen
      obtain ⟨hn, hrow⟩ := defilter_rows hrows (by omega)
      obtain ⟨f, hf, df⟩ := scatterRows_draws (e := e) (px := px) (hps p List.mem_cons_self) hr 0 (rows := rows) (by omega)
        (fun row hr => unpack_length (hrow row hr)) fun i k hi hk => by
          rw [Nat.zero_add]
          exact hshow i k hi (hn ▸ hk)
      obtain ⟨g, hg, dg⟩ := rest f (df.mono fun q ⟨i, j, hi, hj, hq⟩ => ⟨i, j, hi, Nat.zero_le _, by omega, hq⟩)
      exact ⟨g, by rw [EngM.ite_run, if_pos hne, EngM.bind_ok (defilterOrRaise_ok hrows), EngM.bind_ok hf, hg], dg⟩
    · obtain ⟨g, hg, dg⟩ := rest e (Draws.refl e fun q ⟨i, j, hi, hj, _⟩ => hne ⟨by omega, by omega⟩)
      rw [Layout.filteredSize, if_neg hne, List.drop_zero] at hg
      exact ⟨g, by rw [EngM.ite_run, if_neg hne, hg], dg⟩

/-! ### Every pixel lies in a pass -/

/-- A pixel on the grid of a pass lies in the pass. -/
theorem Adam7Pass.holds_of_grid (hp : p.Spaced) {x y : Nat} (hx : x < w) (hy : y < h) (ox : p.xorig ≤ x) (oy : p.yorig ≤ y)
    (mx : p.xspc ∣ x - p.xorig) (my : p.yspc ∣ y - p.yorig) : p.Holds w h (y * w + x) := by
  obtain ⟨i, hi⟩ := mx
  obtain ⟨j, hj⟩ := my
  rw [Nat.mul_comm] at hi hj
  obtain ⟨sx, sy⟩ := hp
  refine ⟨i, j, ?_, ?_, ?_⟩
  · rw [Adam7Pass.width, Nat.lt_div_iff_mul_lt sx]
    omega
  · rw [Adam7Pass.height, Nat.lt_div_iff_mul_lt sy]
    omega
  · rw [Adam7Pass.index, ← hi, ← hj, Nat.add_sub_cancel' ox, Nat.add_sub_cancel' oy]

/-- The seven passes cover the raster. -/
theorem adam7_covers {x y : Nat} (hx : x < w) (hy : y < h) : ∃ p ∈ adam7, p.Holds w h (y * w + x) := by
  have grid : ∀ p ∈ adam7, (p.xorig ≤ x ∧ p.xspc ∣ x - p.xorig) ∧ (p.yorig ≤ y ∧ p.yspc ∣ y - p.yorig) →
      ∃ p ∈ adam7, p.Holds w h (y * w + x) := fun p hp ⟨⟨ox, mx⟩, oy, my⟩ =>
    ⟨p, hp, p.holds_of_grid (adam7_spaced p hp) hx hy ox oy mx my⟩
  by_cases y2 : y % 2 = 1
  · exact grid ⟨0, 1, 1, 2⟩ (by simp [adam7]) (by dsimp only; omega)
  by_cases x2 : x % 2 = 1
  · exact grid ⟨1, 0, 2, 2⟩ (by simp [adam7]) (by dsimp only; omega)
  by_cases y4 : y % 4 = 2
  · exact grid ⟨0, 2, 2, 4⟩ (by simp [adam7]) (by dsimp only; omega)
  by_cases x4 : x % 4 = 2
  · exact grid ⟨2, 0, 4, 4⟩ (by simp [adam7]) (by dsimp only; omega)
  by_cases y8 : y % 8 = 4
  · exact grid ⟨0, 4, 4, 8⟩ (by simp [adam7]) (by dsimp only; omega)
  by_cases x8 : x % 8 = 4
  · exact grid ⟨4, 0, 8, 8⟩ (by simp [adam7]) (by dsimp only; omega)
  · exact grid ⟨0, 0, 8, 8⟩ (by simp [adam7]) (by dsimp only; omega)

end

end

end Sys2Proof.Machine
end

section
/-! SUPPORT. The pipeline of PNG_DECODE for every image: inflation and reconstruction, and then the key, the CgBI correction, the palette,
the conversion and the flip (43_png_chunk_parser.md R257 to R266). -/

namespace Sys2Proof.Machine

section
variable {c : Snapshot} {e f g : Eng} {p : Png} {bufs : List (Nat × Nat)} {live : List Buf} {moves ms : List PortMove} {a cap N n q : Nat}
  {px : Nat → List Byte} {raw z : List Byte} {v u : Word}

/-! ### Inflation (43_png_chunk_parser.md R257, R258) -/

/-- After steps of a PNG_DECODE from `e` that wrote to no buffer but `bufs`, the inflate output is the buffer at `a`, and holds the
filtered data `raw`. -/
structure RawAt (e f : Eng) (bufs : List (Nat × Nat)) (moves : List PortMove) (a : Nat) (raw : List Byte) : Prop
    extends PngStep e f [⟨a, raw.length⟩] moves where
  outside : SameOutside e f bufs
  out : f.inf.out = a
  range : a + raw.length ≤ Config.addrSpace
  data : f.mem.read a raw.length = raw

/-- The accumulator's data is inflated into a new buffer, and the accumulator is freed. -/
theorem pngInflate_raw (h : PngRun e f bufs [⟨a, cap⟩] (.allocResp v :: .allocResp u :: ms)) (ok : SourceOk f.bs)
    (ha : p.idat = some a) (hlen : p.idatLen = z.length) (hz : z = (compress raw q).drop (if p.cgbi then 2 else 0))
    (hcap : z.length ≤ cap) (hpos : 0 < cap) (hrange : a + cap ≤ Config.addrSpace) (hdata : f.mem.read a z.length = z)
    (hraw : raw ≠ []) (hg : Fresh f.regions v raw.length) (hap : overlap a cap v.toNat raw.length = false) :
    ∃ g, pngInflate c p raw.length f = .ok () g ∧ RawAt e g (bufs ++ [(v.toNat, raw.length)]) ms v.toNat raw := by
  let f1 : Eng := { f.granted v raw.length (.allocResp u :: ms) with
    inf := { isOpen := true, out := v.toNat, len := 0, cap := raw.length, realloc := true }
    br := { valid := true, code := 0, nbits := 0, input := .mem a p.idatLen } }
  have start : Inflating f1 [] (bytesBits ((compress raw q).drop (if (!p.cgbi) then 0 else 2) ++ [])) := by
    refine ⟨⟨rfl, ⟨Nat.zero_le _, Nat.one_pos, fun _ b m h => ?_⟩, ok, fun h => by cases h⟩, ?_, hg.range, rfl, rfl, ?_⟩
    · cases h
      omega
    · exact overlap_part (by rw [overlap_comm]; exact hap) (Nat.le_refl _) (by omega)
    · have hz' : (compress raw q).drop (if (!p.cgbi) then 0 else 2) = z := by
        rw [hz]
        cases p.cgbi <;> rfl
      rw [hz', List.append_nil]
      show bytesBits (f.mem.read a p.idatLen) = _
      rw [hlen, hdata]
  obtain ⟨h0, h1, g, bits, hinf, eg, ig⟩ := inflate_compress (va := c.verifyAdler) (Nat.le_refl _) start
  have gout : g.inf.out = v.toNat := by rw [eg.inf]
  have gmoves : g.moves = .allocResp u :: ms := by rw [eg.same]; rfl
  have glive : g.live = [⟨a, cap⟩, ⟨v.toNat, raw.length⟩] := by
    rw [eg.same]
    show f.live ++ [_] = _
    rw [h.live, List.singleton_append]
  have gstep := g.freed_step a ms
  rw [glive, dropBuf_pair hpos (List.length_pos_iff.2 hraw) hap] at gstep
  refine ⟨g.freed a ms, ?_, ⟨⟨h.frame.trans (PngFrame.trans ⟨?_⟩ gstep.frame), gstep.live, gstep.moves, gstep.allocReq⟩,
    (h.outside.mono fun b hb => .inr (List.mem_append_left _ hb)).trans fun x hx => ?_, gout, hg.range, ?_⟩⟩
  · rw [pngInflate, ensure_bind (decide_eq_true hg.size), EngM.bind_ok (portAlloc_granted h.moves (hg.grants h.live hap)), modInf,
      modE_bind, modBr, modE_bind, ha, Option.getD_some, EngM.bind_ok (e' := g) hinf, getE_bind,
      ensure_bind (decide_eq_true ig.len), portFree_freed gmoves]
  · rw [eg.same]
    rfl
  · have := hx _ (List.mem_append_right _ List.mem_cons_self)
    exact eg.outside x (by simpa only [f1, Nat.add_zero, Nat.zero_add] using this)
  · have := ig.data
    rwa [gout] at this

/-! ### Reconstruction (43_png_chunk_parser.md R259; 44_scanline_filter_unit.md R290) -/

/-- The filtered data `raw` of an image of `w` by `h` pixels reconstructs to the pixels `px`. -/
def RawShows (l : Layout) (w h : Nat) (interlaced : Bool) (raw : List Byte) (px : Nat → List Byte) : Prop :=
  if interlaced then ∀ k (hk : k < adam7.length), PassShows l w h px adam7[k] (raw.drop (l.passOffset w h k))
  else ∃ rows, defilter l.stride (l.rowbytes w) h raw [] = .ok rows ∧
    ∀ x y, x < w → y < h → px (y * w + x) = ((unpack l (rows.getD y []) w).drop (x * l.imgN)).take l.imgN

/-- What `recon` does with the filtered data (44_scanline_filter_unit.md R290). -/
def rasterize (l : Layout) (out w h : Nat) (interlaced : Bool) (data : List Byte) : EngM Unit :=
  if interlaced then reconPasses l out w h adam7 data
  else do
    let rows ← defilterOrRaise l w h data
    writeRows l w out rows

theorem recon_eq (l : Layout) (buf len w h : Nat) (interlaced : Bool) :
    recon l buf len w h interlaced = (do
      let out ← portAlloc (w * h * l.imgN)
      let data ← memRead buf len
      rasterize l out w h interlaced data
      pure out) := by
  unfold recon rasterize
  cases interlaced <;> simp

section
variable {l : Layout} {w h : Nat}

theorem rasterize_rows (hpos : 0 < w ∧ 0 < h) (hlen : raw.length = l.rawLen w h false) (hr : a + w * h * l.imgN ≤ Config.addrSpace)
    (hshow : RawShows l w h false raw px) :
    ∃ g, rasterize l a w h false raw f = .ok () g ∧ g = { f with mem := g.mem, written := g.written, journal := g.journal } ∧
      (∀ x, x < a ∨ a + w * h * l.imgN ≤ x → g.mem.get x = f.mem.get x) ∧ g.mem.HasPixels a l.imgN (w * h) px := by
  obtain ⟨rows, hrows, hpx⟩ := hshow
  rw [Layout.rawLen, if_neg Bool.false_ne_true, Layout.filteredSize, if_pos hpos] at hlen
  obtain ⟨hn, hrow⟩ := defilter_rows hrows hlen.ge
  have hun : ∀ row ∈ rows, (unpack l row w).length = w * l.imgN := fun row hr => unpack_length (hrow row hr)
  have hsize : h * (w * l.imgN) = w * h * l.imgN := by ring
  obtain ⟨g, hg, hs, hm⟩ := writeRows_ok (e := f) (addr := a) hun (by rw [hn, hsize]; exact hr)
  rw [List.flatMap_def] at hm
  have hmap : ∀ row ∈ rows.map fun row => unpack l row w, row.length = w * l.imgN := List.forall_mem_map.2 hun
  refine ⟨g, ?_, hs, fun x hx => ?_, ?_⟩
  · rw [rasterize, if_neg Bool.false_ne_true, EngM.bind_ok (defilterOrRaise_ok hrows), hg]
  · rw [hm]
    refine Memory.get_write_of_lt _ _ _ _ ?_
    rw [flatten_length hmap, List.length_map, hn, Nat.mul_comm, hsize]
    exact hx
  · rw [hm]
    refine hasPixels_of_rows (by rw [List.length_map, hn]) hmap fun x y hx hy => ?_
    have hy : y < rows.length := hn ▸ hy
    rw [hpx x y hx (hn ▸ hy), List.getD_eq_getElem _ _ hy, List.getD_eq_getElem _ _ (by rw [List.length_map]; exact hy), List.getElem_map]

theorem rasterize_passes (hlen : raw.length = l.rawLen w h true) (hr : a + w * h * l.imgN ≤ Config.addrSpace)
    (hshow : RawShows l w h true raw px) :
    ∃ g, rasterize l a w h true raw f = .ok () g ∧ g = { f with mem := g.mem, written := g.written, journal := g.journal } ∧
      (∀ x, x < a ∨ a + w * h * l.imgN ≤ x → g.mem.get x = f.mem.get x) ∧ g.mem.HasPixels a l.imgN (w * h) px := by
  rw [Layout.rawLen, if_pos rfl] at hlen
  obtain ⟨g, hg, dg⟩ := reconPasses_draws (e := f) hr adam7 adam7_spaced hlen.ge hshow
  refine ⟨g, by rw [rasterize, if_pos rfl, hg], dg.same, dg.outside, fun i hi => dg.shown i hi (.inr ?_)⟩
  have hw : 0 < w := Nat.pos_of_ne_zero fun h0 => by rw [h0, Nat.zero_mul] at hi; omega
  have := adam7_covers (w := w) (h := h) (Nat.mod_lt i hw) (Nat.div_lt_of_lt_mul hi)
  rwa [Nat.mul_comm (i / w), Nat.div_add_mod] at this

end

/-- The filtered data is reconstructed into a new raster, and its buffer is freed. -/
theorem pngRecon_image (hr : RawAt e f bufs (.allocResp v :: .allocResp u :: ms) a raw)
    (hlen : raw.length = p.layout.rawLen p.w p.h (p.interlace == 1)) (hpos : 0 < p.w ∧ 0 < p.h) (hn : 0 < p.layout.imgN)
    (hg : Fresh f.regions v (p.w * p.h * p.layout.imgN)) (hap : overlap a raw.length v.toNat (p.w * p.h * p.layout.imgN) = false)
    (hshow : RawShows p.layout p.w p.h (p.interlace == 1) raw px) (hne : 0 < raw.length) :
    ∃ g, pngRecon p raw.length f = .ok v.toNat g ∧
      ImageAt e g (bufs ++ [(v.toNat, p.w * p.h * p.layout.imgN)]) [⟨v.toNat, p.w * p.h * p.layout.imgN⟩] ms v.toNat (p.w * p.h)
        p.layout.imgN px := by
  let f1 := f.granted v (p.w * p.h * p.layout.imgN) (.allocResp u :: ms)
  obtain ⟨g, hras, hs, hout, hpx⟩ : ∃ g, rasterize p.layout v.toNat p.w p.h (p.interlace == 1) raw f1 = .ok () g ∧
      g = { f1 with mem := g.mem, written := g.written, journal := g.journal } ∧
      (∀ x, x < v.toNat ∨ v.toNat + p.w * p.h * p.layout.imgN ≤ x → g.mem.get x = f1.mem.get x) ∧
      g.mem.HasPixels v.toNat p.layout.imgN (p.w * p.h) px := by
    cases hi : p.interlace == 1 with
    | true =>
      rw [hi] at hlen hshow
      exact rasterize_passes hlen hg.range hshow
    | false =>
      rw [hi] at hlen hshow
      exact rasterize_rows hpos hlen hg.range hshow
  have himg : ImageAt e g (bufs ++ [(v.toNat, p.w * p.h * p.layout.imgN)]) [⟨a, raw.length⟩, ⟨v.toNat, p.w * p.h * p.layout.imgN⟩]
      (.allocResp u :: ms) v.toNat (p.w * p.h) p.layout.imgN px := by
    refine ⟨⟨hr.frame.trans ⟨by rw [hs]; rfl⟩, ?_, by rw [hs]; rfl, by rw [hs]; rfl⟩,
      (hr.outside.mono fun b hb => .inr (List.mem_append_left _ hb)).trans fun x hx =>
        hout x (hx _ (List.mem_append_right _ List.mem_cons_self)), List.mem_append_right _ List.mem_cons_self, hg.range, hpx⟩
    rw [hs]
    show f.live ++ _ = _
    rw [hr.live]
    rfl
  obtain ⟨hfree, himg⟩ := himg.free hne (Nat.mul_pos (Nat.mul_pos hpos.1 hpos.2) hn) hap
  refine ⟨_, ?_, himg⟩
  have hrec : recon p.layout a raw.length p.w p.h (p.interlace == 1) f = .ok v.toNat g := by
    rw [recon_eq, EngM.bind_ok (portAlloc_granted hr.moves (hg.grants hr.live hap)), EngM.bind_ok (memRead_ok hr.range),
      Eng.granted_mem, hr.data, EngM.bind_ok hras]
    rfl
  rw [pngRecon, getE_bind, hr.out, EngM.bind_ok hrec, EngM.bind_ok hfree, EngM.pure_run]

end

end Sys2Proof.Machine
end

section
/-! SUPPORT. What the parser knows of an image after its chunks: its head, key and palette (43_png_chunk_parser.md R246 to R250). -/

namespace Sys2Proof.Machine

/-! ### The chroma key (43_png_chunk_parser.md R250) -/

theorem depthScale_eq {d : Nat} (hd : d = 1 ∨ d = 2 ∨ d = 4 ∨ d = 8) :
    depthScale d = if d = 1 then 255 else if d = 2 then 85 else if d = 4 then 17 else 1 := by
  rcases hd with rfl | rfl | rfl | rfl <;> rfl

theorem trnsKey_take (key : Vector Byte 3) (d : List Byte) {n depth : Nat} (hd : depth = 1 ∨ depth = 2 ∨ depth = 4 ∨ depth = 8)
    (hn : n ≤ 3) :
    (trnsKey key d n depth).toList.take n = keyOf depth n d := by
  refine List.ext_getElem (by simp [keyOf]; omega) fun i h1 h2 => ?_
  have hi : i < n := by simpa [keyOf] using h2
  have hlow : be16 d (2 * i) % 256 = byteAt d (2 * i + 1) := by
    have : byteAt d (2 * i + 1) < 256 := (d.getD (2 * i + 1) 0).isLt
    rw [be16]
    omega
  rw [List.getElem_take, Vector.getElem_toList]
  simp only [trnsKey, Vector.getElem_ofFn, if_pos hi, hlow, depthScale_eq hd, keyOf, List.getElem_map, List.getElem_range]

/-! ### The palette (43_png_chunk_parser.md R248, R250) -/

theorem plteEntries_getD (pal : Vector Rgba 256) (d : List Byte) {n i : Nat} (hi : i < n) (hb : i < 256) :
    (plteEntries pal d n).toList.getD i opaqueBlack = ⟨d.getD (3 * i) 0, d.getD (3 * i + 1) 0, d.getD (3 * i + 2) 0, 255⟩ := by
  rw [List.getD_eq_getElem _ _ (by simpa using hb), Vector.getElem_toList]
  simp only [plteEntries, Vector.getElem_ofFn, if_pos hi]

theorem trnsEntries_getD (pal : Vector Rgba 256) (d : List Byte) {i : Nat} (hb : i < 256) :
    (trnsEntries pal d d.length).toList.getD i opaqueBlack =
      { pal.toList.getD i opaqueBlack with a := d.getD i (pal.toList.getD i opaqueBlack).a } := by
  rw [List.getD_eq_getElem _ _ (by simpa using hb), List.getD_eq_getElem pal.toList _ (by simpa using hb), Vector.getElem_toList,
    Vector.getElem_toList]
  simp only [trnsEntries, Vector.getElem_ofFn]
  split
  · rename_i hlt
    rw [List.getD_eq_getElem _ _ hlt, List.getD_eq_getElem _ _ hlt]
    rfl
  · rename_i hge
    rw [List.getD_eq_default _ _ (Nat.le_of_not_lt hge)]
    rfl

/-! ### The parser's state after all chunks -/

/-- The parser has read the head `h`, perhaps the tRNS `trns`, and a CgBI chunk if `cgbi`. -/
structure Png.Parsed (p : Png) (h : PngHead) (trns : Option Chunk) (cgbi : Bool) : Prop where
  width : p.w = be32 h.ihdr.data 0
  height : p.h = be32 h.ihdr.data 4
  layout : p.layout = h.layout
  interlace : (p.interlace == 1) = decide (byteAt h.ihdr.data 12 = 1)
  ctype : p.ctype = h.ctype
  cgbi : p.cgbi = cgbi
  hasKey : p.hasKey = (decide (h.ctype ≠ 3) && trns.isSome)
  key : h.ctype ≠ 3 → ∀ c ∈ trns, p.key.toList.take h.imgN = keyOf (byteAt h.ihdr.data 8) h.imgN c.data
  palTrns : h.ctype = 3 → p.palTrns = trns.isSome
  colour : h.ctype = 3 → ∀ n (v : Byte), expandIndex p.pal p.palLen n v = h.colour trns n v.toNat

/-- The parser's state after the head and then a tRNS, or none. -/
def PngHead.decoded (h : PngHead) (trns : Option Chunk) (p : Png) : Png :=
  trns.elim (h.parsed p) fun c => (h.parsed p).withTrns c.data.length c.data

section
variable {h : PngHead} {trns : Option Chunk} {p : Png}

/-- A tRNS gives alphas or the key alone. -/
theorem PngHead.decoded_eq (h : PngHead) (trns : Option Chunk) (p : Png) :
    h.decoded trns p = { h.parsed p with
      pal := (h.decoded trns p).pal, palTrns := (h.decoded trns p).palTrns, key := (h.decoded trns p).key
      hasKey := (h.decoded trns p).hasKey } := by
  rw [PngHead.decoded]
  cases trns with
  | none => rfl
  | some c =>
    simp only [Option.elim_some, Png.withTrns]
    split <;> rfl

theorem PngHead.imgN_pos (h : PngHead) : 1 ≤ h.imgN ∧ h.imgN ≤ 4 := by
  rw [PngHead.imgN]
  split
  · decide
  split
  · decide
  split <;> decide

theorem PngHead.parsed_layout (hd : HeaderOk h.ihdr.data) : (h.parsed p).layout = h.layout := by
  rw [Png.layout, parsed_imgN hd, parsed_depth, parsed_ctype, PngHead.layout, beq_eq_decide]

/-- An entry of the palette that a PLTE gives. -/
theorem PngHead.parsed_entry (h3 : h.ctype = 3) {i : Nat} (hi : i < h.palLen) (hb : i < 256) :
    (h.parsed p).pal.toList.getD i opaqueBlack =
      let d := h.plte.elim [] fun c => c.data
      ⟨d.getD (3 * i) 0, d.getD (3 * i + 1) 0, d.getD (3 * i + 2) 0, 255⟩ := by
  rw [PngHead.palLen, if_pos h3] at hi
  rw [PngHead.parsed]
  cases hp : h.plte with
  | none =>
    rw [hp] at hi
    simp at hi
  | some c =>
    rw [hp] at hi
    have h3' : (p.withHeader h.ihdr.data).ctype = 3 := h3
    simp only [Option.elim_some, Png.withPalette, if_pos h3']
    exact plteEntries_getD _ _ hi hb

theorem PngHead.decoded_colour (h3 : h.ctype = 3) (hp : p.palLen = 0) (n : Nat) (v : Byte) :
    expandIndex (h.decoded trns p).pal (h.decoded trns p).palLen n v = h.colour trns n v.toNat := by
  have hpl : (h.decoded trns p).palLen = h.palLen := by
    rw [decoded_eq]
    exact h.parsed_palLen hp
  rw [expandIndex, hpl, PngHead.colour, Rgba.bytes]
  by_cases hv : v.toNat < h.palLen
  · have hentry := parsed_entry (p := p) h3 hv v.isLt
    rw [if_pos hv, if_pos hv]
    cases trns with
    | none =>
      rw [PngHead.decoded, Option.elim_none, hentry]
      rfl
    | some c =>
      have h3' : (h.parsed p).ctype = 3 := (h.parsed_ctype p).trans h3
      rw [PngHead.decoded, Option.elim_some, Png.withTrns, if_pos h3']
      dsimp only
      rw [trnsEntries_getD _ _ v.isLt, hentry]
      rfl
  · rw [if_neg hv, if_neg hv]
    rfl

/-- What the parser knows after the head and a tRNS. -/
theorem PngHead.decoded_parsed (hd : HeaderOk h.ihdr.data) (hp : p.palLen = 0 ∧ p.hasKey = false ∧ p.palTrns = false)
    (ht : ∀ c ∈ trns, h.ctype ≠ 3 → h.ctype = 0 ∨ h.ctype = 2) : (h.decoded trns p).Parsed h trns p.cgbi := by
  have hlayout := parsed_layout (p := p) hd
  refine ⟨?_, ?_, ?_, ?_, ?_, ?_, ?_, fun h3 c hc => ?_, fun h3 => ?_, fun h3 n v => decoded_colour h3 hp.1 n v⟩
  · rw [decoded_eq]; exact h.parsed_w p
  · rw [decoded_eq]; exact h.parsed_h p
  · rw [decoded_eq]; exact hlayout
  · rw [decoded_eq]
    show ((h.parsed p).interlace == 1) = _
    rw [parsed_interlace, beq_eq_decide]
  · rw [decoded_eq]; exact h.parsed_ctype p
  · rw [decoded_eq]; exact h.parsed_cgbi p
  · rw [PngHead.decoded]
    cases trns with
    | none => rw [Option.elim_none, parsed_hasKey, hp.2.1, Option.isSome_none, Bool.and_false]
    | some c =>
      rw [Option.elim_some, Png.withTrns, parsed_ctype]
      split
      · rename_i h3
        simp [h3, hp.2.1]
      · rename_i h3
        simp [h3]
  · obtain rfl : trns = some c := hc
    have h3' : (h.parsed p).ctype ≠ 3 := by rwa [parsed_ctype]
    have hn : h.imgN ≤ 3 := by
      rw [PngHead.imgN]
      rcases ht c rfl h3 with h0 | h0 <;> simp [h0]
    rw [PngHead.decoded, Option.elim_some, Png.withTrns, if_neg h3']
    dsimp only
    rw [parsed_imgN hd, parsed_depth, trnsKey_take _ _ hd.depth hn]
  · rw [PngHead.decoded]
    cases trns with
    | none => rw [Option.elim_none, parsed_palTrns, hp.2.2]; rfl
    | some c => rw [Option.elim_some, Png.withTrns, if_pos ((h.parsed_ctype p).trans h3)]; rfl

end

end Sys2Proof.Machine
end

section
/-! SUPPORT. The pipeline of PNG_DECODE from the reconstructed raster to the pixel buffer: the source's pixels, the requested channels,
and the flip (43_png_chunk_parser.md R260 to R266). -/

namespace Sys2Proof.Machine

section
variable {c : Snapshot} {e f g : Eng} {p : Png} {h : PngHead} {trns : Option Chunk} {cgbi unpremul : Bool} {bufs : List (Nat × Nat)}
  {live : List Buf} {moves ms : List PortMove} {a N n : Nat} {px px' : Nat → List Byte} {v u : Word}

theorem ImageAt.congr (him : ImageAt e f bufs live moves a N n px) (hpx : ∀ i, i < N → px i = px' i) :
    ImageAt e f bufs live moves a N n px' :=
  { him with pixels := fun i hi => (him.pixels i hi).trans (hpx i hi) }

/-! ### The source's pixels (43_png_chunk_parser.md R260 to R263) -/

/-- A pixel without alpha gets an opaque one. -/
theorem convertPixel_opaque {q : List Byte} (hn : n = 1 ∨ n = 3) (hq : q.length = n) : convertPixel n (n + 1) q = q ++ [255] := by
  rcases hn with rfl | rfl
  · obtain ⟨x, rfl⟩ := List.length_eq_one_iff.1 hq
    rfl
  · obtain ⟨x, y, z, rfl⟩ := List.length_eq_three.1 hq
    rfl

/-- The chroma key: the image gets an alpha channel in a new buffer (43_png_chunk_parser.md R260). -/
theorem pngKey_image (him : ImageAt e f bufs [⟨a, N * n⟩] (.allocResp v :: .allocResp u :: ms) a N n px) (hkey : p.hasKey = true)
    (hn : n = 1 ∨ n = 3) (hN : 0 < N) (hg : Fresh f.regions v (N * (n + 1))) (hap : overlap a (N * n) v.toNat (N * (n + 1)) = false) :
    ∃ g, pngKey p N a n f = .ok (v.toNat, n + 1) g ∧
      ImageAt e g (bufs ++ [(v.toNat, N * (n + 1))]) [⟨v.toNat, N * (n + 1)⟩] ms v.toNat N (n + 1)
        fun i => px i ++ [if px i = p.key.toList.take n then 0 else 255] := by
  have hlen : ∀ i, i < N → (px i).length = n := fun i hi => him.pixels.length hi
  obtain ⟨g1, h1, im1⟩ := convert_image him (by omega) (r := n + 1) (by omega) hg hap
  obtain ⟨g2, h2, im2⟩ := key_image (key := p.key.toList) (im1.congr fun i hi => convertPixel_opaque hn (hlen i hi)) hlen
  obtain ⟨h3, im3⟩ := im2.free (Nat.mul_pos hN (by omega)) (Nat.mul_pos hN (Nat.succ_pos n)) hap
  exact ⟨_, by rw [pngKey, if_pos hkey, EngM.bind_ok h1, EngM.bind_ok h2, EngM.bind_ok h3, EngM.pure_run], im3⟩

theorem pngKey_none (hkey : p.hasKey = false) : pngKey p N a n f = .ok (a, n) f := by
  rw [pngKey, hkey, if_neg Bool.false_ne_true, EngM.pure_run]

theorem EngM.ite_bind {α β : Type} (q : Prop) [Decidable q] (x y : EngM α) (k : α → EngM β) :
    (if q then x else y) >>= k = if q then x >>= k else y >>= k := by split <;> rfl

/-- The CgBI correction, where the file has a CgBI chunk (43_png_chunk_parser.md R261). -/
def pngCgbi (unpremul : Bool) (p : Png) (n img ch : Nat) : EngM Unit :=
  if p.cgbi ∧ 2 < ch then cgbiFix false img n ch unpremul else pure ()

theorem pngCgbi_image (him : ImageAt e f bufs live moves a N n px) (hn : n ≤ 4) :
    ∃ g, pngCgbi unpremul p N a n f = .ok () g ∧
      ImageAt e g bufs live moves a N n fun i => if p.cgbi = true ∧ 2 < (px i).length then corrected unpremul (px i) else px i := by
  have hlen : ∀ i, i < N → (px i).length = n := fun i hi => him.pixels.length hi
  rw [pngCgbi, EngM.ite_run]
  by_cases hc : p.cgbi = true ∧ 2 < n
  · obtain ⟨g, hg, im⟩ := cgbi_image (unpremul := unpremul) him (by omega)
    exact ⟨g, by rw [if_pos hc, hg], im.congr fun i hi => by rw [hlen i hi, if_pos hc]⟩
  · exact ⟨f, by rw [if_neg hc, EngM.pure_run], him.congr fun i hi => by rw [hlen i hi, if_neg hc]⟩

/-- The pipeline's steps up to the source's pixels. -/
def pngSource (c : Snapshot) (p : Png) (n img : Nat) : EngM (Nat × Nat) := do
  let (img, ch) ← pngKey p n img p.imgN
  pngCgbi c.unpremul p n img ch
  pngPalette p n img ch

/-- The flip of a loaded image, where it is asked for (43_png_chunk_parser.md R265). -/
def pngFlip (c : Snapshot) (img rowlen rows : Nat) : EngM Unit := if c.flipLoad then flip false img rowlen rows else pure ()

theorem pipeline_eq (c : Snapshot) (req : Nat) (p : Png) :
    pipeline c req p = (do
      pngInflate c p (p.layout.rawLen p.w p.h (p.interlace == 1))
      let img ← pngRecon p (p.layout.rawLen p.w p.h (p.interlace == 1))
      let (img, s) ← pngSource c p (p.w * p.h) img
      let (img, ch) ← pngConvert req (p.w * p.h) img s
      pngFlip c img (p.w * ch) p.h
      pure (img, s)) := by
  simp only [pipeline, pngSource, pngCgbi, pngFlip, bind_assoc, EngM.ite_bind, pure_bind]

theorem Png.Parsed.imgN (hp : p.Parsed h trns cgbi) : p.imgN = h.imgN := congrArg Layout.imgN hp.layout

theorem PngHead.imgN_indexed (h3 : h.ctype = 3) : h.imgN = 1 := by simp [PngHead.imgN, h3]

theorem PngHead.imgN_keyed (hk : h.ctype = 0 ∨ h.ctype = 2) : h.imgN = 1 ∨ h.imgN = 3 := by
  rcases hk with h0 | h0 <;> simp [PngHead.imgN, h0]

theorem PngHead.channels_range (h : PngHead) (ht : ∀ ch ∈ trns, h.ctype = 3 ∨ h.ctype = 0 ∨ h.ctype = 2) :
    1 ≤ h.channels trns ∧ h.channels trns ≤ 4 := by
  rw [PngHead.channels]
  by_cases h3 : h.ctype = 3
  · rw [if_pos h3]
    split <;> decide
  · rw [if_neg h3]
    cases trns with
    | none => exact h.imgN_pos
    | some ch =>
      have := PngHead.imgN_keyed ((ht ch rfl).resolve_left h3)
      rw [Option.isSome_some, if_pos rfl]
      omega

section
variable (hp : p.Parsed h trns cgbi) (hN : 0 < N)
include hp hN

/-- An indexed image: each index becomes its colour. -/
theorem pngSource_indexed (h3 : h.ctype = 3)
    (him : ImageAt e f bufs [⟨a, N * h.imgN⟩] (.allocResp v :: .allocResp u :: ms) a N h.imgN px)
    (hg : Fresh f.regions v (N * h.channels trns)) (hap : overlap a (N * h.imgN) v.toNat (N * h.channels trns) = false) :
    ∃ g, pngSource c p N a f = .ok (v.toNat, h.channels trns) g ∧
      ImageAt e g (bufs ++ [(v.toNat, N * h.channels trns)]) [⟨v.toNat, N * h.channels trns⟩] ms v.toNat N (h.channels trns)
        fun i => h.shown trns cgbi c.unpremul (px i) := by
  have h1 := PngHead.imgN_indexed h3
  have hch : h.channels trns = if p.palTrns then 4 else 3 := by rw [PngHead.channels, if_pos h3, hp.palTrns h3]
  have hkey : p.hasKey = false := by rw [hp.hasKey, decide_eq_false (not_not.2 h3), Bool.false_and]
  have hn := hp.imgN.trans h1
  rw [h1] at him hap
  have hch4 := h.channels_range (trns := trns) fun _ _ => .inl h3
  obtain ⟨g1, hg1, im1⟩ := palette_image (pal := p.pal) (palLen := p.palLen) him hch4.2 hg hap
  obtain ⟨hfree, im2⟩ := im1.free (by omega) (Nat.mul_pos hN hch4.1) hap
  refine ⟨_, ?_, im2.congr fun i hi => ?_⟩
  · rw [pngSource, EngM.bind_ok (pngKey_none hkey)]
    dsimp only
    rw [hn, pngCgbi, if_neg (by omega), pure_bind, pngPalette, if_pos (hp.ctype.trans h3), ← hch, EngM.bind_ok hg1,
      EngM.bind_ok hfree, EngM.pure_run]
  · rw [PngHead.shown, if_pos h3, hp.colour h3]
    rfl

/-- An image with a chroma key. -/
theorem pngSource_keyed {ch : Chunk} (ht : trns = some ch) (hk : h.ctype = 0 ∨ h.ctype = 2)
    (him : ImageAt e f bufs [⟨a, N * h.imgN⟩] (.allocResp v :: .allocResp u :: ms) a N h.imgN px)
    (hg : Fresh f.regions v (N * h.channels trns)) (hap : overlap a (N * h.imgN) v.toNat (N * h.channels trns) = false) :
    ∃ g, pngSource c p N a f = .ok (v.toNat, h.channels trns) g ∧
      ImageAt e g (bufs ++ [(v.toNat, N * h.channels trns)]) [⟨v.toNat, N * h.channels trns⟩] ms v.toNat N (h.channels trns)
        fun i => h.shown trns cgbi c.unpremul (px i) := by
  subst ht
  have h3 : h.ctype ≠ 3 := by omega
  have hn := PngHead.imgN_keyed hk
  have hch : h.channels (some ch) = h.imgN + 1 := by rw [PngHead.channels, if_neg h3]; rfl
  have hkey : p.hasKey = true := by rw [hp.hasKey, decide_eq_true h3]; rfl
  rw [hch] at hg hap ⊢
  obtain ⟨g1, hg1, im1⟩ := pngKey_image him hkey hn hN hg hap
  obtain ⟨g2, hg2, im2⟩ := pngCgbi_image (p := p) (unpremul := c.unpremul) im1 (by omega)
  refine ⟨g2, ?_, im2.congr fun i hi => ?_⟩
  · rw [pngSource, hp.imgN, EngM.bind_ok hg1]
    dsimp only
    rw [EngM.bind_ok hg2, pngPalette, if_neg (by rw [hp.ctype]; exact h3), EngM.pure_run]
  · rw [PngHead.shown, if_neg h3, hp.cgbi, hp.key h3 ch rfl]
    rfl

omit hN in
/-- An image without a palette and without a key. -/
theorem pngSource_plain (ht : trns = none) (h3 : h.ctype ≠ 3) (him : ImageAt e f bufs [⟨a, N * h.imgN⟩] ms a N h.imgN px) :
    ∃ g, pngSource c p N a f = .ok (a, h.channels trns) g ∧
      ImageAt e g bufs [⟨a, N * h.channels trns⟩] ms a N (h.channels trns) fun i => h.shown trns cgbi c.unpremul (px i) := by
  subst ht
  have hch : h.channels none = h.imgN := by rw [PngHead.channels, if_neg h3]; rfl
  have hkey : p.hasKey = false := by rw [hp.hasKey]; exact Bool.and_false _
  rw [hch]
  obtain ⟨g, hg, im⟩ := pngCgbi_image (p := p) (unpremul := c.unpremul) him h.imgN_pos.2
  refine ⟨g, ?_, im.congr fun i hi => ?_⟩
  · rw [pngSource, hp.imgN, EngM.bind_ok (pngKey_none hkey)]
    dsimp only
    rw [EngM.bind_ok hg, pngPalette, if_neg (by rw [hp.ctype]; exact h3), EngM.pure_run]
  · rw [PngHead.shown, if_neg h3, hp.cgbi, Option.elim_none, List.append_nil]

end

/-! ### A step that may move the image to a new buffer -/

/-- The allocator's answers to a step that takes a new buffer and frees the old one, or does not. -/
def moveAnswers (m : Option (Word × Word)) : List PortMove := m.elim [] fun x => [.allocResp x.1, .allocResp x.2]

/-- Where the image then lies. -/
def movedAt (a : Word) (m : Option (Word × Word)) : Word := m.elim a Prod.fst

/-- The buffer of `n` bytes that the step takes. -/
def movedBufs (m : Option (Word × Word)) (n : Nat) : List (Word × Nat) := m.elim [] fun x => [(x.1, n)]

/-- Addresses as numbers. -/
def bufRanges (bs : List (Word × Nat)) : List (Nat × Nat) := bs.map fun b => (b.1.toNat, b.2)

section
variable {w : Word} {m : Option (Word × Word)} {r s req : Nat}

/-- The steps up to the source's pixels, which take a new buffer for a palette or a key. -/
theorem pngSource_image (hp : p.Parsed h trns cgbi) (hN : 0 < N)
    (ht : ∀ ch ∈ trns, h.ctype = 3 ∨ h.ctype = 0 ∨ h.ctype = 2) (hm : m.isSome = true ↔ h.ctype = 3 ∨ trns.isSome = true)
    (him : ImageAt e f bufs [⟨w.toNat, N * h.imgN⟩] (moveAnswers m ++ ms) w.toNat N h.imgN px)
    (hg : ∀ x ∈ m, Fresh f.regions x.1 (N * h.channels trns) ∧ overlap w.toNat (N * h.imgN) x.1.toNat (N * h.channels trns) = false) :
    ∃ g, pngSource c p N w.toNat f = .ok ((movedAt w m).toNat, h.channels trns) g ∧
      ImageAt e g (bufs ++ bufRanges (movedBufs m (N * h.channels trns))) [⟨(movedAt w m).toNat, N * h.channels trns⟩] ms
        (movedAt w m).toNat N (h.channels trns) fun i => h.shown trns cgbi c.unpremul (px i) := by
  cases m with
  | none =>
    have hno : h.ctype ≠ 3 ∧ trns = none := by
      rw [Option.isSome_none, Bool.false_eq_true, false_iff, not_or, Bool.not_eq_true, Option.isSome_eq_false_iff,
        Option.isNone_iff_eq_none] at hm
      exact hm
    rw [show bufs ++ bufRanges (movedBufs none (N * h.channels trns)) = bufs from List.append_nil _]
    exact pngSource_plain hp hno.2 hno.1 him
  | some x =>
    obtain ⟨hfresh, hap⟩ := hg x rfl
    by_cases h3 : h.ctype = 3
    · exact pngSource_indexed hp hN h3 him hfresh hap
    · obtain ⟨ch, hch⟩ := Option.isSome_iff_exists.1 ((hm.1 rfl).resolve_left h3)
      exact pngSource_keyed hp hN hch ((ht ch hch).resolve_left h3) him hfresh hap

/-- The conversion to the requested channels (43_png_chunk_parser.md R264). -/
theorem pngConvert_image (hN : 0 < N) (hs : 1 ≤ s ∧ s ≤ 4) (hreq : req ≤ 4) (hr : r = if req = 0 then s else req)
    (hm : m.isSome = true ↔ r ≠ s) (him : ImageAt e f bufs [⟨w.toNat, N * s⟩] (moveAnswers m ++ ms) w.toNat N s px)
    (hg : ∀ x ∈ m, Fresh f.regions x.1 (N * r) ∧ overlap w.toNat (N * s) x.1.toNat (N * r) = false) :
    ∃ g, pngConvert req N w.toNat s f = .ok ((movedAt w m).toNat, r) g ∧
      ImageAt e g (bufs ++ bufRanges (movedBufs m (N * r))) [⟨(movedAt w m).toNat, N * r⟩] ms (movedAt w m).toNat N r
        fun i => convertPixel s r (px i) := by
  cases m with
  | none =>
    have hrs : r = s := not_not.1 fun h => by cases hm.2 h
    have hno : ¬(req ≠ 0 ∧ req ≠ s) := by split at hr <;> omega
    subst hrs
    rw [show bufs ++ bufRanges (movedBufs none (N * r)) = bufs from List.append_nil _]
    exact ⟨f, by rw [pngConvert, if_neg hno]; rfl, him.congr fun i _ => (convertPixel_self r (px i)).symm⟩
  | some x =>
    obtain ⟨hfresh, hap⟩ := hg x rfl
    have hrs := hm.1 rfl
    obtain ⟨hyes, rfl⟩ : (req ≠ 0 ∧ req ≠ s) ∧ r = req := by split at hr <;> omega
    obtain ⟨g, hg, im⟩ := convert_image him hs (r := r) (by omega) hfresh hap
    obtain ⟨hfree, im⟩ := im.free (Nat.mul_pos hN hs.1) (Nat.mul_pos hN (by omega)) hap
    exact ⟨_, by rw [pngConvert, if_pos hyes, EngM.bind_ok hg, EngM.bind_ok hfree]; rfl, im⟩

end

/-! ### The flip (43_png_chunk_parser.md R265) -/

/-- The raster index of a pixel before the flip. -/
def flipIndex (flipped : Bool) (wd ht i : Nat) : Nat := if flipped then (ht - 1 - i / wd) * wd + i % wd else i

theorem pngFlip_image {wd ht : Nat} (him : ImageAt e f bufs live moves a (wd * ht) n px) :
    ∃ g, pngFlip c a (wd * n) ht f = .ok () g ∧
      ImageAt e g bufs live moves a (wd * ht) n fun i => px (flipIndex c.flipLoad wd ht i) := by
  rw [pngFlip, EngM.ite_run]
  cases c.flipLoad with
  | true => exact flip_image him
  | false => exact ⟨f, rfl, him⟩

end

end Sys2Proof.Machine
end

section
/-! SUPPORT. The whole pipeline of PNG_DECODE, and the chunks of a whole file (43_png_chunk_parser.md R256 to R266). -/

namespace Sys2Proof.Machine

/-! ### The allocator's buffers -/

/-- The buffers that the allocator gives to a PNG_DECODE, in their order: each is one that it may give, and none overlaps the one before
it, which is not yet freed (20_memory.md R77; 43_png_chunk_parser.md R266). -/
structure State.GoodBuffers (s : State) (bs : List (Word × Nat)) : Prop where
  good : ∀ b ∈ bs, s.GoodBuffer b.1 b.2
  apart : bs.IsChain fun b c => overlap b.1.toNat b.2 c.1.toNat c.2 = false

/-- The relations in a chain of three entries and two that may be missing. -/
theorem chain_moved {R : Word × Nat → Word × Nat → Prop} {a b c : Word × Nat} {m1 m2 : Option (Word × Word)} {n1 n2 : Nat}
    (h : ([a, b, c] ++ movedBufs m1 n1 ++ movedBufs m2 n2).IsChain R) :
    R a b ∧ R b c ∧ (∀ x ∈ m1, R c (x.1, n1)) ∧ ∀ x ∈ m2, R (m1.elim c fun y => (y.1, n1)) (x.1, n2) := by
  cases m1 <;> cases m2 <;> simpa [movedBufs] using h

theorem mem_movedBufs {m : Option (Word × Word)} {x : Word × Word} (n : Nat) (h : x ∈ m) : (x.1, n) ∈ movedBufs m n := by
  obtain rfl : m = some x := h
  exact List.mem_cons_self

theorem bufRanges_append (xs ys : List (Word × Nat)) : bufRanges (xs ++ ys) = bufRanges xs ++ bufRanges ys := List.map_append

/-! ### Sizes -/

theorem filteredSize_pos {l : Layout} {w h : Nat} (hpos : 0 < w ∧ 0 < h) : 0 < l.filteredSize w h := by
  rw [Layout.filteredSize, if_pos hpos]
  exact Nat.mul_pos hpos.2 (Nat.succ_pos _)

theorem rawLen_pos {l : Layout} {w h : Nat} (hpos : 0 < w ∧ 0 < h) (interlaced : Bool) : 0 < l.rawLen w h interlaced := by
  rw [Layout.rawLen]
  split
  · have : 0 < l.filteredSize (Adam7Pass.width ⟨0, 0, 8, 8⟩ w) (Adam7Pass.height ⟨0, 0, 8, 8⟩ h) :=
      filteredSize_pos (by simp only [Adam7Pass.width, Adam7Pass.height]; omega)
    rw [adam7, List.map_cons, List.sum_cons]
    omega
  · exact filteredSize_pos hpos

/-- The buffers of an image with this header are not above the ceiling of the allocator. -/
theorem HeaderOk.size_le {d : List Byte} (hd : HeaderOk d) {n : Nat} (hn : n ≤ 4) : be32 d 0 * be32 d 4 * n ≤ 0x7fffffff :=
  (Nat.mul_le_mul_left _ hn).trans hd.area

theorem HeaderOk.pos {d : List Byte} (hd : HeaderOk d) : 0 < be32 d 0 ∧ 0 < be32 d 4 := ⟨hd.width.1, hd.height.1⟩

/-- Without palette and key the source has the channels of the file. -/
theorem PngHead.channels_same {h : PngHead} {trns : Option Chunk} (hno : h.ctype ≠ 3 ∧ trns = none) : h.channels trns = h.imgN := by
  rw [PngHead.channels, if_neg hno.1, hno.2]
  rfl

/-! ### The pipeline -/

section
variable {s : State} {c : Snapshot} {f g : Eng} {p : Png} {h : PngHead} {trns : Option Chunk} {cgbi : Bool} {ms : List PortMove}
  {cap q req out : Nat} {px : Nat → List Byte} {raw z : List Byte} {p1 p2 f1 p3 f2 : Word} {m1 m2 : Option (Word × Word)}

/-- The buffers of a PNG_DECODE of this image. -/
def PngHead.buffers (h : PngHead) (trns : Option Chunk) (p1 p2 p3 : Word) (cap rawLen out : Nat) (m1 m2 : Option (Word × Word)) :
    List (Word × Nat) :=
  [(p1, cap), (p2, rawLen), (p3, be32 h.ihdr.data 0 * be32 h.ihdr.data 4 * h.imgN)] ++
    movedBufs m1 (be32 h.ihdr.data 0 * be32 h.ihdr.data 4 * h.channels trns) ++
    movedBufs m2 (be32 h.ihdr.data 0 * be32 h.ihdr.data 4 * out)

theorem pipeline_image
    (run : PngRun (s.pngEntry ms) f [(p1.toNat, cap)] [⟨p1.toNat, cap⟩]
      (.allocResp p2 :: .allocResp f1 :: .allocResp p3 :: .allocResp f2 :: (moveAnswers m1 ++ (moveAnswers m2 ++ []))))
    (ok : SourceOk f.bs) (hp : p.Parsed h trns cgbi) (hd : HeaderOk h.ihdr.data)
    (ht : ∀ ch ∈ trns, h.ctype = 3 ∨ h.ctype = 0 ∨ h.ctype = 2) (hidat : p.idat = some p1.toNat)
    (acc : HoldsIdat f p [(p1.toNat, cap)] z)
    (hcap : p.idatCap = cap) (hpos : 0 < cap) (hz : z = (compress raw q).drop (if cgbi then 2 else 0))
    (hraw : raw.length = h.layout.rawLen (be32 h.ihdr.data 0) (be32 h.ihdr.data 4) (decide (byteAt h.ihdr.data 12 = 1)))
    (hmax : raw.length ≤ 0x7fffffff) (hreq : req ≤ 4) (hout : out = if req = 0 then h.channels trns else req)
    (hm1 : m1.isSome = true ↔ h.ctype = 3 ∨ trns.isSome = true) (hm2 : m2.isSome = true ↔ out ≠ h.channels trns)
    (hshow : RawShows h.layout (be32 h.ihdr.data 0) (be32 h.ihdr.data 4) (decide (byteAt h.ihdr.data 12 = 1)) raw px)
    (good : s.GoodBuffers (h.buffers trns p1 p2 p3 cap raw.length out m1 m2)) :
    ∃ g, pipeline c req p f = .ok ((movedAt (movedAt p3 m1) m2).toNat, h.channels trns) g ∧
      ImageAt (s.pngEntry ms) g (bufRanges (h.buffers trns p1 p2 p3 cap raw.length out m1 m2))
        [⟨(movedAt (movedAt p3 m1) m2).toNat, be32 h.ihdr.data 0 * be32 h.ihdr.data 4 * out⟩] []
        (movedAt (movedAt p3 m1) m2).toNat (be32 h.ihdr.data 0 * be32 h.ihdr.data 4) out
        fun i => convertPixel (h.channels trns) out
          (h.shown trns cgbi c.unpremul (px (flipIndex c.flipLoad (be32 h.ihdr.data 0) (be32 h.ihdr.data 4) i))) := by
  obtain ⟨good, chain⟩ := good
  obtain ⟨a12, a23, a3m, amm⟩ := chain_moved chain
  have hwh := hd.pos
  have hN : 0 < be32 h.ihdr.data 0 * be32 h.ihdr.data 4 := Nat.mul_pos hwh.1 hwh.2
  have hne : 0 < raw.length := by rw [hraw]; exact rawLen_pos hwh _
  have hn := h.imgN_pos
  have hsrc := h.channels_range ht
  have hout4 : out ≤ 4 := by split at hout <;> omega
  have hlast : (m1.elim (p3, be32 h.ihdr.data 0 * be32 h.ihdr.data 4 * h.imgN) fun y =>
      (y.1, be32 h.ihdr.data 0 * be32 h.ihdr.data 4 * h.channels trns)) =
      (movedAt p3 m1, be32 h.ihdr.data 0 * be32 h.ihdr.data 4 * h.channels trns) := by
    cases m1 with
    | none => rw [Option.elim_none, PngHead.channels_same (by simpa using hm1)]; rfl
    | some y => rfl
  -- inflation
  obtain ⟨fresh2, -⟩ := run.fresh (good (p2, raw.length) (by simp [PngHead.buffers])) hmax
  obtain ⟨g1, e1, r1⟩ := pngInflate_raw (c := c) run ok hidat acc.len (by rw [hz, hp.cgbi]) (by rw [← hcap]; exact acc.fits) hpos
    (by have := acc.range; rwa [hidat, hcap] at this) (by have := acc.data; rwa [hidat] at this) (List.length_pos_iff.1 hne) fresh2 a12
  -- reconstruction
  obtain ⟨fresh3, -⟩ := r1.fresh (good (p3, be32 h.ihdr.data 0 * be32 h.ihdr.data 4 * h.imgN) (by simp [PngHead.buffers]))
    (hd.size_le hn.2)
  obtain ⟨g2, e2, im2⟩ := pngRecon_image (p := p) (px := px) r1 (by rw [hp.width, hp.height, hp.layout, hp.interlace, hraw])
    (by rw [hp.width, hp.height]; exact hwh) (by rw [hp.layout]; exact hn.1)
    (by rw [hp.width, hp.height, hp.layout]; exact fresh3) (by rw [hp.width, hp.height, hp.layout]; exact a23)
    (by rw [hp.width, hp.height, hp.layout, hp.interlace]; exact hshow) hne
  rw [hp.width, hp.height, hp.layout] at im2
  -- the source's pixels
  obtain ⟨g3, e3, im3⟩ := pngSource_image (c := c) hp hN ht hm1 im2 fun x hx =>
    ⟨(im2.fresh (good (x.1, _) (by simp [PngHead.buffers, mem_movedBufs _ hx])) (hd.size_le hsrc.2)).1, a3m x hx⟩
  -- conversion and flip
  obtain ⟨g4, e4, im4⟩ := pngConvert_image hN hsrc hreq hout hm2 im3 fun x hx =>
    ⟨(im3.fresh (good (x.1, _) (by simp [PngHead.buffers, mem_movedBufs _ hx])) (hd.size_le hout4)).1, by
      have := amm x hx
      rwa [hlast] at this⟩
  obtain ⟨g5, e5, im5⟩ := pngFlip_image (c := c) im4
  refine ⟨g5, ?_, ?_⟩
  · rw [pipeline_eq, hp.width, hp.height, hp.layout, hp.interlace, ← hraw, EngM.bind_ok e1, EngM.bind_ok e2, EngM.bind_ok e3]
    exact (EngM.bind_ok e4).trans ((EngM.bind_ok e5).trans rfl)
  · rw [PngHead.buffers, bufRanges_append, bufRanges_append]
    exact im5

end

end Sys2Proof.Machine
end

section
/-! SUPPORT. PNG_DECODE of a whole file, from its acceptance to its completion, and the obligation it settles (43_png_chunk_parser.md
R240, R256 to R266). -/

namespace Sys2Proof.Machine

/-! ### The chunks of a whole file -/

/-- The chunks of a file with one image pass their checks, and their data fits the accumulator that the first IDAT takes. -/
structure SoundFile (verify : Bool) (h : PngHead) (cgbi trns : Option Chunk) (idat : Chunk) (idats : List Chunk) (iend : Chunk) :
    Prop where
  soundHead : h.Sound verify
  palette : h.ctype = 3 → h.palLen ≠ 0
  soundCgbi : ∀ c ∈ cgbi, c.Sound verify ∧ c.type = 0x43674249
  soundTrns : ∀ c ∈ trns, c.Sound verify ∧ c.type = 0x74524E53 ∧
    ((h.ctype = 3 ∧ c.data.length ≤ h.palLen) ∨ ((h.ctype = 0 ∨ h.ctype = 2) ∧ c.data.length = 2 * h.imgN))
  soundIdats : ∀ c ∈ idat :: idats, c.Sound verify ∧ c.type = 0x49444154
  data : idat.data ≠ []
  room : ((idat :: idats).flatMap fun c => c.data).length ≤ max 4096 idat.data.length
  soundIend : iend.Sound verify ∧ iend.type = 0x49454E44

section
variable {s : State} {c : Snapshot} {e f g : Eng} {p : Png} {h : PngHead} {cgbi trns : Option Chunk} {idat iend : Chunk}
  {idats : List Chunk} {bufs : List (Nat × Nat)} {live : List Buf} {moves ms ms' : List PortMove} {rest : List Byte} {v : Word}

theorem turns_cgbi_opt (hs : ∀ ch ∈ cgbi, ch.Sound c.verifyCrc ∧ ch.type = typeCgBI)
    (h : ParserAt e f Png.init bufs live moves (cgbi.toList.flatMap Chunk.bytes ++ rest)) :
    ∃ g, Turns c cgbi.toList.length f g ∧ ParserAt e g { Png.init with cgbi := cgbi.isSome } bufs live moves rest := by
  cases cgbi with
  | none => exact ⟨f, Turns.refl c f, h⟩
  | some ch =>
    rw [Option.toList_some, List.flatMap_singleton] at h
    exact turns_cgbi (hs ch rfl).1 (hs ch rfl).2 h

theorem turns_trns (hs : ∀ ch ∈ trns, ch.Sound c.verifyCrc ∧ ch.type = typeTRNS ∧ p.TrnsFits ch.data.length)
    (hfirst : p.first = false) (hseen : p.idatSeen = false) (h : ParserAt e f p bufs live moves (trns.toList.flatMap Chunk.bytes ++ rest)) :
    ∃ g, Turns c trns.toList.length f g ∧
      ParserAt e g (trns.elim p fun ch => p.withTrns ch.data.length ch.data) bufs live moves rest := by
  cases trns with
  | none => exact ⟨f, Turns.refl c f, h⟩
  | some ch =>
    obtain ⟨sound, ht, hfit⟩ := hs ch rfl
    rw [Option.toList_some, List.flatMap_singleton] at h
    refine turns_of_chunk sound (by rw [ht]; decide) (by rw [ht]; decide) h (fun h => by rw [hfirst] at h; cases h) fun hp => ?_
    rw [ht, chunk_trns]
    exact trns_accepted sound ht hseen hfit hp

/-- The parser's state at the IEND of a sound file, whose accumulator lies at `a`. -/
def PngHead.complete (h : PngHead) (cgbi trns : Option Chunk) (idat : Chunk) (idats : List Chunk) (a : Nat) : Png :=
  (h.decoded trns { Png.init with cgbi := cgbi.isSome }).accumulating (some a) ((idat :: idats).flatMap fun c => c.data).length
    (max 4096 idat.data.length)

/-- The chunks of a sound file up to its IEND. -/
theorem turns_file (hf : SoundFile c.verifyCrc h cgbi trns idat idats iend) (hb : s.GoodBuffer v (max 4096 idat.data.length))
    (hp : ParserAt (s.pngEntry ms') f Png.init [] [] (.allocResp v :: ms)
      ((cgbi.toList ++ h.chunks ++ trns.toList ++ (idat :: idats)).flatMap Chunk.bytes ++ rest)) :
    ∃ g, Turns c (cgbi.toList ++ h.chunks ++ trns.toList ++ (idat :: idats)).length f g ∧
      ParserAt (s.pngEntry ms') g (h.complete cgbi trns idat idats v.toNat) [(v.toNat, max 4096 idat.data.length)]
        [⟨v.toNat, max 4096 idat.data.length⟩] ms rest ∧
      HoldsIdat g (h.complete cgbi trns idat idats v.toNat) [(v.toNat, max 4096 idat.data.length)]
        ((idat :: idats).flatMap fun c => c.data) := by
  obtain ⟨head, palette, hcgbi, htrns, hidats, hdata, hroom, -⟩ := hf
  obtain ⟨hidat, hidats⟩ := List.forall_mem_cons.1 hidats
  simp only [List.flatMap_append, List.flatMap_cons, List.append_assoc] at hp
  let p0 : Png := { Png.init with cgbi := cgbi.isSome }
  obtain ⟨f1, t1, h1⟩ := turns_cgbi_opt hcgbi hp
  obtain ⟨f2, t2, h2⟩ := turns_head (p := p0) head rfl rfl h1
  have hpl : (h.parsed p0).palLen = h.palLen := h.parsed_palLen rfl
  have fits : ∀ ch ∈ trns, ch.Sound c.verifyCrc ∧ ch.type = typeTRNS ∧ (h.parsed p0).TrnsFits ch.data.length := fun ch hch => by
    obtain ⟨sound, ht, hfit⟩ := htrns ch hch
    refine ⟨sound, ht, ?_⟩
    rw [Png.TrnsFits, PngHead.parsed_ctype, hpl, PngHead.parsed_imgN head.header]
    exact hfit.imp (fun h => ⟨h.1, palette h.1, h.2⟩) id
  obtain ⟨f3, t3, h3⟩ := turns_trns fits (h.parsed_first p0) (h.parsed_idatSeen p0) h2
  have h3 : ParserAt _ f3 (h.decoded trns p0) _ _ _ _ := h3
  have first : (h.decoded trns p0).first = false := by rw [PngHead.decoded_eq]; exact h.parsed_first p0
  have pal : (h.decoded trns p0).ctype ≠ 3 ∨ (h.decoded trns p0).palLen ≠ 0 := by
    rw [PngHead.decoded_eq]
    exact PngHead.parsed_palette rfl palette
  have noData : (h.decoded trns p0).NoData := by
    rw [PngHead.decoded_eq]
    exact ⟨h.parsed_idat p0, h.parsed_idatLen p0, h.parsed_idatCap p0⟩
  obtain ⟨fresh, happ⟩ := h3.toPngRun.fresh hb (max_le (by decide) hidat.1.data)
  obtain ⟨f4, t4, h4, z4⟩ := turns_idat_first hidat.1 hidat.2 first pal hdata noData h3 fresh happ
  obtain ⟨g, t5, h5, z5⟩ := turns_idats idats hidats first pal (by rwa [List.flatMap_cons, List.length_append] at hroom) h4 z4
  refine ⟨g, ?_, h5, z5⟩
  have := (((t1.trans t2).trans t3).trans t4).trans t5
  simp only [List.length_append, List.length_cons]
  rwa [Nat.add_assoc _ 1, Nat.add_comm 1] at this

/-- The chunks of a sound file with its IEND. -/
theorem chunks_file (hf : SoundFile c.verifyCrc h cgbi trns idat idats iend) (hb : s.GoodBuffer v (max 4096 idat.data.length))
    {bytes : List Byte} (hbytes : bytes = (cgbi.toList ++ h.chunks ++ trns.toList ++ (idat :: idats) ++ [iend]).flatMap Chunk.bytes ++ rest)
    (hp : ParserAt (s.pngEntry ms') f Png.init [] [] (.allocResp v :: ms) bytes) :
    ∃ g, chunks c (bytes.length + 1) f = .ok () g ∧
      PngRun (s.pngEntry ms') g [(v.toNat, max 4096 idat.data.length)] [⟨v.toNat, max 4096 idat.data.length⟩] ms ∧ SourceOk g.bs ∧
      g.png = some (h.complete cgbi trns idat idats v.toNat) ∧
      HoldsIdat g (h.complete cgbi trns idat idats v.toNat) [(v.toNat, max 4096 idat.data.length)]
        ((idat :: idats).flatMap fun c => c.data) := by
  have hlen := length_le_flatMap_bytes (cgbi.toList ++ h.chunks ++ trns.toList ++ (idat :: idats))
  rw [List.flatMap_append, List.flatMap_singleton, List.append_assoc] at hbytes
  generalize hcs : cgbi.toList ++ h.chunks ++ trns.toList ++ (idat :: idats) = cs at *
  subst hbytes
  obtain ⟨g, hturns, hg, hz⟩ := turns_file hf hb (by rw [hcs]; exact hp)
  rw [hcs] at hturns
  obtain ⟨fuel, hfuel⟩ : ∃ fuel, (cs.flatMap Chunk.bytes ++ (iend.bytes ++ rest)).length + 1 = fuel + 1 + cs.length :=
    ⟨(cs.flatMap Chunk.bytes ++ (iend.bytes ++ rest)).length - cs.length, by rw [List.length_append]; omega⟩
  obtain ⟨hturn, hq⟩ := chunks_turn_chunk fuel hf.soundIend.1 hg
  have hne : ((idat :: idats).flatMap fun c => c.data).length ≠ 0 := by
    rw [List.flatMap_cons, List.length_append]
    have := List.length_pos_iff.2 hf.data
    omega
  have first : (h.complete cgbi trns idat idats v.toNat).first = false := by
    show (h.decoded trns _).first = false
    rw [PngHead.decoded_eq]
    exact h.parsed_first _
  obtain ⟨n, hiend, ok⟩ := iend_ok hf.soundIend.1 hf.soundIend.2 hq.png hne hq.source
  refine ⟨(g.advance 8).advance n, ?_, hq.toPngRun.reads rfl, ok, hg.png, hz.congr rfl ⟨rfl, rfl⟩ ⟨rfl, rfl, rfl⟩⟩
  rw [hfuel, hturns, hturn]
  have := chunkTurn_iend (c := c) hf.soundIend.1.data fuel hq.png first
  rw [hf.soundIend.2]
  exact this.trans hiend

end

/-! ### The image by its pixels -/

/-- The pixels of an image of width `w` by their raster index. -/
def rasterPixels (pixel : Nat → Nat → List Byte) (w i : Nat) : List Byte := pixel (i % w) (i / w)

section
variable {pixel : Nat → Nat → List Byte} {w ht x y : Nat}

theorem rasterPixels_index (hx : x < w) (y : Nat) : rasterPixels pixel w (y * w + x) = pixel x y := by
  rw [rasterPixels, Nat.mul_add_mod', Nat.mod_eq_of_lt hx, Nat.add_comm, Nat.add_mul_div_right _ _ (Nat.zero_lt_of_lt hx),
    Nat.div_eq_of_lt hx, Nat.zero_add]

theorem rasterPixels_flip (hx : x < w) (flipped : Bool) :
    rasterPixels pixel w (flipIndex flipped w ht (y * w + x)) = pixel x (if flipped then ht - 1 - y else y) := by
  cases flipped with
  | false => exact rasterPixels_index hx y
  | true =>
    rw [flipIndex, if_pos rfl, if_pos rfl, Nat.mul_add_mod', Nat.mod_eq_of_lt hx, Nat.add_comm (y * w),
      Nat.add_mul_div_right _ _ (Nat.zero_lt_of_lt hx), Nat.div_eq_of_lt hx, Nat.zero_add, rasterPixels_index hx]

/-- The filtered data of the obligation reconstructs to the pixels by their raster index. -/
theorem rawShows_rasterPixels {l : Layout} {interlaced : Prop} [Decidable interlaced] {raw : List Byte}
    (hrows : ¬interlaced → ∃ rows, defilter l.stride (l.rowbytes w) ht raw [] = .ok rows ∧
      ∀ x y, x < w → y < ht → pixel x y = ((unpack l (rows.getD y []) w).drop (x * l.imgN)).take l.imgN)
    (hpasses : interlaced → ∀ k (hk : k < adam7.length), 0 < adam7[k].width w → 0 < adam7[k].height ht →
      ∃ rows, defilter l.stride (l.rowbytes (adam7[k].width w)) (adam7[k].height ht) (raw.drop (l.passOffset w ht k)) [] = .ok rows ∧
        ∀ i j, i < adam7[k].width w → j < adam7[k].height ht →
          pixel (adam7[k].xorig + i * adam7[k].xspc) (adam7[k].yorig + j * adam7[k].yspc) =
            ((unpack l (rows.getD j []) (adam7[k].width w)).drop (i * l.imgN)).take l.imgN) :
    RawShows l w ht (decide interlaced) raw (rasterPixels pixel w) := by
  rw [RawShows]
  split
  · rename_i hi
    intro k hk hw hh
    obtain ⟨rows, hr, hpx⟩ := hpasses (of_decide_eq_true hi) k hk hw hh
    refine ⟨rows, hr, fun i j hi hj => ?_⟩
    rw [Adam7Pass.index, rasterPixels_index (Adam7Pass.width_lt (adam7_spaced _ (List.getElem_mem hk)) hi), hpx i j hi hj]
  · rename_i hi
    obtain ⟨rows, hr, hpx⟩ := hrows (of_decide_eq_false (Bool.eq_false_iff.2 hi))
    exact ⟨rows, hr, fun x y hx hy => by rw [rasterPixels_index hx, hpx x y hx hy]⟩

end

/-! ### The answers after the reconstruction -/

section
variable {more : List (Word × Word)} {A B : Prop} [Decidable A] [Decidable B] {n1 n2 : Nat}

/-- An answer for each of the two steps that may take a buffer. -/
theorem more_split (hl : more.length = ((if A then [n1] else []) ++ (if B then [] else [n2])).length) :
    ∃ m1 m2 : Option (Word × Word), more = m1.toList ++ m2.toList ∧ (m1.isSome = true ↔ A) ∧ (m2.isSome = true ↔ ¬B) := by
  by_cases ha : A <;> by_cases hb : B <;> simp only [ha, hb, if_true, if_false] at hl ⊢
  · obtain ⟨x, rfl⟩ := List.length_eq_one_iff.1 hl
    exact ⟨some x, none, rfl, by simp, by simp⟩
  · obtain ⟨x, y, rfl⟩ := List.length_eq_two.1 hl
    exact ⟨some x, some y, rfl, by simp, by simp⟩
  · obtain rfl := List.length_eq_zero_iff.1 hl
    exact ⟨none, none, rfl, by simp, by simp⟩
  · obtain ⟨x, rfl⟩ := List.length_eq_one_iff.1 hl
    exact ⟨none, some x, rfl, by simp, by simp⟩

variable {m1 m2 : Option (Word × Word)}

theorem flatMap_moveAnswers :
    ((m1.toList ++ m2.toList).flatMap fun x => [PortMove.allocResp x.1, PortMove.allocResp x.2]) = moveAnswers m1 ++ moveAnswers m2 := by
  cases m1 <;> cases m2 <;> rfl

theorem getLastD_moved (p : Word) : ((m1.toList ++ m2.toList).getLastD (p, 0)).1 = movedAt (movedAt p m1) m2 := by
  cases m1 <;> cases m2 <;> rfl

theorem zip_movedBufs (h1 : m1.isSome = true ↔ A) (h2 : m2.isSome = true ↔ ¬B) (N : Nat) :
    (((m1.toList ++ m2.toList).zip ((if A then [n1] else []) ++ (if B then [] else [n2]))).map fun x => (x.1.1, N * x.2)) =
      movedBufs m1 (N * n1) ++ movedBufs m2 (N * n2) := by
  cases m1 <;> cases m2 <;> simp_all [movedBufs]

end

/-! ### The command -/

/-- The engine after the image's buffer at `a` has passed to the host. -/
def Eng.handed (g : Eng) (a : Nat) : Eng := { g with live := dropBuf a g.live, regions := outputAt a g.live ++ g.regions }

/-- A PNG_DECODE whose pipeline gives an image completes. -/
theorem pngDecode_completes {s : State} {ms : List PortMove} {req N n wd ht src : Nat} {img : Word} {g : Eng}
    {bufs : List (Nat × Nat)} {px : Nat → List Byte} (ready : s.Ready ms) (hw : wd < 2 ^ 32) (hh : ht < 2 ^ 32) (hs : src < 2 ^ 32)
    (hbody : pngDecodeBody req s.running.snap (s.entry ms) = .ok ⟨img.toNat, wd, ht, src⟩ (g.handed img.toNat))
    (him : ImageAt (s.pngEntry ms) g bufs [⟨img.toNat, N * n⟩] [] img.toNat N n px) :
    ∃ t, exec (.pngDecode req) s = .next t ∧
      Completed s t img (BitVec.ofNat 32 wd) (BitVec.ofNat 32 ht) (BitVec.ofNat 32 src) ∧ t.eng.mem = g.mem ∧
      UnitsInvalid t.eng ∧ t.eng.bs = { s.start.bs with pos := t.eng.bs.pos } ∧ SameSrcPort s.start t.eng := by
  have hlive : (g.handed img.toNat).live = [] := by
    show dropBuf img.toNat g.live = []
    rw [him.live]
    simp [dropBuf]
  have hsrc : (g.handed img.toNat).srcReq = 0 := by
    show g.srcReq = 0
    rw [him.frame.same]
    exact ready.srcReq
  have hdone := State.complete_completed (s := s) (kind := .top) (r := ⟨img.toNat, wd, ht, src⟩) hsrc him.allocReq hlive
    img.isLt hw hh hs
  rw [BitVec.ofNat_toNat, BitVec.setWidth_eq] at hdone
  refine ⟨s.complete .top ⟨img.toNat, wd, ht, src⟩ (g.handed img.toNat),
    runCommand_ok ((ready.body_eq _).trans hbody) hlive him.moves, hdone, rfl, unitsInvalid_complete_top _ _ _, ?_, ?_⟩
  · show g.bs = { s.start.bs with pos := g.bs.pos }
    rw [him.frame.same]
    rfl
  · show g.srcReqLen = s.start.srcReqLen
    rw [him.frame.same]
    rfl

section
variable {s : State} {h : PngHead} {cgbi trns : Option Chunk} {idat iend : Chunk} {idats : List Chunk} {rest raw : List Byte}
  {q req out : Nat} {px : Nat → List Byte} {ms : List PortMove} {p1 p2 f1 p3 f2 : Word} {m1 m2 : Option (Word × Word)}

/-- PNG_DECODE of a sound file: the body gives the image. -/
theorem pngDecodeBody_image
    (ready : s.Ready ms) (hms : ms = [.allocResp p1, .allocResp p2, .allocResp f1, .allocResp p3, .allocResp f2] ++
      (moveAnswers m1 ++ (moveAnswers m2 ++ []))) (hmode : s.start.bs.mode = .mem) (hok : SourceOk s.start.bs) (hreq : req ≤ 4)
    (hahead : s.start.mem.read (s.start.bs.base + s.start.bs.pos) (s.start.bs.len - s.start.bs.pos) =
      pngSig ++ ((cgbi.toList ++ h.chunks ++ trns.toList ++ (idat :: idats) ++ [iend]).flatMap Chunk.bytes ++ rest))
    (hf : SoundFile s.running.snap.verifyCrc h cgbi trns idat idats iend)
    (hz : ((idat :: idats).flatMap fun c => c.data) = (compress raw q).drop (if cgbi.isSome then 2 else 0))
    (hraw : raw.length = h.layout.rawLen (be32 h.ihdr.data 0) (be32 h.ihdr.data 4) (decide (byteAt h.ihdr.data 12 = 1)))
    (hmax : raw.length ≤ 0x7fffffff) (hout : out = if req = 0 then h.channels trns else req)
    (hm1 : m1.isSome = true ↔ h.ctype = 3 ∨ trns.isSome = true) (hm2 : m2.isSome = true ↔ out ≠ h.channels trns)
    (hshow : RawShows h.layout (be32 h.ihdr.data 0) (be32 h.ihdr.data 4) (decide (byteAt h.ihdr.data 12 = 1)) raw px)
    (good : s.GoodBuffers (h.buffers trns p1 p2 p3 (max 4096 idat.data.length) raw.length out m1 m2)) :
    ∃ g, pngDecodeBody req s.running.snap (s.entry ms) =
        .ok ⟨(movedAt (movedAt p3 m1) m2).toNat, be32 h.ihdr.data 0, be32 h.ihdr.data 4, h.channels trns⟩
          (g.handed (movedAt (movedAt p3 m1) m2).toNat) ∧
      ImageAt (s.pngEntry ms) g (bufRanges (h.buffers trns p1 p2 p3 (max 4096 idat.data.length) raw.length out m1 m2))
        [⟨(movedAt (movedAt p3 m1) m2).toNat, be32 h.ihdr.data 0 * be32 h.ihdr.data 4 * out⟩] []
        (movedAt (movedAt p3 m1) m2).toNat (be32 h.ihdr.data 0 * be32 h.ihdr.data 4) out
        fun i => convertPixel (h.channels trns) out (h.shown trns cgbi.isSome s.running.snap.unpremul
          (px (flipIndex s.running.snap.flipLoad (be32 h.ihdr.data 0) (be32 h.ihdr.data 4) i))) := by
  subst hms
  obtain ⟨hbody, hs⟩ := pngDecodeBody_signed ready hmode hok hreq hahead
  obtain ⟨f, hchunks, run, ok, hpng, acc⟩ := chunks_file (c := s.running.snap) hf (good.good (p1, _) (by simp [PngHead.buffers])) rfl
    ⟨(State.pngEntry_run ready).reads rfl, rfl, hs⟩
  have kinds : ∀ ch ∈ trns, h.ctype = 3 ∨ h.ctype = 0 ∨ h.ctype = 2 := fun ch hch =>
    (hf.soundTrns ch hch).2.2.imp And.left And.left
  have parsed : (h.complete cgbi trns idat idats p1.toNat).Parsed h trns cgbi.isSome := by
    obtain ⟨h1, h2, h3, h4, h5, h6, h7, h8, h9, h10⟩ := PngHead.decoded_parsed (trns := trns)
      (p := { Png.init with cgbi := cgbi.isSome }) hf.soundHead.header ⟨rfl, rfl, rfl⟩ fun ch hch hne => (kinds ch hch).resolve_left hne
    exact ⟨h1, h2, h3, h4, h5, h6, h7, h8, h9, h10⟩
  obtain ⟨g, hpipe, him⟩ := pipeline_image (c := s.running.snap) run ok parsed hf.soundHead.header kinds rfl acc rfl (by omega) hz
    hraw hmax hreq hout hm1 hm2 hshow good
  refine ⟨g, ?_, him⟩
  rw [hbody, pngParse, EngM.bind_ok hchunks, EngM.bind_ok (getP_run hpng)]
  refine (EngM.bind_ok hpipe).trans ?_
  rw [parsed.width, parsed.height]
  rfl

end

/-- Settles O48: the parser finds the head, the key and the data of the file, and each step of the pipeline acts on the image pixel by
pixel. -/
theorem pngDecodeShowsTheImage : Obligations.PngDecodeShowsTheImage := by
  unfold Obligations.PngDecodeShowsTheImage
  intro s req h cgbi trns idat idats iend rest raw q pixel p1 p2 f1 p3 f2 more verify w ht interlaced l src out steps z bufs img ready
    hmore hreq hmode hok hahead hhead hpal hcgbi htrns hidats hdata hiend tiend hraw hmax hz hroom hrows hpasses hgood hapart
  obtain ⟨m1, m2, rfl, hm1, hm2⟩ := more_split (A := h.ctype = 3 ∨ trns.isSome = true) (B := out = src) (n1 := src) (n2 := out) hmore
  have hbufs : bufs = h.buffers trns p1 p2 p3 (max 4096 idat.data.length) raw.length out m1 m2 := by
    show _ ++ List.map _ _ = _
    rw [zip_movedBufs hm1 hm2, PngHead.buffers, List.append_assoc]
  have himg : img = movedAt (movedAt p3 m1) m2 := getLastD_moved p3
  have good : s.GoodBuffers bufs := ⟨hgood, List.isChain_iff_getElem.2 hapart⟩
  rw [hbufs] at good
  obtain ⟨g, hbody, him⟩ := pngDecodeBody_image ready (by rw [flatMap_moveAnswers, List.append_nil]) hmode hok hreq
    (by rw [hahead, List.append_assoc]; rfl) ⟨hhead, hpal, hcgbi, htrns, hidats, hdata, hroom, hiend, tiend⟩ hz hraw hmax rfl hm1 hm2
    (rawShows_rasterPixels hrows hpasses) good
  have hsrc : src < 2 ^ 32 :=
    (h.channels_range fun c hc => (htrns c hc).2.2.imp And.left And.left).2.trans_lt (by decide)
  obtain ⟨t, hexec, hdone, hmem, hunits, hbs, hport⟩ := pngDecode_completes ready
    (hhead.header.width.2.trans_lt (by decide)) (hhead.header.height.2.trans_lt (by decide)) hsrc hbody him
  rw [himg]
  refine ⟨t, hexec, hdone, fun x y hx hy => ?_, fun x hx => ?_, hunits, hbs, hport⟩
  · rw [hmem]
    exact (him.pixels _ (raster_index_lt hx hy)).trans
      (congrArg (fun p => convertPixel src out (h.shown trns cgbi.isSome s.running.snap.unpremul p)) (rasterPixels_flip hx _))
  · rw [hmem]
    refine him.outside x fun b hb => ?_
    obtain ⟨b', hb', rfl⟩ := List.mem_map.1 hb
    exact hx b' (hbufs ▸ hb')

end Sys2Proof.Machine
end

section
/-! SUPPORT. How a command that holds no unit state ends, told from the engine that its steps leave (60_exceptions.md R414, R420;
10_state.md R49). -/

namespace Sys2Proof.Machine

/-- A result that fits a register is its value (60_exceptions.md R420). -/
theorem regWord_of_lt {v : Nat} (draw k : Nat) (h : v < 2 ^ 32) : regWord draw k v = BitVec.ofNat 32 v := if_pos h

theorem State.complete_other_eng (s : State) (x : Results) (f : Eng) : (s.complete .other x f).eng = f.idle := rfl

theorem State.fail_other_eng (s : State) (code info : Nat) (f : Eng) :
    (s.fail .other code info f).eng = f.spoilHostRegions.idle := rfl

/-- A command that holds no unit state leaves all of it alone where its steps do. -/
theorem sameUnits_complete_other (s : State) (x : Results) {e f : Eng} (h : SameUnits e f) :
    SameUnits e (s.complete .other x f).eng :=
  ⟨⟨h.source.bs, h.source.srcEof⟩, h.br, ⟨h.slots.ht0, h.slots.ht1, h.slots.ht2⟩, h.inf⟩

theorem sameUnits_fail_other (s : State) (code info : Nat) {e f : Eng} (h : SameUnits e f) :
    SameUnits e (s.fail .other code info f).eng :=
  ⟨⟨h.source.bs, h.source.srcEof⟩, h.br, ⟨h.slots.ht0, h.slots.ht1, h.slots.ht2⟩, h.inf⟩

/-- Such a failure leaves memory alone where the command has written none. -/
theorem sameMem_fail_other (s : State) (code info : Nat) {f : Eng} (hw : f.written = []) :
    SameMem f (s.fail .other code info f).eng := by
  intro x
  rw [State.fail_other_eng, Eng.idle_mem, Eng.spoilHostRegions_mem, hw]
  rfl

section
variable {s : State} {answers : List PortMove} {i : Instr} {f g : Eng}

/-- A command whose steps give results completes with them; its first result may be too large for its register. -/
theorem State.Ready.completes_other {x : Results} (ready : s.Ready answers) (hk : kindOf i = .other)
    (h : bodyOf i s.running.snap (s.entry answers) = .ok x f) (rest : AtRest f) (hm : f.moves = [])
    (h1 : x.r1 < 2 ^ 32) (h2 : x.r2 < 2 ^ 32) (h3 : x.r3 < 2 ^ 32) :
    exec i s = .next (s.complete .other x f) ∧
      Completed s (s.complete .other x f) (regWord f.free 0 x.r0) (BitVec.ofNat 32 x.r1) (BitVec.ofNat 32 x.r2)
        (BitVec.ofNat 32 x.r3) := by
  constructor
  · rw [exec_eq_runCommand, hk]
    exact runCommand_ok ((ready.body_eq (bodyOf i)).trans h) rest.live hm
  · refine ⟨AtRest.idle (.complete s .other x rest) rfl, rfl, ?_, rfl, rfl, rfl, .complete s .other x f⟩
    rw [← regWord_of_lt f.free 1 h1, ← regWord_of_lt f.free 2 h2, ← regWord_of_lt f.free 3 h3]
    rfl

/-- A command whose steps raise an error fails with it, after the Frees that lead to `f`. -/
theorem State.Ready.fails_other {code info : Nat} (ready : s.Ready answers) (hk : kindOf i = .other)
    (h : bodyOf i s.running.snap (s.entry answers) = .error (.raise code info) g) (hu : unwinding g = .ok () f) (rest : AtRest f)
    (hinfo : info < 2 ^ 32) :
    exec i s = .next (s.fail .other code info f) ∧
      Failed s (s.fail .other code info f) (BitVec.ofNat 32 code) (BitVec.ofNat 32 info) := by
  constructor
  · have hfin : finishing (bodyOf i s.running.snap) { s.running.base with moves := s.running.log } = .error (.raise code info) g := by
      rw [finishing, EngM.bind_error ((ready.body_eq (bodyOf i)).trans h)]
    rw [exec_eq_runCommand, hk]
    simp only [runCommand, course, hfin, hu, State.halt]
  · have hf := Failed.fail s .other code (BitVec.ofNat 32 info) rest
    rwa [BitVec.toNat_ofNat, Nat.mod_eq_of_lt hinfo] at hf

end

/-- The failure sequence frees the one buffer in LIVE (60_exceptions.md R414 step 1). -/
theorem unwinding_one {e : Eng} {b : Buf} {v : Word} (hl : e.live = [b]) (hm : e.moves = [.allocResp v]) :
    unwinding e = .ok () (e.freed b.addr []) := by
  rw [unwinding, freeLive, bind_assoc, getE_bind, hl, freeAll, bind_assoc, EngM.bind_ok (portFree_freed hm)]
  exact settleMoves_empty (e := e.freed b.addr []) rfl

end Sys2Proof.Machine
end

section
/-! SUPPORT. The filters of a row, SF_FILTER_ROW, and the obligations on them (44_scanline_filter_unit.md R284, R285, R287, R291 to
R293, R296). -/

namespace Sys2Proof.Machine

/-! ### Filters and their tags (44_scanline_filter_unit.md R283 to R293) -/

/-- The tag that SF_FILTER_ROW writes is the one that reconstruction reads. -/
theorem byteAt_tag {t : Nat} (ht : t ≤ 4) (bs : List Byte) : byteAt (BitVec.ofNat 8 t :: bs) 0 = t :=
  (byte_toNat t).trans (Nat.mod_eq_of_lt (by omega))

/-- A filtered row is reconstructed under the same prior row (44_scanline_filter_unit.md R293). -/
theorem defilter_filterRow {t : Nat} (ht : t ≤ 4) (fb : Nat) (row prior : List Byte) :
    defilter fb row.length 1 (BitVec.ofNat 8 t :: filterRow t fb row prior) prior = .ok [row] := by
  have hdata : (filterRow t fb row prior).take row.length = filterRow t fb row prior :=
    List.take_of_length_le (filterRow_length t fb row prior).le
  have hrow : unfilterRow t fb (filterRow t fb row prior) prior = row := unfilterBytes_filterBytes t fb row prior [] []
  simp only [defilter, byteAt_tag ht, if_neg (Nat.not_lt.2 ht), List.drop_succ_cons, List.drop_zero, hdata, hrow]

/-- The tag that a reconstruction rejects is a byte above 4 (44_scanline_filter_unit.md R283). -/
theorem defilter_error {fb rb ph tag : Nat} {buf prior : List Byte} (h : defilter fb rb ph buf prior = .error tag) :
    4 < tag ∧ tag < 256 := by
  induction ph generalizing buf prior with
  | zero => cases h
  | succ ph ih =>
    rw [defilter] at h
    dsimp only at h
    split at h
    · rename_i hbad
      cases h
      exact ⟨hbad, BitVec.isLt _⟩
    · split at h
      · rename_i hrest
        cases h
        exact ih hrest
      · cases h

/-- `paeth` takes the neighbour nearest to a + b - c, the earliest on a tie (44_scanline_filter_unit.md R285). -/
theorem paeth_nearest (a b c : Byte) {d : Byte → Nat} (hd : ∀ x, d x = ((a.toNat : Int) + b.toNat - c.toNat - x.toNat).natAbs) :
    (paeth a b c = a ∧ d a ≤ d b ∧ d a ≤ d c) ∨ (paeth a b c = b ∧ d b < d a ∧ d b ≤ d c) ∨
      (paeth a b c = c ∧ (d c < d a ∨ d b < d a) ∧ d c < d b) := by
  have hp : paeth a b c = if d a ≤ d b ∧ d a ≤ d c then a else if d b ≤ d c then b else c := by simp only [hd]; rfl
  rw [hp]
  split
  · rename_i ha
    exact .inl ⟨rfl, ha⟩
  · split
    · exact .inr (.inl ⟨rfl, by omega, by assumption⟩)
    · exact .inr (.inr ⟨rfl, by omega, by omega⟩)

/-- Settles O47: each byte of the row is its filtered byte and the same prediction again, and `paeth` compares the three distances in
order. -/
theorem filtersInvertAndPaethPicksTheNearest : Obligations.FiltersInvertAndPaethPicksTheNearest :=
  ⟨fun _ fb row prior ht => defilter_filterRow ht fb row prior, fun a b c => paeth_nearest a b c fun _ => rfl⟩

/-! ### SF_FILTER_ROW (44_scanline_filter_unit.md R296) -/

/-- The prior row that SF_FILTER_ROW reads; before the first row there is none (44_scanline_filter_unit.md R286, R291). -/
def Eng.priorRow (e : Eng) (first : Bool) (a n : Nat) : List Byte := if first then [] else e.mem.read a n

/-- The check of the prior row's range. -/
def checkPrior (first : Bool) (a n : Nat) : EngM Unit := if first then pure () else checkIn a n

/-- The read of the prior row. -/
def readPrior (first : Bool) (a n : Nat) : EngM (List Byte) := if first then pure [] else memRead a n

theorem sfFilterRowBody_eq (t fb : Nat) (first : Bool) (c : Snapshot) :
    sfFilterRowBody t fb first c = (do
      ensure (decide (t ≤ 4)) 0x0602 t
      ensure (channelsOk fb) 0x0602 fb
      checkIn (c.arg 0) (c.arg 2)
      checkPrior first (c.arg 1) (c.arg 2)
      checkOut (c.arg 3) (c.arg 2 + 1)
      ensure (!overlap (c.arg 3) (c.arg 2 + 1) (c.arg 0) (c.arg 2) &&
        (first || !overlap (c.arg 3) (c.arg 2 + 1) (c.arg 1) (c.arg 2))) 0x0604 (c.arg 3)
      let row ← memRead (c.arg 0) (c.arg 2)
      let prior ← readPrior first (c.arg 1) (c.arg 2)
      memWrite true (c.arg 3) (byte t :: filterRow t fb row prior)
      pure ⟨filterCost (filterRow t fb row prior), 0, 0, 0⟩) := by
  cases first <;> rfl

section
variable {c : Snapshot} {e : Eng} {first : Bool}

theorem checkPrior_ok {a n : Nat} (hp : e.placed = []) (h : first = false → a + n ≤ 0x100000000) :
    ∃ rs, checkPrior first a n e = .ok () { e with regions := rs } := by
  cases first with
  | true => exact ⟨e.regions, rfl⟩
  | false => exact ⟨_, checkIn_ok hp (h rfl)⟩

theorem readPrior_ok {a n : Nat} (h : first = false → a + n ≤ 0x100000000) :
    readPrior first a n e = .ok (e.priorRow first a n) e := by
  cases first with
  | true => rfl
  | false => exact memRead_ok (h rfl)

/-- The operands of SF_FILTER_ROW are in range, and the destination is apart from what is read (44_scanline_filter_unit.md R296). -/
structure FilterRowOk (c : Snapshot) (t fb : Nat) (first : Bool) : Prop where
  tag : t ≤ 4
  stride : 1 ≤ fb ∧ fb ≤ 4
  row : c.arg 0 + c.arg 2 ≤ 0x100000000
  prior : first = false → c.arg 1 + c.arg 2 ≤ 0x100000000
  dest : c.arg 3 + (c.arg 2 + 1) ≤ 0x100000000
  apartRow : overlap (c.arg 3) (c.arg 2 + 1) (c.arg 0) (c.arg 2) = false
  apartPrior : first = false → overlap (c.arg 3) (c.arg 2 + 1) (c.arg 1) (c.arg 2) = false

theorem FilterRowOk.apart {t fb : Nat} (ok : FilterRowOk c t fb first) :
    (!overlap (c.arg 3) (c.arg 2 + 1) (c.arg 0) (c.arg 2) &&
      (first || !overlap (c.arg 3) (c.arg 2 + 1) (c.arg 1) (c.arg 2))) = true := by
  rw [ok.apartRow]
  cases first with
  | true => rfl
  | false => rw [ok.apartPrior rfl]; rfl

/-- One write puts the tag and the filtered row `f` at ARG3. -/
theorem FilterRowOk.body_ok {t fb : Nat} {f : List Byte} (ok : FilterRowOk c t fb first) (hp : e.placed = [])
    (hf : filterRow t fb (e.mem.read (c.arg 0) (c.arg 2)) (e.priorRow first (c.arg 1) (c.arg 2)) = f)
    (hlen : (byte t :: f).length = c.arg 2 + 1) :
    ∃ g, sfFilterRowBody t fb first c e = .ok ⟨filterCost f, 0, 0, 0⟩ g ∧ g.mem = e.mem.write (c.arg 3) (byte t :: f) ∧
      g = { e with mem := g.mem, regions := g.regions, written := g.written, journal := g.journal } := by
  obtain ⟨rs, hck⟩ := checkPrior_ok (e := { e with regions := ⟨c.arg 0, c.arg 2, true⟩ :: e.regions }) hp ok.prior
  let e2 : Eng := { e with regions := ⟨c.arg 3, c.arg 2 + 1, false⟩ :: rs }
  have hwrite := memWrite_ok (toHost := true) (e := e2) (a := c.arg 3) (bs := byte t :: f) (by rw [hlen]; exact ok.dest)
  refine ⟨{ e2 with
    mem := e.mem.write (c.arg 3) (byte t :: f)
    written := noteWrite (c.arg 3) (byte t :: f).length true e.written
    journal := journalBytes (c.arg 3) (byte t :: f) e.journal }, ?_, rfl, rfl⟩
  rw [sfFilterRowBody_eq, ensure_bind (decide_eq_true ok.tag), ensure_bind (ok := channelsOk fb) (decide_eq_true ok.stride),
    EngM.bind_ok (checkIn_ok hp ok.row), EngM.bind_ok hck, EngM.bind_ok (checkOut_ok (e := { e with regions := rs }) hp ok.dest),
    ensure_bind ok.apart, EngM.bind_ok (memRead_ok ok.row), EngM.bind_ok (readPrior_ok ok.prior)]
  subst hf
  exact EngM.bind_ok hwrite

end

/-- Settles O46: the checks pass, and one write puts the tag and the filtered row at the destination. -/
theorem sfFilterRowCompletes : Obligations.SfFilterRowCompletes := by
  unfold Obligations.SfFilterRowCompletes
  intro s t fb first n row prior f ready ht hfb hfb' hrow hprior hdest hap hap'
  have hlen : (byte t :: f).length = n + 1 := by rw [List.length_cons, filterRow_length, Memory.read_length]
  have ok : FilterRowOk s.running.snap t fb first := ⟨ht, ⟨hfb, hfb'⟩, hrow, hprior, hdest, hap, hap'⟩
  obtain ⟨g, hbody, hmem, hs⟩ := ok.body_ok (e := s.entry []) (f := f) ready.placed rfl hlen
  obtain ⟨hx, hc⟩ := ready.completes_other (i := .sfFilterRow t fb first) rfl hbody
    (by rw [hs]; exact ⟨ready.live, ready.srcReq, ready.allocReq⟩) (by rw [hs]) (Nat.two_pow_pos 32) (Nat.two_pow_pos 32)
    (Nat.two_pow_pos 32)
  refine ⟨_, _, hx, hc, regWord_of_lt _ _, ?_, sameMemOutside_of_write hmem hlen,
    sameUnits_complete_other s _ (by rw [hs]; exact ⟨⟨rfl, rfl⟩, rfl, ⟨rfl, rfl, rfl⟩, rfl⟩), ?_⟩
  · exact (congrArg (Memory.read · _ _) hmem).trans (Memory.read_write _ hlen)
  · rw [State.complete_other_eng, hs]
    exact ⟨rfl, rfl, rfl⟩

end Sys2Proof.Machine
end

section
/-! SUPPORT. The raster of SF_RECON: rows one after the other, or each pixel of each Adam7 pass at its place (44_scanline_filter_unit.md
R287 to R290). -/

namespace Sys2Proof.Machine

/-! ### The image of the passes (44_scanline_filter_unit.md R289) -/

/-- The Adam7 pass of the pixel (`x`, `y`), counted from 0. -/
def passAt (x y : Nat) : Nat :=
  if y % 2 = 1 then 6 else if x % 2 = 1 then 5 else if y % 4 = 2 then 4 else if x % 4 = 2 then 3
  else if y % 8 = 4 then 2 else if x % 8 = 4 then 1 else 0

theorem passAt_lt (x y : Nat) : passAt x y < adam7.length := by
  show passAt x y < 7
  unfold passAt
  split_ifs <;> omega

/-- A pixel lies in one pass only. -/
theorem passAt_grid {k : Nat} (hk : k < adam7.length) (i j : Nat) :
    passAt (adam7[k].xorig + i * adam7[k].xspc) (adam7[k].yorig + j * adam7[k].yspc) = k := by
  have hk' : k < 7 := hk
  interval_cases k
  all_goals
    simp only [adam7, List.getElem_cons_zero, List.getElem_cons_succ]
    unfold passAt
    split_ifs <;> omega

/-- The reconstructed rows of pass `k`; none where the pass has a bad tag. -/
def passRows (l : Layout) (w h : Nat) (data : List Byte) (k : Nat) (hk : k < adam7.length) : List (List Byte) :=
  (defilter l.stride (l.rowbytes (adam7[k].width w)) (adam7[k].height h) (data.drop (l.passOffset w h k)) []).toOption.getD []

/-- The pixel (`x`, `y`) of the raster as pass `k` gives it. -/
def passPixel (l : Layout) (w h : Nat) (data : List Byte) (k : Nat) (hk : k < adam7.length) (x y : Nat) : List Byte :=
  ((unpack l ((passRows l w h data k hk).getD ((y - adam7[k].yorig) / adam7[k].yspc) []) (adam7[k].width w)).drop
    ((x - adam7[k].xorig) / adam7[k].xspc * l.imgN)).take l.imgN

/-- The pixel (`x`, `y`) of an interlaced image. -/
def interlacedPixel (l : Layout) (w h : Nat) (data : List Byte) (x y : Nat) : List Byte :=
  passPixel l w h data (passAt x y) (passAt_lt x y) x y

section
variable {l : Layout} {w h : Nat} {data : List Byte} {rows : List (List Byte)}

theorem interlacedPixel_eq {k x y : Nat} (hk : k < adam7.length) (hp : passAt x y = k) :
    interlacedPixel l w h data x y = passPixel l w h data k hk x y := by
  subst hp
  rfl

/-- The pixel `i` in the row `j` of a pass, at its place. -/
theorem interlacedPixel_grid {k : Nat} (hk : k < adam7.length)
    (hrows : defilter l.stride (l.rowbytes (adam7[k].width w)) (adam7[k].height h) (data.drop (l.passOffset w h k)) [] = .ok rows)
    (i j : Nat) :
    interlacedPixel l w h data (adam7[k].xorig + i * adam7[k].xspc) (adam7[k].yorig + j * adam7[k].yspc) =
      ((unpack l (rows.getD j []) (adam7[k].width w)).drop (i * l.imgN)).take l.imgN := by
  obtain ⟨sx, sy⟩ := adam7_spaced _ (List.getElem_mem hk)
  rw [interlacedPixel_eq hk (passAt_grid hk i j), passPixel, passRows, hrows, Nat.add_sub_cancel_left, Nat.add_sub_cancel_left,
    Nat.mul_div_cancel _ sx, Nat.mul_div_cancel _ sy]
  rfl

/-- Byte `c` of pixel `i`, where the pixels lie one after the other. -/
theorem getD_pixel {bs : List Byte} {n c : Nat} (hc : c < n) (i : Nat) :
    ((bs.drop (i * n)).take n).getD c 0 = bs.getD (i * n + c) 0 := by
  rw [List.getD_eq_getElem?_getD, List.getElem?_take_of_lt hc, ← List.getD_eq_getElem?_getD, getD_drop]

/-! ### Writing the raster (44_scanline_filter_unit.md R290) -/

/-- The raster that lies in `m` from `a` upward is the reconstruction of `data`: its rows one after the other, or each pixel of each
pass at its place (44_scanline_filter_unit.md R289, R290). -/
def RasterOk (l : Layout) (w h : Nat) (interlaced : Bool) (data : List Byte) (m : Memory) (a : Nat) : Prop :=
  (interlaced = false → ∀ rows, defilter l.stride (l.rowbytes w) h data [] = .ok rows →
    m.read a (w * h * l.imgN) = rows.flatMap fun row => unpack l row w) ∧
  (interlaced = true → ∀ k (hk : k < adam7.length) rows,
    defilter l.stride (l.rowbytes (adam7[k].width w)) (adam7[k].height h) (data.drop (l.passOffset w h k)) [] = .ok rows →
    ∀ i j c, i < adam7[k].width w → j < adam7[k].height h → c < l.imgN →
      m.get (a + ((adam7[k].yorig + j * adam7[k].yspc) * w + (adam7[k].xorig + i * adam7[k].xspc)) * l.imgN + c) =
        (unpack l (rows.getD j []) (adam7[k].width w)).getD (i * l.imgN + c) 0)

variable {e : Eng} {a : Nat} (hr : a + w * h * l.imgN ≤ Config.addrSpace)
include hr

/-- The rows of an image that is not interlaced are written in one piece. -/
theorem rasterize_writes_rows (hpos : 0 < w ∧ 0 < h) (hlen : data.length = l.rawLen w h false)
    (hrows : defilter l.stride (l.rowbytes w) h data [] = .ok rows) :
    ∃ g, rasterize l a w h false data e = .ok () g ∧ g = { e with mem := g.mem, written := g.written, journal := g.journal } ∧
      SameMemOutside e g a (w * h * l.imgN) ∧ RasterOk l w h false data g.mem a := by
  rw [Layout.rawLen, if_neg Bool.false_ne_true, Layout.filteredSize, if_pos hpos] at hlen
  obtain ⟨hn, hrow⟩ := defilter_rows hrows hlen.ge
  have hun : ∀ row ∈ rows, (unpack l row w).length = w * l.imgN := fun row hr => unpack_length (hrow row hr)
  have hsize : h * (w * l.imgN) = w * h * l.imgN := by ring
  obtain ⟨g, hg, hs, hm⟩ := writeRows_ok (e := e) (addr := a) hun (by rw [hn, hsize]; exact hr)
  have hbytes : (rows.flatMap fun row => unpack l row w).length = w * h * l.imgN := by
    rw [List.flatMap_def, flatten_length (List.forall_mem_map.2 hun), List.length_map, hn, Nat.mul_comm, hsize]
  refine ⟨g, ?_, hs, sameMemOutside_of_write hm hbytes, fun _ rows' hrows' => ?_, fun hi => absurd hi Bool.false_ne_true⟩
  · rw [rasterize, if_neg Bool.false_ne_true, EngM.bind_ok (defilterOrRaise_ok hrows), hg]
  · obtain rfl : rows = rows' := Except.ok.inj (hrows.symm.trans hrows')
    rw [hm, Memory.read_write _ hbytes]

/-- The passes of an interlaced image are written pixel by pixel. -/
theorem rasterize_writes_passes (hlen : data.length = l.rawLen w h true)
    (hrows : ∀ k (hk : k < adam7.length), 0 < adam7[k].width w → 0 < adam7[k].height h → ∃ rows,
      defilter l.stride (l.rowbytes (adam7[k].width w)) (adam7[k].height h) (data.drop (l.passOffset w h k)) [] = .ok rows) :
    ∃ g, rasterize l a w h true data e = .ok () g ∧ g = { e with mem := g.mem, written := g.written, journal := g.journal } ∧
      SameMemOutside e g a (w * h * l.imgN) ∧ RasterOk l w h true data g.mem a := by
  have hshow : RawShows l w h true data (rasterPixels (interlacedPixel l w h data) w) :=
    rawShows_rasterPixels (interlaced := True) (fun hi => absurd trivial hi) fun _ k hk hw hh => by
      obtain ⟨rows, hd⟩ := hrows k hk hw hh
      exact ⟨rows, hd, fun i j _ _ => interlacedPixel_grid hk hd i j⟩
  obtain ⟨g, hg, hs, hout, hpx⟩ := rasterize_passes (f := e) hlen hr hshow
  refine ⟨g, hg, hs, hout, fun hi => absurd hi.symm Bool.false_ne_true, fun _ k hk rows hd i j c hi hj hc => ?_⟩
  have hp := adam7_spaced _ (List.getElem_mem hk)
  have hx := Adam7Pass.width_lt hp hi
  rw [hpx.get (raster_index_lt hx (Adam7Pass.height_lt hp hj)) hc, rasterPixels_index hx, interlacedPixel_grid hk hd, getD_pixel hc]

end

end Sys2Proof.Machine
end

section
/-! SUPPORT. SF_RECON, and the obligation on it (44_scanline_filter_unit.md R287 to R290, R295; 60_exceptions.md R414). -/

namespace Sys2Proof.Machine

/-- The operands of SF_RECON are in range, and `p` is a buffer for the raster that keeps the allocator's duty (44_scanline_filter_unit.md
R295; 20_memory.md R77). -/
structure ReconOk (c : Snapshot) (l : Layout) (interlaced : Bool) (p : Word) : Prop where
  channels : 1 ≤ l.imgN ∧ l.imgN ≤ 4
  depth : l.depth = 1 ∨ l.depth = 2 ∨ l.depth = 4 ∨ l.depth = 8
  indexed : l.indexed = true → l.imgN = 1
  pos : c.arg 2 ≠ 0 ∧ c.arg 3 ≠ 0
  size : c.arg 2 * c.arg 3 * l.imgN ≤ 0x7fffffff
  rawLen : l.rawLen (c.arg 2) (c.arg 3) interlaced ≤ 0x7fffffff
  source : c.arg 0 + c.arg 1 ≤ 0x100000000
  len : c.arg 1 = l.rawLen (c.arg 2) (c.arg 3) interlaced
  nonzero : p ≠ 0
  range : p.toNat + c.arg 2 * c.arg 3 * l.imgN ≤ 0x100000000
  apart : overlap (c.arg 0) (c.arg 1) p.toNat (c.arg 2 * c.arg 3 * l.imgN) = false

/-- The engine on which SF_RECON writes the raster at `p`: the source is declared, the raster is in LIVE, and the answers `ms` are to
come. -/
def Eng.reconEntry (e : Eng) (c : Snapshot) (l : Layout) (p : Word) (ms : List PortMove) : Eng :=
  { e with regions := ⟨c.arg 0, c.arg 1, true⟩ :: e.regions }.granted p (c.arg 2 * c.arg 3 * l.imgN) ms

section
variable {c : Snapshot} {l : Layout} {interlaced : Bool} {p : Word} {ms : List PortMove} {e : Eng}

/-- SF_RECON writes the raster after its checks and a granted Alloc, and passes it to the host. -/
theorem ReconOk.body_eq (ok : ReconOk c l interlaced p) (hp : e.placed = []) (hreg : e.regions = []) (hl : e.live = [])
    (hm : e.moves = .allocResp p :: ms) :
    sfReconBody l.imgN l.depth l.indexed interlaced c e =
      (do
        rasterize l p.toNat (c.arg 2) (c.arg 3) interlaced (e.mem.read (c.arg 0) (c.arg 1))
        handOver p.toNat
        pure (Results.mk p.toNat (c.arg 2 * c.arg 3 * l.imgN) 0 0)) (e.reconEntry c l p ms) := by
  have hgrant : Grants { e with regions := ⟨c.arg 0, c.arg 1, true⟩ :: e.regions } p (c.arg 2 * c.arg 3 * l.imgN) :=
    { nonzero := ok.nonzero, size := ok.size, range := ok.range, regions := by simp [hreg, ok.apart], live := by simp [hl] }
  have halloc := portAlloc_granted (e := { e with regions := ⟨c.arg 0, c.arg 1, true⟩ :: e.regions }) hm hgrant
  have hdepth : depthOk l.depth = true := by
    rcases ok.depth with h | h | h | h <;> rw [h] <;> rfl
  have hindexed : (!l.indexed || l.imgN == 1) = true := by
    cases hi : l.indexed with
    | false => rfl
    | true => rw [ok.indexed hi]; rfl
  rw [sfReconBody, ensure_bind (ok := channelsOk l.imgN) (decide_eq_true ok.channels), ensure_bind hdepth, ensure_bind hindexed,
    ensure_bind (decide_eq_true ok.pos), ensure_bind (decide_eq_true ⟨ok.size, ok.rawLen⟩), EngM.bind_ok (checkIn_ok hp ok.source),
    ensure_bind (decide_eq_true ok.len), recon_eq, bind_assoc, EngM.bind_ok halloc, bind_assoc,
    EngM.bind_ok (memRead_ok ok.source), bind_assoc]
  rfl

/-- A bad filter tag is met before the first write, and the failure sequence frees the raster (60_exceptions.md R414). -/
theorem ReconOk.body_fails {f : Word} {tag : Nat} (ok : ReconOk c l false p) (hp : e.placed = []) (hreg : e.regions = [])
    (hl : e.live = []) (hm : e.moves = [.allocResp p, .allocResp f])
    (hd : defilter l.stride (l.rowbytes (c.arg 2)) (c.arg 3) (e.mem.read (c.arg 0) (c.arg 1)) [] = .error tag) :
    ∃ g g', sfReconBody l.imgN l.depth l.indexed false c e = .error (.raise 0x0306 tag) g ∧ unwinding g = .ok () g' ∧
      g' = { e with
        live := [], allocReq := 0, allocSize := 0, allocPtr := p, moves := [], regions := g'.regions, journal := g'.journal } := by
  let g := e.reconEntry c l p [.allocResp f]
  have hlive : g.live = [⟨p.toNat, c.arg 2 * c.arg 3 * l.imgN⟩] := by
    show e.live ++ _ = _
    rw [hl]
    rfl
  have hras : rasterize l p.toNat (c.arg 2) (c.arg 3) false (e.mem.read (c.arg 0) (c.arg 1)) g = .error (.raise 0x0306 tag) g := by
    rw [rasterize, if_neg Bool.false_ne_true]
    exact EngM.bind_error (by rw [defilterOrRaise, hd]; rfl)
  have hfreed : dropBuf p.toNat g.live = [] := by simp [hlive, dropBuf]
  refine ⟨g, g.freed p.toNat [], (ok.body_eq hp hreg hl hm).trans (EngM.bind_error hras), unwinding_one hlive rfl, ?_⟩
  rw [Eng.freed, hfreed, BitVec.ofNat_toNat, BitVec.setWidth_eq]
  rfl

end

section
variable {s : State} {l : Layout} {interlaced : Bool} {p : Word}

/-- SF_RECON whose raster is written completes. -/
theorem sfRecon_completes {g : Eng} (ready : s.Ready [.allocResp p]) (ok : ReconOk s.running.snap l interlaced p)
    (hras : rasterize l p.toNat (s.arg 2) (s.arg 3) interlaced (s.start.mem.read (s.arg 0) (s.arg 1))
      ((s.entry [.allocResp p]).reconEntry s.running.snap l p []) = .ok () g)
    (hg : g = { (s.entry [.allocResp p]).reconEntry s.running.snap l p [] with
      mem := g.mem, written := g.written, journal := g.journal })
    (hout : SameMemOutside s.start g p.toNat (s.arg 2 * s.arg 3 * l.imgN))
    (hraster : RasterOk l (s.arg 2) (s.arg 3) interlaced (s.start.mem.read (s.arg 0) (s.arg 1)) g.mem p.toNat) :
    ∃ t, exec (.sfRecon l.imgN l.depth l.indexed interlaced) s = .next t ∧
      Completed s t p (BitVec.ofNat 32 (s.arg 2 * s.arg 3 * l.imgN)) 0 0 ∧ SameUnits s.start t.eng ∧
      SameMemOutside s.start t.eng p.toNat (s.arg 2 * s.arg 3 * l.imgN) ∧
      t.eng.allocSize = BitVec.ofNat 32 (s.arg 2 * s.arg 3 * l.imgN) ∧ t.eng.allocPtr = 0 ∧ SameSrcPort s.start t.eng ∧
      RasterOk l (s.arg 2) (s.arg 3) interlaced (s.start.mem.read (s.arg 0) (s.arg 1)) t.eng.mem p.toNat := by
  have hlive : g.live = [⟨p.toNat, s.arg 2 * s.arg 3 * l.imgN⟩] := by
    rw [hg]
    show s.start.live ++ _ = _
    rw [ready.live]
    rfl
  have hbody := (ok.body_eq (e := s.entry [.allocResp p]) ready.placed ready.regions ready.live rfl).trans
    ((EngM.bind_ok hras).trans (EngM.bind_ok (handOver_run p.toNat g)))
  obtain ⟨hx, hc⟩ := ready.completes_other (i := .sfRecon l.imgN l.depth l.indexed interlaced) rfl hbody
    ⟨by simp [hlive, dropBuf], by rw [hg]; exact ready.srcReq, by rw [hg]; rfl⟩ (by rw [hg]; rfl)
    (Nat.lt_of_le_of_lt ok.size (by decide)) (Nat.two_pow_pos 32) (Nat.two_pow_pos 32)
  rw [regWord_of_lt _ _ p.isLt, BitVec.ofNat_toNat, BitVec.setWidth_eq] at hc
  refine ⟨_, hx, hc, sameUnits_complete_other s _ ?_, hout, ?_, ?_, ?_, hraster⟩
  · rw [hg]
    exact ⟨⟨rfl, rfl⟩, rfl, ⟨rfl, rfl, rfl⟩, rfl⟩
  all_goals
    rw [State.complete_other_eng, hg]
    rfl

/-- SF_RECON that meets a bad filter tag before it writes the raster fails, and the raster is freed (60_exceptions.md R414). -/
theorem sfRecon_fails {f : Word} {tag : Nat} (ready : s.Ready [.allocResp p, .allocResp f])
    (ok : ReconOk s.running.snap l false p) (htag : tag < 256)
    (hd : defilter l.stride (l.rowbytes (s.arg 2)) (s.arg 3) (s.start.mem.read (s.arg 0) (s.arg 1)) [] = .error tag) :
    ∃ t, exec (.sfRecon l.imgN l.depth l.indexed false) s = .next t ∧ Failed s t 0x0306 (BitVec.ofNat 32 tag) ∧
      SameUnits s.start t.eng ∧ SameMem s.start t.eng ∧ t.eng.allocSize = 0 ∧ t.eng.allocPtr = p := by
  obtain ⟨g, g', hbody, hu, hg⟩ := ok.body_fails (e := s.entry [.allocResp p, .allocResp f]) ready.placed ready.regions ready.live
    rfl hd
  obtain ⟨hx, hf⟩ := ready.fails_other (i := .sfRecon l.imgN l.depth l.indexed false) rfl hbody hu
    (by rw [hg]; exact ⟨rfl, ready.srcReq, rfl⟩) (by omega)
  have hmem := sameMem_fail_other s 0x0306 tag (f := g') (by rw [hg]; exact ready.written)
  refine ⟨_, hx, hf, sameUnits_fail_other s _ _ ?_, fun x => ?_, ?_, ?_⟩
  · rw [hg]
    exact ⟨⟨rfl, rfl⟩, rfl, ⟨rfl, rfl, rfl⟩, rfl⟩
  · rw [hmem x, hg]
  all_goals
    rw [State.fail_other_eng, hg]
    rfl

end

/-- Settles O45: the raster is written as its rows, or pass by pass, into the granted buffer; a bad tag is met before the first
write. -/
theorem sfReconCompletes : Obligations.SfReconCompletes := by
  unfold Obligations.SfReconCompletes
  constructor
  · intro s imgN depth indexed interlaced p l w h size data dataOf ready hn hn' hdepth hindexed hw hh hsize hraw hsrc hlen hp hrange
      hap hrows hpasses
    have ok : ReconOk s.running.snap l interlaced p :=
      ⟨⟨hn, hn'⟩, hdepth, hindexed, ⟨hw, hh⟩, hsize, hraw, hsrc, hlen, hp, hrange, hap⟩
    have hdata : data.length = l.rawLen w h interlaced := (Memory.read_length _ _ _).trans hlen
    obtain ⟨g, hras, hg, hout, hraster⟩ : ∃ g, rasterize l p.toNat w h interlaced data
          ((s.entry [.allocResp p]).reconEntry s.running.snap l p []) = .ok () g ∧
        g = { (s.entry [.allocResp p]).reconEntry s.running.snap l p [] with
          mem := g.mem, written := g.written, journal := g.journal } ∧
        SameMemOutside s.start g p.toNat size ∧ RasterOk l w h interlaced data g.mem p.toNat := by
      cases interlaced with
      | false =>
        obtain ⟨rows, hd⟩ := hrows rfl
        exact rasterize_writes_rows hrange ⟨Nat.pos_of_ne_zero hw, Nat.pos_of_ne_zero hh⟩ hdata hd
      | true => exact rasterize_writes_passes hrange hdata (hpasses rfl)
    obtain ⟨t, hx, hc, hunits, hmem, hsz, hptr, hport, hrst⟩ := sfRecon_completes ready ok hras hg hout hraster
    exact ⟨t, hx, hc, hunits, hmem, hsz, hptr, hport, hrst.1, hrst.2⟩
  · intro s imgN p f tag l w h ready hn hn' hw hh hsize hraw hsrc hlen hp hrange hap hd
    obtain ⟨hbad, hbyte⟩ := defilter_error hd
    exact ⟨hbad, hbyte, sfRecon_fails (l := l) ready
      ⟨⟨hn, hn'⟩, .inr (.inr (.inr rfl)), nofun, ⟨hw, hh⟩, hsize, hraw, hsrc, hlen, hp, hrange, hap⟩ hbyte hd⟩

end Sys2Proof.Machine
end

section
/-! SUPPORT. How a command of the format converter ends: one that fills a new buffer and passes it to the host, and one that works in
place (45_format_converter.md R325 to R329; 60_exceptions.md R420). -/

namespace Sys2Proof.Machine

/-! ### A new buffer (45_format_converter.md R313, R314) -/

/-- A new buffer of `n` bytes, filled with what `f` makes of the `k` bytes at `a`. -/
def newBuffer (a k n : Nat) (f : List Byte → List Byte) : EngM Nat := do
  let o ← portAlloc n
  let bs ← memRead a k
  memWrite false o (f bs)
  pure o

theorem convert_eq_newBuffer (img n s r : Nat) : convert img n s r = newBuffer img (n * s) (n * r) (convertBytes n s r) := rfl

theorem paletteExpand_eq_newBuffer (idx n : Nat) (pal : Vector Rgba 256) (palLen out : Nat) :
    paletteExpand idx n pal palLen out = newBuffer idx n (n * out) fun bs => bs.flatMap (expandIndex pal palLen out) := rfl

/-- The engine once the new buffer at `v` holds `bs`, with the answers `ms` to come. -/
def Eng.filled (e : Eng) (v : Word) (bs : List Byte) (ms : List PortMove) : Eng :=
  { e.granted v bs.length ms with
    mem := e.mem.write v.toNat bs
    written := noteWrite v.toNat bs.length false e.written
    journal := journalBytes v.toNat bs [] }

theorem newBuffer_ok {a k n : Nat} {f : List Byte → List Byte} {e : Eng} {v : Word} {ms : List PortMove}
    (hread : a + k ≤ Config.addrSpace) (hlen : (f (e.mem.read a k)).length = n) (hm : e.moves = .allocResp v :: ms)
    (hg : Grants e v n) : newBuffer a k n f e = .ok v.toNat (e.filled v (f (e.mem.read a k)) ms) := by
  subst hlen
  rw [newBuffer, EngM.bind_ok (portAlloc_granted hm hg), EngM.bind_ok (memRead_ok hread), Eng.granted_mem,
    EngM.bind_ok (memWrite_ok hg.range)]
  rfl

/-- The engine on which a command's work begins: its checks have passed, and have declared the regions `rs`. -/
abbrev State.declared (s : State) (answers : List PortMove) (rs : List Region) : Eng := { s.entry answers with regions := rs }

section
variable {s : State} {i : Instr} {rs : List Region}

/-- A command that fills a new buffer and passes it to the host completes with its address and size. -/
theorem State.Ready.completes_newBuffer {p : Word} {a k n : Nat} {f : List Byte → List Byte} (ready : s.Ready [.allocResp p])
    (hk : kindOf i = .other)
    (hbody : bodyOf i s.running.snap (s.entry [.allocResp p]) =
      (do let o ← newBuffer a k n f; handOver o; pure (Results.mk o n 0 0)) (s.declared [.allocResp p] rs))
    (hread : a + k ≤ Config.addrSpace) (hlen : (f (s.start.mem.read a k)).length = n) (fresh : Fresh rs p n) :
    ∃ t, exec i s = .next t ∧ Completed s t p (BitVec.ofNat 32 n) 0 0 ∧
      t.eng.mem = s.start.mem.write p.toNat (f (s.start.mem.read a k)) ∧ SameMemOutside s.start t.eng p.toNat n ∧
      SameUnits s.start t.eng ∧ t.eng.allocSize = BitVec.ofNat 32 n ∧ t.eng.allocPtr = 0 ∧ SameSrcPort s.start t.eng := by
  have grants : Grants (s.declared [.allocResp p] rs) p n := ⟨fresh, by simp [ready.live]⟩
  have hn : n < 2 ^ 32 := Nat.lt_of_le_of_lt fresh.size (by decide)
  have hfill := newBuffer_ok (e := s.declared [.allocResp p] rs) (ms := []) hread hlen rfl grants
  rw [EngM.bind_ok hfill, EngM.bind_ok (handOver_run _ _), EngM.pure_run] at hbody
  obtain ⟨hx, hc⟩ := ready.completes_other hk hbody
    ⟨by simp [Eng.filled, ready.live, dropBuf], ready.srcReq, rfl⟩ rfl hn (Nat.two_pow_pos 32) (Nat.two_pow_pos 32)
  rw [regWord_of_lt _ _ p.isLt, BitVec.ofNat_toNat, BitVec.setWidth_eq] at hc
  subst hlen
  exact ⟨_, hx, hc, rfl, sameMemOutside_of_write rfl rfl,
    sameUnits_complete_other s _ ⟨⟨rfl, rfl⟩, rfl, ⟨rfl, rfl, rfl⟩, rfl⟩, rfl, rfl, rfl⟩

/-! ### A buffer of the host's (45_format_converter.md R315, R320, R322) -/

/-- A command that works in place completes with no results. -/
theorem State.Ready.completes_inPlace {x : EngM Unit} {g : Eng} (ready : s.Ready []) (hk : kindOf i = .other)
    (hbody : bodyOf i s.running.snap (s.entry []) = (do x; pure (Results.mk 0 0 0 0)) (s.declared [] rs))
    (hx : x (s.declared [] rs) = .ok () g)
    (hg : g = { s.declared [] rs with mem := g.mem, written := g.written, journal := g.journal }) :
    ∃ t, exec i s = .next t ∧ Completed s t 0 0 0 0 ∧ t.eng.mem = g.mem ∧ SameUnits s.start t.eng ∧ SamePorts s.start t.eng := by
  rw [EngM.bind_ok hx, EngM.pure_run] at hbody
  obtain ⟨hx, hc⟩ := ready.completes_other hk hbody (by rw [hg]; exact ⟨ready.live, ready.srcReq, ready.allocReq⟩)
    (by rw [hg]) (Nat.two_pow_pos 32) (Nat.two_pow_pos 32) (Nat.two_pow_pos 32)
  rw [regWord_of_lt _ _ (Nat.two_pow_pos 32)] at hc
  refine ⟨_, hx, hc, rfl, sameUnits_complete_other s _ (by rw [hg]; exact ⟨⟨rfl, rfl⟩, rfl, ⟨rfl, rfl, rfl⟩, rfl⟩), ?_⟩
  rw [State.complete_other_eng, hg]
  exact ⟨rfl, rfl, rfl⟩

end

end Sys2Proof.Machine
end

section
/-! SUPPORT. FC_CONVERT and FC_PALETTE, and the obligations on them (45_format_converter.md R311 to R314, R325, R326). -/

namespace Sys2Proof.Machine

/-- The pixels of a buffer in memory are converted one by one (45_format_converter.md R313). -/
theorem convertBytes_read (m : Memory) (a N src req : Nat) :
    convertBytes N src req (m.read a (N * src)) = (List.range N).flatMap fun i => convertPixel src req (m.read (a + i * src) src) := by
  have hpx : m.HasPixels a src N fun i => m.read (a + i * src) src := fun _ _ => rfl
  rw [convertBytes, hpx.pixels, List.flatMap_map]

/-- The bytes of a buffer in memory, one by one. -/
theorem Memory.read_eq_map (m : Memory) (a N : Nat) : m.read a N = (List.range N).map fun i => m.get (a + i) :=
  List.ext_getElem (by simp) fun i _ _ => by rw [Memory.read_getElem, List.getElem_map, List.getElem_range]

section
variable {c : Snapshot} {e : Eng}

/-! ### FC_CONVERT (45_format_converter.md R325) -/

theorem fcConvertBody_eq {src req : Nat} (hs : 1 ≤ src ∧ src ≤ 4) (hr : 1 ≤ req ∧ req ≤ 4) (hn : c.arg 1 ≠ 0)
    (hsize : c.arg 1 * max src req ≤ Config.sizeCeiling) (hrange : c.arg 0 + c.arg 1 * src ≤ Config.addrSpace)
    (hp : e.placed = []) :
    fcConvertBody src req c e =
      (do
        let o ← newBuffer (c.arg 0) (c.arg 1 * src) (c.arg 1 * req) (convertBytes (c.arg 1) src req)
        handOver o
        pure (Results.mk o (c.arg 1 * req) 0 0))
      { e with regions := ⟨c.arg 0, c.arg 1 * src, true⟩ :: e.regions } := by
  rw [fcConvertBody, ensure_bind (ok := channelsOk src) (decide_eq_true hs), ensure_bind (ok := channelsOk req) (decide_eq_true hr),
    ensure_bind (decide_eq_true hn), ensure_bind (decide_eq_true hsize), EngM.bind_ok (checkIn_ok hp hrange), convert_eq_newBuffer]

/-! ### FC_PALETTE (45_format_converter.md R326) -/

/-- What FC_PALETTE makes of a buffer of indexes, with the palette at ARG2. -/
def Snapshot.expandIndexes (c : Snapshot) (m : Memory) (out : Nat) (bs : List Byte) : List Byte :=
  bs.flatMap (expandIndex (paletteOf (m.read (c.arg 2) 1024)) (c.arg 3) out)

theorem fcPaletteBody_eq {out : Nat} (hout : out = 3 ∨ out = 4) (hn : c.arg 1 ≠ 0) (hpal : c.arg 3 ≤ 256)
    (hsize : c.arg 1 * out ≤ Config.sizeCeiling) (hidx : c.arg 0 + c.arg 1 ≤ Config.addrSpace)
    (htable : c.arg 2 + 1024 ≤ Config.addrSpace) (hp : e.placed = []) :
    fcPaletteBody out c e =
      (do
        let o ← newBuffer (c.arg 0) (c.arg 1) (c.arg 1 * out) (c.expandIndexes e.mem out)
        handOver o
        pure (Results.mk o (c.arg 1 * out) 0 0))
      { e with regions := ⟨c.arg 2, 1024, true⟩ :: ⟨c.arg 0, c.arg 1, true⟩ :: e.regions } := by
  rw [fcPaletteBody, ensure_bind (by simpa using hout), ensure_bind (decide_eq_true hn), ensure_bind (decide_eq_true hpal),
    ensure_bind (decide_eq_true hsize), EngM.bind_ok (checkIn_ok hp hidx),
    EngM.bind_ok (checkIn_ok (e := { e with regions := ⟨c.arg 0, c.arg 1, true⟩ :: e.regions }) hp htable),
    EngM.bind_ok (memRead_ok htable), paletteExpand_eq_newBuffer]
  rfl

end

/-- Entry `v` of a palette in memory. -/
theorem paletteOf_read (m : Memory) (a : Nat) {v : Nat} (hv : v < 256) :
    (paletteOf (m.read a 1024)).toList.getD v opaqueBlack =
      ⟨m.get (a + 4 * v), m.get (a + (4 * v + 1)), m.get (a + (4 * v + 2)), m.get (a + (4 * v + 3))⟩ := by
  rw [List.getD_eq_getElem _ _ (by simpa using hv), Vector.getElem_toList, paletteOf, Vector.getElem_ofFn]
  simp only [Memory.read_getD m a 1024 _ (show 4 * v < 1024 by omega), Memory.read_getD m a 1024 _ (show 4 * v + 1 < 1024 by omega),
    Memory.read_getD m a 1024 _ (show 4 * v + 2 < 1024 by omega), Memory.read_getD m a 1024 _ (show 4 * v + 3 < 1024 by omega)]

/-- The colour of the index `v`: the first bytes of its entry in the palette at ARG2, or of opaque black at or beyond ARG3
(45_format_converter.md R314). -/
def Snapshot.indexColour (c : Snapshot) (m : Memory) (out : Nat) (v : Byte) : List Byte :=
  if v.toNat < c.arg 3 then m.read (c.arg 2 + 4 * v.toNat) out else ([0, 0, 0, 255] : List Byte).take out

theorem indexColour_length (c : Snapshot) (m : Memory) {out : Nat} (hout : out ≤ 4) (v : Byte) :
    (c.indexColour m out v).length = out := by
  rw [Snapshot.indexColour]
  split
  · exact Memory.read_length ..
  · exact (List.length_take ..).trans (Nat.min_eq_left hout)

theorem expandIndex_eq_indexColour (c : Snapshot) (m : Memory) {out : Nat} (hout : out ≤ 4) (v : Byte) :
    expandIndex (paletteOf (m.read (c.arg 2) 1024)) (c.arg 3) out v = c.indexColour m out v := by
  rw [expandIndex, Snapshot.indexColour]
  split
  · rw [paletteOf_read m _ v.isLt, ← Memory.read_take m _ 4 out hout]
    rfl
  · rfl

/-- The indexes of a buffer in memory are expanded one by one (45_format_converter.md R314). -/
theorem expandIndexes_read (c : Snapshot) (m : Memory) (a N : Nat) {out : Nat} (hout : out ≤ 4) :
    c.expandIndexes m out (m.read a N) = (List.range N).flatMap fun i => c.indexColour m out (m.get (a + i)) := by
  simp only [Snapshot.expandIndexes, expandIndex_eq_indexColour c m hout, Memory.read_eq_map m a N, List.flatMap_map]

/-! ### The obligations -/

/-- Settles O49: the checks pass, and the converted pixels are written to the granted buffer one after the other. -/
theorem fcConvertCompletes : Obligations.FcConvertCompletes := by
  unfold Obligations.FcConvertCompletes
  refine ⟨?_, fun a b c d => ⟨convertPixel_self 1 _, rfl, rfl, rfl, rfl, convertPixel_self 2 _, rfl, rfl, rfl, rfl,
    convertPixel_self 3 _, rfl, rfl, rfl, rfl, convertPixel_self 4 _⟩⟩
  intro s src req p ready hs hs' hr hr' hn hsize hrange hp hdest hap
  have fresh : Fresh (⟨s.arg 0, s.arg 1 * src, true⟩ :: s.start.regions) p (s.arg 1 * req) :=
    ⟨hp, (Nat.mul_le_mul_left _ (le_max_right src req)).trans hsize, hdest, by simp [ready.regions, hap]⟩
  have hbody := fcConvertBody_eq (c := s.running.snap) (e := s.entry [.allocResp p]) ⟨hs, hs'⟩ ⟨hr, hr'⟩ hn hsize hrange ready.placed
  obtain ⟨t, hx, hc, hm, hframe⟩ := ready.completes_newBuffer (i := .fcConvert src req) rfl hbody hrange
    (convertBytes_length ⟨hs, hs'⟩ ⟨hr, hr'⟩ (Memory.read_length _ _ _)) fresh
  have hpixels : t.eng.mem.HasPixels p.toNat req (s.arg 1) fun i =>
      convertPixel src req (s.start.mem.read (s.arg 0 + i * src) src) := by
    rw [hm]
    exact convertBytes_read .. ▸ Memory.hasPixels_write _ _ fun i _ =>
      convertPixel_length ⟨hs, hs'⟩ ⟨hr, hr'⟩ (Memory.read_length _ _ _)
  exact ⟨t, hx, hc, hpixels, hframe⟩

/-- Settles O50: the checks pass, and the expanded indexes are written to the granted buffer one after the other. -/
theorem fcPaletteCompletes : Obligations.FcPaletteCompletes := by
  unfold Obligations.FcPaletteCompletes
  intro s out p ready hout hn hpal hsize hidx htable hp hdest hap hap'
  have hout4 : out ≤ 4 := by omega
  have fresh : Fresh (⟨s.arg 2, 1024, true⟩ :: ⟨s.arg 0, s.arg 1, true⟩ :: s.start.regions) p (s.arg 1 * out) :=
    ⟨hp, hsize, hdest, by simp [ready.regions, hap, hap']⟩
  have hbody := fcPaletteBody_eq (c := s.running.snap) (e := s.entry [.allocResp p]) hout hn hpal hsize hidx htable ready.placed
  have hbytes := expandIndexes_read s.running.snap s.start.mem (s.arg 0) (s.arg 1) hout4
  have hcolour : ∀ i, i < s.arg 1 → (s.running.snap.indexColour s.start.mem out (s.start.mem.get (s.arg 0 + i))).length = out :=
    fun i _ => indexColour_length _ _ hout4 _
  obtain ⟨t, hx, hc, hm, hframe⟩ := ready.completes_newBuffer (i := .fcPalette out) rfl hbody hidx
    ((congrArg List.length hbytes).trans (flatMap_range_length hcolour)) fresh
  refine ⟨t, hx, hc, fun i hi => ?_, hframe⟩
  rw [hm]
  exact hbytes ▸ Memory.hasPixels_write s.start.mem p.toNat hcolour i hi

end Sys2Proof.Machine
end

section
/-! SUPPORT. FC_TRNS_KEY, FC_CGBI and FC_FLIP, and the obligation on them (45_format_converter.md R315, R320, R322, R327 to R329). -/

namespace Sys2Proof.Machine

section
variable {c : Snapshot} {e : Eng} (hp : e.placed = [])
include hp

theorem fcTrnsKeyBody_eq {ch : Nat} (hch : ch = 2 ∨ ch = 4) (hrange : c.arg 0 + c.arg 1 * ch ≤ Config.addrSpace) :
    fcTrnsKeyBody ch c e =
      (do keyApply true (c.arg 0) (c.arg 1) ch (keyBytes (c.arg 2)); pure (Results.mk 0 0 0 0))
      { e with regions := ⟨c.arg 0, c.arg 1 * ch, false⟩ :: e.regions } := by
  rw [fcTrnsKeyBody, ensure_bind (by simpa using hch), EngM.bind_ok (checkOut_ok hp hrange)]

theorem fcCgbiBody_eq {ch : Nat} (unpremul : Bool) (hch : ch = 3 ∨ ch = 4) (hrange : c.arg 0 + c.arg 1 * ch ≤ Config.addrSpace) :
    fcCgbiBody ch unpremul c e =
      (do cgbiFix true (c.arg 0) (c.arg 1) ch unpremul; pure (Results.mk 0 0 0 0))
      { e with regions := ⟨c.arg 0, c.arg 1 * ch, false⟩ :: e.regions } := by
  rw [fcCgbiBody, ensure_bind (by simpa using hch), EngM.bind_ok (checkOut_ok hp hrange)]

theorem fcFlipBody_eq (hrange : c.arg 0 + c.arg 1 * c.arg 2 ≤ Config.addrSpace) :
    fcFlipBody c e =
      (do flip true (c.arg 0) (c.arg 1) (c.arg 2); pure (Results.mk 0 0 0 0))
      { e with regions := ⟨c.arg 0, c.arg 1 * c.arg 2, false⟩ :: e.regions } := by
  rw [fcFlipBody, EngM.bind_ok (checkOut_ok hp hrange)]

end

/-- A corrected colour as a number; an alpha of 0 divides nothing (45_format_converter.md R320). -/
theorem correctedColour_eq (unpremul : Bool) (ch : Nat) (alpha v : Byte) :
    (if unpremul = true ∧ ch = 4 ∧ alpha ≠ 0 then unpremultiply alpha v else v) =
      BitVec.ofNat 8 (if unpremul = true ∧ ch = 4 ∧ 0 < alpha.toNat then min 255 ((v.toNat * 255 + alpha.toNat / 2) / alpha.toNat)
        else v.toNat) := by
  have hpos : 0 < alpha.toNat ↔ alpha ≠ 0 := by
    rw [Nat.pos_iff_ne_zero, ne_eq, ne_eq, BitVec.toNat_eq]
    rfl
  simp only [hpos]
  split
  · rfl
  · rw [BitVec.ofNat_toNat, BitVec.setWidth_eq]

/-- Settles O51: each command declares its buffer, and then its function on buffers runs over it. -/
theorem inPlaceConvertersComplete : Obligations.InPlaceConvertersComplete := by
  unfold Obligations.InPlaceConvertersComplete
  refine ⟨?_, ?_, ?_⟩
  · intro s ch ready hch hrange key
    obtain ⟨g, hrun, hg, halpha, hrest⟩ := keyApply_ok (toHost := true) (key := keyBytes (s.arg 2)) (by omega) hrange
    obtain ⟨t, hx, hc, hm, hu, hports⟩ := ready.completes_inPlace (i := .fcTrnsKey ch) rfl
      (fcTrnsKeyBody_eq (e := s.entry []) ready.placed hch hrange) hrun hg
    rw [← hm] at halpha hrest
    exact ⟨t, hx, hc, halpha, hrest, hu, hports⟩
  · intro s ch unpremul ready hch hrange
    obtain ⟨g, hrun, hg, hcolour, halpha, hrest⟩ := cgbiFix_ok (toHost := true) (unpremul := unpremul) hch hrange
    obtain ⟨t, hx, hc, hm, hu, hports⟩ := ready.completes_inPlace (i := .fcCgbi ch unpremul) rfl
      (fcCgbiBody_eq (e := s.entry []) ready.placed unpremul hch hrange) hrun hg
    rw [← hm] at hcolour halpha hrest
    exact ⟨t, hx, hc, fun i k hi hk => (hcolour i k hi hk).trans (correctedColour_eq unpremul ch _ _), halpha, hrest, hu, hports⟩
  · intro s ready hrange
    obtain ⟨g, hrun, hg, hrows, hrest⟩ := flip_ok (toHost := true) hrange
    obtain ⟨t, hx, hc, hm, hu, hports⟩ := ready.completes_inPlace (i := .fcFlip) rfl
      (fcFlipBody_eq (e := s.entry []) ready.placed hrange) hrun hg
    rw [← hm] at hrows hrest
    exact ⟨t, hx, hc, hrows, hrest, hu, hports⟩

end Sys2Proof.Machine
end

section
/-! SUPPORT. How a top-level command ends, told from the engine that its steps leave (60_exceptions.md R414, R420; 10_state.md R49). -/

namespace Sys2Proof.Machine

section
variable {s : State} {answers : List PortMove} {i : Instr} {f g : Eng}

/-- A top-level command whose steps give results completes with them. -/
theorem State.Ready.completes_top {x : Results} (ready : s.Ready answers) (hk : kindOf i = .top)
    (h : bodyOf i s.running.snap (s.entry answers) = .ok x f) (rest : AtRest f) (hm : f.moves = [])
    (h0 : x.r0 < 2 ^ 32) (h1 : x.r1 < 2 ^ 32) (h2 : x.r2 < 2 ^ 32) (h3 : x.r3 < 2 ^ 32) :
    exec i s = .next (s.complete .top x f) ∧
      Completed s (s.complete .top x f) (BitVec.ofNat 32 x.r0) (BitVec.ofNat 32 x.r1) (BitVec.ofNat 32 x.r2)
        (BitVec.ofNat 32 x.r3) := by
  refine ⟨?_, State.complete_completed rest.srcReq rest.allocReq rest.live h0 h1 h2 h3⟩
  rw [exec_eq_runCommand, hk]
  exact runCommand_ok ((ready.body_eq (bodyOf i)).trans h) rest.live hm

/-- A top-level command whose steps raise an error fails with it, after the Frees that lead to `f`. -/
theorem State.Ready.fails_top {code info : Nat} (ready : s.Ready answers) (hk : kindOf i = .top)
    (h : bodyOf i s.running.snap (s.entry answers) = .error (.raise code info) g) (hu : unwinding g = .ok () f) (rest : AtRest f)
    (hinfo : info < 2 ^ 32) :
    exec i s = .next (s.fail .top code info f) ∧
      Failed s (s.fail .top code info f) (BitVec.ofNat 32 code) (BitVec.ofNat 32 info) := by
  constructor
  · have hfin : finishing (bodyOf i s.running.snap) { s.running.base with moves := s.running.log } = .error (.raise code info) g := by
      rw [finishing, EngM.bind_error ((ready.body_eq (bodyOf i)).trans h)]
    rw [exec_eq_runCommand, hk]
    simp only [runCommand, course, hfin, hu, State.halt]
  · have hf := Failed.fail s .top code (BitVec.ofNat 32 info) rest
    rwa [BitVec.toNat_ofNat, Nat.mod_eq_of_lt hinfo] at hf

end

theorem State.fail_top_eng (s : State) (code info : Nat) (f : Eng) :
    (s.fail .top code info f).eng = f.spoilHostRegions.invalidateUnits.idle := rfl

theorem unitsInvalid_fail_top (s : State) (code info : Nat) (f : Eng) : UnitsInvalid (s.fail .top code info f).eng :=
  ⟨rfl, rfl, rfl, rfl, rfl⟩

end Sys2Proof.Machine
end

section
/-! SUPPORT. The compressor's tokens and the size of its streams, and the obligations on them (46_deflate_encoder.md R347, R351, R353
to R355, R365). -/

namespace Sys2Proof.Machine

/-- Settles O53: the main loop's tokens go on from what is before its position to the whole input. -/
theorem tokensExpandToTheInput : Obligations.TokensExpandToTheInput := by
  unfold Obligations.TokensExpandToTheInput
  intro d q
  obtain ⟨valid, expand, near⟩ := lz77_expandTo d q
  exact ⟨valid, expand, near⟩

/-- How many stored blocks an input of `n` bytes takes (46_deflate_encoder.md R351, R353). -/
abbrev storedCount (n : Nat) : Nat := (n + 32766) / 32767

/-- Stored blocks hold the data and five bytes for each block (46_deflate_encoder.md R351). -/
theorem storedBlocks_length (n : Nat) {d : List Byte} (hn : d.length ≤ n) :
    (storedBlocks n d).length = d.length + 5 * storedCount d.length := by
  induction n generalizing d with
  | zero =>
    obtain rfl := List.eq_nil_of_length_eq_zero (Nat.le_zero.1 hn)
    rfl
  | succ n ih =>
    by_cases hd : d = []
    · subst hd
      rfl
    · have hpos := List.length_pos_iff.2 hd
      rw [storedBlocks_succ n hd]
      generalize hbl : min d.length Config.storedMax = bl
      rw [Config.storedMax] at hbl
      have hrest := ih (d := d.drop bl) (by rw [List.length_drop]; omega)
      simp only [List.length_drop, storedCount] at hrest
      simp only [List.length_cons, List.length_append, List.length_take, hrest, storedHead, List.length_nil, storedCount]
      omega

/-- What is not stored is no longer than the stored form (46_deflate_encoder.md R353). -/
theorem deflated_length_le {d : List Byte} (hd : d ≠ []) (q : Nat) :
    (deflated d q).length ≤ d.length + 5 * storedCount d.length := by
  have hpos := List.length_pos_iff.2 hd
  rw [deflated]
  split
  · exact (storedBlocks_length d.length (Nat.le_refl _)).le
  · rename_i hx
    simp only [expands, Config.storedMax, decide_eq_true_eq, List.length_append, zlibHead, List.length_cons, List.length_nil] at hx
    simp only [storedCount]
    omega

/-- Settles O54: the two header bytes and the trailer are six more than the blocks; the empty input has one block of one symbol. -/
theorem compressedSizeIsBounded : Obligations.CompressedSizeIsBounded := by
  unfold Obligations.CompressedSizeIsBounded
  refine ⟨fun d q hd => ?_, fun q => by rfl⟩
  have hlen := deflated_length_le hd q
  have hz : (compress d q).length = (deflated d q).length + 6 := by
    rw [compress_eq, List.length_append, List.length_append, putBe32_length, zlibHead, List.length_cons, List.length_cons,
      List.length_nil]
    omega
  simp only [storedCount] at hlen
  omega

end Sys2Proof.Machine
end

section
/-! SUPPORT. DEF_COMPRESS: its new buffer, and the obligations on it (46_deflate_encoder.md R341, R353, R355, R356, R365). -/

namespace Sys2Proof.Machine

/-- Steps that succeed end as their run does. -/
theorem EngM.ends_of_ok {α : Type} {x : EngM α} {e f : Eng} {a : α} {Q : α → Eng → Prop} {X : Stop → Eng → Prop}
    (h : x e = .ok a f) (hq : Q a f) : x.Ends e Q X := by
  rwa [EngM.Ends, h]

section
variable {e : Eng} {v : Word} {ms : List PortMove}

/-- `Alloc(n)` with an answer at hand: it succeeds only where the answer is a buffer that keeps the host's duty (20_memory.md R76,
R77). -/
theorem portAlloc_answered_ends {n : Nat} {Q : Nat → Eng → Prop} {X : Stop → Eng → Prop} (hm : e.moves = .allocResp v :: ms)
    (h : n ≤ Config.sizeCeiling → Q v.toNat (e.granted v n ms)) (hx : ∀ x f, X x f) :
    (portAlloc n).Ends e Q X := by
  refine EngM.ends_bind (EngM.ends_ensure (fun hn => ?_) fun _ => hx _ _)
  refine EngM.ends_bind (EngM.ends_modE (EngM.ends_bind (EngM.ends_of_ok (answer_alloc hm) ?_)))
  refine EngM.ends_bind (EngM.ends_ensure (fun _ => ?_) fun _ => hx _ _)
  refine EngM.ends_bind (EngM.ends_getE (EngM.ends_ite (fun _ => ?_) fun _ => EngM.ends_stop (hx _ _)))
  exact h (of_decide_eq_true hn)

/-- The engine once the new buffer at `v` holds `bs` and has passed to the host, with the answers `ms` to come. -/
def Eng.delivered (e : Eng) (v : Word) (bs : List Byte) (ms : List PortMove) : Eng :=
  let f := e.filled v bs ms
  { f with live := dropBuf v.toNat f.live, regions := outputAt v.toNat f.live ++ f.regions }

theorem deliver_ends {out : List Byte} {Q : Results → Eng → Prop} {X : Stop → Eng → Prop} (hm : e.moves = .allocResp v :: ms)
    (h : out.length ≤ Config.sizeCeiling → Q ⟨v.toNat, out.length, 0, 0⟩ (e.delivered v out ms)) (hx : ∀ x f, X x f) :
    (deliver out).Ends e Q X :=
  EngM.ends_bind (portAlloc_answered_ends hm (fun hn => EngM.ends_bind (memWrite_ends (fun _ => EngM.ends_bind (EngM.ends_modE
    (EngM.ends_pure (h hn)))) fun _ => hx _ _)) hx)

theorem deliver_ok {out : List Byte} (hm : e.moves = .allocResp v :: ms) (hg : Grants e v out.length) :
    deliver out e = .ok ⟨v.toNat, out.length, 0, 0⟩ (e.delivered v out ms) := by
  rw [deliver, EngM.bind_ok (portAlloc_granted hm hg), EngM.bind_ok (memWrite_ok hg.range), EngM.bind_ok (handOver_run _ _)]
  rfl

end

theorem defCompressBody_eq {c : Snapshot} {e : Eng} (imm : Nat) (hp : e.placed = []) (hrange : c.arg 0 + c.arg 1 ≤ Config.addrSpace)
    (hsize : c.arg 1 ≤ Config.sizeCeiling) :
    defCompressBody imm c e = deliver (compress (e.mem.read (c.arg 0) (c.arg 1)) (c.effectiveQuality imm))
      { e with regions := ⟨c.arg 0, c.arg 1, true⟩ :: e.regions } := by
  rw [defCompressBody, EngM.bind_ok (checkIn_ok hp hrange), ensure_bind (decide_eq_true hsize), EngM.bind_ok (memRead_ok hrange)]

section
variable {s : State} {p : Word} {imm : Nat}

/-- The stream that the command makes of its input (46_deflate_encoder.md R365). -/
def State.compressed (s : State) (imm : Nat) : List Byte :=
  compress (s.start.mem.read (s.arg 0) (s.arg 1)) (s.running.snap.effectiveQuality imm)

/-- The engine where DEF_COMPRESS ends. -/
def State.compressEnd (s : State) (imm : Nat) (p : Word) : Eng :=
  (s.declared [.allocResp p] [⟨s.arg 0, s.arg 1, true⟩]).delivered p (s.compressed imm) []

theorem State.Ready.compressEnd_atRest (ready : s.Ready [.allocResp p]) : AtRest (s.compressEnd imm p) where
  live := by simp [compressEnd, Eng.delivered, Eng.filled, ready.live, dropBuf]
  srcReq := ready.srcReq
  allocReq := rfl

theorem State.compressEnd_mem (s : State) (imm : Nat) (p : Word) :
    (s.compressEnd imm p).mem = s.start.mem.write p.toNat (s.compressed imm) := rfl

theorem defCompressBody_ok (ready : s.Ready [.allocResp p]) (hrange : s.arg 0 + s.arg 1 ≤ Config.addrSpace)
    (hsize : s.arg 1 ≤ Config.sizeCeiling) (fresh : Fresh [⟨s.arg 0, s.arg 1, true⟩] p (s.compressed imm).length) :
    defCompressBody imm s.running.snap (s.entry [.allocResp p]) =
      .ok ⟨p.toNat, (s.compressed imm).length, 0, 0⟩ (s.compressEnd imm p) := by
  have hg : Grants (s.declared [.allocResp p] [⟨s.arg 0, s.arg 1, true⟩]) p (s.compressed imm).length :=
    ⟨fresh, by simp [ready.live]⟩
  rw [defCompressBody_eq (e := s.entry [.allocResp p]) imm ready.placed hrange hsize, ready.regions]
  exact deliver_ok rfl hg

/-- DEF_COMPRESS with one answer of the allocator succeeds, if at all, with its stream in the buffer of the answer. -/
theorem defCompressBody_ends (ready : s.Ready [.allocResp p]) :
    (defCompressBody imm s.running.snap).Ends (s.entry [.allocResp p])
      (fun x f => x = ⟨p.toNat, (s.compressed imm).length, 0, 0⟩ ∧ (s.compressed imm).length ≤ Config.sizeCeiling ∧
        f = s.compressEnd imm p)
      fun _ _ => True := by
  refine EngM.ends_bind (checkIn_ends (fun _ => ?_) (fun _ => trivial) trivial)
  refine EngM.ends_bind (EngM.ends_ensure (fun _ => ?_) fun _ => trivial)
  refine EngM.ends_bind (memRead_ends (fun _ => ?_) fun _ => trivial)
  refine deliver_ends (ms := []) rfl (fun hn => ⟨rfl, hn, ?_⟩) fun _ _ => trivial
  simp only [ready.regions]
  rfl

theorem effectiveQuality_eq (c : Snapshot) (imm : Nat) :
    c.effectiveQuality imm = max 5 (if imm ≠ 0 then imm else c.quality.toNat % 65536) := by
  rw [Snapshot.effectiveQuality, bits, pow_zero, Nat.div_one]
  rfl

/-- A command that gives a next state with DONE newly set has run its steps to their end. -/
theorem exec_done {i : Instr} {t : State} (h : exec i s = .next t) (hs : s.done = false) (ht : t.done = true) :
    ∃ x e, finishing (bodyOf i s.running.snap) { s.running.base with moves := s.running.log } = .ok x e ∧
      t = s.complete (kindOf i) x e := by
  rw [exec_eq_runCommand] at h
  rcases runCommand_cases h with ⟨x, e, hc, rfl⟩ | ⟨c, i, e, -, rfl⟩ | ⟨e, -, rfl⟩
  · exact ⟨x, e, course_ok hc, rfl⟩
  · exact absurd (hs.symm.trans ht) Bool.false_ne_true
  · exact absurd (hs.symm.trans ht) Bool.false_ne_true

/-- A run to the end, from steps that succeed and leave nothing to free and no move of the host. -/
theorem finishing_inv {body : EngM Results} {e f : Eng} {x : Results} (h : finishing body e = .ok x f)
    {Q : Results → Eng → Prop} (hb : body.Ends e Q fun _ _ => True) (hq : ∀ x f, Q x f → f.live = [] ∧ f.moves = []) :
    Q x f := by
  rw [finishing, EngM.bind_run] at h
  cases hx : body e with
  | error z g => rw [hx] at h; cases h
  | ok y g =>
    have hy := hb.ok hx
    obtain ⟨hl, hm⟩ := hq y g hy
    rw [hx] at h
    dsimp only at h
    rw [EngM.bind_ok (freeLive_empty hl), EngM.bind_ok (settleMoves_empty hm)] at h
    cases h
    exact hy

/-- DEF_COMPRESS that completes has left its stream at RES0, with its length in RES1. -/
theorem defCompress_done {t : State} (ready : s.Ready [.allocResp p]) (h : exec (.defCompress imm) s = .next t)
    (hs : s.done = false) (ht : t.done = true) :
    t.res[1] = BitVec.ofNat 32 (s.compressed imm).length ∧
      t.eng.mem.read t.res[0].toNat t.res[1].toNat = s.compressed imm := by
  obtain ⟨x, e, hfin, rfl⟩ := exec_done h hs ht
  rw [ready.log] at hfin
  obtain ⟨rfl, hlen, rfl⟩ := finishing_inv hfin (defCompressBody_ends ready) fun x f ⟨_, _, hf⟩ => by
    rw [hf]
    exact ⟨ready.compressEnd_atRest.live, rfl⟩
  have rest := ready.compressEnd_atRest (imm := imm)
  have hn : (s.compressed imm).length < 2 ^ 32 := Nat.lt_of_le_of_lt hlen (by decide)
  have hdone := State.complete_completed (s := s) (kind := .top) (r := ⟨p.toNat, (s.compressed imm).length, 0, 0⟩)
    rest.srcReq rest.allocReq rest.live p.isLt hn (Nat.two_pow_pos 32) (Nat.two_pow_pos 32)
  have hres : (s.complete (kindOf (.defCompress imm)) ⟨p.toNat, (s.compressed imm).length, 0, 0⟩ (s.compressEnd imm p)).res = _ :=
    hdone.res
  rw [hres]
  refine ⟨rfl, ?_⟩
  show Memory.read (s.compressEnd imm p).mem (BitVec.ofNat 32 p.toNat).toNat (BitVec.ofNat 32 (s.compressed imm).length).toNat = _
  rw [BitVec.toNat_ofNat, BitVec.toNat_ofNat, Nat.mod_eq_of_lt p.isLt, Nat.mod_eq_of_lt hn, State.compressEnd_mem,
    Memory.read_write_self]

end

/-- Settles O55: each of the two commands leaves the stream of its input at its quality, and the two streams are one. -/
theorem compressionIsDeterministic : Obligations.CompressionIsDeterministic := by
  unfold Obligations.CompressionIsDeterministic
  intro s1 s2 imm1 imm2 p1 p2 t1 t2 ready1 ready2 hin hq h1 h2 ht1 ht2 hs1 hs2
  obtain ⟨hlen1, hout1⟩ := defCompress_done ready1 h1 hs1 ht1
  obtain ⟨hlen2, hout2⟩ := defCompress_done ready2 h2 hs2 ht2
  have hz : s1.compressed imm1 = s2.compressed imm2 := by rw [State.compressed, State.compressed, hin, hq]
  exact ⟨by rw [hlen1, hlen2, hz], by rw [hout1, hout2, hz]⟩

/-- Settles O52: the checks pass, and the stream is written to the granted buffer. -/
theorem defCompressCompletes : Obligations.DefCompressCompletes := by
  unfold Obligations.DefCompressCompletes
  intro s imm p q z ready hrange hsize hz hp hdest hap
  have hzq : s.compressed imm = z := by rw [State.compressed, effectiveQuality_eq]
  have fresh : Fresh [⟨s.arg 0, s.arg 1, true⟩] p (s.compressed imm).length := by
    rw [hzq]
    exact ⟨hp, hz, hdest, by simpa using hap⟩
  obtain ⟨hx, hc⟩ := ready.completes_top (i := .defCompress imm) rfl (defCompressBody_ok ready hrange hsize fresh)
    ready.compressEnd_atRest rfl p.isLt (Nat.lt_of_le_of_lt fresh.size (by decide)) (Nat.two_pow_pos 32) (Nat.two_pow_pos 32)
  rw [hzq, BitVec.ofNat_toNat, BitVec.setWidth_eq] at hc
  have hmem : (s.complete .top ⟨p.toNat, (s.compressed imm).length, 0, 0⟩ (s.compressEnd imm p)).eng.mem =
      s.start.mem.write p.toNat z := hzq ▸ rfl
  rw [hzq] at hx hmem
  refine ⟨_, hx, hc, ?_, sameMemOutside_of_write hmem rfl, unitsInvalid_complete_top _ _ _, ⟨rfl, rfl⟩, ?_, rfl, rfl⟩
  · rw [hmem, Memory.read_write_self]
  · rw [← hzq]
    rfl

end Sys2Proof.Machine
end

section
/-! SUPPORT. LZ_HASH, LZ_MATCHLEN and HUF_ENC_SYM, and the obligation on them (46_deflate_encoder.md R342, R344, R350, R366 to
R368). -/

namespace Sys2Proof.Machine

/-- A command that only reads memory completes with its results, and leaves the engine alone. -/
theorem State.Ready.completes_untouched {s : State} {i : Instr} {x : Results} {rs : List Region} (ready : s.Ready [])
    (hk : kindOf i = .other) (h : bodyOf i s.running.snap (s.entry []) = .ok x (s.declared [] rs)) (h0 : x.r0 < 2 ^ 32)
    (h1 : x.r1 < 2 ^ 32) (h2 : x.r2 < 2 ^ 32) (h3 : x.r3 < 2 ^ 32) :
    ∃ t, exec i s = .next t ∧
      Completed s t (BitVec.ofNat 32 x.r0) (BitVec.ofNat 32 x.r1) (BitVec.ofNat 32 x.r2) (BitVec.ofNat 32 x.r3) ∧
      Untouched s.start t.eng := by
  obtain ⟨hx, hc⟩ := ready.completes_other hk h ⟨ready.live, ready.srcReq, ready.allocReq⟩ rfl h1 h2 h3
  rw [regWord_of_lt _ _ h0] at hc
  exact ⟨_, hx, hc, sameUnits_complete_other s x ⟨⟨rfl, rfl⟩, rfl, ⟨rfl, rfl, rfl⟩, rfl⟩, ⟨rfl, rfl, rfl⟩, fun _ => rfl⟩

/-! ### LZ_HASH (46_deflate_encoder.md R366) -/

theorem lzHashBody_ok {c : Snapshot} {e : Eng} (hp : e.placed = []) (hrange : c.arg 0 + 3 ≤ Config.addrSpace) :
    let v := zhash (e.mem.get (c.arg 0)) (e.mem.get (c.arg 0 + 1)) (e.mem.get (c.arg 0 + 2))
    lzHashBody c e = .ok ⟨bucketOf v, v.toNat, 0, 0⟩ { e with regions := ⟨c.arg 0, 3, true⟩ :: e.regions } := by
  rw [lzHashBody, EngM.bind_ok (checkIn_ok hp hrange), EngM.bind_ok (memRead_ok hrange)]
  rfl

/-- The bucket is the hash's low 14 bits (46_deflate_encoder.md R342). -/
theorem bucketOf_eq (v : Word) : BitVec.ofNat 32 (bucketOf v) = v &&& 0x3FFF#32 := by
  refine BitVec.eq_of_toNat_eq ?_
  rw [BitVec.toNat_and, BitVec.toNat_ofNat, show (0x3FFF#32).toNat = 2 ^ 14 - 1 by rfl, Nat.and_two_pow_sub_one_eq_mod, bucketOf,
    Config.zhash]
  omega

/-! ### LZ_MATCHLEN (46_deflate_encoder.md R367) -/

/-- The count stops at the limit, at an end, or at a byte that differs (46_deflate_encoder.md R344). -/
theorem getD_equalBytes_ne {n : Nat} {xs ys : List Byte} (h : equalBytes n xs ys < n) (hx : equalBytes n xs ys < xs.length)
    (hy : equalBytes n xs ys < ys.length) : xs.getD (equalBytes n xs ys) 0 ≠ ys.getD (equalBytes n xs ys) 0 := by
  fun_induction equalBytes n xs ys with
  | case1 n x xs ys ih => simpa using ih (by omega) (by simpa using hx) (by simpa using hy)
  | case2 n x xs y ys hne => exact hne
  | case3 n xs ys hend =>
    obtain ⟨m, rfl⟩ := Nat.exists_eq_add_one_of_ne_zero (Nat.ne_of_gt h)
    obtain ⟨x, xs, rfl⟩ := List.exists_cons_of_length_pos hx
    obtain ⟨y, ys, rfl⟩ := List.exists_cons_of_length_pos hy
    exact absurd rfl (hend m x xs y ys rfl rfl)

theorem lzMatchlenBody_ok {c : Snapshot} {e : Eng} {m : Nat} (hp : e.placed = []) (hm : min (c.arg 2) Config.maxMatch = m)
    (ha : c.arg 0 + m ≤ Config.addrSpace) (hb : c.arg 1 + m ≤ Config.addrSpace) :
    lzMatchlenBody c e = .ok ⟨equalBytes m (e.mem.read (c.arg 0) m) (e.mem.read (c.arg 1) m), 0, 0, 0⟩
      { e with regions := ⟨c.arg 1, m, true⟩ :: ⟨c.arg 0, m, true⟩ :: e.regions } := by
  rw [lzMatchlenBody, hm, EngM.bind_ok (checkIn_ok hp ha),
    EngM.bind_ok (checkIn_ok (e := { e with regions := ⟨c.arg 0, m, true⟩ :: e.regions }) hp hb), EngM.bind_ok (memRead_ok ha),
    EngM.bind_ok (memRead_ok hb), EngM.pure_run]

/-- The count of leading equal bytes of two ranges of memory (46_deflate_encoder.md R344). -/
theorem equalBytes_read (mem : Memory) (a b m : Nat) :
    let k := equalBytes m (mem.read a m) (mem.read b m)
    k ≤ m ∧ (∀ i, i < k → mem.get (a + i) = mem.get (b + i)) ∧ (k < m → mem.get (a + k) ≠ mem.get (b + k)) := by
  have hk := equalBytes_le m (mem.read a m) (mem.read b m)
  refine ⟨hk, fun i hi => ?_, fun hlt => ?_⟩
  · have := getD_of_lt_equalBytes hi
    rwa [Memory.read_getD _ _ _ _ (by omega), Memory.read_getD _ _ _ _ (by omega)] at this
  · have := getD_equalBytes_ne hlt (by rwa [Memory.read_length]) (by rwa [Memory.read_length])
    rwa [Memory.read_getD _ _ _ _ hlt, Memory.read_getD _ _ _ _ hlt] at this

/-! ### HUF_ENC_SYM (46_deflate_encoder.md R368) -/

/-- The four ranges of the fixed code (46_deflate_encoder.md R350). -/
theorem fixedCode_cases (s : Nat) : ∃ c l, fixedCode s = (c, l) ∧ l ≤ 9 ∧
    ((s ≤ 143 ∧ c = 0x30 + s ∧ l = 8) ∨ (144 ≤ s ∧ s ≤ 255 ∧ c = 0x190 + s - 144 ∧ l = 9) ∨
      (256 ≤ s ∧ s ≤ 279 ∧ c = s - 256 ∧ l = 7) ∨ (280 ≤ s ∧ c = 0xC0 + s - 280 ∧ l = 8)) := by
  unfold fixedCode
  split_ifs <;> exact ⟨_, _, rfl, by omega⟩

theorem hufEncSymBody_ok {alphabet : Bool} {sym code len : Nat} (h : sym ≤ if alphabet then 31 else 287)
    (hcode : (if alphabet then (sym, 5) else fixedCode sym) = (code, len)) (c : Snapshot) (e : Eng) :
    hufEncSymBody alphabet sym c e = .ok ⟨bitrev code len, len, 0, 0⟩ e := by
  rw [hufEncSymBody, ensure_bind (decide_eq_true h), hcode]
  rfl

/-- A reversed code of at most 9 bits fits its register. -/
theorem bitrev_lt_word (v : Nat) {n : Nat} (h : n ≤ 9) : bitrev v n < 2 ^ 32 :=
  (bitrev_lt v n).trans_le (Nat.pow_le_pow_right (by decide) (by omega))

/-- Settles O56: each command reads what it is given, and no unit, port or byte changes. -/
theorem lzAndHufCommandsComplete : Obligations.LzAndHufCommandsComplete := by
  unfold Obligations.LzAndHufCommandsComplete
  refine ⟨fun s ready => ⟨fun hrange => ?_, ?_⟩, fun s sym ready => ⟨fun hsym => ?_, fun hsym => ?_⟩⟩
  · intro v
    have hbucket : bucketOf v < 2 ^ 32 := (Nat.mod_lt _ (by decide)).trans (by decide : Config.zhash < 2 ^ 32)
    obtain ⟨t, hx, hc, hu⟩ := ready.completes_untouched (i := .lzHash) rfl
      (lzHashBody_ok (c := s.running.snap) (e := s.entry []) ready.placed hrange) hbucket v.isLt (Nat.two_pow_pos 32)
      (Nat.two_pow_pos 32)
    rw [bucketOf_eq, BitVec.ofNat_toNat, BitVec.setWidth_eq] at hc
    exact ⟨t, hx, hc, hu⟩
  · intro m ha hb
    obtain ⟨hk, hequal, hdiffer⟩ := equalBytes_read s.start.mem (s.arg 0) (s.arg 1) m
    obtain ⟨t, hx, hc, hu⟩ := ready.completes_untouched (i := .lzMatchlen) rfl
      (lzMatchlenBody_ok (c := s.running.snap) (e := s.entry []) ready.placed rfl ha hb)
      (Nat.lt_of_le_of_lt (hk.trans (Nat.min_le_right _ _)) (by decide)) (Nat.two_pow_pos 32) (Nat.two_pow_pos 32)
      (Nat.two_pow_pos 32)
    exact ⟨t, _, hx, hc, hu, hk, hequal, hdiffer⟩
  · obtain ⟨c, l, hcode, hl, hcases⟩ := fixedCode_cases sym
    obtain ⟨t, hx, hc, hu⟩ := ready.completes_untouched (i := .hufEncSym false sym) rfl
      (hufEncSymBody_ok (alphabet := false) hsym hcode s.running.snap (s.entry [])) (bitrev_lt_word c hl)
      (Nat.lt_of_le_of_lt hl (by decide)) (Nat.two_pow_pos 32) (Nat.two_pow_pos 32)
    exact ⟨t, c, l, hx, hcases, hc, hu⟩
  · exact ready.completes_untouched (i := .hufEncSym true sym) rfl
      (hufEncSymBody_ok (alphabet := true) hsym rfl s.running.snap (s.entry [])) (bitrev_lt_word sym (by decide))
      (show 5 < 2 ^ 32 by decide) (Nat.two_pow_pos 32) (Nat.two_pow_pos 32)

end Sys2Proof.Machine
end

section
/-! SUPPORT. The inflate engine writes to memory nothing but its output, whatever it reads from a MEM-mode source
(42_lz77_decompressor.md R191 to R194, R203, R208, R210). -/

namespace Sys2Proof.Machine

/-! ### Steps that write the output alone -/

/-- From `e` to `f` the source has kept its mode, and what has been written is what has joined the output, unless the output has
moved to a larger buffer. -/
structure WritesOutput (e f : Eng) : Prop where
  mode : f.bs.mode = e.bs.mode
  tail : e.inf.cap < f.inf.cap ∨ ∃ n, WritesTail e f n

/-- Nothing has been written. -/
theorem WritesOutput.of_same {e f : Eng} (mode : f.bs.mode = e.bs.mode) (inf : f.inf = e.inf) (written : f.written = e.written) :
    WritesOutput e f :=
  ⟨mode, .inr ⟨0, inf, fun _ ⟨w, hw, hx⟩ => .inl ⟨w, written ▸ hw, hx⟩⟩⟩

theorem WritesOutput.trans {e f g : Eng} (h : WritesOutput e f) (h' : WritesOutput f g) : WritesOutput e g := by
  refine ⟨h'.mode.trans h.mode, ?_⟩
  rcases h.tail with hlt | ⟨n, hn⟩ <;> rcases h'.tail with hlt' | ⟨m, hm⟩
  · exact .inl (hlt.trans hlt')
  · exact .inl (by rw [hm.1]; exact hlt)
  · exact .inl (by rw [hn.1] at hlt'; exact hlt')
  · exact .inr ⟨n + m, hn.trans hm⟩

/-- Over a MEM-mode source the steps `x`, where they succeed, write the output alone. A structure, so that the unifier does not run
the steps. -/
structure EngM.OnlyOutput {α : Type} (x : EngM α) : Prop where
  ends : ∀ e, e.bs.mode = .mem → x.Ends e (fun _ f => WritesOutput e f) fun _ _ => True

section
variable {α β : Type}

theorem EngM.OnlyOutput.bind {x : EngM α} {k : α → EngM β} (hx : x.OnlyOutput) (hk : ∀ a, (k a).OnlyOutput) :
    (x >>= k).OnlyOutput :=
  ⟨fun e hm => EngM.ends_bind ((hx.ends e hm).mono (fun a f hf => ((hk a).ends f (hf.mode.trans hm)).mono
    (fun _ _ hg => hf.trans hg) fun _ _ _ => trivial) fun _ _ _ => trivial)⟩

theorem onlyOutput_pure {a : α} : (pure a : EngM α).OnlyOutput := ⟨fun _ _ => EngM.ends_pure (.of_same rfl rfl rfl)⟩

theorem onlyOutput_stop {x : Stop} : (stop x : EngM α).OnlyOutput := ⟨fun _ _ => EngM.ends_stop trivial⟩

theorem onlyOutput_ite {p : Prop} [Decidable p] {x y : EngM α} (hx : x.OnlyOutput) (hy : y.OnlyOutput) :
    (if p then x else y).OnlyOutput :=
  ⟨fun e hm => EngM.ends_ite (fun _ => hx.ends e hm) fun _ => hy.ends e hm⟩

/-- A look at the engine, and then the rest. -/
theorem onlyOutput_look {k : Eng → EngM α} (hk : ∀ e, e.bs.mode = .mem → (k e).OnlyOutput) : (getE >>= k).OnlyOutput :=
  ⟨fun e hm => EngM.ends_bind (EngM.ends_getE ((hk e hm).ends e hm))⟩

theorem onlyOutput_ensure {b : Bool} {c i : Nat} : (ensure b c i).OnlyOutput :=
  ⟨fun _ _ => EngM.ends_ensure (fun _ => .of_same rfl rfl rfl) fun _ => trivial⟩

theorem onlyOutput_modE {f : Eng → Eng} (mode : ∀ e, (f e).bs.mode = e.bs.mode := by exact fun _ => rfl)
    (inf : ∀ e, (f e).inf = e.inf := by exact fun _ => rfl) (written : ∀ e, (f e).written = e.written := by exact fun _ => rfl) :
    (modE f).OnlyOutput :=
  ⟨fun e _ => EngM.ends_modE (.of_same (mode e) (inf e) (written e))⟩

end

theorem memByte_onlyOutput {a : Nat} : (memByte a).OnlyOutput :=
  ⟨fun _ _ => memByte_ends (fun _ => .of_same rfl rfl rfl) fun _ => trivial⟩

/-! ### The BitReader and the Huffman decoder -/

theorem bsGet_onlyOutput : bsGet.OnlyOutput := by
  refine onlyOutput_look fun e hm => ?_
  simp only [hm]
  exact onlyOutput_ite (.bind memByte_onlyOutput fun _ => .bind onlyOutput_modE fun _ => onlyOutput_pure)
    (.bind onlyOutput_modE fun _ => onlyOutput_pure)

theorem inGet_onlyOutput : inGet.OnlyOutput := by
  refine onlyOutput_look fun e _ => ?_
  split
  · exact bsGet_onlyOutput
  · exact onlyOutput_pure
  · exact .bind memByte_onlyOutput fun _ => .bind onlyOutput_modE fun _ => onlyOutput_pure

theorem brRefill_onlyOutput (k : Nat) : (brRefill k).OnlyOutput := by
  induction k with
  | zero => exact onlyOutput_pure
  | succ k ih =>
    refine onlyOutput_look fun e _ => onlyOutput_ite (.bind inGet_onlyOutput fun b => ?_) onlyOutput_pure
    cases b with
    | none => exact onlyOutput_pure
    | some b => exact .bind onlyOutput_modE fun _ => ih

theorem brNeed_onlyOutput {n : Nat} : (brNeed n).OnlyOutput :=
  onlyOutput_look fun _ _ => onlyOutput_ite (brRefill_onlyOutput 4) onlyOutput_pure

theorem brConsume_onlyOutput {n : Nat} : (brConsume n).OnlyOutput :=
  onlyOutput_look fun _ _ => .bind onlyOutput_ensure fun _ => onlyOutput_modE

theorem brGet_onlyOutput {n : Nat} : (brGet n).OnlyOutput :=
  .bind brNeed_onlyOutput fun _ => onlyOutput_look fun _ _ => .bind brConsume_onlyOutput fun _ => onlyOutput_pure

theorem brAlign_onlyOutput : brAlign.OnlyOutput :=
  onlyOutput_look fun _ _ => .bind onlyOutput_modE fun _ => onlyOutput_pure

theorem brByte_onlyOutput {err : Nat} : (brByte err).OnlyOutput := by
  refine onlyOutput_look fun _ _ => onlyOutput_ite brGet_onlyOutput (.bind inGet_onlyOutput fun b => ?_)
  cases b with
  | none => exact onlyOutput_stop
  | some b => exact onlyOutput_pure

theorem writesOutput_setSlot (e : Eng) (t : Nat) (h : Huff) : WritesOutput e (e.setSlot t h) := by
  rw [Eng.setSlot_same]
  exact .of_same rfl rfl rfl

theorem hbBuild_onlyOutput {t : Nat} {lens : List Nat} : (hbBuild t lens).OnlyOutput := by
  rw [hbBuild]
  split
  · exact ⟨fun e _ => EngM.ends_modE (writesOutput_setSlot e t _)⟩
  · exact .bind ⟨fun e _ => EngM.ends_modE ((writesOutput_setSlot e t _).trans (.of_same rfl rfl rfl))⟩ fun _ => onlyOutput_stop

theorem hbDecode_onlyOutput {t : Nat} : (hbDecode t).OnlyOutput :=
  onlyOutput_look fun _ _ => .bind onlyOutput_ensure fun _ =>
    .bind (.bind brNeed_onlyOutput fun _ => onlyOutput_look fun _ _ => onlyOutput_pure) fun _ =>
      onlyOutput_ite (.bind brConsume_onlyOutput fun _ => onlyOutput_pure) (.bind onlyOutput_ensure fun _ =>
        .bind onlyOutput_ensure fun _ => .bind brConsume_onlyOutput fun _ => onlyOutput_pure)

/-! ### The output -/

/-- Room is there, or it is made in a larger buffer (42_lz77_decompressor.md R191). -/
theorem outReserve_onlyOutput {n : Nat} : (outReserve n).OnlyOutput := by
  refine ⟨fun e _ => EngM.ends_bind (EngM.ends_getE (EngM.ends_ite (fun _ => EngM.ends_pure (.of_same rfl rfl rfl)) fun hfull => ?_))⟩
  refine EngM.ends_bind (EngM.ends_ensure (fun _ => ?_) fun _ => trivial)
  refine EngM.ends_bind (EngM.ends_ensure (fun hneed => ?_) fun _ => trivial)
  refine EngM.ends_bind (portRealloc_ends (fun r g ns hg _ _ _ => ?_) (fun _ => trivial) (fun _ _ _ => trivial)
    (fun _ _ => trivial) fun _ _ => trivial)
  refine EngM.ends_modE ⟨?_, .inl ?_⟩
  · show g.bs.mode = e.bs.mode
    rw [hg.same]
  · exact Nat.lt_of_not_le hfull |>.trans_le (growCap_ge 32 (of_decide_eq_true hneed))

theorem outStore_onlyOutput {b : Byte} : (outStore b).OnlyOutput :=
  ⟨fun _ _ => EngM.ends_bind (EngM.ends_getE (EngM.ends_bind (memWrite_ends
    (fun _ => EngM.ends_modE ⟨rfl, .inr ⟨1, rfl, fun _ hx => wrote_noteWrite hx⟩⟩) fun _ => trivial)))⟩

theorem copyBack_onlyOutput (dist n : Nat) : (copyBack dist n).OnlyOutput := by
  induction n with
  | zero => exact onlyOutput_pure
  | succ n ih => exact onlyOutput_look fun _ _ => .bind memByte_onlyOutput fun _ => .bind outStore_onlyOutput fun _ => ih

theorem infCopy_onlyOutput {length dist : Nat} : (infCopy length dist).OnlyOutput :=
  onlyOutput_look fun _ _ => .bind onlyOutput_ensure fun _ => .bind outReserve_onlyOutput fun _ => copyBack_onlyOutput dist length

theorem copyStored_onlyOutput (n : Nat) : (copyStored n).OnlyOutput := by
  induction n with
  | zero => exact onlyOutput_pure
  | succ n ih => exact .bind brByte_onlyOutput fun _ => .bind outStore_onlyOutput fun _ => ih

/-! ### Blocks -/

theorem infStored_onlyOutput : infStored.OnlyOutput :=
  .bind brAlign_onlyOutput fun _ => .bind brByte_onlyOutput fun _ => .bind brByte_onlyOutput fun _ =>
    .bind brByte_onlyOutput fun _ => .bind brByte_onlyOutput fun _ => .bind onlyOutput_ensure fun _ =>
      .bind outReserve_onlyOutput fun _ => copyStored_onlyOutput _

theorem readCodeLengths_onlyOutput (order cl : List Nat) : (readCodeLengths order cl).OnlyOutput := by
  induction order generalizing cl with
  | nil => exact onlyOutput_pure
  | cons i order ih => exact .bind brGet_onlyOutput fun _ => ih _

theorem readRepeat_onlyOutput (c : Nat) (acc : List Nat) : (readRepeat c acc).OnlyOutput := by
  refine onlyOutput_ite (.bind brGet_onlyOutput fun _ => ?_) (onlyOutput_ite (.bind brGet_onlyOutput fun _ => onlyOutput_pure)
    (.bind brGet_onlyOutput fun _ => onlyOutput_pure))
  cases acc with
  | nil => exact onlyOutput_stop
  | cons v acc => exact onlyOutput_pure

theorem readLengths_onlyOutput (ntot fuel : Nat) (acc : List Nat) : (readLengths ntot fuel acc).OnlyOutput := by
  induction fuel generalizing acc with
  | zero => exact onlyOutput_pure
  | succ fuel ih =>
    exact onlyOutput_ite (.bind hbDecode_onlyOutput fun _ => onlyOutput_ite (ih _) (.bind (readRepeat_onlyOutput _ _) fun _ =>
      .bind onlyOutput_ensure fun _ => ih _)) onlyOutput_pure

theorem infDynamic_onlyOutput : infDynamic.OnlyOutput :=
  .bind brGet_onlyOutput fun _ => .bind brGet_onlyOutput fun _ => .bind brGet_onlyOutput fun _ =>
    .bind (readCodeLengths_onlyOutput _ _) fun _ => .bind hbBuild_onlyOutput fun _ => .bind (readLengths_onlyOutput _ _ _) fun _ =>
      .bind hbBuild_onlyOutput fun _ => hbBuild_onlyOutput

theorem readMatch_onlyOutput (z : Nat) : (readMatch z).OnlyOutput :=
  .bind brGet_onlyOutput fun _ => .bind hbDecode_onlyOutput fun _ => .bind onlyOutput_ensure fun _ =>
    .bind brGet_onlyOutput fun _ => onlyOutput_pure

theorem infCodes_onlyOutput (fuel : Nat) : (infCodes fuel).OnlyOutput := by
  induction fuel with
  | zero => exact onlyOutput_stop
  | succ fuel ih =>
    refine .bind hbDecode_onlyOutput fun z => onlyOutput_ite ?_ (onlyOutput_ite onlyOutput_pure ?_)
    · exact .bind (.bind outReserve_onlyOutput fun _ => outStore_onlyOutput) fun _ => ih
    · exact .bind onlyOutput_ensure fun _ => .bind (readMatch_onlyOutput z) fun _ => .bind infCopy_onlyOutput fun _ => ih

theorem infSymbols_onlyOutput : infSymbols.OnlyOutput := onlyOutput_look fun _ _ => infCodes_onlyOutput _

theorem infBlock_onlyOutput : infBlock.OnlyOutput := by
  refine .bind brGet_onlyOutput fun final => .bind brGet_onlyOutput fun type => ?_
  refine onlyOutput_ite (.bind infStored_onlyOutput fun _ => onlyOutput_pure) (onlyOutput_ite ?_ (onlyOutput_ite ?_
    (.bind onlyOutput_stop fun _ => onlyOutput_pure)))
  · exact .bind (.bind hbBuild_onlyOutput fun _ => hbBuild_onlyOutput) fun _ => .bind infSymbols_onlyOutput fun _ => onlyOutput_pure
  · exact .bind infDynamic_onlyOutput fun _ => .bind infSymbols_onlyOutput fun _ => onlyOutput_pure

theorem infBlocks_onlyOutput (fuel : Nat) : (infBlocks fuel).OnlyOutput := by
  induction fuel with
  | zero => exact onlyOutput_stop
  | succ fuel ih => exact .bind infBlock_onlyOutput fun _ => onlyOutput_ite onlyOutput_pure ih

end Sys2Proof.Machine
end

section
/-! SUPPORT. The Adler-32 trailer, and a zlib stream of the encoder with another trailer (42_lz77_decompressor.md R211, R213). -/

namespace Sys2Proof.Machine

/-! ### The trailer -/

/-- Reads `n` bytes of the trailer. -/
def trailerBytes : Nat → EngM (List Byte)
  | 0 => pure []
  | n + 1 => do
    let b ← brByte 0x0205
    let bs ← trailerBytes n
    pure (byte b :: bs)

/-- Compares the trailer with the Adler-32 of the output. -/
def trailerCheck (trailer : List Byte) : EngM Unit := do
  let e ← getE
  let d ← memRead e.inf.out e.inf.len
  ensure (decide (be32 trailer 0 = (adler32 1 d).toNat)) 0x0308 (adler32 1 d).toNat

theorem adlerVerify_eq : adlerVerify = brAlign >>= fun _ => trailerBytes 4 >>= trailerCheck := by
  simp only [adlerVerify, trailerBytes, bind_assoc, pure_bind]
  rfl

section
variable {e : Eng} {bytes : List Byte}

theorem BytesAhead.trailerBytes_ok (n : Nat) (h : BytesAhead e bytes) (hn : n ≤ bytes.length) :
    ∃ f, trailerBytes n e = .ok (bytes.take n) f ∧ ReadsOn e f ∧ BytesAhead f (bytes.drop n) := by
  induction n generalizing e bytes with
  | zero => exact ⟨e, rfl, .refl e, h⟩
  | succ n ih =>
    obtain ⟨b, bytes, rfl⟩ := List.exists_cons_of_length_pos (by omega : 0 < bytes.length)
    obtain ⟨f, hf, rf, hb⟩ := h.brByte_cons 0x0205
    obtain ⟨g, hg, rg, hd⟩ := ih hb (by simpa using hn)
    refine ⟨g, ?_, rf.trans rg, hd⟩
    rw [trailerBytes, EngM.bind_ok hf, EngM.bind_ok hg, show byte b.toNat = b from BitVec.ofNat_toNat _ _]
    rfl

theorem BytesAhead.trailerBytes_short (n : Nat) (h : BytesAhead e bytes) (hn : bytes.length < n) :
    ∃ f, trailerBytes n e = .error (.raise 0x0205 0) f ∧ ReadsOn e f := by
  induction n generalizing e bytes with
  | zero => omega
  | succ n ih =>
    cases bytes with
    | nil =>
      obtain ⟨f, hf, rf⟩ := h.brByte_nil 0x0205
      exact ⟨f, by rw [trailerBytes, EngM.bind_error hf], rf⟩
    | cons b bytes =>
      obtain ⟨f, hf, rf, hb⟩ := h.brByte_cons 0x0205
      obtain ⟨g, hg, rg⟩ := ih hb (by simpa using hn)
      exact ⟨g, by rw [trailerBytes, EngM.bind_ok hf, EngM.bind_error hg], rf.trans rg⟩

end

theorem be32_take {bytes : List Byte} : be32 (bytes.take 4) 0 = be32 bytes 0 := by
  simp [be32, be16, byteAt, List.getD_eq_getElem?_getD]

/-- The trailer is cut short, or it is not the Adler-32 of `d`: the error of each (42_lz77_decompressor.md R213). -/
def TrailerFails (d trailer : List Byte) (code info : Nat) : Prop :=
  (trailer.length < 4 ∧ code = 0x0205 ∧ info = 0) ∨
    (4 ≤ trailer.length ∧ be32 trailer 0 ≠ (adler32 1 d).toNat ∧ code = 0x0308 ∧ info = (adler32 1 d).toNat)

theorem adlerVerify_fails {e : Eng} {d trailer : List Byte} {pad : List Bool} {code info : Nat} (hp : pad.length < 8)
    (room : d.length ≤ e.inf.cap) (h : Inflating e d (pad ++ bytesBits trailer)) (bad : TrailerFails d trailer code info) :
    ∃ f, adlerVerify e = .error (.raise code info) f ∧ ReadsOn e f := by
  obtain ⟨k, f, hf, rf, jf⟩ := h.brAlign hp
  have hb : BytesAhead f trailer := ⟨jf.inflating.reads, jf.inflating.ahead⟩
  rw [adlerVerify_eq, EngM.bind_ok hf]
  rcases bad with ⟨hlen, rfl, rfl⟩ | ⟨hlen, hne, rfl, rfl⟩
  · obtain ⟨g, hg, rg⟩ := hb.trailerBytes_short 4 hlen
    exact ⟨g, EngM.bind_error hg, rf.trans rg⟩
  · obtain ⟨g, hg, rg, hd⟩ := hb.trailerBytes_ok 4 hlen
    have hi := (hd.inflating jf.inflating rg).inflating
    have hcap : g.inf.cap = e.inf.cap := by rw [(rf.trans rg).same]
    have hlen' := hi.len
    have hrange := hi.range
    refine ⟨g, ?_, rf.trans rg⟩
    rw [EngM.bind_ok hg, trailerCheck, getE_bind, EngM.bind_ok (memRead_ok (by omega)), hlen', hi.data, be32_take,
      decide_eq_false hne, ensure_false]

/-! ### The stream -/

/-- The trailer of `compress` is the last four bytes. -/
theorem compress_take (d : List Byte) (q : Nat) :
    (compress d q).take ((compress d q).length - 4) = zlibHead ++ deflated d q := by
  rw [compress_eq, ← List.append_assoc]
  exact List.take_left' (by rw [List.length_append (bs := putBe32 _), putBe32_length, Nat.add_sub_cancel])

/-- After a run of the inflate engine that has put out `n` bytes, no byte is noted as written outside the output. -/
theorem Expands.wrote {e f : Eng} {h0 h1 : Huff} {n x : Nat} (h : Expands { e with ht0 := h0, ht1 := h1 } f n)
    (w : WritesOutput e f) (hx : f.Wrote x) : e.Wrote x ∨ (e.inf.out + e.inf.len ≤ x ∧ x < e.inf.out + e.inf.len + n) := by
  have hinf := h.inf
  rcases w.tail with hlt | ⟨m, hm, hw⟩
  · rw [hinf] at hlt
    exact absurd hlt (lt_irrefl _)
  · have hlen : e.inf.len + n = e.inf.len + m := congrArg InflateOut.len (hinf.symm.trans hm)
    obtain rfl := Nat.add_left_cancel hlen
    exact hw x hx

/-- A zlib stream of the encoder with another trailer fails at it, with the data in the output (42_lz77_decompressor.md R213). -/
theorem inflate_fails_trailer {e : Eng} {d trailer : List Byte} {q code info : Nat} (hm : e.bs.mode = .mem)
    (room : d.length ≤ e.inf.cap) (h : Inflating e [] (bytesBits (zlibHead ++ deflated d q ++ trailer)))
    (bad : TrailerFails d trailer code info) :
    ∃ h0 h1 f, inflate true true e = .error (.raise code info) f ∧ Expands { e with ht0 := h0, ht1 := h1 } f d.length ∧
      ∀ x, f.Wrote x → e.Wrote x ∨ (e.inf.out + e.inf.len ≤ x ∧ x < e.inf.out + e.inf.len + d.length) := by
  rw [List.append_assoc] at h
  obtain ⟨r, g, hg, rg, jg⟩ := zlibHeader_ok h.toBytes
  have hcap : g.inf.cap = e.inf.cap := by rw [rg.same]
  obtain ⟨h0, h1, f, pad, hf, ef, hp, jf⟩ := infBlocks_deflated (by rw [hcap]; exact room) jg.inflating
  have wf := ((infBlocks_onlyOutput _).ends g (by rw [rg.same]; exact hm)).ok hf
  obtain ⟨k, hk, rk⟩ := adlerVerify_fails hp (by rw [ef.inf]; exact hcap ▸ room) jf bad
  have same : Expands { e with ht0 := h0, ht1 := h1 } f d.length := by
    refine ⟨by rw [ef.same, rg.same], fun x hx => ?_⟩
    rw [ef.outside x (by rw [rg.same]; exact hx), rg.same]
  refine ⟨h0, h1, k, ?_, same.trans rk.expands, fun x hx => ?_⟩
  · rw [inflate, EngM.ite_run, if_pos rfl, EngM.bind_ok hg]
    exact (EngM.bind_ok hf).trans hk
  · have hinf : g.inf = e.inf := by rw [rg.same]
    have hw := ef.wrote wf (x := x) (by rw [Eng.Wrote, rk.same] at hx; exact hx)
    rw [Eng.Wrote, hinf, rg.same] at hw
    exact hw

end Sys2Proof.Machine
end

section
/-! SUPPORT. INF_STREAM over a MEM-mode source, and the obligation on it (42_lz77_decompressor.md R207; 46_deflate_encoder.md R355). -/

namespace Sys2Proof.Machine

/-! ### Before the stream (42_lz77_decompressor.md R207) -/

/-- What INF_STREAM does after `inflate`. -/
def streamEnd : EngM Results := do
  let e ← getE
  handOver e.inf.out
  pure ⟨e.inf.out, e.inf.len, e.inf.cap, 0⟩

section
variable {c : Snapshot} {e : Eng}

theorem openStreamOutput_fixed (hp : e.placed = []) (hrange : c.arg 0 + c.arg 1 ≤ Config.addrSpace)
    (hap : e.sourceMeets (c.arg 0) (c.arg 1) = false) :
    openStreamOutput false c e = .ok () { e with
      regions := ⟨c.arg 0, c.arg 1, false⟩ :: e.regions
      inf := { isOpen := true, out := c.arg 0, len := 0, cap := c.arg 1, realloc := false } } := by
  have hmeets : (!({ e with regions := ⟨c.arg 0, c.arg 1, false⟩ :: e.regions } : Eng).sourceMeets (c.arg 0) (c.arg 1)) = true :=
    congrArg not hap
  rw [openStreamOutput, if_neg Bool.false_ne_true, EngM.bind_ok (checkOut_ok hp hrange), getE_bind, ensure_bind hmeets]
  rfl

theorem openStreamOutput_new {v : Word} {ms : List PortMove} (hm : e.moves = .allocResp v :: ms)
    (hg : Grants e v (max (c.arg 1) 1)) :
    openStreamOutput true c e = .ok () { e.granted v (max (c.arg 1) 1) ms with
      inf := { isOpen := true, out := v.toNat, len := 0, cap := max (c.arg 1) 1, realloc := true } } := by
  rw [openStreamOutput, if_pos rfl, ensure_bind (decide_eq_true hg.size), EngM.bind_ok (portAlloc_granted hm hg)]
  rfl

/-- INF_STREAM over a MEM-mode source, after the check of the source. -/
theorem infStreamBody_eq (zlib realloc : Bool) (hmode : e.bs.mode = .mem) (hp : e.placed = []) :
    infStreamBody zlib realloc c e =
      (do
        openStreamOutput realloc c
        modBr fun _ => { valid := true, code := 0, nbits := 0, input := .source }
        inflate zlib c.verifyAdler
        streamEnd)
      { e with regions := e.sourceRegion :: e.regions } := by
  rw [infStreamBody, EngM.bind_ok (needSource_mem hmode), EngM.bind_ok (useSource_mem hmode hp)]
  rfl

end

/-- INF_STREAM comes to open its output at `out` with room for `cap`: the fixed destination, or a new buffer at `p`; `answers` come
after that. -/
def StreamOpens (s : State) (realloc : Bool) (p : Word) (out cap : Nat) (answers : List PortMove) : Prop :=
  (realloc = false ∧ s.Ready [] ∧ out = s.arg 0 ∧ cap = s.arg 1) ∨
    (realloc = true ∧ s.Ready (.allocResp p :: answers) ∧ p ≠ 0 ∧ out = p.toNat ∧ cap = max (s.arg 1) 1 ∧ cap ≤ 0x7fffffff)

/-- The engine on which INF_STREAM runs `inflate`: as at the acceptance, but for the output, the BitReader and the new buffer. -/
structure StreamEntry (s : State) (realloc : Bool) (out cap : Nat) (answers : List PortMove) (e : Eng) : Prop where
  same : e = { s.start with
    inf := { isOpen := true, out := out, len := 0, cap := cap, realloc := realloc }
    br := { valid := true, code := 0, nbits := 0, input := .source }
    regions := e.regions, live := e.live, moves := e.moves, allocReq := e.allocReq, allocSize := e.allocSize
    allocPtr := e.allocPtr, journal := e.journal }
  live : e.live = if realloc then [⟨out, cap⟩] else []
  moves : e.moves = if realloc then answers else []
  allocReq : e.allocReq = 0
  port : realloc = false → SameAllocPort s.start e

section
variable {s : State} {zlib realloc : Bool} {p : Word} {out cap : Nat} {answers : List PortMove}

/-- The answers that a run of INF_STREAM with `answers` after its output is open begins with. -/
abbrev streamMoves (realloc : Bool) (p : Word) (answers : List PortMove) : List PortMove :=
  if realloc then .allocResp p :: answers else []

theorem StreamOpens.ready (h : StreamOpens s realloc p out cap answers) : s.Ready (streamMoves realloc p answers) := by
  rcases h with ⟨rfl, ready, -⟩ | ⟨rfl, ready, -⟩ <;> exact ready

/-- Buffers' addresses and sizes fit their registers. -/
theorem StreamOpens.lt (h : StreamOpens s realloc p out cap answers) : out < 2 ^ 32 ∧ cap < 2 ^ 32 := by
  rcases h with ⟨-, -, rfl, rfl⟩ | ⟨-, -, -, rfl, -, hcap⟩
  · exact ⟨BitVec.isLt _, BitVec.isLt _⟩
  · exact ⟨p.isLt, by omega⟩

theorem StreamOpens.runs (h : StreamOpens s realloc p out cap answers) (hmode : s.start.bs.mode = .mem)
    (hrange : out + cap ≤ 0x100000000) (hap : overlap out cap s.start.bs.base s.start.bs.len = false) (zlib : Bool) :
    ∃ e, infStreamBody zlib realloc s.running.snap (s.entry (streamMoves realloc p answers)) =
        (inflate zlib s.running.snap.verifyAdler >>= fun _ => streamEnd) e ∧
      StreamEntry s realloc out cap answers e := by
  have ready := h.ready
  rw [infStreamBody_eq (e := s.entry (streamMoves realloc p answers)) zlib realloc hmode ready.placed, ready.regions]
  rcases h with ⟨rfl, -, rfl, rfl⟩ | ⟨rfl, -, hp, rfl, rfl, hcap⟩
  · have hmeets : (s.declared [] [s.start.sourceRegion]).sourceMeets (s.arg 0) (s.arg 1) = false := by
      rw [Eng.sourceMeets, show (s.declared [] [s.start.sourceRegion]).bs.mode = .mem from hmode]
      exact hap
    have hopen := openStreamOutput_fixed (e := s.declared [] [s.start.sourceRegion]) ready.placed hrange hmeets
    refine ⟨_, EngM.bind_ok hopen, rfl, ready.live, rfl, ready.allocReq, fun _ => ⟨rfl, rfl⟩⟩
  · have hg : Grants (s.declared (.allocResp p :: answers) [s.start.sourceRegion]) p (max (s.arg 1) 1) := by
      refine ⟨⟨hp, hcap, hrange, fun r hr => ?_⟩, fun b hb => ?_⟩
      · rw [List.mem_singleton.1 hr, overlap_comm]
        exact hap
      · rw [show (s.declared (.allocResp p :: answers) [s.start.sourceRegion]).live = [] from ready.live] at hb
        cases hb
    have hopen := openStreamOutput_new (ms := answers) rfl hg
    exact ⟨_, EngM.bind_ok hopen, rfl, congrArg (· ++ [_]) ready.live, rfl, rfl, nofun⟩

variable {e f : Eng} {d bytes : List Byte} {h0 h1 : Huff}

/-- `inflate` starts with the bytes that the source has ahead. -/
theorem StreamEntry.inflating (h : StreamEntry s realloc out cap answers e) (hmode : s.start.bs.mode = .mem)
    (hok : SourceOk s.start.bs) (hrange : out + cap ≤ 0x100000000)
    (hap : overlap out cap s.start.bs.base s.start.bs.len = false)
    (hahead : s.start.mem.read (s.start.bs.base + s.start.bs.pos) (s.start.bs.len - s.start.bs.pos) = bytes) :
    Inflating e [] (bytesBits bytes) := by
  rw [h.same]
  refine ⟨⟨rfl, .start nofun, hok, fun _ => hmode⟩, ?_, hrange, rfl, rfl, ?_⟩
  · simp only [Eng.inputMeets, Eng.sourceMeets, hmode]
    exact hap
  · rw [← hahead]
    rfl

/-- What a run of `inflate` that has put out `d` leaves in the engine. -/
structure StreamRan (s : State) (realloc : Bool) (out cap n : Nat) (answers : List PortMove) (f : Eng) : Prop where
  inf : f.inf = { isOpen := true, out := out, len := n, cap := cap, realloc := realloc }
  live : f.live = if realloc then [⟨out, cap⟩] else []
  moves : f.moves = if realloc then answers else []
  allocReq : f.allocReq = 0
  srcReq : f.srcReq = s.start.srcReq
  outside : SameMemOutside s.start f out n
  bs : f.bs = { s.start.bs with pos := f.bs.pos }
  srcPort : SameSrcPort s.start f
  port : realloc = false → SameAllocPort s.start f

theorem StreamEntry.ran {n : Nat} (h : StreamEntry s realloc out cap answers e)
    (he : Expands { e with ht0 := h0, ht1 := h1 } f n) : StreamRan s realloc out cap n answers f := by
  have hinf : e.inf = { isOpen := true, out := out, len := 0, cap := cap, realloc := realloc } := by rw [h.same]
  refine ⟨?_, ?_, ?_, ?_, ?_, fun x hx => ?_, ?_, ?_, fun hr => ?_⟩
  · rw [he.inf]
    simp only [hinf, Nat.zero_add]
  · rw [he.same]; exact h.live
  · rw [he.same]; exact h.moves
  · rw [he.same]; exact h.allocReq
  · rw [he.same, h.same]
  · rw [he.outside x (by simp only [hinf]; omega)]
    show e.mem.get x = s.start.mem.get x
    rw [h.same]
  · rw [he.same, h.same]
  · rw [he.same, h.same]; rfl
  · rw [he.same]; exact h.port hr

end

/-! ### How INF_STREAM ends -/

section
variable {s : State} {zlib realloc : Bool} {p : Word} {out cap n : Nat} {answers : List PortMove} {e f : Eng}

theorem StreamRan.streamEnd_ok (h : StreamRan s realloc out cap n answers f) :
    streamEnd f = .ok ⟨out, n, cap, 0⟩ { f with live := [], regions := outputAt out f.live ++ f.regions } := by
  have hdrop : dropBuf out f.live = [] := by
    rw [h.live]
    cases realloc <;> simp [dropBuf]
  rw [streamEnd, getE_bind, EngM.bind_ok (handOver_run _ _), h.inf, hdrop]
  rfl

/-- INF_STREAM whose stream is inflated completes. -/
theorem infStream_completes (h : StreamOpens s realloc p out cap [])
    (hbody : infStreamBody zlib realloc s.running.snap (s.entry (streamMoves realloc p [])) =
      (inflate zlib s.running.snap.verifyAdler >>= fun _ => streamEnd) e)
    (hrun : inflate zlib s.running.snap.verifyAdler e = .ok () f) (ran : StreamRan s realloc out cap n [] f) (hn : n ≤ cap) :
    ∃ t, exec (.infStream zlib realloc) s = .next t ∧
      Completed s t (BitVec.ofNat 32 out) (BitVec.ofNat 32 n) (BitVec.ofNat 32 cap) 0 ∧ t.eng.mem = f.mem ∧ UnitsInvalid t.eng ∧
      t.eng.bs = { s.start.bs with pos := t.eng.bs.pos } ∧ SameSrcPort s.start t.eng ∧
      (realloc = false → SameAllocPort s.start t.eng) := by
  have ready := h.ready
  obtain ⟨hout, hcap⟩ := h.lt
  have hmoves : f.moves = [] := by
    rw [ran.moves]
    cases realloc <;> rfl
  obtain ⟨hx, hc⟩ := ready.completes_top (i := .infStream zlib realloc) rfl
    (hbody.trans ((EngM.bind_ok hrun).trans ran.streamEnd_ok)) ⟨rfl, ran.srcReq.trans ready.srcReq, ran.allocReq⟩ hmoves hout
    (Nat.lt_of_le_of_lt hn hcap) hcap (Nat.two_pow_pos 32)
  exact ⟨_, hx, hc, rfl, unitsInvalid_complete_top _ _ _, ran.bs, ran.srcPort, ran.port⟩

/-- With nothing to free the failure sequence changes nothing (60_exceptions.md R414 step 1). -/
theorem unwinding_empty {e : Eng} (hl : e.live = []) (hm : e.moves = []) : unwinding e = .ok () e := by
  rw [unwinding, EngM.bind_ok (freeLive_empty hl), settleMoves_empty hm]

/-- INF_STREAM whose stream fails, with `n` bytes in the output, frees a new buffer and fails. -/
theorem infStream_fails {v : Word} {code info : Nat} (h : StreamOpens s realloc p out cap [.allocResp v])
    (hbody : infStreamBody zlib realloc s.running.snap (s.entry (streamMoves realloc p [.allocResp v])) =
      (inflate zlib s.running.snap.verifyAdler >>= fun _ => streamEnd) e)
    (hrun : inflate zlib s.running.snap.verifyAdler e = .error (.raise code info) f)
    (ran : StreamRan s realloc out cap n [.allocResp v] f) (hwrote : ∀ x, f.Wrote x → out ≤ x ∧ x < out + n)
    (hinfo : info < 2 ^ 32) :
    ∃ t, exec (.infStream zlib realloc) s = .next t ∧ Failed s t (BitVec.ofNat 32 code) (BitVec.ofNat 32 info) ∧
      SameMemOutside s.start t.eng out n ∧ UnitsInvalid t.eng ∧ t.eng.bs = { s.start.bs with pos := t.eng.bs.pos } ∧
      SameSrcPort s.start t.eng ∧ (realloc = false → SameAllocPort s.start t.eng) := by
  have ready := h.ready
  obtain ⟨g, hu, gl, gm, ga, gs⟩ := unwinding_ok (e := f) (vs := if realloc then [v] else [])
    (by rw [ran.live]; cases realloc <;> rfl) (by rw [ran.moves]; cases realloc <;> rfl) ran.allocReq
  have hsrc : g.srcReq = 0 := by rw [gs]; exact ran.srcReq.trans ready.srcReq
  obtain ⟨hx, hf⟩ := ready.fails_top (i := .infStream zlib realloc) rfl (hbody.trans (EngM.bind_error hrun)) hu ⟨gl, hsrc, ga⟩ hinfo
  refine ⟨_, hx, hf, fun x hout => ?_, unitsInvalid_fail_top _ _ _ _, ?_, ?_, fun hr => ?_⟩
  · have hmem : (s.fail .top code info g).eng.mem.get x = g.mem.get x := by
      refine Memory.get_scrambleAll _ _ _ _ _ fun w hw hxw => ?_
      have hw : w ∈ f.written := by
        have := (List.mem_filter.1 hw).1
        rwa [gs] at this
      have := hwrote x ⟨w, hw, hxw⟩
      omega
    rw [hmem, gs]
    exact ran.outside x hout
  · show g.bs = { s.start.bs with pos := g.bs.pos }
    rw [gs]; exact ran.bs
  · show g.srcReqLen = s.start.srcReqLen
    rw [gs]; exact ran.srcPort
  · have hgf : g = f := by
      subst hr
      have := (unwinding_empty ran.live ran.moves).symm.trans hu
      injection this with _ h
      exact h.symm
    rw [State.fail_top_eng, hgf]
    exact ran.port hr

end

/-- Settles O42: the inflate engine inverts the encoder's blocks, and only the trailer can fail the stream; what has been written lies
in the output. -/
theorem infStreamInvertsCompress : Obligations.InfStreamInvertsCompress := by
  unfold Obligations.InfStreamInvertsCompress
  intro s d q rest zlib realloc p out cap hmode hok hroom hrange hap opens ahead
  refine ⟨fun h hahead => ?_, fun trailer v code info h hz hva hahead bad => ?_⟩
  · have h : StreamOpens s realloc p out cap [] := h
    obtain ⟨e, hbody, entry⟩ := h.runs hmode hrange hap zlib
    obtain ⟨h0, h1, f, bits, hf, ef, jf⟩ := inflate_compress (va := s.running.snap.verifyAdler) (d := d) (q := q) (tail := rest)
      (by rw [entry.same]; exact hroom) (entry.inflating hmode hok hrange hap hahead)
    have ran := entry.ran ef
    obtain ⟨t, hx, hc, hmem, hu, hbs, hsrc, hport⟩ := infStream_completes h hbody hf ran hroom
    refine ⟨t, hx, hc, ?_, fun x hx => ?_, hu, hbs, hsrc, hport⟩
    · have := jf.data
      rwa [ran.inf, ← hmem] at this
    · rw [hmem]
      exact ran.outside x hx
  · have h : StreamOpens s realloc p out cap [.allocResp v] := h
    subst hz
    rw [compress_take] at hahead
    obtain ⟨e, hbody, entry⟩ := h.runs hmode hrange hap true
    have hinfo : info < 2 ^ 32 := by
      rcases bad with ⟨-, -, rfl⟩ | ⟨-, -, -, rfl⟩
      · exact Nat.two_pow_pos 32
      · exact BitVec.isLt _
    obtain ⟨h0, h1, f, hf, ef, hwrote⟩ := inflate_fails_trailer (by rw [entry.same]; exact hmode) (by rw [entry.same]; exact hroom)
      (entry.inflating hmode hok hrange hap hahead) bad
    refine infStream_fails h hbody (by rw [hva]; exact hf) (entry.ran ef) (fun x hx => ?_) hinfo
    have hinf : e.inf.out = out ∧ e.inf.len = 0 := by rw [entry.same]; exact ⟨rfl, rfl⟩
    rcases hwrote x hx with ⟨w, hw, -⟩ | hx
    · rw [entry.same] at hw
      exact absurd (h.ready.written ▸ hw) List.not_mem_nil
    · omega

end Sys2Proof.Machine
end
